-- ==== Sys2Proof/Word.lean ====
section
/-! DEFINITION. The plain types of the OP410: bytes and words of the link, slot and local numbers, the four ports.
A slot is 0–1023 (R1), a local number 0–255 (R21). -/
namespace Sys2Proof

/-- One byte of the link (R144). -/
abbrev Byte := BitVec 8

/-- A 16-bit quantity: a sequence (R8), a CRC (R149). -/
abbrev Word16 := BitVec 16

/-- A 32-bit quantity: a point value, a mask, a reference (R1, R84). -/
abbrev Word32 := BitVec 32

/-- A slot of the table, 0–1023 (R1). -/
abbrev Slot := Fin 1024

/-- A local number, 0–255 (R21). -/
abbrev Local := Fin 256

/-- A count of lease ticks, 0–4095 (R1). -/
abbrev Ticks := Fin 4096

/-- The four target ports; port A is the supervisor port. -/
inductive Port where
  | a | b | c | d
  deriving DecidableEq, Repr, Inhabited

/-- The ports in letter order, the order of R124 and of the arbiter (R14). -/
abbrev Port.all : List Port := [.a, .b, .c, .d]

/-- One thing for each of the four ports. -/
structure PerPort (α : Type) where
  a : α
  b : α
  c : α
  d : α
  deriving DecidableEq, Repr, Inhabited

/-- The thing held for port `p`. -/
def PerPort.get {α : Type} (x : PerPort α) (p : Port) : α :=
  match p with
  | .a => x.a
  | .b => x.b
  | .c => x.c
  | .d => x.d

/-- `x` with the thing held for port `p` replaced by `v`; the other three stay. -/
def PerPort.set {α : Type} (x : PerPort α) (p : Port) (v : α) : PerPort α :=
  match p with
  | .a => { x with a := v }
  | .b => { x with b := v }
  | .c => { x with c := v }
  | .d => { x with d := v }

/-- The same thing for all four ports. -/
def PerPort.replicate {α : Type} (v : α) : PerPort α := ⟨v, v, v, v⟩

end Sys2Proof
end

