-- ==== Sys2Proof/Syntax.lean ====
section
/-! DEFINITION. The commands of the OP410, one constructor per row of spec/opcode_table.json. A command is an act of a
board on its port, of a part-wide line, or of one of the part's own engines; `Sys2Proof.Machine.exec` gives its effect.
The operands: a request command carries its port and what arrives of its request transaction (the tag and the raw body
bytes, so that bodies of a wrong length and fields out of range are commands too, R150, R151). -/
namespace Sys2Proof

/-- What arrives of a request transaction (R145, R146, R147). `frame` is the rise of select on a good frame with this tag
and body; the type byte before it may have been commanded on its own by `typeByte`, which leaves the link RECEIVING. -/
inductive Transfer where
  /-- The first byte 0xA5 completes; select stays low. -/
  | typeByte
  /-- Select rises on a good frame. -/
  | frame (tag : Byte) (body : List Byte)
  deriving DecidableEq, Repr

/-- A part of a transaction that its end need not come with (R144): so many rising clock edges, and whether select rises after
them. -/
structure Stretch where
  edges : Nat
  ends : Bool
  deriving DecidableEq, Repr

/-- A stretch of a transaction of neither type (R144), with the first byte of the transaction. -/
structure OtherStretch where
  first : Byte
  stretch : Stretch
  deriving DecidableEq, Repr

/-- How far a grant's work is carried by a command (R103, R112: a Drain may be taken between any two arrivals of one
grant). `arrivals n` has the work done and the first `n` of the arrivals still to be made taken by the queues, and leaves
the grant in progress; `toEnd` has all of them taken and the work completed. -/
inductive Progress where
  | toEnd
  | arrivals (n : Nat)
  deriving DecidableEq, Repr

/-- When the sweep engine chooses its next job after step F (R119): before the next grant's work, or after it (log entries 6, 25). -/
inductive JobChoice where
  | atOnce
  | afterNextGrant
  deriving DecidableEq, Repr

/-- The commands of the OP410 (the rows of spec/opcode_table.json). -/
inductive Instr where
  /-- READ (R50). -/
  | read (p : Port) (t : Transfer)
  /-- GROUP_READ (R53). -/
  | groupRead (p : Port) (t : Transfer)
  /-- WRITE (R55). -/
  | write (p : Port) (t : Transfer)
  /-- CONDITIONAL_WRITE (R60). -/
  | conditionalWrite (p : Port) (t : Transfer)
  /-- REFRESH (R64). -/
  | refresh (p : Port) (t : Transfer)
  /-- SUBSCRIBE (R93). -/
  | subscribe (p : Port) (t : Transfer)
  /-- UNSUBSCRIBE (R98). -/
  | unsubscribe (p : Port) (t : Transfer)
  /-- DRAIN (R110). -/
  | drain (p : Port) (t : Transfer)
  /-- GET_STATUS (R141). -/
  | getStatus (p : Port) (t : Transfer)
  /-- ACKNOWLEDGE (R136). -/
  | acknowledge (p : Port) (t : Transfer)
  /-- CREATE_VALUE (R18). -/
  | createValue (p : Port) (t : Transfer)
  /-- CREATE_ALIAS (R19). -/
  | createAlias (p : Port) (t : Transfer)
  /-- RETIRE (R118). -/
  | retire (p : Port) (t : Transfer)
  /-- MAP (R26). -/
  | map (p : Port) (t : Transfer)
  /-- UNMAP (R28). -/
  | unmap (p : Port) (t : Transfer)
  /-- READ_VIEW (R32). -/
  | readView (p : Port) (t : Transfer)
  /-- READ_SLOT (R20). -/
  | readSlot (p : Port) (t : Transfer)
  /-- DETACH (R120). -/
  | detach (p : Port) (t : Transfer)
  /-- SET_TICK (R78). -/
  | setTick (p : Port) (t : Transfer)
  /-- HOLD_LEASES (R79). -/
  | holdLeases (p : Port) (t : Transfer)
  /-- RESUME_LEASES (R80). -/
  | resumeLeases (p : Port) (t : Transfer)
  /-- POOL_REPORT (R142). -/
  | poolReport (p : Port) (t : Transfer)
  /-- PORT_ENGINE_GRANT (R15): the work of the port engine's grant in progress. -/
  | portEngineGrant (g : Progress)
  /-- TICK (R69): the divider completes its tick period. -/
  | tick
  /-- LEASE_ACCESS (R71): the lease engine's access visits the records up to the first that expires, or all. -/
  | leaseAccess
  /-- LEASE_EXPIRY (R72): the record the access has reached expires, and the access goes on. -/
  | leaseExpiry (g : Progress)
  /-- STEP_V (R126): the current step V-x. -/
  | stepV (g : Progress)
  /-- STEP_S (R127). -/
  | stepS (g : Progress)
  /-- STEP_F (R128). -/
  | stepF (c : JobChoice)
  /-- STEP_D1 (R129). -/
  | stepD1
  /-- STEP_D2 (R130). -/
  | stepD2
  /-- PRST_FALL (R154). -/
  | prstFall (p : Port)
  /-- PRST_RISE (R154). -/
  | prstRise (p : Port)
  /-- RSTN_FALL (R158). -/
  | rstnFall
  /-- RSTN_RELEASE (R159). -/
  | rstnRelease
  /-- INITIALISATION_END (R160). -/
  | initialisationEnd
  /-- FRAME_ERROR (R147): select rises after these whole bytes behind the type byte, and `extra` clock edges more. -/
  | frameError (p : Port) (bytes : List Byte) (extra : Fin 8)
  /-- UNKNOWN_TRANSACTION (R144): a transaction of neither type begins, or goes on. -/
  | unknownTransaction (p : Port) (t : OtherStretch)
  /-- OVERRUN (R148): a good frame with this code arrives while the port is WORKING. -/
  | overrun (p : Port) (code : Byte) (t : Transfer)
  /-- RESPONSE_TRANSACTION (R152): a response transaction begins, or goes on; the edges of its type byte are counted too. -/
  | responseTransaction (p : Port) (t : Stretch)
  /-- UNKNOWN_CODE_FRAME (R150): a good frame whose code is none of R156. -/
  | unknownCodeFrame (p : Port) (code : Byte) (t : Transfer)
  /-- REFCLK_STOP (R159). -/
  | refclkStop
  /-- REFCLK_RESUME (R159). -/
  | refclkResume
  deriving DecidableEq, Repr

end Sys2Proof
end

