-- ==== Sys2Proof/Decode.lean ====
section
/-! DEFINITION. The table of commands gives bits for no row (spec/opcode_table.json; 00_scope.md, the reader's counts: no
row with fixed bits and none with fields), so no word spells a command. The frames of the link have their own encoding:
Machine/Crc.lean, Machine/Codes.lean and Machine/Operands.lean. -/
namespace Sys2Proof

/-- The command that a word spells by the table's bits: none, since no row gives bits. -/
def decodeTableWord (_nbits _w : Nat) : Option Instr := none

end Sys2Proof
end

