-- ==== Sys2Proof/Machine/Table.lean ====
section
/-! DEFINITION. The contents of the table memory (spec chapters 1, 2 and 6): the records and their fields, the free list,
the four views, the subscription pool. Types only, with the contents at power-on. -/
namespace Sys2Proof.Machine

/-- The quality of a VALUE record (R1, R9). -/
inductive Quality where
  | good | stale
  deriving DecidableEq, Repr, Inhabited

/-- The fields of a VALUE record (R1). Its subscription list is `Table.subsOn`, from the pool. -/
structure ValueFields where
  value : Word32
  sequence : Word16
  quality : Quality
  /-- The lease interval; 0 is no lease. -/
  interval : Ticks
  remaining : Ticks
  deriving DecidableEq, Repr, Inhabited

/-- The fields of an ALIAS record (R1). -/
structure AliasFields where
  target : Slot
  targetGeneration : Byte
  writeThrough : Bool
  deriving DecidableEq, Repr, Inhabited

/-- The kind of a LIVE or RETIRING record, with the fields of the kind (R1). -/
inductive Content where
  | value (v : ValueFields)
  | aliasOf (f : AliasFields)
  deriving DecidableEq, Repr, Inhabited

/-- The state of a slot (R1, R3); a FREE record holds no kind and no field of a kind. -/
inductive SlotBody where
  | free
  | live (c : Content)
  | retiring (c : Content)
  deriving DecidableEq, Repr, Inhabited

/-- A record: its generation, which belongs to the slot in every state (R7), and the rest. -/
structure Record where
  generation : Byte
  body : SlotBody
  deriving DecidableEq, Repr, Inhabited

/-- The rights of a view entry (R21, R24). -/
inductive Rights where
  | read | readWrite
  deriving DecidableEq, Repr, Inhabited

/-- A present view entry (R21). -/
structure ViewEntry where
  slot : Slot
  rights : Rights
  deriving DecidableEq, Repr, Inhabited

/-- One port's view: 256 entries, each absent or present (R21). -/
abbrev View := Vector (Option ViewEntry) 256

/-- The outcome of a comparison with a mask and a reference (R88): MATCH or MISMATCH. -/
inductive WatchState where
  | matched | mismatched
  deriving DecidableEq, Repr, Inhabited

/-- The mode of a subscription (R89). -/
inductive Mode where
  | trip | both | writes
  deriving DecidableEq, Repr, Inhabited

/-- A subscription in use (R84). -/
structure Subscription where
  port : Port
  loc : Local
  via : Slot
  target : Slot
  mask : Word32
  reference : Word32
  mode : Mode
  /-- The quality option: on is true. -/
  wantsQuality : Bool
  watch : WatchState
  deriving DecidableEq, Repr, Inhabited

/-- The table memory. `pool` holds the subscriptions in use in the order in which they joined the subscription list they
stand on (R10, R87): a record's list is the part of the pool whose target it is, in that order. The counts of R83 are
computed from it. -/
structure Table where
  records : Vector Record 1024
  freeList : List Slot
  views : PerPort View
  pool : List Subscription
  deriving DecidableEq, Repr, Inhabited

/-- The power-on contents that the initialiser establishes (R2, R11, R22, R83; R159). -/
def Table.cleared : Table where
  records := Vector.replicate 1024 ⟨0#8, .free⟩
  freeList := List.finRange 1024
  views := .replicate (Vector.replicate 256 none)
  pool := []

end Sys2Proof.Machine
end

