-- ==== Sys2Proof/Config.lean ====
section
/-! DEFINITION. What an OP410 fixes: its capacities, and the values the manual leaves undefined. -/
namespace Sys2Proof.Config

/-- The subscription pool's records (R83). -/
def poolSize : Nat := 192

/-- The most subscriptions one port holds (R83). -/
def perPortLimit : Nat := 64

/-- A notification queue's entries (R101). -/
def queueSize : Nat := 32

/-- A merged count's ceiling (R101, R104). -/
def mergedLimit : Nat := 255

/-- The retire FIFO's jobs (R116). -/
def fifoSize : Nat := 4

/-- The most alias records one resolution passes (R42). -/
def hopLimit : Nat := 8

/-- The pending tick count's ceiling (R69). -/
def pendingLimit : Nat := 15

/-- FREE VALUE. The contents of the table memory while RSTn is low, for the n-th fall of RSTn: the manual gives them no
defined value (R158; log entry 8). Nothing is known of it, and no request reads it. -/
opaque tableUnderReset : Nat → Machine.Table

end Sys2Proof.Config
end

