-- ==== Sys2Proof/Machine/Codes.lean ====
section
/-! DEFINITION. The request codes and the result codes of the link (R156). -/
namespace Sys2Proof.Machine

/-- The requests of R156. -/
inductive Code where
  | read | groupRead | write | conditionalWrite | refresh | subscribe | unsubscribe | drain | getStatus | acknowledge
  | createValue | createAlias | retire | map | unmap | readView | readSlot | detach | setTick | holdLeases
  | resumeLeases | poolReport
  deriving DecidableEq, Repr, Inhabited

/-- The request code of a request (R156). -/
def Code.toByte : Code → Byte
  | .read => 0x10#8
  | .groupRead => 0x11#8
  | .write => 0x18#8
  | .conditionalWrite => 0x19#8
  | .refresh => 0x1A#8
  | .subscribe => 0x20#8
  | .unsubscribe => 0x21#8
  | .drain => 0x28#8
  | .getStatus => 0x30#8
  | .acknowledge => 0x31#8
  | .createValue => 0x40#8
  | .createAlias => 0x41#8
  | .retire => 0x42#8
  | .map => 0x48#8
  | .unmap => 0x49#8
  | .readView => 0x4A#8
  | .readSlot => 0x4B#8
  | .detach => 0x50#8
  | .setTick => 0x58#8
  | .holdLeases => 0x59#8
  | .resumeLeases => 0x5A#8
  | .poolReport => 0x5C#8

/-- Every request of R156. -/
def Code.all : List Code :=
  [.read, .groupRead, .write, .conditionalWrite, .refresh, .subscribe, .unsubscribe, .drain, .getStatus, .acknowledge,
   .createValue, .createAlias, .retire, .map, .unmap, .readView, .readSlot, .detach, .setTick, .holdLeases,
   .resumeLeases, .poolReport]

/-- The request a code byte names; none for an unknown code. -/
def Code.ofByte? (b : Byte) : Option Code := Code.all.find? (fun c => c.toByte = b)

/-- A supervisor request: code 0x40 or above (R150, check 4). -/
def Code.supervisor (c : Code) : Bool := 0x40 ≤ c.toByte.toNat

/-- The results of R156. -/
inductive Result where
  | done | noEntry | noRight | retired | dangling | chainTooLong | seqMismatch | noSubSpace | tableFull | busy | notLive
  | inUse | notSupervisor | badRequest | detaching | notReady | notSubscribed
  deriving DecidableEq, Repr, Inhabited

/-- The result code of a result (R156). -/
def Result.toByte : Result → Byte
  | .done => 0x00#8
  | .noEntry => 0x01#8
  | .noRight => 0x02#8
  | .retired => 0x03#8
  | .dangling => 0x04#8
  | .chainTooLong => 0x05#8
  | .seqMismatch => 0x06#8
  | .noSubSpace => 0x07#8
  | .tableFull => 0x08#8
  | .busy => 0x09#8
  | .notLive => 0x0A#8
  | .inUse => 0x0B#8
  | .notSupervisor => 0x0C#8
  | .badRequest => 0x0D#8
  | .detaching => 0x0E#8
  | .notReady => 0x0F#8
  | .notSubscribed => 0x10#8

end Sys2Proof.Machine
end

