-- ==== Sys2Proof/Machine/State.lean ====
section
/-! DEFINITION. The state of the OP410 as plain data, its value right after reset, and the reasons a step could stop. -/
namespace Sys2Proof.Machine

/-- An input line's level: PRST, RSTn. -/
inductive Line where
  | low | high
  deriving DecidableEq, Repr, Inhabited

/-- The tick period (R68). -/
inductive TickPeriod where
  | ms1 | ms10 | ms100
  deriving DecidableEq, Repr, Inhabited

/-- The lease engine's hold state (R68). -/
inductive HoldState where
  | running | held
  deriving DecidableEq, Repr, Inhabited

/-- The state of a port with respect to detachment (R116). -/
inductive Attachment where
  | attached | detaching
  deriving DecidableEq, Repr, Inhabited

/-- A request whose frame passed the checks, with its fields (R157). -/
inductive Request where
  | read (l : Local)
  | groupRead (ls : List Local)
  | write (l : Local) (v : Word32)
  | conditionalWrite (l : Local) (expected : Word16) (v : Word32)
  | refresh (l : Local)
  | subscribe (l : Local) (mask reference : Word32) (mode : Mode) (wantsQuality : Bool)
  | unsubscribe (l : Local)
  | drain (maximum : Nat)
  | getStatus
  | acknowledge (mask : Byte)
  | createValue (v : Word32) (interval : Ticks)
  | createAlias (target : Slot) (writeThrough : Bool)
  | retire (slot : Slot)
  | map (port : Port) (l : Local) (slot : Slot) (rights : Rights)
  | unmap (port : Port) (l : Local)
  | readView (port : Port) (l : Local)
  | readSlot (slot : Slot)
  | detach (port : Port)
  | setTick (period : TickPeriod)
  | holdLeases
  | resumeLeases
  | poolReport
  deriving DecidableEq, Repr, Inhabited

/-- What the refusal record and the response take from the frame: its code, its tag, and the local number that R139 gives
the refusal (none where R139 has it absent). -/
structure Head where
  code : Byte
  tag : Byte
  loc : Option Local
  deriving DecidableEq, Repr, Inhabited

/-- A request in work at a port (link state WORKING, R145): a dispatched table request. -/
structure Work where
  head : Head
  request : Request
  deriving DecidableEq, Repr, Inhabited

/-- The six sticky conditions of a port (R134); true is set. -/
structure Conditions where
  lost : Bool
  discarded : Bool
  overrun : Bool
  linkError : Bool
  refusalHeld : Bool
  detached : Bool
  deriving DecidableEq, Repr, Inhabited

/-- The names of the conditions (R134). -/
inductive Condition where
  | lost | discarded | overrun | linkError | refusalHeld | detached
  deriving DecidableEq, Repr, Inhabited

/-- No condition set. -/
def Conditions.none : Conditions := ⟨false, false, false, false, false, false⟩

/-- The refusal record (R139). -/
structure RefusalRecord where
  code : Byte
  tag : Byte
  result : Result
  loc : Option Local
  via : Option Slot
  stop : Option Slot
  hops : Nat
  deriving DecidableEq, Repr, Inhabited

/-- The response held for a board (R145, R153). -/
structure Response where
  tag : Byte
  result : Result
  conditions : Byte
  body : List Byte
  crc : Word16
  deriving DecidableEq, Repr, Inhabited

/-- What a notification says (R101, R104): its class, with the state, value and sequence where the class has them. -/
inductive Note where
  | watch (state : WatchState) (value : Word32) (sequence : Word16)
  | change (state : WatchState) (value : Word32) (sequence : Word16)
  | quality (state : Quality) (value : Word32) (sequence : Word16)
  | retired
  deriving DecidableEq, Repr, Inhabited

/-- The class of a notification (R101). -/
inductive NoteClass where
  | watch | change | quality | retired
  deriving DecidableEq, Repr, Inhabited

/-- An entry of a notification queue (R101); `merged` is the merged count, 1–255. -/
structure Entry where
  loc : Local
  note : Note
  merged : Nat
  deriving DecidableEq, Repr, Inhabited

/-- The set of classes a removal by local names (R107): all four, or those of a retirement step. -/
inductive RemovalSet where
  | all | allButRetired
  deriving DecidableEq, Repr, Inhabited

/-- An arrival at a port's queue that granted work makes (R103). -/
inductive Arrival where
  | post (port : Port) (loc : Local) (note : Note)
  | removal (port : Port) (loc : Local) (classes : RemovalSet)
  deriving DecidableEq, Repr, Inhabited

/-- The select line of a port, and while it is low what the link makes of the clock edges (R144). -/
inductive SelectState where
  /-- Select is high. -/
  | high
  /-- Select is low and no transaction is under way: it was low at the rise of PRST or at the release of RSTn, or PRST or RSTn
  is low. Clock edges are ignored until select has risen and fallen again. -/
  | low
  /-- A transaction has begun, and `edges` rising edges, fewer than eight, have come: its type is not known yet. -/
  | opening (edges : Nat)
  /-- A request transaction is under way: its first byte 0xA5 is complete (R146). -/
  | request
  /-- A response transaction is under way, `edges` rising edges into it. `delivers` is the response that was held when its
  first byte completed (R152). -/
  | response (edges : Nat) (delivers : Option Response)
  /-- A transaction of another type is under way: ignored to its end. -/
  | unknown
  deriving DecidableEq, Repr, Inhabited

/-- What stands at one port: its pins, its link (R145), its queue (R101) and its condition block (R134). -/
structure PortState where
  /-- The PRST pin (R154). -/
  prst : Line
  /-- The SEL pin and the transaction under way (R144). -/
  select : SelectState
  /-- The request in work (R145). -/
  work : Option Work
  /-- The held-response slot (R145). -/
  held : Option Response
  /-- The bits shifted out on SDO in the latest transaction (R144, R152; log entry 10). -/
  dataOut : List Bool
  queue : List Entry
  conditions : Conditions
  record : Option RefusalRecord
  deriving DecidableEq, Repr, Inhabited

/-- The link states of R145. RECEIVING remembers whether it was entered from IDLE or from HELD. -/
inductive LinkState where
  | idle
  | receivingFromIdle
  | receivingFromHeld
  | working
  | held
  deriving DecidableEq, Repr

/-- The six requesters of the table (R13, R14). -/
inductive Requester where
  | port (p : Port)
  | lease
  | sweep
  deriving DecidableEq, Repr, Inhabited

/-- One item of a Group Read answer (R53): the local's result and, if DONE, the four fields. -/
inductive GroupItem where
  | done (value : Word32) (quality : Quality) (sequence : Word16) (hops : Nat)
  | refused (result : Result)
  deriving DecidableEq, Repr, Inhabited

/-- The steps of a retirement job (R116). -/
inductive RetireStep where
  | v (p : Port)
  | s
  | f
  deriving DecidableEq, Repr, Inhabited

/-- The steps of a detachment job (R116). -/
inductive DetachStep where
  | d1 | d2
  deriving DecidableEq, Repr, Inhabited

/-- A job of the sweep engine at its current step (R116). -/
inductive Job where
  | retirement (slot : Slot) (step : RetireStep)
  | detachment (port : Port) (step : DetachStep)
  deriving DecidableEq, Repr, Inhabited

/-- The values of one Pool Report (R142). -/
structure PoolReport where
  freeSlots : Nat
  retiring : Nat
  poolFree : Nat
  inUse : PerPort Nat
  fifoDepth : Nat
  flags : PerPort Bool
  job : Option Job
  hold : HoldState
  period : TickPeriod
  deriving DecidableEq, Repr, Inhabited

/-- The body of a response by its named fields (R157). Every refusal but SEQ_MISMATCH has an empty body. The number of
queue entries that an Unmap or an Unsubscribe removed is counted at the queue and joins the body when the response is
built. -/
inductive Answer where
  | empty
  | mismatch (sequence : Word16) (value : Word32)
  | read (value : Word32) (sequence : Word16) (quality : Quality) (hops : Nat)
  | groupRead (items : List GroupItem)
  | written (sequence : Word16)
  | refreshed (sequence : Word16) (interval : Ticks) (restored : Bool)
  | subscribed (replaced : Bool) (watch : WatchState) (value : Word32) (quality : Quality) (sequence : Word16)
  | unsubscribed
  | drained (entries : List Entry) (left : Nat)
  | status (conditions : Conditions) (depth : Nat) (attachment : Attachment) (record : Option RefusalRecord)
  | acknowledged (before : Conditions)
  | created (slot : Slot) (generation : Byte)
  | retired (position : Nat)
  | mapped (generation : Byte)
  | unmapped (slot : Slot) (hadSubscription : Bool)
  | viewEntry (entry : ViewEntry) (record : Record)
  | slotReport (record : Record) (subscriptions : Nat)
  | detached (before : Attachment)
  | tickSet (before : TickPeriod)
  | leasesHeld (before : HoldState) (discarded : Nat)
  | leasesResumed (before : HoldState)
  | poolReport (report : PoolReport)
  deriving DecidableEq, Repr, Inhabited

/-- How a request ended: its result, the body fields, and the via slot, stop slot and hop count handed to the port engine
for the refusal record (R44, R139). -/
structure Verdict where
  result : Result
  answer : Answer
  via : Option Slot
  stop : Option Slot
  hops : Nat
  deriving DecidableEq, Repr, Inhabited

/-- Where a lease access stands (R71, R72): at its start, at a record whose lease remaining has become 0, or at that
record with its expiry made and posts still to arrive. -/
inductive AccessStage where
  | start
  | expiring (slot : Slot)
  | posting (slot : Slot)
  deriving DecidableEq, Repr, Inhabited

/-- Who holds the grant in progress, and how far its work is (R14, R15). -/
inductive Holder where
  /-- A port engine's request. `discarded`: the port's PRST fell after the grant began (R154). `verdict`: absent until the
  table work is done. -/
  | port (p : Port) (work : Work) (discarded : Bool) (verdict : Option Verdict)
  /-- A lease access that took `ticks` pending ticks (R71). -/
  | lease (ticks : Nat) (stage : AccessStage)
  /-- The current step of the sweep engine's job; `worked` once its table work is done. -/
  | sweep (worked : Bool)
  deriving DecidableEq, Repr, Inhabited

/-- The grant in progress (R14). `arrivals` are those the work has made and the queues have not yet taken, in order (R15,
R103); `removed` counts the entries the taken removals removed (R107). -/
structure Grant where
  holder : Holder
  arrivals : List Arrival
  removed : Nat
  deriving DecidableEq, Repr, Inhabited

/-- The table arbiter (R13, R14). The lease engine's and the sweep engine's claims stand with their engines. -/
structure Arbiter where
  pointer : Requester
  claims : PerPort Bool
  grant : Option Grant
  deriving DecidableEq, Repr, Inhabited

/-- The lease engine (R68). `divider` counts the REFCLK periods of the current tick period; its count while RSTn is low, which
R68 does not give, is 0 (log entry 23). `pending` is 0–15. -/
structure Lease where
  period : TickPeriod
  divider : Nat
  hold : HoldState
  pending : Nat
  claim : Bool
  deriving DecidableEq, Repr, Inhabited

/-- The sweep engine (R116). `choiceDue`: a job has ended by step F and the next is to be chosen when the grant that
follows ends (R119; log entries 6, 25). -/
structure Sweep where
  fifo : List Slot
  flags : PerPort Bool
  attachment : PerPort Attachment
  job : Option Job
  claim : Bool
  choiceDue : Bool
  deriving DecidableEq, Repr, Inhabited

/-- The state of the OP410. `freeDraws` and `pending` are the model's own: how many free values were drawn, and the
commands waiting, first in, first out. -/
structure State where
  rstn : Line
  refclk : Bool
  initialising : Bool
  ports : PerPort PortState
  table : Table
  arbiter : Arbiter
  lease : Lease
  sweep : Sweep
  freeDraws : Nat
  pending : List Instr
  deriving DecidableEq, Repr, Inhabited

/-- The reasons the machine could stop with a fault. There is none: the manual describes no event that stops the part
(refusals are responses, R138; errors set conditions, R135). -/
inductive Fault where
  deriving DecidableEq, Repr

/-- The reasons a command has no meaning. -/
inductive Refusal where
  /-- Raised by an arm of `exec` whose command is not modelled yet; no arm raises it. Safe: nothing is claimed of it. -/
  | notModelled (mnemonic : String)
  deriving DecidableEq, Repr

/-- A port at power-on (R101, R134, R145); its PRST and select lines are high and nothing has been shifted out (log entries 9, 10). -/
def PortState.powerOn : PortState where
  prst := .high
  select := .high
  work := none
  held := none
  dataOut := []
  queue := []
  conditions := .none
  record := none

/-- The arbiter at power-on (R14, R16). -/
def Arbiter.powerOn : Arbiter := ⟨.sweep, .replicate false, none⟩

/-- The lease engine at power-on (R68). The divider's 0 is a choice (log entry 23). -/
def Lease.powerOn : Lease := ⟨.ms10, 0, .running, 0, false⟩

/-- The sweep engine at power-on (R116). -/
def Sweep.powerOn : Sweep := ⟨[], .replicate false, .replicate .attached, none, false, false⟩

/-- The machine right after reset: RSTn is low and every block holds its power-on value (R158). The table memory, which
has no defined value while RSTn is low, stands at its power-on contents (log entry 7). -/
def State.reset : State where
  rstn := .low
  refclk := true
  initialising := false
  ports := .replicate .powerOn
  table := .cleared
  arbiter := .powerOn
  lease := .powerOn
  sweep := .powerOn
  freeDraws := 0
  pending := []

end Sys2Proof.Machine
end

