-- ==== Sys2Proof/Machine/Access.lean ====
section
/-! DEFINITION. Reading and replacing the parts of the state: one port's state, a record, a view entry, the subscription
lists. Every other file reaches them through these. -/
namespace Sys2Proof.Machine

/-! ### Ports -/

/-- What stands at port `p`. -/
def State.port (s : State) (p : Port) : PortState := s.ports.get p

/-- `s` with port `p`'s state replaced. -/
def State.setPort (s : State) (p : Port) (x : PortState) : State := { s with ports := s.ports.set p x }

/-- A request transaction is under way (R145). -/
def PortState.receiving (x : PortState) : Bool := x.select = .request

/-- The rising edges so far of a transaction whose first byte is not complete: 0 while select is high and a transaction may
begin; none where no first byte can complete (R144). -/
def PortState.opened (x : PortState) : Option Nat :=
  match x.select with
  | .high => some 0
  | .opening n => some n
  | .low | .request | .response _ _ | .unknown => none

/-- A frame can end on the port: its request transaction is under way, or can still prove to be one. -/
def PortState.framing (x : PortState) : Bool := x.opened.isSome || x.select = .request

/-- The select line after the transaction under way, if any, is abandoned (R154, R158): a low line stays low, and the rest of
the transaction will be ignored (R144). -/
def SelectState.abandoned (x : SelectState) : SelectState := if x = .high then .high else .low

/-- The link state of R145, from what the port holds. -/
def PortState.linkState (x : PortState) : LinkState :=
  match x.work, x.receiving, x.held with
  | some _, _, _ => .working
  | none, true, none => .receivingFromIdle
  | none, true, some _ => .receivingFromHeld
  | none, false, none => .idle
  | none, false, some _ => .held

/-- The RDY line: high while the held-response slot is full (R145). -/
def State.rdy (s : State) (p : Port) : Bool := (s.port p).held.isSome

/-- The port's link takes transactions: RSTn and its PRST are high (R144, R154, R158). -/
def State.linkOn (s : State) (p : Port) : Bool := s.rstn = .high && (s.port p).prst = .high

/-- The link heeds the port's clock edges: it takes transactions, and select has been high since it does (R144). -/
def State.hears (s : State) (p : Port) : Bool := s.linkOn p && (s.port p).select ≠ .low

/-! ### Records and the free list -/

/-- The record of a slot. -/
def Table.record (t : Table) (i : Slot) : Record := t.records.get i

/-- `t` with the record of a slot replaced. -/
def Table.setRecord (t : Table) (i : Slot) (r : Record) : Table := { t with records := t.records.set i.val r i.isLt }

/-- The slot is LIVE (R1). -/
def Record.isLive (r : Record) : Bool :=
  match r.body with
  | .live _ => true
  | .free | .retiring _ => false

/-- The slot is RETIRING (R1). -/
def Record.isRetiring (r : Record) : Bool :=
  match r.body with
  | .retiring _ => true
  | .free | .live _ => false

/-- The number of RETIRING slots (R142). -/
def Table.retiringCount (t : Table) : Nat := t.records.toList.countP Record.isRetiring

/-! ### Views -/

/-- Port `p`'s view entry for local `l` (R21). -/
def Table.entry (t : Table) (p : Port) (l : Local) : Option ViewEntry := (t.views.get p).get l

/-- `t` with port `p`'s view entry for local `l` replaced. -/
def Table.setEntry (t : Table) (p : Port) (l : Local) (e : Option ViewEntry) : Table :=
  { t with views := t.views.set p ((t.views.get p).set l.val e l.isLt) }

/-! ### Subscriptions -/

/-- The subscription's key is port `p` and local `l` (R85). -/
def Subscription.keyed (p : Port) (l : Local) (u : Subscription) : Bool := u.port = p && u.loc = l

/-- Port `p`'s subscription on local `l` (R85). -/
def Table.subscription? (t : Table) (p : Port) (l : Local) : Option Subscription := t.pool.find? (·.keyed p l)

/-- The subscription list of a record, oldest first (R10). -/
def Table.subsOn (t : Table) (i : Slot) : List Subscription := t.pool.filter (·.target = i)

/-- The number of subscriptions in use by port `p` (R83). -/
def Table.portCount (t : Table) (p : Port) : Nat := t.pool.countP (·.port = p)

/-- The number of free subscription records (R83). -/
def Table.poolFree (t : Table) : Nat := Config.poolSize - t.pool.length

/-- `t` with the subscriptions that `drop` names returned to the pool; the rest of each list keeps its order (R10, R83). -/
def Table.returnSubs (t : Table) (drop : Subscription → Bool) : Table := { t with pool := t.pool.filter (fun u => !drop u) }

end Sys2Proof.Machine
end

