-- ==== Sys2Proof/Machine/Crc.lean ====
section
/-! DEFINITION. The link's bytes: multi-byte fields (R156), the CRC (R149), the request frame and its judgement (R147). -/
namespace Sys2Proof.Machine

/-- A 16-bit field on the link, most significant byte first (R156). -/
def bytes2 (w : Word16) : List Byte := [w.extractLsb' 8 8, w.extractLsb' 0 8]

/-- A 32-bit field on the link, most significant byte first (R156). -/
def bytes4 (w : Word32) : List Byte :=
  [w.extractLsb' 24 8, w.extractLsb' 16 8, w.extractLsb' 8 8, w.extractLsb' 0 8]

/-- The 16-bit field whose bytes are `hi`, `lo` in the order sent. -/
def word2 (hi lo : Byte) : Word16 := hi ++ lo

/-- The 32-bit field whose bytes are `b3 b2 b1 b0` in the order sent. -/
def word4 (b3 b2 b1 b0 : Byte) : Word32 := b3 ++ b2 ++ b1 ++ b0

/-- The bits of a byte in the order they are shifted, most significant first (R144). -/
def byteBits (b : Byte) : List Bool :=
  [b.getLsbD 7, b.getLsbD 6, b.getLsbD 5, b.getLsbD 4, b.getLsbD 3, b.getLsbD 2, b.getLsbD 1, b.getLsbD 0]

/-- One shift of the CRC register (R149): left by one, combined with 0x1021 if the bit shifted out was 1. -/
def crcShift (r : Word16) : Word16 :=
  if r.msb then (r <<< 1) ^^^ 0x1021#16 else r <<< 1

/-- The CRC register after one more byte: the byte into the high eight bits, then eight shifts (R149). -/
def crcByte (r : Word16) (b : Byte) : Word16 :=
  crcShift (crcShift (crcShift (crcShift (crcShift (crcShift (crcShift (crcShift (r ^^^ (b ++ 0#8)))))))))

/-- The CRC of a run of bytes, from the initial value 0xFFFF (R149). -/
def crc (bs : List Byte) : Word16 := bs.foldl crcByte 0xFFFF#16

/-- The largest body a request frame carries: N lies in 4 to 124 and the body has N − 4 bytes (R147). -/
def maxBody : Nat := 120

/-- The bytes of a request frame after its type byte: the length byte N, the tag, the code, the body and the CRC (R147,
R156). -/
def frameBytes (code tag : Byte) (body : List Byte) : List Byte :=
  let covered := BitVec.ofNat 8 (body.length + 4) :: tag :: code :: body
  covered ++ bytes2 (crc covered)

/-- The judgement of a request transaction at the rise of select (R147). -/
inductive Judgement where
  | frameError
  | good (code tag : Byte) (body : List Byte)
  deriving DecidableEq, Repr

/-- R147's table, for the whole bytes received after the type byte and the clock edges received beyond them. -/
def judge (bytes : List Byte) (extra : Fin 8) : Judgement :=
  match bytes with
  | n :: tag :: code :: rest =>
    if 4 ≤ n.toNat ∧ n.toNat ≤ 124 ∧ rest.length + 2 = n.toNat ∧ extra = 0 then
      let body := rest.take (n.toNat - 4)
      if rest.drop (n.toNat - 4) = bytes2 (crc (n :: tag :: code :: body)) then .good code tag body else .frameError
    else .frameError
  | _ => .frameError

end Sys2Proof.Machine
end

