-- ==== Sys2Proof/Machine/Operands.lean ====
section
/-! DEFINITION. The bodies of the link (R156, R157): the length a code requires, the fields of a request and their ranges
(checks 3 and 5 of R150, R151), and the bytes of every response body. -/
namespace Sys2Proof.Machine

/-! ### Fields of a request body -/

/-- A port code, 0 to 3 for A to D (R156). -/
def portOfByte? (b : Byte) : Option Port :=
  match b.toNat with
  | 0 => some .a
  | 1 => some .b
  | 2 => some .c
  | 3 => some .d
  | _ => none

/-- A port's code (R156). -/
def portByte : Port → Byte
  | .a => 0#8
  | .b => 1#8
  | .c => 2#8
  | .d => 3#8

/-- A slot field of a request: 1024 to 65535 is out of range (R151). -/
def slotOfWord? (w : Word16) : Option Slot :=
  if h : w.toNat < 1024 then some ⟨w.toNat, h⟩ else none

/-- A lease interval: 4096 to 65535 is out of range (R151). -/
def ticksOfWord? (w : Word16) : Option Ticks :=
  if h : w.toNat < 4096 then some ⟨w.toNat, h⟩ else none

/-- A local number on the link (R156): every byte is valid. -/
def localOfByte (b : Byte) : Local := b.toFin

/-- A yes/no or on/off field (R156): 0x00 or 0x01. -/
def flagOfByte? (b : Byte) : Option Bool :=
  match b.toNat with
  | 0 => some false
  | 1 => some true
  | _ => none

/-- The rights field (R156). -/
def rightsOfByte? (b : Byte) : Option Rights :=
  match b.toNat with
  | 0 => some .read
  | 1 => some .readWrite
  | _ => none

/-- The mode field (R156). -/
def modeOfByte? (b : Byte) : Option Mode :=
  match b.toNat with
  | 0 => some .trip
  | 1 => some .both
  | 2 => some .writes
  | _ => none

/-- The period code of Set Tick (R77). -/
def periodOfByte? (b : Byte) : Option TickPeriod :=
  match b.toNat with
  | 0 => some .ms1
  | 1 => some .ms10
  | 2 => some .ms100
  | _ => none

/-! ### Checks 3 and 5 -/

/-- Check 3's body length for a code (R150, R157). A Group Read's is one more than its count byte, and an empty Group Read
body has no count. -/
def lengthOk (c : Code) (body : List Byte) : Bool :=
  match c with
  | .groupRead =>
    match body with
    | [] => false
    | n :: ls => ls.length = n.toNat
  | .read | .refresh | .unsubscribe | .drain | .acknowledge | .detach | .setTick => body.length = 1
  | .write => body.length = 5
  | .conditionalWrite => body.length = 7
  | .subscribe => body.length = 11
  | .getStatus | .holdLeases | .resumeLeases | .poolReport => body.length = 0
  | .createValue => body.length = 6
  | .createAlias => body.length = 3
  | .retire | .readSlot | .unmap | .readView => body.length = 2
  | .map => body.length = 5

/-- The request a body spells under a code, none where a field is out of range (check 5, R151) or the length is wrong. -/
def parse (c : Code) (body : List Byte) : Option Request :=
  match c with
  | .read => match body with
    | [l] => some (.read (localOfByte l))
    | _ => none
  | .groupRead => match body with
    | n :: ls => if 1 ≤ n.toNat ∧ n.toNat ≤ 8 ∧ ls.length = n.toNat then some (.groupRead (ls.map localOfByte)) else none
    | _ => none
  | .write => match body with
    | [l, v3, v2, v1, v0] => some (.write (localOfByte l) (word4 v3 v2 v1 v0))
    | _ => none
  | .conditionalWrite => match body with
    | [l, e1, e0, v3, v2, v1, v0] => some (.conditionalWrite (localOfByte l) (word2 e1 e0) (word4 v3 v2 v1 v0))
    | _ => none
  | .refresh => match body with
    | [l] => some (.refresh (localOfByte l))
    | _ => none
  | .subscribe => match body with
    | [l, m3, m2, m1, m0, r3, r2, r1, r0, mode, q] =>
      match modeOfByte? mode, flagOfByte? q with
      | some md, some on => some (.subscribe (localOfByte l) (word4 m3 m2 m1 m0) (word4 r3 r2 r1 r0) md on)
      | _, _ => none
    | _ => none
  | .unsubscribe => match body with
    | [l] => some (.unsubscribe (localOfByte l))
    | _ => none
  | .drain => match body with
    | [m] => if 1 ≤ m.toNat ∧ m.toNat ≤ 8 then some (.drain m.toNat) else none
    | _ => none
  | .getStatus => match body with
    | [] => some .getStatus
    | _ => none
  | .acknowledge => match body with
    | [m] => if m &&& 0xC0#8 = 0#8 then some (.acknowledge m) else none
    | _ => none
  | .createValue => match body with
    | [v3, v2, v1, v0, i1, i0] => (ticksOfWord? (word2 i1 i0)).map (.createValue (word4 v3 v2 v1 v0))
    | _ => none
  | .createAlias => match body with
    | [s1, s0, w] =>
      match slotOfWord? (word2 s1 s0), flagOfByte? w with
      | some slot, some through => some (.createAlias slot through)
      | _, _ => none
    | _ => none
  | .retire => match body with
    | [s1, s0] => (slotOfWord? (word2 s1 s0)).map .retire
    | _ => none
  | .map => match body with
    | [p, l, s1, s0, r] =>
      match portOfByte? p, slotOfWord? (word2 s1 s0), rightsOfByte? r with
      | some port, some slot, some rights => some (.map port (localOfByte l) slot rights)
      | _, _, _ => none
    | _ => none
  | .unmap => match body with
    | [p, l] => (portOfByte? p).map (fun port => .unmap port (localOfByte l))
    | _ => none
  | .readView => match body with
    | [p, l] => (portOfByte? p).map (fun port => .readView port (localOfByte l))
    | _ => none
  | .readSlot => match body with
    | [s1, s0] => (slotOfWord? (word2 s1 s0)).map .readSlot
    | _ => none
  | .detach => match body with
    | [p] => (portOfByte? p).map .detach
    | _ => none
  | .setTick => match body with
    | [c] => (periodOfByte? c).map .setTick
    | _ => none
  | .holdLeases => match body with
    | [] => some .holdLeases
    | _ => none
  | .resumeLeases => match body with
    | [] => some .resumeLeases
    | _ => none
  | .poolReport => match body with
    | [] => some .poolReport
    | _ => none

/-- The local number that the refusal record takes from a body of the right length (R139): that of Read, Write,
Conditional Write, Refresh, Subscribe and Unsubscribe, and that of Map, Unmap and Read View; absent for the others. -/
def refusalLocal (c : Code) (body : List Byte) : Option Local :=
  match c with
  | .read | .write | .conditionalWrite | .refresh | .subscribe | .unsubscribe => body[0]?.map localOfByte
  | .map | .unmap | .readView => body[1]?.map localOfByte
  | .groupRead | .drain | .getStatus | .acknowledge | .createValue | .createAlias | .retire | .readSlot | .detach
  | .setTick | .holdLeases | .resumeLeases | .poolReport => none

/-! ### The body a board sends (the inverse of `parse`) -/

/-- The byte of a local number. -/
def localByte (l : Local) : Byte := BitVec.ofFin l

/-- The two bytes of a slot (R156). -/
def slotBytes (s : Slot) : List Byte := bytes2 (BitVec.ofNat 16 s.val)

/-- The two bytes of a lease interval or remaining count (R156). -/
def ticksBytes (t : Ticks) : List Byte := bytes2 (BitVec.ofNat 16 t.val)

/-- The byte of a yes/no or on/off field (R156). -/
def flagByte (b : Bool) : Byte := if b then 1#8 else 0#8

/-- The byte of the rights field (R156). -/
def rightsByte : Rights → Byte
  | .read => 0#8
  | .readWrite => 1#8

/-- The byte of the mode field (R156). -/
def modeByte : Mode → Byte
  | .trip => 0#8
  | .both => 1#8
  | .writes => 2#8

/-- The period code of a tick period (R77). -/
def periodByte : TickPeriod → Byte
  | .ms1 => 0#8
  | .ms10 => 1#8
  | .ms100 => 2#8

/-- The code of a request. -/
def Request.code : Request → Code
  | .read _ => .read
  | .groupRead _ => .groupRead
  | .write _ _ => .write
  | .conditionalWrite _ _ _ => .conditionalWrite
  | .refresh _ => .refresh
  | .subscribe _ _ _ _ _ => .subscribe
  | .unsubscribe _ => .unsubscribe
  | .drain _ => .drain
  | .getStatus => .getStatus
  | .acknowledge _ => .acknowledge
  | .createValue _ _ => .createValue
  | .createAlias _ _ => .createAlias
  | .retire _ => .retire
  | .map _ _ _ _ => .map
  | .unmap _ _ => .unmap
  | .readView _ _ => .readView
  | .readSlot _ => .readSlot
  | .detach _ => .detach
  | .setTick _ => .setTick
  | .holdLeases => .holdLeases
  | .resumeLeases => .resumeLeases
  | .poolReport => .poolReport

/-- The request body of R157, field by field in the order sent. -/
def Request.body : Request → List Byte
  | .read l => [localByte l]
  | .groupRead ls => BitVec.ofNat 8 ls.length :: ls.map localByte
  | .write l v => localByte l :: bytes4 v
  | .conditionalWrite l e v => localByte l :: (bytes2 e ++ bytes4 v)
  | .refresh l => [localByte l]
  | .subscribe l m r mode q => localByte l :: (bytes4 m ++ bytes4 r ++ [modeByte mode, flagByte q])
  | .unsubscribe l => [localByte l]
  | .drain m => [BitVec.ofNat 8 m]
  | .getStatus => []
  | .acknowledge m => [m]
  | .createValue v i => bytes4 v ++ ticksBytes i
  | .createAlias t w => slotBytes t ++ [flagByte w]
  | .retire s => slotBytes s
  | .map p l s r => portByte p :: localByte l :: (slotBytes s ++ [rightsByte r])
  | .unmap p l => [portByte p, localByte l]
  | .readView p l => [portByte p, localByte l]
  | .readSlot s => slotBytes s
  | .detach p => [portByte p]
  | .setTick t => [periodByte t]
  | .holdLeases => []
  | .resumeLeases => []
  | .poolReport => []

/-- The fields of a request are in the ranges of R151. -/
def Request.inRange : Request → Bool
  | .groupRead ls => 1 ≤ ls.length && ls.length ≤ 8
  | .drain m => 1 ≤ m && m ≤ 8
  | .acknowledge m => m &&& 0xC0#8 = 0#8
  | .read _ | .write _ _ | .conditionalWrite _ _ _ | .refresh _ | .subscribe _ _ _ _ _ | .unsubscribe _ | .getStatus
  | .createValue _ _ | .createAlias _ _ | .retire _ | .map _ _ _ _ | .unmap _ _ | .readView _ _ | .readSlot _ | .detach _
  | .setTick _ | .holdLeases | .resumeLeases | .poolReport => true

/-! ### Encodings of response fields (R156, R157) -/

/-- A count or an indication of one byte. -/
def natByte (n : Nat) : Byte := BitVec.ofNat 8 n

/-- Quality (R156). -/
def qualityByte : Quality → Byte
  | .good => 0#8
  | .stale => 1#8

/-- Watch state (R156). -/
def watchByte : WatchState → Byte
  | .matched => 0#8
  | .mismatched => 1#8

/-- Slot state (R156). -/
def slotStateByte : SlotBody → Byte
  | .free => 0#8
  | .live _ => 1#8
  | .retiring _ => 2#8

/-- Attachment state (R156). -/
def attachmentByte : Attachment → Byte
  | .attached => 0#8
  | .detaching => 1#8

/-- Hold state (R156). -/
def holdByte : HoldState → Byte
  | .running => 0#8
  | .held => 1#8

/-- A slot that may be absent: 0xFFFF when it is (R156). -/
def slotBytes? : Option Slot → List Byte
  | some s => slotBytes s
  | none => [0xFF#8, 0xFF#8]

/-- The local number in the refusal record: two bytes, 0xFFFF when absent (R156). -/
def localBytes? : Option Local → List Byte
  | some l => [0#8, localByte l]
  | none => [0xFF#8, 0xFF#8]

/-- The six conditions in their positions of the conditions byte (R156); the two highest bits are 0. -/
def conditionBits (c : Conditions) : Byte :=
  (if c.lost then 0x01#8 else 0#8) ||| (if c.discarded then 0x02#8 else 0#8) ||| (if c.overrun then 0x04#8 else 0#8) |||
  (if c.linkError then 0x08#8 else 0#8) ||| (if c.refusalHeld then 0x10#8 else 0#8) |||
  (if c.detached then 0x20#8 else 0#8)

/-- A Group Read item, 8 bytes (R157). -/
def GroupItem.bytes : GroupItem → List Byte
  | .done v q s h =>
    Result.toByte .done :: (bytes4 v ++ bytes2 s ++ [(if q = .stale then 0x80#8 else 0#8) ||| natByte (h % 16)])
  | .refused r => [r.toByte, 0#8, 0#8, 0#8, 0#8, 0#8, 0#8, 0xFF#8]

/-- The class byte of a notification (R157). -/
def noteClassByte : Note → Byte
  | .watch _ _ _ => 0#8
  | .change _ _ _ => 1#8
  | .quality _ _ _ => 2#8
  | .retired => 3#8

/-- The state byte of a notification: 0xFF for RETIRED (R157). -/
def noteStateByte : Note → Byte
  | .watch s _ _ => watchByte s
  | .change s _ _ => watchByte s
  | .quality q _ _ => qualityByte q
  | .retired => 0xFF#8

/-- The value and the sequence of a notification: 0 for RETIRED (R157). -/
def notePayload : Note → List Byte
  | .watch _ v s => bytes4 v ++ bytes2 s
  | .change _ v s => bytes4 v ++ bytes2 s
  | .quality _ v s => bytes4 v ++ bytes2 s
  | .retired => [0#8, 0#8, 0#8, 0#8, 0#8, 0#8]

/-- A notification entry, 10 bytes (R157). -/
def Entry.bytes (e : Entry) : List Byte :=
  [localByte e.loc, noteClassByte e.note, noteStateByte e.note, natByte e.merged] ++ notePayload e.note

/-- The record-present byte and the refusal record, 11 bytes: ten of 0xFF when no record is held (R157). -/
def recordBytes : Option RefusalRecord → List Byte
  | some r =>
    [1#8, r.code, r.tag, r.result.toByte] ++ localBytes? r.loc ++ slotBytes? r.via ++ slotBytes? r.stop ++ [natByte r.hops]
  | none => 0#8 :: List.replicate 10 0xFF#8

/-- The fields of a kind in a Read Slot report, from the kind byte on, with the subscription count (R20, R157). A FREE slot
reports every one absent; its target generation and write-through bytes are those of a VALUE record (log entry 13). -/
def contentBytes (subscriptions : Nat) : Option Content → List Byte
  | none =>
    [0xFF#8] ++ bytes4 0 ++ bytes2 0 ++ [0xFF#8] ++ bytes2 0 ++ bytes2 0 ++ [0#8] ++ slotBytes? none ++ [0#8, 0xFF#8]
  | some (.value v) =>
    [0#8] ++ bytes4 v.value ++ bytes2 v.sequence ++ [qualityByte v.quality] ++ ticksBytes v.interval ++
    ticksBytes v.remaining ++ [natByte subscriptions] ++ slotBytes? none ++ [0#8, 0xFF#8]
  | some (.aliasOf f) =>
    [1#8] ++ bytes4 0 ++ bytes2 0 ++ [0xFF#8] ++ bytes2 0 ++ bytes2 0 ++ [0#8] ++ slotBytes f.target ++
    [f.targetGeneration, flagByte f.writeThrough]

/-- The kind and fields that a slot holds (R1). -/
def SlotBody.content? : SlotBody → Option Content
  | .free => none
  | .live c => some c
  | .retiring c => some c

/-- The detach-pending flags byte (R157). -/
def flagsByte (f : PerPort Bool) : Byte :=
  (if f.a then 1#8 else 0#8) ||| (if f.b then 2#8 else 0#8) ||| (if f.c then 4#8 else 0#8) ||| (if f.d then 8#8 else 0#8)

/-- The step byte of a retirement (R157). -/
def retireStepByte : RetireStep → Byte
  | .v .a => 0#8
  | .v .b => 1#8
  | .v .c => 2#8
  | .v .d => 3#8
  | .s => 4#8
  | .f => 5#8

/-- The step byte of a detachment (R157). -/
def detachStepByte : DetachStep → Byte
  | .d1 => 6#8
  | .d2 => 7#8

/-- Job, job subject and step (R157). -/
def jobBytes : Option Job → List Byte
  | none => [0#8, 0xFF#8, 0xFF#8, 0xFF#8]
  | some (.retirement s st) => [1#8] ++ slotBytes s ++ [retireStepByte st]
  | some (.detachment p st) => [2#8, 0#8, portByte p, detachStepByte st]

/-- The body of a Pool Report (R157). -/
def PoolReport.bytes (r : PoolReport) : List Byte :=
  bytes2 (BitVec.ofNat 16 r.freeSlots) ++
  [natByte r.retiring, natByte r.poolFree, natByte r.inUse.a, natByte r.inUse.b, natByte r.inUse.c, natByte r.inUse.d,
   natByte r.fifoDepth, flagsByte r.flags] ++ jobBytes r.job ++ [holdByte r.hold, periodByte r.period]

/-- The body of a response (R157); `removed` is the number of queue entries its work removed. -/
def Answer.bytes (removed : Nat) : Answer → List Byte
  | .empty => []
  | .mismatch s v => bytes2 s ++ bytes4 v
  | .read v s q h => bytes4 v ++ bytes2 s ++ [qualityByte q, natByte h]
  | .groupRead items => natByte items.length :: items.flatMap GroupItem.bytes
  | .written s => bytes2 s
  | .refreshed s i restored => bytes2 s ++ ticksBytes i ++ [flagByte restored]
  | .subscribed replaced w v q s => [flagByte replaced, watchByte w] ++ bytes4 v ++ [qualityByte q] ++ bytes2 s
  | .unsubscribed => [natByte removed]
  | .drained entries left => [natByte entries.length, natByte left] ++ entries.flatMap Entry.bytes
  | .status c depth att record => [conditionBits c, natByte depth, attachmentByte att] ++ recordBytes record
  | .acknowledged before => [conditionBits before]
  | .created s g => slotBytes s ++ [g]
  | .retired position => [natByte position]
  | .mapped g => [g]
  | .unmapped s had => slotBytes s ++ [flagByte had, natByte removed]
  | .viewEntry e r => slotBytes e.slot ++ [rightsByte e.rights, slotStateByte r.body, r.generation]
  | .slotReport r n => [slotStateByte r.body, r.generation] ++ contentBytes n r.body.content?
  | .detached before => [attachmentByte before]
  | .tickSet before => [periodByte before]
  | .leasesHeld before discarded => [holdByte before, natByte discarded]
  | .leasesResumed before => [holdByte before]
  | .poolReport r => r.bytes

end Sys2Proof.Machine
end

