-- ==== Sys2Proof/Machine/Flags.lean ====
section
/-! DEFINITION. The port condition block (spec chapter 9): setting a condition, capturing a refusal, the conditions byte,
the ATN line; and the building of a response (R153). -/
namespace Sys2Proof.Machine

/-- A condition of the block (R134). -/
def Conditions.get (c : Conditions) : Condition → Bool
  | .lost => c.lost
  | .discarded => c.discarded
  | .overrun => c.overrun
  | .linkError => c.linkError
  | .refusalHeld => c.refusalHeld
  | .detached => c.detached

/-- The block with one condition set (R135). -/
def Conditions.raise (c : Conditions) : Condition → Conditions
  | .lost => { c with lost := true }
  | .discarded => { c with discarded := true }
  | .overrun => { c with overrun := true }
  | .linkError => { c with linkError := true }
  | .refusalHeld => { c with refusalHeld := true }
  | .detached => { c with detached := true }

/-- Any condition is set (R114). -/
def Conditions.any (c : Conditions) : Bool :=
  c.lost || c.discarded || c.overrun || c.linkError || c.refusalHeld || c.detached

/-- The block after an Acknowledge with this mask: each named condition is clear (R136). The mask's bits stand as in the
conditions byte (R156). -/
def Conditions.clear (c : Conditions) (mask : Byte) : Conditions where
  lost := c.lost && !mask.getLsbD 0
  discarded := c.discarded && !mask.getLsbD 1
  overrun := c.overrun && !mask.getLsbD 2
  linkError := c.linkError && !mask.getLsbD 3
  refusalHeld := c.refusalHeld && !mask.getLsbD 4
  detached := c.detached && !mask.getLsbD 5

/-- An arrival of R135 at port `p`'s condition block sets a condition; while the initialiser runs the block takes none
(R134). -/
def setCondition (k : Condition) (p : Port) (s : State) : State :=
  if s.initialising then s
  else s.setPort p { s.port p with conditions := (s.port p).conditions.raise k }

/-- The ATN line (R114): high while the queue holds an entry or a condition is set, and low while RSTn is low. -/
def State.atn (s : State) (p : Port) : Bool :=
  s.rstn = .high && (!(s.port p).queue.isEmpty || (s.port p).conditions.any)

/-- The conditions byte of a response: the six conditions and QUEUE_NONEMPTY as they stand (R153, R156). -/
def conditionsByte (x : PortState) : Byte :=
  conditionBits x.conditions ||| (if x.queue.isEmpty then 0#8 else 0x40#8)

/-- The capture of a refusal: written if REFUSAL_HELD is clear, which it sets (R138). While the initialiser runs nothing is
captured (R134). -/
def capture (p : Port) (r : RefusalRecord) (s : State) : State :=
  if s.initialising || (s.port p).conditions.refusalHeld then s
  else s.setPort p { s.port p with conditions := (s.port p).conditions.raise .refusalHeld, record := some r }

/-- A response with its CRC over length, tag, result, conditions byte and body (R149, R152). -/
def makeResponse (tag : Byte) (result : Result) (conditions : Byte) (body : List Byte) : Response where
  tag := tag
  result := result
  conditions := conditions
  body := body
  crc := crc (natByte (body.length + 5) :: tag :: result.toByte :: conditions :: body)

/-- The bytes of a response from its length byte to its CRC (R152). -/
def Response.bytes (r : Response) : List Byte :=
  natByte (r.body.length + 5) :: r.tag :: r.result.toByte :: r.conditions :: (r.body ++ bytes2 r.crc)

/-- What the refusal record takes from a refused request (R139). -/
def refusalOf (h : Head) (v : Verdict) : RefusalRecord := ⟨h.code, h.tag, v.result, h.loc, v.via, v.stop, v.hops⟩

/-- The building of a response in the order of R153: capture of a refusal, then the conditions byte, then the body; the
response becomes held and the request is no longer in work. -/
def respond (p : Port) (h : Head) (v : Verdict) (removed : Nat) (s : State) : State :=
  let s1 := if v.result = .done then s else capture p (refusalOf h v) s
  let x := s1.port p
  s1.setPort p { x with
    work := none
    held := some (makeResponse h.tag v.result (conditionsByte x) (v.answer.bytes removed)) }

/-- A DONE with the fields of its body. -/
def Verdict.done (a : Answer) : Verdict := ⟨.done, a, none, none, 0⟩

/-- A refusal with an empty body and nothing from a resolution (R139). -/
def Verdict.refusal (r : Result) : Verdict := ⟨r, .empty, none, none, 0⟩

end Sys2Proof.Machine
end

