-- ==== Sys2Proof/Machine/Ops.lean ====
section
/-! DEFINITION. The shared operations: the notification queue (spec chapter 7), the arrivals of granted work, the table
arbiter (R13, R14), the sweep engine's choice of a job (R124), and the end of a grant. -/
namespace Sys2Proof.Machine

/-! ### The notification queue -/

/-- The class of a notification (R101). -/
def Note.cls : Note → NoteClass
  | .watch _ _ _ => .watch
  | .change _ _ _ => .change
  | .quality _ _ _ => .quality
  | .retired => .retired

/-- The entry has this local number and class (R102). -/
def Entry.keyed (l : Local) (c : NoteClass) (e : Entry) : Bool := e.loc = l && e.note.cls = c

/-- A post of `n` merged into an entry of its local and class: the latest state, value and sequence, and a merged count
that rises to 255 and no further (R104). -/
def Entry.merge (n : Note) (e : Entry) : Entry :=
  { e with note := n, merged := if e.merged < Config.mergedLimit then e.merged + 1 else e.merged }

/-- A post at a queue: merged (R104), appended with merged count 1, or dropped (none) when 32 entries stand (R105). -/
def queuePost (q : List Entry) (l : Local) (n : Note) : Option (List Entry) :=
  if q.any (·.keyed l n.cls) then some (q.map (fun e => if e.keyed l n.cls then e.merge n else e))
  else if q.length < Config.queueSize then some (q ++ [⟨l, n, 1⟩])
  else none

/-- The class is in the set a removal names (R107). -/
def RemovalSet.has : RemovalSet → NoteClass → Bool
  | .all, _ => true
  | .allButRetired, c => c ≠ .retired

/-- The entry is one that a removal by local takes (R107). -/
def Entry.removedBy (l : Local) (k : RemovalSet) (e : Entry) : Bool := e.loc = l && k.has e.note.cls

/-- A queue after a removal by local; the rest keeps its order (R107). -/
def queueRemove (q : List Entry) (l : Local) (k : RemovalSet) : List Entry := q.filter (fun e => !e.removedBy l k)

/-- The number of entries a removal by local takes (R107). -/
def queueRemoved (q : List Entry) (l : Local) (k : RemovalSet) : Nat := q.countP (·.removedBy l k)

/-- The queue of the arrival's port takes the arrival (R103). -/
def takeArrival (a : Arrival) (s : State) : State :=
  match a with
  | .post p l n =>
    match queuePost (s.port p).queue l n with
    | some q => s.setPort p { s.port p with queue := q }
    | none => setCondition .lost p s
  | .removal p l k => s.setPort p { s.port p with queue := queueRemove (s.port p).queue l k }

/-- The number of entries an arrival removes when it is taken (R107). -/
def arrivalRemoves (a : Arrival) (s : State) : Nat :=
  match a with
  | .post _ _ _ => 0
  | .removal p l k => queueRemoved (s.port p).queue l k

/-- The queues take arrivals one after another, in the order the work made them (R15, R103). -/
def takeArrivals (as : List Arrival) (s : State) : State := as.foldl (fun s a => takeArrival a s) s

/-- The number of entries those arrivals remove in all. -/
def arrivalsRemove : List Arrival → State → Nat
  | [], _ => 0
  | a :: as, s => arrivalRemoves a s + arrivalsRemove as (takeArrival a s)

/-! ### The arbiter -/

/-- The cyclic order of R14, from port engine A. -/
def Requester.order : List Requester := [.port .a, .port .b, .port .c, .port .d, .lease, .sweep]

/-- The requester's place in that order. -/
def Requester.place : Requester → Nat
  | .port .a => 0
  | .port .b => 1
  | .port .c => 2
  | .port .d => 3
  | .lease => 4
  | .sweep => 5

/-- The six requesters in the order in which R14 looks for a claim after a pointer that names `r`: `r` itself last. -/
def Requester.following (r : Requester) : List Requester :=
  Requester.order.drop (r.place + 1) ++ Requester.order.take (r.place + 1)

/-- The requester has a claim raised (R13). -/
def State.claimed (s : State) : Requester → Bool
  | .port p => s.arbiter.claims.get p
  | .lease => s.lease.claim
  | .sweep => s.sweep.claim

/-- The start of a grant: the claim ends, the pointer names the requester (R14), and a lease access takes the pending tick
count and sets it to 0 (R71). A port claim without a request in work, which no run reaches, starts no grant. -/
def beginGrant (r : Requester) (s : State) : State :=
  match r with
  | .port p =>
    match (s.port p).work with
    | some w =>
      { s with arbiter :=
        { pointer := r, claims := s.arbiter.claims.set p false, grant := some ⟨.port p w false none, [], 0⟩ } }
    | none => { s with arbiter := { s.arbiter with claims := s.arbiter.claims.set p false } }
  | .lease =>
    { s with
      arbiter := { s.arbiter with pointer := r, grant := some ⟨.lease s.lease.pending .start, [], 0⟩ }
      lease := { s.lease with pending := 0, claim := false } }
  | .sweep =>
    { s with
      arbiter := { s.arbiter with pointer := r, grant := some ⟨.sweep false, [], 0⟩ }
      sweep := { s.sweep with claim := false } }

/-- The arbiter's choice (R14): with the table free, the first requester with a raised claim that follows the pointer. It is
made as soon as the table is free and a claim is raised. -/
def arbitrate (s : State) : State :=
  match s.arbiter.grant with
  | some _ => s
  | none =>
    match s.arbiter.pointer.following.find? s.claimed with
    | some r => beginGrant r s
    | none => s

/-! ### The sweep engine's choice of a job -/

/-- The lowest-lettered port whose detach-pending flag is set (R124). -/
def Sweep.firstFlag (w : Sweep) : Option Port := Port.all.find? w.flags.get

/-- The engine takes its next job by rules 1 and 2 of R124 and raises its step claim; with no work it stays idle. -/
def Sweep.takeJob (w : Sweep) : Sweep :=
  match w.firstFlag with
  | some p =>
    { w with flags := w.flags.set p false, job := some (.detachment p .d1), claim := true, choiceDue := false }
  | none =>
    match w.fifo with
    | i :: rest => { w with fifo := rest, job := some (.retirement i (.v .a)), claim := true, choiceDue := false }
    | [] => { w with choiceDue := false }

/-- Work has arrived: an idle engine takes it at once (R124). An engine whose choice is still due takes it then, also where no
work waited at step F (log entry 25). -/
def Sweep.offer (w : Sweep) : Sweep :=
  match w.job with
  | none => if w.choiceDue then w else w.takeJob
  | some _ => w

/-- A choice that is due is made (R119). -/
def Sweep.choose (w : Sweep) : Sweep := if w.choiceDue then w.takeJob else w

/-! ### The end of a grant -/

/-- The grant ends: a choice left due by step F is made (R119), and the arbiter chooses among the claims then raised
(R14). -/
def endGrant (s : State) : State :=
  arbitrate { s with arbiter := { s.arbiter with grant := none }, sweep := s.sweep.choose }

/-- The arrivals a command has taken out of those that wait (R103, R112). -/
def takenBy (g : Progress) (as : List Arrival) : List Arrival :=
  match g with
  | .toEnd => as
  | .arrivals n => as.take n

/-- The arrivals it leaves waiting. -/
def leftBy (g : Progress) (as : List Arrival) : List Arrival :=
  match g with
  | .toEnd => []
  | .arrivals n => as.drop n

/-- The queues take the next arrivals of the grant in progress, as far as the command carries it. -/
def advance (pr : Progress) (g : Grant) (s : State) : State :=
  let as := takenBy pr g.arrivals
  let s' := takeArrivals as s
  { s' with arbiter := { s'.arbiter with
      grant := some { g with arrivals := leftBy pr g.arrivals, removed := g.removed + arrivalsRemove as s } } }

end Sys2Proof.Machine
end

