-- ==== Sys2Proof/Machine/Resolve.lean ====
section
/-! DEFINITION. The resolver (spec chapter 3): a port and a local number to a VALUE record, or to a refusal. -/
namespace Sys2Proof.Machine

/-- The style of a resolution (R35). -/
inductive Style where
  | read | write
  deriving DecidableEq, Repr

/-- What a resolution hands on: the VALUE record reached with its fields, the via slot and the hop count (R43), or the
refusal with the via slot, the stop slot and the hop count (R44). -/
inductive Resolution where
  | reached (target via : Slot) (fields : ValueFields) (hops : Nat)
  | refused (result : Result) (via stop : Option Slot) (hops : Nat)
  deriving DecidableEq, Repr

/-- The steps at the records (R39), with `left` aliases still to be passed out of the 8 of R42. The current record `cur`
is LIVE with content `c`, and `hopLimit - left` aliases have been passed. -/
def walk (t : Table) (style : Style) (via : Slot) (left : Nat) (cur : Slot) (c : Content) : Resolution :=
  match c with
  | .value v => .reached cur via v (Config.hopLimit - left)
  | .aliasOf f =>
    if style = .write ∧ f.writeThrough = false then .refused .noRight (some via) (some cur) (Config.hopLimit - left)
    else
      match left with
      | 0 => .refused .chainTooLong (some via) (some cur) Config.hopLimit
      | n + 1 =>
        match (t.record f.target).body with
        | .live c' =>
          if (t.record f.target).generation = f.targetGeneration then walk t style via n f.target c'
          else .refused .dangling (some via) (some cur) (Config.hopLimit - (n + 1))
        | .free | .retiring _ => .refused .dangling (some via) (some cur) (Config.hopLimit - (n + 1))

/-- The resolution of port `p`'s local `l`: the steps at the view (R36, R37, R38), then the steps at the records. A FREE
via slot, which R23 excludes, is refused as a RETIRING one is (log entry 16). -/
def resolve (t : Table) (style : Style) (p : Port) (l : Local) : Resolution :=
  match t.entry p l with
  | none => .refused .noEntry none none 0
  | some e =>
    if style = .write ∧ e.rights = .read then .refused .noRight (some e.slot) none 0
    else
      match (t.record e.slot).body with
      | .live c => walk t style e.slot Config.hopLimit e.slot c
      | .free | .retiring _ => .refused .retired (some e.slot) (some e.slot) 0

end Sys2Proof.Machine
end

