-- ==== Sys2Proof/Machine/Worked.lean ====
section
/-! DEFINITION. What the table work of a request gives (R15): the state with the table changed, the arrivals it makes at
the queues, and its verdict. -/
namespace Sys2Proof.Machine

/-- The outcome of a request's table work. The arrivals are not yet taken by the queues. -/
structure Worked where
  state : State
  arrivals : List Arrival
  verdict : Verdict
  deriving DecidableEq, Repr

/-- Work that changes nothing and posts nothing. -/
def Worked.report (s : State) (v : Verdict) : Worked := ⟨s, [], v⟩

/-- Work refused by its resolution: no further table work is done (R45), and the values of R44 are handed on. -/
def Worked.unresolved (s : State) (r : Result) (via stop : Option Slot) (hops : Nat) : Worked :=
  ⟨s, [], ⟨r, .empty, via, stop, hops⟩⟩

/-- DONE after changing the table. -/
def Worked.changed (s : State) (t : Table) (as : List Arrival) (a : Answer) : Worked :=
  ⟨{ s with table := t }, as, .done a⟩

end Sys2Proof.Machine
end

