-- ==== Sys2Proof/Machine/Notify.lean ====
section
/-! DEFINITION. Watch conditions and the posts they give (R56, R57, R88 to R91). -/
namespace Sys2Proof.Machine

/-- The watch state of a value under a mask and a reference (R88). -/
def watchOf (mask reference value : Word32) : WatchState :=
  if value &&& mask = reference &&& mask then .matched else .mismatched

/-- The post that R89's table gives for a mode, the stored watch state and the new one. -/
def evaluationNote (m : Mode) (old new : WatchState) (v : Word32) (q : Word16) : Option Note :=
  match m, old, new with
  | .trip, .matched, .mismatched => some (.watch .mismatched v q)
  | .trip, _, _ => none
  | .both, .matched, .mismatched => some (.watch .mismatched v q)
  | .both, .mismatched, .matched => some (.watch .matched v q)
  | .both, _, _ => none
  | .writes, _, new => some (.change new v q)

/-- The quality posts for a record: one for each subscription on it whose quality option is on, in list order (R56, R64,
R72). -/
def qualityPosts (t : Table) (i : Slot) (q : Quality) (v : Word32) (n : Word16) : List Arrival :=
  ((t.subsOn i).filter (·.wantsQuality)).map (fun u => .post u.port u.loc (.quality q v n))

/-- The posts of the evaluation of every subscription on a record, in list order (R57, R90). -/
def evaluationPosts (t : Table) (i : Slot) (v : Word32) (n : Word16) : List Arrival :=
  (t.subsOn i).filterMap (fun u =>
    (evaluationNote u.mode u.watch (watchOf u.mask u.reference v) v n).map (.post u.port u.loc))

/-- The stored watch states after the evaluation of every subscription on a record (R90). -/
def evaluatedPool (t : Table) (i : Slot) (v : Word32) : List Subscription :=
  t.pool.map (fun u => if u.target = i then { u with watch := watchOf u.mask u.reference v } else u)

end Sys2Proof.Machine
end

