-- ==== Sys2Proof/Machine/Points.lean ====
section
/-! DEFINITION. Reading and writing points (spec chapter 4): the table work of Read, Group Read, Write, Conditional Write
and Refresh. -/
namespace Sys2Proof.Machine

/-- Read's work (R50, R51). -/
def workRead (p : Port) (l : Local) (s : State) : Worked :=
  match resolve s.table .read p l with
  | .reached _ _ v hops => .report s (.done (.read v.value v.sequence v.quality hops))
  | .refused r via stop hops => .unresolved s r via stop hops

/-- One item of a Group Read (R53). -/
def groupItem (t : Table) (p : Port) (l : Local) : GroupItem :=
  match resolve t .read p l with
  | .reached _ _ v hops => .done v.value v.quality v.sequence hops
  | .refused r _ _ _ => .refused r

/-- Group Read's work: its items in list order, against one table, always DONE (R53, R54). -/
def workGroupRead (p : Port) (ls : List Local) (s : State) : Worked :=
  .report s (.done (.groupRead (ls.map (groupItem s.table p))))

/-- A record's fields after an accepted write: steps 1 to 4 of R55. -/
def writtenFields (v : ValueFields) (x : Word32) : ValueFields where
  value := x
  sequence := v.sequence + 1
  quality := .good
  interval := v.interval
  remaining := if 0 < v.interval then v.interval else v.remaining

/-- The table after an accepted write of a LIVE VALUE record (R55): the record's fields, and the watch states. -/
def writtenTable (t : Table) (i : Slot) (v : ValueFields) (x : Word32) : Table :=
  { t.setRecord i ⟨(t.record i).generation, .live (.value (writtenFields v x))⟩ with pool := evaluatedPool t i x }

/-- The posts of an accepted write: quality posts first if the record was STALE (R56), then the evaluation's (R57). -/
def writePosts (t : Table) (i : Slot) (v : ValueFields) (x : Word32) : List Arrival :=
  (if v.quality = .stale then qualityPosts t i .good x (v.sequence + 1) else []) ++ evaluationPosts t i x (v.sequence + 1)

/-- An accepted write (R55 to R57). -/
def acceptWrite (s : State) (i : Slot) (v : ValueFields) (x : Word32) : Worked :=
  .changed s (writtenTable s.table i v x) (writePosts s.table i v x) (.written (v.sequence + 1))

/-- Write's work (R55, R58). -/
def workWrite (p : Port) (l : Local) (x : Word32) (s : State) : Worked :=
  match resolve s.table .write p l with
  | .reached i _ v _ => acceptWrite s i v x
  | .refused r via stop hops => .unresolved s r via stop hops

/-- Conditional Write's work (R60, R61): a sequence other than the expected one is refused with SEQ_MISMATCH, carrying the
record's sequence and value, with the target slot as the stop slot. -/
def workConditionalWrite (p : Port) (l : Local) (expected : Word16) (x : Word32) (s : State) : Worked :=
  match resolve s.table .write p l with
  | .reached i via v hops =>
    if v.sequence = expected then acceptWrite s i v x
    else .report s ⟨.seqMismatch, .mismatch v.sequence v.value, some via, some i, hops⟩
  | .refused r via stop hops => .unresolved s r via stop hops

/-- A leased record's fields after a Refresh (R64). -/
def refreshedFields (v : ValueFields) : ValueFields := { v with quality := .good, remaining := v.interval }

/-- Refresh's work (R63, R64). -/
def workRefresh (p : Port) (l : Local) (s : State) : Worked :=
  match resolve s.table .write p l with
  | .reached i _ v _ =>
    if 0 < v.interval then
      .changed s (s.table.setRecord i ⟨(s.table.record i).generation, .live (.value (refreshedFields v))⟩)
        (if v.quality = .stale then qualityPosts s.table i .good v.value v.sequence else [])
        (.refreshed v.sequence v.interval (v.quality = .stale))
    else .report s (.done (.refreshed v.sequence 0 false))
  | .refused r via stop hops => .unresolved s r via stop hops

end Sys2Proof.Machine
end

