-- ==== Sys2Proof/Machine/Records.lean ====
section
/-! DEFINITION. Records and views (spec chapters 1 and 2): the table work of Create Value, Create Alias, Read Slot, Map,
Unmap, Read View; Retire's (spec chapter 8) and Pool Report's (spec chapter 9). -/
namespace Sys2Proof.Machine

/-- The head of the free list becomes LIVE with this content and keeps its generation (R12, R18, R19). -/
def takeFree (t : Table) (i : Slot) (rest : List Slot) (c : Content) : Table :=
  { t.setRecord i ⟨(t.record i).generation, .live c⟩ with freeList := rest }

/-- Create Value's work (R18). -/
def workCreateValue (v : Word32) (interval : Ticks) (s : State) : Worked :=
  match s.table.freeList with
  | [] => .report s (.refusal .tableFull)
  | i :: rest =>
    .changed s (takeFree s.table i rest (.value ⟨v, 0, .good, interval, interval⟩)) []
      (.created i (s.table.record i).generation)

/-- Create Alias's work: the target's state first, then the free list (R19). -/
def workCreateAlias (target : Slot) (writeThrough : Bool) (s : State) : Worked :=
  if (s.table.record target).isLive then
    match s.table.freeList with
    | [] => .report s (.refusal .tableFull)
    | i :: rest =>
      .changed s (takeFree s.table i rest (.aliasOf ⟨target, (s.table.record target).generation, writeThrough⟩)) []
        (.created i (s.table.record i).generation)
  else .report s (.refusal .notLive)

/-- Read Slot's work (R20). -/
def workReadSlot (i : Slot) (s : State) : Worked :=
  .report s (.done (.slotReport (s.table.record i) (s.table.subsOn i).length))

/-- Map's work: the slot's state first, then the entry (R26). -/
def workMap (port : Port) (l : Local) (i : Slot) (rights : Rights) (s : State) : Worked :=
  if (s.table.record i).isLive then
    match s.table.entry port l with
    | some _ => .report s (.refusal .inUse)
    | none =>
      .changed s (s.table.setEntry port l (some ⟨i, rights⟩)) [] (.mapped (s.table.record i).generation)
  else .report s (.refusal .notLive)

/-- Unmap's work (R27, R28): the entry, the subscription on the local, and the removal at the port's queue. -/
def workUnmap (port : Port) (l : Local) (s : State) : Worked :=
  match s.table.entry port l with
  | none => .report s (.refusal .noEntry)
  | some e =>
    .changed s ((s.table.setEntry port l none).returnSubs (·.keyed port l)) [.removal port l .all]
      (.unmapped e.slot (s.table.subscription? port l).isSome)

/-- Read View's work (R32). -/
def workReadView (port : Port) (l : Local) (s : State) : Worked :=
  match s.table.entry port l with
  | none => .report s (.refusal .noEntry)
  | some e => .report s (.done (.viewEntry e (s.table.record e.slot)))

/-- A record at the acceptance of its Retire: RETIRING, the generation advanced by one modulo 256, the rest kept (R7,
R118). -/
def retiredRecord (g : Byte) (c : Content) : Record := ⟨g + 1, .retiring c⟩

/-- Retire's work (R117, R118): the slot's state first, then the FIFO; an idle engine takes its job at once (R119, R124). -/
def workRetire (i : Slot) (s : State) : Worked :=
  match (s.table.record i).body with
  | .live c =>
    if s.sweep.fifo.length ≥ Config.fifoSize then .report s (.refusal .busy)
    else
      let fifo := s.sweep.fifo ++ [i]
      .changed { s with sweep := ({ s.sweep with fifo := fifo }).offer }
        (s.table.setRecord i (retiredRecord (s.table.record i).generation c)) [] (.retired fifo.length)
  | .free | .retiring _ => .report s (.refusal .notLive)

/-- Pool Report's work: all its values in one grant (R142). -/
def workPoolReport (s : State) : Worked :=
  .report s (.done (.poolReport
    { freeSlots := s.table.freeList.length
      retiring := s.table.retiringCount
      poolFree := s.table.poolFree
      inUse := ⟨s.table.portCount .a, s.table.portCount .b, s.table.portCount .c, s.table.portCount .d⟩
      fifoDepth := s.sweep.fifo.length
      flags := s.sweep.flags
      job := s.sweep.job
      hold := s.lease.hold
      period := s.lease.period }))

end Sys2Proof.Machine
end

