-- ==== Sys2Proof/Machine/Subscriptions.lean ====
section
/-! DEFINITION. Subscriptions (spec chapter 6): the table work of Subscribe and Unsubscribe. -/
namespace Sys2Proof.Machine

/-- The subscription a Subscribe makes or leaves in place of the old one (R94, R95): the via and target slots of the
resolution, the request's fields, and the watch state of the target's current value. -/
def newSubscription (p : Port) (l : Local) (via target : Slot) (mask reference : Word32) (mode : Mode) (q : Bool)
    (value : Word32) : Subscription :=
  ⟨p, l, via, target, mask, reference, mode, q, watchOf mask reference value⟩

/-- A replacement (R94): in its position if the target is the same record, otherwise at the tail of the new record's
list. -/
def replaceSubscription (pool : List Subscription) (old new : Subscription) : List Subscription :=
  if old.target = new.target then pool.map (fun u => if u.keyed new.port new.loc then new else u)
  else pool.filter (fun u => !u.keyed new.port new.loc) ++ [new]

/-- No free record, or the port holds 64 (R95). -/
def poolRefuses (t : Table) (p : Port) : Bool :=
  t.pool.length ≥ Config.poolSize || t.portCount p ≥ Config.perPortLimit

/-- Subscribe's work (R93 to R96). -/
def workSubscribe (p : Port) (l : Local) (mask reference : Word32) (mode : Mode) (q : Bool) (s : State) : Worked :=
  match resolve s.table .read p l with
  | .reached target via v hops =>
    let new := newSubscription p l via target mask reference mode q v.value
    match s.table.subscription? p l with
    | some old =>
      .changed s { s.table with pool := replaceSubscription s.table.pool old new } []
        (.subscribed true new.watch v.value v.quality v.sequence)
    | none =>
      if poolRefuses s.table p then .report s ⟨.noSubSpace, .empty, some via, some target, hops⟩
      else .changed s { s.table with pool := s.table.pool ++ [new] } []
        (.subscribed false new.watch v.value v.quality v.sequence)
  | .refused r via stop hops => .unresolved s r via stop hops

/-- Unsubscribe's work (R97, R98). -/
def workUnsubscribe (p : Port) (l : Local) (s : State) : Worked :=
  match s.table.subscription? p l with
  | some _ => .changed s (s.table.returnSubs (·.keyed p l)) [.removal p l .all] .unsubscribed
  | none => .report s (.refusal .notSubscribed)

end Sys2Proof.Machine
end

