-- ==== Sys2Proof/Machine/LeaseEngine.lean ====
section
/-! DEFINITION. The lease engine (spec chapter 5): ticks, the lease access and its expiries, and the three lease requests,
which it takes at once. -/
namespace Sys2Proof.Machine

/-! ### Ticks -/

/-- The REFCLK periods of a tick period (R69, with REFCLK at 4.000 MHz). -/
def TickPeriod.refclks : TickPeriod → Nat
  | .ms1 => 4000
  | .ms10 => 40000
  | .ms100 => 400000

/-- A tick arrives at the engine (R69): counted while RUNNING up to 15, ignored while HELD and while the initialiser runs.
The count's rise from 0 to 1 raises the claim (R70). -/
def countTick (s : State) : State :=
  if s.initialising then s
  else
    match s.lease.hold with
    | .held => s
    | .running =>
      if s.lease.pending < Config.pendingLimit then
        arbitrate { s with lease := { s.lease with
          pending := s.lease.pending + 1
          claim := s.lease.pending = 0 || s.lease.claim } }
      else s

/-- The divider completes its tick period: a fresh period begins and a tick arrives (R69). -/
def completePeriod (s : State) : State := countTick { s with lease := { s.lease with divider := 0 } }

/-- REFCLK reaches the part: RSTn is high and REFCLK runs (R159, R161). -/
def State.clocked (s : State) : Bool := s.rstn = .high && s.refclk

/-- One REFCLK period passes with no command waiting (log entry 3). -/
def refclkPeriod (s : State) : State :=
  if s.clocked then
    if s.lease.divider + 1 < s.lease.period.refclks then
      { s with lease := { s.lease with divider := s.lease.divider + 1 } }
    else completePeriod s
  else s

/-- TICK. Without REFCLK, or with RSTn low, no period completes. -/
def execTick (s : State) : Host.Outcome State Fault Refusal := .next (if s.clocked then completePeriod s else s)

/-! ### Set Tick, Hold Leases, Resume Leases -/

/-- The engine takes a Set Tick: the period is set and the divider restarted (R78). -/
def takeSetTick (p : Port) (h : Head) (period : TickPeriod) (s : State) : State :=
  respond p h (.done (.tickSet s.lease.period)) 0 { s with lease := { s.lease with period := period, divider := 0 } }

/-- The engine takes a Hold Leases: in RUNNING the pending ticks are discarded and a waiting claim withdrawn (R79). -/
def takeHoldLeases (p : Port) (h : Head) (s : State) : State :=
  match s.lease.hold with
  | .running =>
    respond p h (.done (.leasesHeld .running s.lease.pending)) 0
      { s with lease := { s.lease with hold := .held, pending := 0, claim := false } }
  | .held => respond p h (.done (.leasesHeld .held 0)) 0 s

/-- The engine takes a Resume Leases: in HELD it becomes RUNNING and the divider is restarted (R80). -/
def takeResumeLeases (p : Port) (h : Head) (s : State) : State :=
  match s.lease.hold with
  | .held =>
    respond p h (.done (.leasesResumed .held)) 0 { s with lease := { s.lease with hold := .running, divider := 0 } }
  | .running => respond p h (.done (.leasesResumed .running)) 0 s

/-! ### The lease access -/

/-- A lease remaining reduced by `k`, not below 0 (R71). -/
def lowerTicks (r : Ticks) (k : Nat) : Ticks := ⟨r.val - k, lt_of_le_of_lt (Nat.sub_le _ _) r.isLt⟩

/-- The record is counted by a lease access: LIVE, VALUE, interval and remaining above 0 (R71, R73). -/
def Record.counted (r : Record) : Bool :=
  match r.body with
  | .live (.value v) => 0 < v.interval && 0 < v.remaining
  | .live (.aliasOf _) | .free | .retiring _ => false

/-- A record after its visit by an access of `k` ticks, before the expiry it may make (R71). -/
def Record.visited (k : Nat) (r : Record) : Record :=
  match r.body with
  | .live (.value v) =>
    if 0 < v.interval ∧ 0 < v.remaining then
      { r with body := .live (.value { v with remaining := lowerTicks v.remaining k }) }
    else r
  | .live (.aliasOf _) | .free | .retiring _ => r

/-- The record expires in an access of `k` ticks: it is counted and its remaining becomes 0 (R71, R72). -/
def Record.expires (k : Nat) (r : Record) : Bool :=
  match r.body with
  | .live (.value v) => 0 < v.interval && 0 < v.remaining && v.remaining.val ≤ k
  | .live (.aliasOf _) | .free | .retiring _ => false

/-- The table after the access has visited the slots from `lo` to `hi` (R71). -/
def Table.visit (t : Table) (k lo hi : Nat) : Table :=
  { t with records := t.records.mapIdx (fun i r => if lo ≤ i ∧ i ≤ hi then r.visited k else r) }

/-- The first slot from `lo` on, in ascending order, whose record expires. -/
def Table.nextExpiring (t : Table) (k lo : Nat) : Option Slot :=
  (List.finRange 1024).find? (fun i => lo ≤ i.val && (t.record i).expires k)

/-- The access of `k` ticks goes on from slot `lo`: to the first record that expires, where its expiry is due (R72), or to
the last slot, where the grant ends (R71). -/
def runAccess (k lo : Nat) (s : State) : State :=
  match s.table.nextExpiring k lo with
  | some i =>
    { s with
      table := s.table.visit k lo i.val
      arbiter := { s.arbiter with grant := some ⟨.lease k (.expiring i), [], 0⟩ } }
  | none => endGrant { s with table := s.table.visit k lo 1023 }

/-- LEASE_ACCESS: the access just granted begins its visits (R71). -/
def execLeaseAccess (s : State) : Host.Outcome State Fault Refusal :=
  match s.arbiter.grant with
  | some ⟨.lease k .start, _, _⟩ => .next (if s.clocked then runAccess k 0 s else s)
  | _ => .next s

/-- A record's fields at its expiry: STALE, the lease remaining held at 0 (R72). -/
def expiredFields (v : ValueFields) : ValueFields := { v with quality := .stale }

/-- The table with the expiry of a slot made (R72). -/
def Table.expire (t : Table) (i : Slot) : Table :=
  match (t.record i).body with
  | .live (.value v) => t.setRecord i ⟨(t.record i).generation, .live (.value (expiredFields v))⟩
  | .live (.aliasOf _) | .free | .retiring _ => t

/-- The posts of the expiry of a slot: QUALITY(STALE) with the record's value and sequence (R72). -/
def Table.expiryPosts (t : Table) (i : Slot) : List Arrival :=
  match (t.record i).body with
  | .live (.value v) => qualityPosts t i .stale v.value v.sequence
  | .live (.aliasOf _) | .free | .retiring _ => []

/-- The posts of an expiry reach the queues; with the last, the access moves on to the next slot (R72). -/
def carryExpiry (pr : Progress) (k : Nat) (i : Slot) (g : Grant) (s : State) : State :=
  match pr with
  | .toEnd => runAccess k (i.val + 1) (advance .toEnd g s)
  | .arrivals n => advance (.arrivals n) g s

/-- LEASE_EXPIRY: the record at which the access stands expires (R72). -/
def execLeaseExpiry (pr : Progress) (s : State) : Host.Outcome State Fault Refusal :=
  match s.arbiter.grant with
  | some ⟨.lease k (.expiring i), _, _⟩ =>
    .next (if s.clocked then
      carryExpiry pr k i ⟨.lease k (.posting i), s.table.expiryPosts i, 0⟩ { s with table := s.table.expire i }
    else s)
  | some ⟨.lease k (.posting i), as, n⟩ =>
    .next (if s.clocked then carryExpiry pr k i ⟨.lease k (.posting i), as, n⟩ s else s)
  | _ => .next s

end Sys2Proof.Machine
end

