-- ==== Sys2Proof/Machine/SweepEngine.lean ====
section
/-! DEFINITION. The sweep engine (spec chapter 8): marking a port for detachment, Detach, the steps of the retirement job
and of the detachment job. -/
namespace Sys2Proof.Machine

/-! ### Marking a port for detachment -/

/-- Port `p`'s claim, raised and not yet granted, is withdrawn and its request dropped (R16, R122); the pointer stays. -/
def withdrawClaim (p : Port) (s : State) : State :=
  if s.arbiter.claims.get p then
    { s.setPort p { s.port p with work := none } with
      arbiter := { s.arbiter with claims := s.arbiter.claims.set p false } }
  else s

/-- Port `p`'s detach-pending flag is set and it becomes DETACHING (R120, R121); an idle engine takes the job at once (R124)
and the arbiter sees its claim (R14). -/
def markDetachment (p : Port) (s : State) : State :=
  arbitrate { s with sweep := ({ s.sweep with
    flags := s.sweep.flags.set p true
    attachment := s.sweep.attachment.set p .detaching }).offer }

/-- The engine takes a Detach of port `q` from port `p` (R120, R122): answered first, then `q` is marked. -/
def takeDetach (p : Port) (h : Head) (q : Port) (s : State) : State :=
  markDetachment q (withdrawClaim q (respond p h (.done (.detached (s.sweep.attachment.get q))) 0 s))

/-! ### The steps of a job -/

/-- The step after V-x (R116, R126). -/
def RetireStep.afterV : Port → RetireStep
  | .a => .v .b
  | .b => .v .c
  | .c => .v .d
  | .d => .s

/-- The step's grant ends and the engine raises its claim for the job's next step (R13, R125). -/
def nextStep (j : Job) (s : State) : State := endGrant { s with sweep := { s.sweep with job := some j, claim := true } }

/-- The arrivals of a subscription's return by a retirement step (R106, R126): the removal, then the RETIRED post. -/
def retiredArrivals (u : Subscription) : List Arrival :=
  [.removal u.port u.loc .allButRetired, .post u.port u.loc .retired]

/-- Port `x`'s entry for local `l` names slot `i`. -/
def Table.names (t : Table) (x : Port) (i : Slot) (l : Local) : Bool :=
  match t.entry x l with
  | some e => e.slot = i
  | none => false

/-- The table after step V-x for slot `i` (R126). -/
def viewStepTable (t : Table) (x : Port) (i : Slot) : Table :=
  let t' := t.returnSubs (fun u => u.port = x && t.names x i u.loc)
  { t' with views := t'.views.set x ((t'.views.get x).map (fun e =>
      match e with
      | some d => if d.slot = i then none else some d
      | none => none)) }

/-- The arrivals of step V-x, in ascending order of local number (R126). -/
def viewStepArrivals (t : Table) (x : Port) (i : Slot) : List Arrival :=
  (List.finRange 256).flatMap (fun l =>
    if t.names x i l then ((t.subscription? x l).toList.flatMap retiredArrivals) else [])

/-- The arrivals reach the queues; with the last, the step's grant ends. -/
def carryStep (pr : Progress) (next : Job) (g : Grant) (s : State) : State :=
  match pr with
  | .toEnd => nextStep next (advance .toEnd g s)
  | .arrivals n => advance (.arrivals n) g s

/-- STEP_V: the current step V-x of the retirement job (R126). -/
def execStepV (pr : Progress) (s : State) : Host.Outcome State Fault Refusal :=
  match s.arbiter.grant, s.sweep.job with
  | some ⟨.sweep worked, as, n⟩, some (.retirement i (.v x)) =>
    .next (if s.clocked then
      if worked then carryStep pr (.retirement i (.afterV x)) ⟨.sweep true, as, n⟩ s
      else carryStep pr (.retirement i (.afterV x)) ⟨.sweep true, viewStepArrivals s.table x i, 0⟩
        { s with table := viewStepTable s.table x i }
    else s)
  | _, _ => .next s

/-- The subscriptions that step S returns: those still on the list of a VALUE record (R127). -/
def Table.listLeft (t : Table) (i : Slot) : List Subscription :=
  match (t.record i).body.content? with
  | some (.value _) => t.subsOn i
  | some (.aliasOf _) | none => []

/-- The table after step S for slot `i`: its list is empty (R127). -/
def listStepTable (t : Table) (i : Slot) : Table :=
  match (t.record i).body.content? with
  | some (.value _) => t.returnSubs (fun u => u.target = i)
  | some (.aliasOf _) | none => t

/-- STEP_S (R127). -/
def execStepS (pr : Progress) (s : State) : Host.Outcome State Fault Refusal :=
  match s.arbiter.grant, s.sweep.job with
  | some ⟨.sweep worked, as, n⟩, some (.retirement i .s) =>
    .next (if s.clocked then
      if worked then carryStep pr (.retirement i .f) ⟨.sweep true, as, n⟩ s
      else carryStep pr (.retirement i .f) ⟨.sweep true, (s.table.listLeft i).flatMap retiredArrivals, 0⟩
        { s with table := listStepTable s.table i }
    else s)
  | _, _ => .next s

/-- The table after step F for slot `i`: FREE with its generation, at the tail of the free list (R6, R128). -/
def freeStepTable (t : Table) (i : Slot) : Table :=
  { t.setRecord i ⟨(t.record i).generation, .free⟩ with freeList := t.freeList ++ [i] }

/-- Step F's grant and its job end, and the engine takes its next job (R128, R124): before the next grant's work or, where
a grant follows, after it (R119; log entry 6), whatever that grant is for and whether or not work waits now (log entry 25). -/
def endJob (c : JobChoice) (s : State) : State :=
  let idle := { s with arbiter := { s.arbiter with grant := none }, sweep := { s.sweep with job := none } }
  match c with
  | .atOnce => arbitrate { idle with sweep := idle.sweep.takeJob }
  | .afterNextGrant =>
    let s' := arbitrate { idle with sweep := { idle.sweep with choiceDue := true } }
    match s'.arbiter.grant with
    | some _ => s'
    | none => arbitrate { s' with sweep := s'.sweep.choose }

/-- STEP_F (R128). -/
def execStepF (c : JobChoice) (s : State) : Host.Outcome State Fault Refusal :=
  match s.arbiter.grant, s.sweep.job with
  | some ⟨.sweep _, _, _⟩, some (.retirement i .f) =>
    .next (if s.clocked then endJob c { s with table := freeStepTable s.table i } else s)
  | _, _ => .next s

/-- STEP_D1: every subscription of the port is returned (R129); the next step, D2, raises no claim (R130). -/
def execStepD1 (s : State) : Host.Outcome State Fault Refusal :=
  match s.arbiter.grant, s.sweep.job with
  | some ⟨.sweep _, _, _⟩, some (.detachment p .d1) =>
    .next (if s.clocked then
      endGrant { s with
        table := s.table.returnSubs (fun u => u.port = p)
        sweep := { s.sweep with job := some (.detachment p .d2) } }
    else s)
  | _, _ => .next s

/-- The port after step D2 (R108, R130): queue empty, conditions cleared and DETACHED set, refusal record discarded. -/
def detachedPort (x : PortState) : PortState :=
  { x with queue := [], conditions := Conditions.none.raise .detached, record := none }

/-- STEP_D2: taken by the queue and the condition block after D1's grant has ended (R130). It may come while another grant is in
progress, also that of an Unmap of the port whose removal has not yet reached the queue (log entry 22). -/
def execStepD2 (s : State) : Host.Outcome State Fault Refusal :=
  match s.sweep.job with
  | some (.detachment p .d2) =>
    let s' := s.setPort p (detachedPort (s.port p))
    .next (arbitrate { s' with sweep := ({ s.sweep with
      attachment := s.sweep.attachment.set p (if s.sweep.flags.get p then .detaching else .attached)
      job := none }).takeJob })
  | _ => .next s

end Sys2Proof.Machine
end

