-- ==== Sys2Proof/Machine/Link.lean ====
section
/-! DEFINITION. The point link (spec chapter 10): transactions, the taking of a frame and the order of checks, the requests
answered at once, the port engine's grant, the response transaction. -/
namespace Sys2Proof.Machine

/-! ### Requests answered at once -/

/-- The queue takes a Drain: the first entries from its head (R110). -/
def takeDrain (p : Port) (h : Head) (m : Nat) (s : State) : State :=
  let q := (s.port p).queue
  respond p h (.done (.drained (q.take m) (q.length - m))) 0 (s.setPort p { s.port p with queue := q.drop m })

/-- Get Status is taken: the values of the moment (R141). -/
def takeGetStatus (p : Port) (h : Head) (s : State) : State :=
  let x := s.port p
  respond p h (.done (.status x.conditions x.queue.length (s.sweep.attachment.get p) x.record)) 0 s

/-- The condition block takes an Acknowledge: the named conditions clear, and the refusal record is discarded with
REFUSAL_HELD (R136). -/
def takeAcknowledge (p : Port) (h : Head) (mask : Byte) (s : State) : State :=
  let x := s.port p
  respond p h (.done (.acknowledged x.conditions)) 0
    (s.setPort p { x with
      conditions := x.conditions.clear mask
      record := if mask.getLsbD 4 then none else x.record })

/-! ### The order of checks and the dispatch -/

/-- What the checks of R150 decide: a result answered at once, with the local number for the refusal record, or a
dispatch. -/
inductive Checked where
  | refused (r : Result) (loc : Option Local)
  | dispatched (loc : Option Local) (request : Request)
  deriving DecidableEq, Repr

/-- The checks of R150, in their order. -/
def check (p : Port) (code : Byte) (body : List Byte) (s : State) : Checked :=
  if s.initialising then .refused .notReady none
  else if s.sweep.attachment.get p = .detaching then .refused .detaching none
  else
    match Code.ofByte? code with
    | none => .refused .badRequest none
    | some c =>
      if !lengthOk c body then .refused .badRequest none
      else if c.supervisor ∧ p ≠ .a then .refused .notSupervisor (refusalLocal c body)
      else
        match parse c body with
        | none => .refused .badRequest (refusalLocal c body)
        | some r => .dispatched (refusalLocal c body) r

/-- A dispatched table request is in work and raises its port engine's claim (R13, R150); the table free, it is granted at
once (R14). -/
def raiseClaim (p : Port) (h : Head) (r : Request) (s : State) : State :=
  let s' := s.setPort p { s.port p with work := some ⟨h, r⟩ }
  arbitrate { s' with arbiter := { s'.arbiter with claims := s'.arbiter.claims.set p true } }

/-- The dispatch (R150): answered at once by the block that owns the state, or a claim on the table (R13). -/
def dispatch (p : Port) (h : Head) (r : Request) (s : State) : State :=
  match r with
  | .drain m => takeDrain p h m s
  | .getStatus => takeGetStatus p h s
  | .acknowledge mask => takeAcknowledge p h mask s
  | .setTick period => takeSetTick p h period s
  | .holdLeases => takeHoldLeases p h s
  | .resumeLeases => takeResumeLeases p h s
  | .detach q => takeDetach p h q s
  | .read _ | .groupRead _ | .write _ _ | .conditionalWrite _ _ _ | .refresh _ | .subscribe _ _ _ _ _ | .unsubscribe _
  | .createValue _ _ | .createAlias _ _ | .retire _ | .map _ _ _ _ | .unmap _ _ | .readView _ _ | .readSlot _
  | .poolReport => raiseClaim p h r s

/-! ### Request transactions -/

/-- The held response, if any, is discarded by a frame taken, which sets DISCARDED (R148). -/
def discardHeld (p : Port) (s : State) : State :=
  match (s.port p).held with
  | some _ => setCondition .discarded p (s.setPort p { s.port p with held := none })
  | none => s

/-- Clock edges that the link does not heed (R144, R154, R158): only the level of select is kept. -/
def ignoreEdges (p : Port) (ends : Bool) (s : State) : State :=
  s.setPort p { s.port p with select := if ends then .high else .low }

/-- Select rises at the end of a request transaction of `edges` clock edges: none is under way any more, and zeros were shifted
out (R144, R146). -/
def closeRequest (p : Port) (edges : Nat) (s : State) : State :=
  s.setPort p { s.port p with select := .high, dataOut := List.replicate edges false }

/-- A good frame is taken according to the link state in which it ends (R148): in WORKING it is an overrun; otherwise a held
response is discarded and the frame goes through the checks. -/
def takeFrame (p : Port) (code tag : Byte) (body : List Byte) (s : State) : State :=
  match (s.port p).work with
  | some _ => setCondition .overrun p s
  | none =>
    let s' := discardHeld p s
    match check p code body s' with
    | .refused r loc => respond p ⟨code, tag, loc⟩ (.refusal r) 0 s'
    | .dispatched loc r => dispatch p ⟨code, tag, loc⟩ r s'

/-- The first byte 0xA5 of a request transaction completes (R145, R146); 0x00 was shifted out. -/
def openRequest (p : Port) (s : State) : State :=
  if s.hears p then
    match (s.port p).opened with
    | some _ => s.setPort p { s.port p with select := .request, dataOut := List.replicate 8 false }
    | none => s
  else ignoreEdges p false s

/-- Select rises at the end of a request transaction whose frame `judged` takes or discards. The edges are ignored where the
link does not heed them; a transaction of another type is not ended so. -/
def endRequest (p : Port) (edges : Nat) (judged : State → State) (s : State) : State :=
  if s.hears p then
    if (s.port p).framing then judged (closeRequest p edges s) else s
  else ignoreEdges p true s

/-- A request transaction with this code on port `p` (R146, R147). A body above 120 bytes cannot stand in a frame, so such a
transaction is a frame error. -/
def requestTransaction (p : Port) (code : Byte) (t : Transfer) (s : State) : State :=
  match t with
  | .typeByte => openRequest p s
  | .frame tag body =>
    endRequest p (8 * (body.length + 6))
      (if body.length ≤ maxBody then takeFrame p code tag body else setCondition .linkError p) s

/-- FRAME_ERROR: a request transaction ends with these bytes after its type byte, and is judged (R147). -/
def execFrameError (p : Port) (bytes : List Byte) (extra : Fin 8) (s : State) : Host.Outcome State Fault Refusal :=
  .next (endRequest p (8 * (bytes.length + 1) + extra)
    (match judge bytes extra with
      | .frameError => setCondition .linkError p
      | .good code tag body => takeFrame p code tag body) s)

/-- OVERRUN: a good frame ends while the port is WORKING (R148). -/
def execOverrun (p : Port) (code : Byte) (t : Transfer) (s : State) : Host.Outcome State Fault Refusal :=
  .next (requestTransaction p code t s)

/-- UNKNOWN_CODE_FRAME (R150, check 3). -/
def execUnknownCodeFrame (p : Port) (code : Byte) (t : Transfer) (s : State) : Host.Outcome State Fault Refusal :=
  .next (requestTransaction p code t s)

/-! ### Response transactions and transactions of no type -/

/-- The bits shifted out over `edges` rising edges: 0x00 during the first byte, then `bits`, then zeros (R144, R152). -/
def shiftedOut (edges : Nat) (bits : List Bool) : List Bool :=
  (List.replicate 8 false ++ bits ++ List.replicate edges false).take edges

/-- The rising edges after which the last bit of a response has been shifted out, the type byte's eight included (R152). -/
def releaseEdges (r : Response) : Nat := 8 * (r.bytes.length + 1)

/-- A port after `t`, `before` rising edges into its response transaction (R144, R152): the response held when the first byte
completes is the one it delivers, and its last CRC bit releases it. -/
def PortState.shiftResponse (before : Nat) (delivers : Option Response) (t : Stretch) (x : PortState) : PortState :=
  let total := before + t.edges
  let out := if before < 8 ∧ 8 ≤ total then x.held else delivers
  { x with
    select := if t.ends then .high else if total < 8 then .opening total else .response total out
    dataOut := shiftedOut total (out.elim [] (fun r => r.bytes.flatMap byteBits))
    held := if out.any (fun r => before < releaseEdges r && releaseEdges r ≤ total) then none else x.held }

/-- A response transaction begins, or goes on (R144, R152). With fewer than eight edges in all it has no first byte, and its
type plays no part. -/
def responseTransaction (p : Port) (t : Stretch) (s : State) : State :=
  if s.hears p then
    match (s.port p).opened, (s.port p).select with
    | some n, _ => s.setPort p ((s.port p).shiftResponse n none t)
    | none, .response n delivers => s.setPort p ((s.port p).shiftResponse n delivers t)
    | none, _ => s
  else ignoreEdges p t.ends s

/-- RESPONSE_TRANSACTION. -/
def execResponseTransaction (p : Port) (t : Stretch) (s : State) : Host.Outcome State Fault Refusal :=
  .next (responseTransaction p t s)

/-- A port after `t` of a transaction of neither type, which had shifted out `bits` (R144). -/
def PortState.shiftZeros (bits : List Bool) (t : Stretch) (x : PortState) : PortState :=
  { x with select := if t.ends then .high else .unknown, dataOut := bits ++ List.replicate t.edges false }

/-- A transaction of neither type begins, or goes on (R144): it shifts out zeros to its end, and at the completion of its first
byte it sets LINK_ERROR. A first byte of either type, or one that is not complete, is that transaction's. -/
def unknownTransaction (p : Port) (t : OtherStretch) (s : State) : State :=
  let x := s.port p
  if s.hears p then
    match x.opened, x.select with
    | some n, _ =>
      if n + t.stretch.edges < 8 ∨ t.first = 0x5A#8 then responseTransaction p t.stretch s
      else if t.first = 0xA5#8 then openRequest p s
      else setCondition .linkError p (s.setPort p (x.shiftZeros (List.replicate n false) t.stretch))
    | none, .unknown => s.setPort p (x.shiftZeros x.dataOut t.stretch)
    | none, _ => s
  else ignoreEdges p t.stretch.ends s

/-- UNKNOWN_TRANSACTION. -/
def execUnknownTransaction (p : Port) (t : OtherStretch) (s : State) : Host.Outcome State Fault Refusal :=
  .next (unknownTransaction p t s)

/-! ### The port engine's grant -/

/-- The whole table work of a request, in its grant (R15, R17). -/
def tableWork (p : Port) (r : Request) (s : State) : Worked :=
  match r with
  | .read l => workRead p l s
  | .groupRead ls => workGroupRead p ls s
  | .write l v => workWrite p l v s
  | .conditionalWrite l e v => workConditionalWrite p l e v s
  | .refresh l => workRefresh p l s
  | .subscribe l m f mode q => workSubscribe p l m f mode q s
  | .unsubscribe l => workUnsubscribe p l s
  | .createValue v i => workCreateValue v i s
  | .createAlias t w => workCreateAlias t w s
  | .retire i => workRetire i s
  | .map port l i rights => workMap port l i rights s
  | .unmap port l => workUnmap port l s
  | .readView port l => workReadView port l s
  | .readSlot i => workReadSlot i s
  | .poolReport => workPoolReport s
  -- The requests answered at once raise no claim (R13), so no grant holds one of these seven.
  | .drain _ | .getStatus | .acknowledge _ | .detach _ | .setTick _ | .holdLeases | .resumeLeases =>
    .report s (.refusal .badRequest)

/-- The arrivals of a request's grant reach the queues; with the last, the response is built, or discarded if PRST fell
during the grant (R153, R154), and the grant ends. -/
def carryRequest (pr : Progress) (p : Port) (w : Work) (discarded : Bool) (v : Verdict) (as : List Arrival) (removed : Nat)
    (s : State) : State :=
  let s' := advance pr ⟨.port p w discarded (some v), as, removed⟩ s
  match pr with
  | .toEnd => endGrant (if discarded then s' else respond p w.head v (removed + arrivalsRemove as s) s')
  | .arrivals _ => s'

/-- PORT_ENGINE_GRANT: the work of the request whose port engine holds the table (R15). -/
def execPortEngineGrant (pr : Progress) (s : State) : Host.Outcome State Fault Refusal :=
  match s.arbiter.grant with
  | some ⟨.port p w discarded none, _, _⟩ =>
    let k := tableWork p w.request s
    .next (if s.clocked then carryRequest pr p w discarded k.verdict k.arrivals 0 k.state else s)
  | some ⟨.port p w discarded (some v), as, removed⟩ =>
    .next (if s.clocked then carryRequest pr p w discarded v as removed s else s)
  | _ => .next s

end Sys2Proof.Machine
end

