-- ==== Sys2Proof/Machine/Lines.lean ====
section
/-! DEFINITION. The lines: port reset (R121, R154), RSTn and the initialiser (R158 to R160), REFCLK (R159, R161). -/
namespace Sys2Proof.Machine

/-- A grant of port `p` that has begun keeps its whole effect, and its response will be discarded (R16, R154). -/
def Holder.discardFor (p : Port) (h : Holder) : Holder :=
  match h with
  | .port q w d v => .port q w (d || q = p) v
  | .lease k st => .lease k st
  | .sweep w => .sweep w

/-- The link of a port at the fall of its PRST (R154): IDLE, nothing held, the transaction under way abandoned. Select keeps
its level. -/
def resetLink (x : PortState) : PortState :=
  { x with prst := .low, select := x.select.abandoned, work := none, held := none, dataOut := [] }

/-- A port reset while RSTn is high (R154): the link, a claim not granted (R16), a grant begun. -/
def resetPort (p : Port) (s : State) : State :=
  let s' := withdrawClaim p s
  { s'.setPort p (resetLink (s'.port p)) with
    arbiter := { s'.arbiter with
      grant := s'.arbiter.grant.map (fun g => { g with holder := g.holder.discardFor p }) } }

/-- PRST_FALL (R121, R154). While RSTn is low it has no effect but the pin's level (R158); during initialisation it sets no
flag (R121). A line already low does not fall. -/
def execPrstFall (p : Port) (s : State) : Host.Outcome State Fault Refusal :=
  .next (
    match (s.port p).prst, s.rstn with
    | .low, _ => s
    | .high, .low => s.setPort p { s.port p with prst := .low }
    | .high, .high => if s.initialising then resetPort p s else markDetachment p (resetPort p s))

/-- PRST_RISE (R154): the link accepts the next transaction. -/
def execPrstRise (p : Port) (s : State) : Host.Outcome State Fault Refusal :=
  .next (s.setPort p { s.port p with prst := .high })

/-- A port at the fall of RSTn: its power-on value, the levels of the PRST and SEL pins as they are (R158). -/
def PortState.cleared (x : PortState) : PortState :=
  { PortState.powerOn with prst := x.prst, select := x.select.abandoned }

/-- RSTN_FALL (R158): all work is abandoned, every block takes its power-on value, and the table memory has no defined
value (a free value, log entry 8); the divider stands at 0 (log entry 23). A line already low does not fall. -/
def execRstnFall (s : State) : Host.Outcome State Fault Refusal :=
  .next (
    match s.rstn with
    | .low => s
    | .high =>
      { s with
        rstn := .low
        initialising := false
        ports := ⟨s.ports.a.cleared, s.ports.b.cleared, s.ports.c.cleared, s.ports.d.cleared⟩
        table := Config.tableUnderReset s.freeDraws
        arbiter := .powerOn
        lease := .powerOn
        sweep := .powerOn
        freeDraws := s.freeDraws + 1 })

/-- RSTN_RELEASE (R159): the initialiser's flag is set and the divider starts a fresh period. The table memory is left as it
stood until the clearing ends (log entry 24). -/
def execRstnRelease (s : State) : Host.Outcome State Fault Refusal :=
  .next (
    match s.rstn with
    | .high => s
    | .low => { s with rstn := .high, initialising := true, lease := { s.lease with divider := 0 } })

/-- A port at the end of initialisation: DETACHED is set (R160). -/
def PortState.initialised (x : PortState) : PortState := { x with conditions := x.conditions.raise .detached }

/-- INITIALISATION_END (R160): the table memory has its power-on contents, the flag clears, DETACHED is set on all four
ports. All of the clearing is made here, at its end (log entry 24). It cannot come while no initialisation is in progress or
REFCLK is stopped (R159). -/
def execInitialisationEnd (s : State) : Host.Outcome State Fault Refusal :=
  .next (
    if s.initialising && s.clocked then
      { s with
        initialising := false
        table := .cleared
        ports := ⟨s.ports.a.initialised, s.ports.b.initialised, s.ports.c.initialised, s.ports.d.initialised⟩ }
    else s)

/-- REFCLK_STOP (R159). -/
def execRefclkStop (s : State) : Host.Outcome State Fault Refusal := .next { s with refclk := false }

/-- REFCLK_RESUME (R159). -/
def execRefclkResume (s : State) : Host.Outcome State Fault Refusal := .next { s with refclk := true }

end Sys2Proof.Machine
end

