-- ==== Sys2Proof/Machine/Requests.lean ====
section
/-! DEFINITION. The meaning of each request command: its frame arrives on the port under its code of R156, is checked,
and is answered at once or dispatched to the table (R148, R150). The table work of a dispatched request runs in its grant
(PORT_ENGINE_GRANT, R15). -/
namespace Sys2Proof.Machine

/-- READ: a Read's transaction (R50). Its table work is `workRead`, in the grant. -/
def execRead (p : Port) (t : Transfer) (s : State) : Host.Outcome State Fault Refusal :=
  .next (requestTransaction p (Code.toByte .read) t s)

/-- GROUP_READ (R53). Its table work is `workGroupRead`, in the grant. -/
def execGroupRead (p : Port) (t : Transfer) (s : State) : Host.Outcome State Fault Refusal :=
  .next (requestTransaction p (Code.toByte .groupRead) t s)

/-- WRITE (R55). Its table work is `workWrite`, in the grant. -/
def execWrite (p : Port) (t : Transfer) (s : State) : Host.Outcome State Fault Refusal :=
  .next (requestTransaction p (Code.toByte .write) t s)

/-- CONDITIONAL_WRITE (R60). Its table work is `workConditionalWrite`, in the grant. -/
def execConditionalWrite (p : Port) (t : Transfer) (s : State) : Host.Outcome State Fault Refusal :=
  .next (requestTransaction p (Code.toByte .conditionalWrite) t s)

/-- REFRESH (R64). Its table work is `workRefresh`, in the grant. -/
def execRefresh (p : Port) (t : Transfer) (s : State) : Host.Outcome State Fault Refusal :=
  .next (requestTransaction p (Code.toByte .refresh) t s)

/-- SUBSCRIBE (R93). Its table work is `workSubscribe`, in the grant. -/
def execSubscribe (p : Port) (t : Transfer) (s : State) : Host.Outcome State Fault Refusal :=
  .next (requestTransaction p (Code.toByte .subscribe) t s)

/-- UNSUBSCRIBE (R98). Its table work is `workUnsubscribe`, in the grant. -/
def execUnsubscribe (p : Port) (t : Transfer) (s : State) : Host.Outcome State Fault Refusal :=
  .next (requestTransaction p (Code.toByte .unsubscribe) t s)

/-- DRAIN (R110): answered at once by `takeDrain`. -/
def execDrain (p : Port) (t : Transfer) (s : State) : Host.Outcome State Fault Refusal :=
  .next (requestTransaction p (Code.toByte .drain) t s)

/-- GET_STATUS (R141): answered at once by `takeGetStatus`. -/
def execGetStatus (p : Port) (t : Transfer) (s : State) : Host.Outcome State Fault Refusal :=
  .next (requestTransaction p (Code.toByte .getStatus) t s)

/-- ACKNOWLEDGE (R136): answered at once by `takeAcknowledge`. -/
def execAcknowledge (p : Port) (t : Transfer) (s : State) : Host.Outcome State Fault Refusal :=
  .next (requestTransaction p (Code.toByte .acknowledge) t s)

/-- CREATE_VALUE (R18). Its table work is `workCreateValue`, in the grant. -/
def execCreateValue (p : Port) (t : Transfer) (s : State) : Host.Outcome State Fault Refusal :=
  .next (requestTransaction p (Code.toByte .createValue) t s)

/-- CREATE_ALIAS (R19). Its table work is `workCreateAlias`, in the grant. -/
def execCreateAlias (p : Port) (t : Transfer) (s : State) : Host.Outcome State Fault Refusal :=
  .next (requestTransaction p (Code.toByte .createAlias) t s)

/-- RETIRE (R118). Its table work is `workRetire`, in the grant. -/
def execRetire (p : Port) (t : Transfer) (s : State) : Host.Outcome State Fault Refusal :=
  .next (requestTransaction p (Code.toByte .retire) t s)

/-- MAP (R26). Its table work is `workMap`, in the grant. -/
def execMap (p : Port) (t : Transfer) (s : State) : Host.Outcome State Fault Refusal :=
  .next (requestTransaction p (Code.toByte .map) t s)

/-- UNMAP (R28). Its table work is `workUnmap`, in the grant. -/
def execUnmap (p : Port) (t : Transfer) (s : State) : Host.Outcome State Fault Refusal :=
  .next (requestTransaction p (Code.toByte .unmap) t s)

/-- READ_VIEW (R32). Its table work is `workReadView`, in the grant. -/
def execReadView (p : Port) (t : Transfer) (s : State) : Host.Outcome State Fault Refusal :=
  .next (requestTransaction p (Code.toByte .readView) t s)

/-- READ_SLOT (R20). Its table work is `workReadSlot`, in the grant. -/
def execReadSlot (p : Port) (t : Transfer) (s : State) : Host.Outcome State Fault Refusal :=
  .next (requestTransaction p (Code.toByte .readSlot) t s)

/-- DETACH (R120): answered at once by `takeDetach`. -/
def execDetach (p : Port) (t : Transfer) (s : State) : Host.Outcome State Fault Refusal :=
  .next (requestTransaction p (Code.toByte .detach) t s)

/-- SET_TICK (R78): answered at once by `takeSetTick`. -/
def execSetTick (p : Port) (t : Transfer) (s : State) : Host.Outcome State Fault Refusal :=
  .next (requestTransaction p (Code.toByte .setTick) t s)

/-- HOLD_LEASES (R79): answered at once by `takeHoldLeases`. -/
def execHoldLeases (p : Port) (t : Transfer) (s : State) : Host.Outcome State Fault Refusal :=
  .next (requestTransaction p (Code.toByte .holdLeases) t s)

/-- RESUME_LEASES (R80): answered at once by `takeResumeLeases`. -/
def execResumeLeases (p : Port) (t : Transfer) (s : State) : Host.Outcome State Fault Refusal :=
  .next (requestTransaction p (Code.toByte .resumeLeases) t s)

/-- POOL_REPORT (R142). Its table work is `workPoolReport`, in the grant. -/
def execPoolReport (p : Port) (t : Transfer) (s : State) : Host.Outcome State Fault Refusal :=
  .next (requestTransaction p (Code.toByte .poolReport) t s)

end Sys2Proof.Machine
end

