-- ==== Sys2Proof/Machine/Dispatch.lean ====
section
/-! DEFINITION. One arm per command, each a direct call of its meaning. -/
namespace Sys2Proof.Machine

/-- The effect of a command on everything but the queue of commands. -/
def exec (i : Instr) (s : State) : Host.Outcome State Fault Refusal :=
  match i with
  | .read p t => Sys2Proof.Machine.execRead p t s
  | .groupRead p t => Sys2Proof.Machine.execGroupRead p t s
  | .write p t => Sys2Proof.Machine.execWrite p t s
  | .conditionalWrite p t => Sys2Proof.Machine.execConditionalWrite p t s
  | .refresh p t => Sys2Proof.Machine.execRefresh p t s
  | .subscribe p t => Sys2Proof.Machine.execSubscribe p t s
  | .unsubscribe p t => Sys2Proof.Machine.execUnsubscribe p t s
  | .drain p t => Sys2Proof.Machine.execDrain p t s
  | .getStatus p t => Sys2Proof.Machine.execGetStatus p t s
  | .acknowledge p t => Sys2Proof.Machine.execAcknowledge p t s
  | .createValue p t => Sys2Proof.Machine.execCreateValue p t s
  | .createAlias p t => Sys2Proof.Machine.execCreateAlias p t s
  | .retire p t => Sys2Proof.Machine.execRetire p t s
  | .map p t => Sys2Proof.Machine.execMap p t s
  | .unmap p t => Sys2Proof.Machine.execUnmap p t s
  | .readView p t => Sys2Proof.Machine.execReadView p t s
  | .readSlot p t => Sys2Proof.Machine.execReadSlot p t s
  | .detach p t => Sys2Proof.Machine.execDetach p t s
  | .setTick p t => Sys2Proof.Machine.execSetTick p t s
  | .holdLeases p t => Sys2Proof.Machine.execHoldLeases p t s
  | .resumeLeases p t => Sys2Proof.Machine.execResumeLeases p t s
  | .poolReport p t => Sys2Proof.Machine.execPoolReport p t s
  | .portEngineGrant g => Sys2Proof.Machine.execPortEngineGrant g s
  | .tick => Sys2Proof.Machine.execTick s
  | .leaseAccess => Sys2Proof.Machine.execLeaseAccess s
  | .leaseExpiry g => Sys2Proof.Machine.execLeaseExpiry g s
  | .stepV g => Sys2Proof.Machine.execStepV g s
  | .stepS g => Sys2Proof.Machine.execStepS g s
  | .stepF c => Sys2Proof.Machine.execStepF c s
  | .stepD1 => Sys2Proof.Machine.execStepD1 s
  | .stepD2 => Sys2Proof.Machine.execStepD2 s
  | .prstFall p => Sys2Proof.Machine.execPrstFall p s
  | .prstRise p => Sys2Proof.Machine.execPrstRise p s
  | .rstnFall => Sys2Proof.Machine.execRstnFall s
  | .rstnRelease => Sys2Proof.Machine.execRstnRelease s
  | .initialisationEnd => Sys2Proof.Machine.execInitialisationEnd s
  | .frameError p bytes extra => Sys2Proof.Machine.execFrameError p bytes extra s
  | .unknownTransaction p t => Sys2Proof.Machine.execUnknownTransaction p t s
  | .overrun p code t => Sys2Proof.Machine.execOverrun p code t s
  | .responseTransaction p t => Sys2Proof.Machine.execResponseTransaction p t s
  | .unknownCodeFrame p code t => Sys2Proof.Machine.execUnknownCodeFrame p code t s
  | .refclkStop => Sys2Proof.Machine.execRefclkStop s
  | .refclkResume => Sys2Proof.Machine.execRefclkResume s

end Sys2Proof.Machine
end

