-- ==== Sys2Proof/Safety.lean ====
section
/-! DEFINITION. What the spec promises of the state in every run: the invariants that the statements are about, and the
conditions under which a request is served. -/
namespace Sys2Proof.Machine

/-! ### Reset and initialisation -/

/-- No transaction is under way at the port (R144). -/
def PortState.noTransaction (x : PortState) : Prop := x.select = .high ∨ x.select = .low

/-- RSTn is low or the initialiser runs: no table work is done (R158, R159). -/
def State.unready (s : State) : Prop := s.rstn = .low ∨ s.initialising = true

/-- The table memory has the contents that granted work left in it (R158, R159). -/
def State.tableValid (s : State) : Prop := s.rstn = .high ∧ s.initialising = false

/-- While RSTn is low or the initialiser runs, no claim is raised and no grant is given, the engines stand at their power-on
values but for the divider, queues and condition blocks are empty (R16, R116, R134, R159); while RSTn is low no
initialisation is in progress and every link is IDLE with nothing held and no transaction under way (R144, R158). -/
def State.QuietInv (s : State) : Prop :=
  (s.unready →
    s.arbiter = .powerOn ∧ s.sweep = .powerOn ∧ { s.lease with divider := 0 } = .powerOn ∧
    ∀ p, (s.port p).work = none ∧ (s.port p).queue = [] ∧ (s.port p).conditions = .none ∧ (s.port p).record = none) ∧
  (s.rstn = .low →
    s.initialising = false ∧ ∀ p, (s.port p).held = none ∧ (s.port p).noTransaction)

/-! ### Queues and condition blocks -/

/-- A queue holds at most 32 entries, no two with one local number and class, each with a merged count of 1 to 255 (R101,
R102). -/
def QueueWf (q : List Entry) : Prop :=
  q.length ≤ 32 ∧ q.Pairwise (fun a b => ¬(a.loc = b.loc ∧ a.note.cls = b.note.cls)) ∧
  ∀ e ∈ q, 1 ≤ e.merged ∧ e.merged ≤ 255

/-- Every port's queue keeps R101 and R102. -/
def State.QueueInv (s : State) : Prop := ∀ p, QueueWf (s.port p).queue

/-- The refusal record is present exactly while REFUSAL_HELD is set (R134). -/
def State.RecordInv (s : State) : Prop := ∀ p, (s.port p).record.isSome = (s.port p).conditions.refusalHeld

/-! ### Links and claims -/

/-- The grant in progress is that of port `p`'s request `w`, whose response is still wanted. -/
def State.servedNow (s : State) (p : Port) (w : Work) : Prop :=
  ∃ v as n, s.arbiter.grant = some ⟨.port p w false v, as, n⟩

/-- A transaction under way at the port stands as R144 and R152 say: its type is open for fewer than eight edges and known
from the eighth; the response that a response transaction delivers stays held until its last bit has been shifted out. -/
def PortState.transactionOk (x : PortState) : Prop :=
  (∀ n, x.select = .opening n → n < 8) ∧
  ∀ n d, x.select = .response n d → 8 ≤ n ∧ ∀ r, d = some r → n < releaseEdges r → x.held = some r

/-- A port with a request in work holds no response (R145), and its request waits with its claim raised or is the one being
granted, not both (R13, R14); a port whose PRST is low has an IDLE link with nothing held and no transaction under way
(R154); a transaction under way is in order (R144, R152). -/
def State.LinkInv (s : State) : Prop :=
  ∀ p,
    ((s.port p).work.isSome → (s.port p).held = none) ∧
    (s.arbiter.claims.get p = true → (s.port p).work.isSome) ∧
    (∀ w, s.servedNow p w → (s.port p).work = some w ∧ s.arbiter.claims.get p = false) ∧
    (∀ w, (s.port p).work = some w → s.arbiter.claims.get p = true ∨ s.servedNow p w) ∧
    ((s.port p).prst = .low → (s.port p).noTransaction ∧ (s.port p).work = none ∧ (s.port p).held = none) ∧
    (s.port p).transactionOk

/-! ### The engines -/

/-- The lease engine (R68 to R71, R79): at most 15 pending ticks, the claim raised exactly while ticks are pending, none
pending in HELD, the divider inside its period, and an access that holds the table took 1 to 15 ticks. -/
def State.LeaseInv (s : State) : Prop :=
  s.lease.pending ≤ 15 ∧ (s.lease.claim = true ↔ 0 < s.lease.pending) ∧
  (s.lease.hold = .held → s.lease.pending = 0) ∧ s.lease.divider < s.lease.period.refclks ∧
  ∀ k st as n, s.arbiter.grant = some ⟨.lease k st, as, n⟩ → 1 ≤ k ∧ k ≤ 15

/-- The job stands at a step that takes a table grant: any but D2 (R125, R130). -/
def Job.takesGrant : Job → Bool
  | .retirement _ _ => true
  | .detachment _ .d1 => true
  | .detachment _ .d2 => false

/-- The grant in progress is the sweep engine's. -/
def State.sweepHolds (s : State) : Prop := ∃ w as n, s.arbiter.grant = some ⟨.sweep w, as, n⟩

/-- The job is a detachment of port `p`. -/
def Job.detaches (p : Port) : Job → Bool
  | .detachment q _ => q = p
  | .retirement _ _ => false

/-- The sweep engine (R116, R124, R125, R130): at most four jobs wait; its claim or its grant, and only one of them, stands
for a current step that takes a grant; an idle engine has no work waiting, but for the choice left due by step F, which the
grant in progress will end (R119; log entries 6, 25); a port is DETACHING exactly while its flag is set or its detachment is the current job, and
it raises no claim then (R122, R123); a port whose detachment stands at step D2 holds no subscription, and the grant in progress
is not of a request of its (R129). -/
def State.SweepInv (s : State) : Prop :=
  s.sweep.fifo.length ≤ 4 ∧
  (s.sweep.claim = true → ∃ j, s.sweep.job = some j ∧ j.takesGrant = true) ∧
  (s.sweepHolds → s.sweep.claim = false ∧ ∃ j, s.sweep.job = some j ∧ j.takesGrant = true) ∧
  (∀ j, s.sweep.job = some j → j.takesGrant = true → s.sweep.claim = true ∨ s.sweepHolds) ∧
  (s.sweep.choiceDue = true → s.sweep.job = none ∧ s.arbiter.grant.isSome = true) ∧
  (s.sweep.job = none → s.sweep.choiceDue = false → s.sweep.fifo = [] ∧ ∀ p, s.sweep.flags.get p = false) ∧
  (∀ p, s.sweep.attachment.get p = .detaching ↔
    (s.sweep.flags.get p = true ∨ ∃ j, s.sweep.job = some j ∧ j.detaches p = true)) ∧
  (∀ p, s.sweep.attachment.get p = .detaching → s.arbiter.claims.get p = false) ∧
  ∀ p, s.sweep.job = some (.detachment p .d2) →
    (∀ u ∈ s.table.pool, u.port ≠ p) ∧ ∀ w d v as n, s.arbiter.grant ≠ some ⟨.port p w d v, as, n⟩

/-! ### The table -/

/-- The slot of a current retirement job. -/
def Sweep.jobSlots (w : Sweep) : List Slot :=
  match w.job with
  | some (.retirement i _) => [i]
  | some (.detachment _ _) | none => []

/-- The slots on the free list are the FREE slots, each once (R11); the RETIRING slots are those of the retire FIFO and of
the current retirement job, each once (R116, R119). -/
def State.SlotInv (s : State) : Prop :=
  s.tableValid →
    s.table.freeList.Nodup ∧ (∀ i, i ∈ s.table.freeList ↔ (s.table.record i).body = .free) ∧
    (s.sweep.fifo ++ s.sweep.jobSlots).Nodup ∧
    ∀ i, i ∈ s.sweep.fifo ++ s.sweep.jobSlots ↔ (s.table.record i).isRetiring = true

/-- The pool never holds more than 192 subscriptions, a port no more than 64, and no port two on one local (R83). -/
def State.PoolInv (s : State) : Prop :=
  s.tableValid →
    s.table.pool.length ≤ 192 ∧ (∀ p, s.table.portCount p ≤ 64) ∧
    s.table.pool.Pairwise (fun u v => ¬(u.port = v.port ∧ u.loc = v.loc))

/-- The lease fields of a VALUE record: an interval of 0 goes with a remaining of 0, the remaining never passes the
interval, and the record is STALE exactly when it has an interval and its remaining is 0 (R9, R73). -/
def ValueFields.leaseOk (v : ValueFields) : Prop :=
  v.remaining ≤ v.interval ∧ (v.quality = .stale ↔ 0 < v.interval ∧ v.remaining = 0)

/-- The lease access in progress has brought the record of `i` to 0 and its expiry is due (R72). -/
def State.expiryDue (s : State) (i : Slot) : Prop :=
  ∃ k as n, s.arbiter.grant = some ⟨.lease k (.expiring i), as, n⟩

/-- Every VALUE record, LIVE or RETIRING, keeps R73, but the one whose expiry is due in the access in progress: that one is
LIVE with an interval and a remaining of 0. -/
def State.FreshInv (s : State) : Prop :=
  s.tableValid →
    (∀ i v, (s.table.record i).body.content? = some (.value v) → ¬s.expiryDue i → v.leaseOk) ∧
    ∀ i, s.expiryDue i → ∃ v, (s.table.record i).body = .live (.value v) ∧ 0 < v.interval ∧ v.remaining = 0

/-- The current retirement job's step V-x is past, or its table work is done (R126). -/
def State.sweptView (s : State) (x : Port) : Prop :=
  match s.sweep.job with
  | some (.retirement _ (.v y)) =>
    match s.arbiter.grant with
    | some ⟨.sweep true, _, _⟩ => Port.all.idxOf x ≤ Port.all.idxOf y
    | some _ | none => Port.all.idxOf x < Port.all.idxOf y
  | some (.retirement _ .s) | some (.retirement _ .f) => True
  | some (.detachment _ _) | none => False

/-- The current retirement job is that of slot `i`, and its step S is past, or its table work is done (R127). -/
def State.sweptList (s : State) (i : Slot) : Prop :=
  s.sweep.job = some (.retirement i .f) ∨
  (s.sweep.job = some (.retirement i .s) ∧ ∃ as n, s.arbiter.grant = some ⟨.sweep true, as, n⟩)

/-- A view entry names a slot that is LIVE or RETIRING (R23); a subscription's view entry is present and names its via slot
(R31), and its target is a VALUE record, LIVE or RETIRING (R86); views swept by the current job no longer name its
slot, and once its step S is done no subscription has the slot as its target (R126, R127). -/
def State.ViewInv (s : State) : Prop :=
  s.tableValid →
    (∀ p l e, s.table.entry p l = some e → (s.table.record e.slot).body ≠ .free) ∧
    (∀ u ∈ s.table.pool,
      (∃ r, s.table.entry u.port u.loc = some ⟨u.via, r⟩) ∧
      ∃ v, (s.table.record u.target).body.content? = some (.value v)) ∧
    (∀ i st, s.sweep.job = some (.retirement i st) → ∀ x, s.sweptView x → ∀ l, s.table.names x i l = false) ∧
    (∀ i, s.sweptList i → ∀ u ∈ s.table.pool, u.target ≠ i)

/-! ### Queued notifications and subscriptions -/

/-- The arrivals that the grant in progress has made and the queues have not yet taken (R103). -/
def State.waiting (s : State) : List Arrival :=
  match s.arbiter.grant with
  | some g => g.arrivals
  | none => []

/-- The holder's table work is done, and its arrivals are on their way to the queues (R15, R103). -/
def Holder.workDone : Holder → Bool
  | .port _ _ _ v => v.isSome
  | .lease _ (.posting _) => true
  | .lease _ .start | .lease _ (.expiring _) => false
  | .sweep worked => worked

/-- Port `p` holds a subscription on local `l` (R85). -/
def Table.subscribed (t : Table) (p : Port) (l : Local) : Prop := ∃ u ∈ t.pool, u.port = p ∧ u.loc = l

/-- Every queued notification whose class is not RETIRED names a local on which its port holds a subscription, except between
the steps of a detachment of the port (R102), and except while the removal of that local's entries is on its way to the queue in
the grant that returned the subscription. Every such post on its way is for a subscription in use. Arrivals are on their way
only in a grant whose table work is done; of the sweep engine's, at a step V-x or S. -/
def State.NoticeInv (s : State) : Prop :=
  s.tableValid →
    (∀ p, ∀ e ∈ (s.port p).queue, e.note = .retired ∨ s.table.subscribed p e.loc ∨
      s.sweep.job = some (.detachment p .d2) ∨ ∃ k, Arrival.removal p e.loc k ∈ s.waiting) ∧
    (∀ p l n, Arrival.post p l n ∈ s.waiting → n = .retired ∨ s.table.subscribed p l) ∧
    (∀ h as n, s.arbiter.grant = some ⟨h, as, n⟩ → h.workDone = false → as = []) ∧
    ∀ as n, s.arbiter.grant = some ⟨.sweep true, as, n⟩ →
      ∃ i, s.sweep.job = some (.retirement i .s) ∨ ∃ x, s.sweep.job = some (.retirement i (.v x))

/-! ### Parts of the state that an effect leaves alone -/

/-- The lines, the initialiser's flag and the model's own fields: what stands outside the ports, the table, the arbiter and
the two engines. -/
def State.outer (s : State) : Line × Bool × Bool × Nat × List Instr :=
  (s.rstn, s.refclk, s.initialising, s.freeDraws, s.pending)

/-! ### The sweep engine's choice (R124) -/

/-- From `w`, the engine has taken its next job and is now `w'`: a detachment of the lowest-lettered flagged port, else the
slot at the head of the FIFO, either with its claim raised; else it is idle. -/
def Sweep.takes (w w' : Sweep) : Prop :=
  (∃ x, w.flags.get x = true ∧ (∀ y, Port.all.idxOf y < Port.all.idxOf x → w.flags.get y = false) ∧
    w' = { w with
      flags := w.flags.set x false, job := some (.detachment x .d1), claim := true, choiceDue := false }) ∨
  ((∀ x, w.flags.get x = false) ∧ ∃ i rest, w.fifo = i :: rest ∧
    w' = { w with fifo := rest, job := some (.retirement i (.v .a)), claim := true, choiceDue := false }) ∨
  ((∀ x, w.flags.get x = false) ∧ w.fifo = [] ∧ w' = { w with choiceDue := false })

/-- From `w`, port `q` has been marked for detachment and the engine is now `w'` (R120, R121, R124): an engine with a job, or
with its choice still due (log entry 25), keeps the flag set; an idle engine has taken its next job. -/
def Sweep.marks (w w' : Sweep) (q : Port) : Prop :=
  let m : Sweep := { w with attachment := w.attachment.set q .detaching, flags := w.flags.set q true }
  ((w.job.isSome = true ∨ w.choiceDue = true) → w' = m) ∧ (w.job = none → w.choiceDue = false → m.takes w')

/-! ### When a request is served -/

/-- The table is free, no claim is raised and no choice of a job is due: a claim raised now is granted at once (R14). -/
def State.tableIdle (s : State) : Prop :=
  s.arbiter.grant = none ∧ (∀ r, s.claimed r = false) ∧ s.sweep.choiceDue = false

/-- The grant in progress is this holder's, with its work still to be done, no other claim is raised and no choice of a job is
due: when the grant ends, the table is free. -/
def State.granted (s : State) (h : Holder) : Prop :=
  s.arbiter.grant = some ⟨h, [], 0⟩ ∧ (∀ r, s.claimed r = false) ∧ s.sweep.choiceDue = false

/-- A frame can end on port `p` now: its link is on, and select is high or its request transaction is under way (R144). -/
def State.framed (s : State) (p : Port) : Prop := s.linkOn p = true ∧ (s.port p).framing = true

/-- Port `p` checks a frame past checks 1 and 2: a frame can end there, no request is in work, the initialiser does not run,
the port is ATTACHED (R145, R148, R150). -/
def State.taking (s : State) (p : Port) : Prop :=
  s.framed p ∧ (s.port p).work = none ∧ s.initialising = false ∧ s.sweep.attachment.get p = .attached

/-- A frame is taken, and a table request then granted and carried out at once. REFCLK runs. -/
def State.serving (s : State) (p : Port) : Prop := s.taking p ∧ s.tableIdle ∧ s.refclk = true

/-- The command that brings a transaction with a request's code (R156). -/
def requestCommand (c : Code) (p : Port) (t : Transfer) : Instr :=
  match c with
  | .read => .read p t
  | .groupRead => .groupRead p t
  | .write => .write p t
  | .conditionalWrite => .conditionalWrite p t
  | .refresh => .refresh p t
  | .subscribe => .subscribe p t
  | .unsubscribe => .unsubscribe p t
  | .drain => .drain p t
  | .getStatus => .getStatus p t
  | .acknowledge => .acknowledge p t
  | .createValue => .createValue p t
  | .createAlias => .createAlias p t
  | .retire => .retire p t
  | .map => .map p t
  | .unmap => .unmap p t
  | .readView => .readView p t
  | .readSlot => .readSlot p t
  | .detach => .detach p t
  | .setTick => .setTick p t
  | .holdLeases => .holdLeases p t
  | .resumeLeases => .resumeLeases p t
  | .poolReport => .poolReport p t

/-- The requests that raise no claim (R13). -/
def Code.atOnce : Code → Bool
  | .drain | .getStatus | .acknowledge | .setTick | .holdLeases | .resumeLeases | .detach => true
  | .read | .groupRead | .write | .conditionalWrite | .refresh | .subscribe | .unsubscribe | .createValue | .createAlias
  | .retire | .map | .unmap | .readView | .readSlot | .poolReport => false

/-- A port at the rise of select that ends a request transaction with `n` body bytes (R144, R146). -/
def PortState.closing (x : PortState) (n : Nat) : PortState :=
  { x with select := .high, dataOut := List.replicate (8 * (n + 6)) false }

/-- A port as the checks find it, for a good frame of `n` body bytes taken while no request is in work and the initialiser
does not run: a held response is discarded and DISCARDED set (R148). -/
def PortState.afterFrame (x : PortState) (n : Nat) : PortState :=
  { x.closing n with
    held := none
    conditions := if x.held.isSome then { x.conditions with discarded := true } else x.conditions }

/-- A port whose response has been built and is held (R153). -/
def PortState.answering (x : PortState) (tag : Byte) (result : Result) (body : List Byte) : PortState :=
  { x with work := none, held := some (makeResponse tag result (conditionsByte x) body) }

/-- A port whose refusal has been captured, if REFUSAL_HELD was clear, and is held as its response (R138, R153). -/
def PortState.refusing (x : PortState) (r : RefusalRecord) (body : List Byte) : PortState :=
  (if x.conditions.refusalHeld then x
    else { x with conditions := { x.conditions with refusalHeld := true }, record := some r }).answering r.tag r.result body

/-- Port `p`'s request `r`, sent with this tag, has the grant in progress, its work is still to be done and its response is
wanted. REFCLK runs, and the initialiser does not: no grant is given while it runs (R16). -/
def State.carries (s : State) (p : Port) (tag : Byte) (r : Request) : Prop :=
  s.clocked = true ∧ s.initialising = false ∧
  ∃ as n, s.arbiter.grant = some ⟨.port p ⟨⟨r.code.toByte, tag, refusalLocal r.code r.body⟩, r⟩ false none, as, n⟩

/-- A request of port `p` whose work is done: the table is `t`, the queues have taken the arrivals `as`, and the response DONE
with this body is held. Nothing else has changed. -/
def State.concluded (s : State) (p : Port) (t : Table) (as : List Arrival) (tag : Byte) (body : List Byte) : State :=
  let s' := takeArrivals as { s with table := t }
  s'.setPort p ((s'.port p).answering tag .done body)

/-- A request of port `p` that its work has refused: nothing has changed but the port. -/
def State.declined (s : State) (p : Port) (r : RefusalRecord) (body : List Byte) : State :=
  s.setPort p ((s.port p).refusing r body)

/-- Port `p`'s frame of `n` body bytes commanded by `c` is taken, granted at once and carried out: what its grant makes of the
port as the frame has left it is `f`, and the arbiter's pointer names the port's engine. Nothing else has changed. -/
def State.serves (s : State) (c : Instr) (p : Port) (n : Nat) (f : State → State) : Prop :=
  ∃ t, exec c s = .next t ∧ exec (.portEngineGrant .toEnd) t = .next
    { f (s.setPort p ((s.port p).afterFrame n)) with arbiter := { s.arbiter with pointer := .port p } }

/-- Port `p`'s request `r`, commanded by `c`, ends DONE: whenever it has the grant, its work is done, its response is built and
its grant ends, and the arbiter chooses again (R14); and from an idle table the two commands carry it out. -/
def State.concludes (s : State) (c : Instr) (p : Port) (tag : Byte) (r : Request) (t : Table) (as : List Arrival)
    (body : List Byte) : Prop :=
  (s.carries p tag r → exec (.portEngineGrant .toEnd) s = .next (endGrant (s.concluded p t as tag body))) ∧
  (s.serving p → s.serves c p r.body.length (fun u => u.concluded p t as tag body))

/-- Port `p`'s request `r`, commanded by `c`, is refused by its work with this record, captured if REFUSAL_HELD was clear, and
this body: whenever it has the grant, which then ends, and from an idle table. -/
def State.declines (s : State) (c : Instr) (p : Port) (tag : Byte) (r : Request) (record : RefusalRecord)
    (body : List Byte) : Prop :=
  (s.carries p tag r → exec (.portEngineGrant .toEnd) s = .next (endGrant (s.declined p record body))) ∧
  (s.serving p → s.serves c p r.body.length (fun u => u.declined p record body))

/-- The commands answer next states one after another, from `s` to `t`. -/
def runs : List Instr → State → State → Prop
  | [], s, t => s = t
  | c :: cs, s, t => ∃ u, exec c s = .next u ∧ runs cs u t

/-- `n` steps answer next states one after another, from `s` to `t`. -/
def steps : Nat → State → State → Prop
  | 0, s, t => s = t
  | n + 1, s, t => ∃ u, step s = .next u ∧ steps n u t

/-! ### What the rules say of single items -/

/-- R151's table: a field of a body of the right length takes a refused value. -/
def fieldRefused (c : Code) (body : List Byte) : Prop :=
  match c with
  | .groupRead => ∃ n ∈ body.head?, n.toNat = 0 ∨ 9 ≤ n.toNat
  | .subscribe => (∃ m ∈ body[9]?, 3 ≤ m.toNat) ∨ ∃ q ∈ body[10]?, 2 ≤ q.toNat
  | .drain => ∃ m ∈ body[0]?, m.toNat = 0 ∨ 9 ≤ m.toNat
  | .acknowledge => ∃ m ∈ body[0]?, m.getLsbD 7 = true ∨ m.getLsbD 6 = true
  | .createValue => ∃ h ∈ body[4]?, ∃ l ∈ body[5]?, 4096 ≤ 256 * h.toNat + l.toNat
  | .createAlias => (∃ h ∈ body[0]?, ∃ l ∈ body[1]?, 1024 ≤ 256 * h.toNat + l.toNat) ∨ ∃ w ∈ body[2]?, 2 ≤ w.toNat
  | .retire | .readSlot => ∃ h ∈ body[0]?, ∃ l ∈ body[1]?, 1024 ≤ 256 * h.toNat + l.toNat
  | .map =>
    (∃ p ∈ body[0]?, 4 ≤ p.toNat) ∨ (∃ h ∈ body[2]?, ∃ l ∈ body[3]?, 1024 ≤ 256 * h.toNat + l.toNat) ∨
    ∃ r ∈ body[4]?, 2 ≤ r.toNat
  | .unmap | .readView | .detach => ∃ p ∈ body[0]?, 4 ≤ p.toNat
  | .setTick => ∃ c ∈ body[0]?, 3 ≤ c.toNat
  | .read | .write | .conditionalWrite | .refresh | .unsubscribe | .getStatus | .holdLeases | .resumeLeases
  | .poolReport => False

/-- The bit of the conditions byte and of the Acknowledge mask that stands for a condition (R156). -/
def Condition.position : Condition → Nat
  | .lost => 0
  | .discarded => 1
  | .overrun => 2
  | .linkError => 3
  | .refusalHeld => 4
  | .detached => 5

/-- `n` aliases lead from slot `a` to slot `b`: each is LIVE, write-through where the style is write, and names a LIVE slot
that holds the generation it stored (R39, R40). -/
def Table.path (t : Table) (style : Style) : Nat → Slot → Slot → Prop
  | 0, a, b => a = b
  | n + 1, a, b =>
    ∃ f, (t.record a).body = .live (.aliasOf f) ∧ (style = .write → f.writeThrough = true) ∧
      (t.record f.target).isLive = true ∧ (t.record f.target).generation = f.targetGeneration ∧ t.path style n f.target b

/-- The bytes of a Group Read item for a resolution (R53, R157): the hop count in bits 0 to 3 and the quality in bit 7 of the
last byte; a refused item carries zeros and 0xFF. -/
def Resolution.itemBytes : Resolution → List Byte
  | .reached _ _ v hops =>
    [0#8] ++ bytes4 v.value ++ bytes2 v.sequence ++ [if v.quality = .stale then 0x80#8 ||| natByte hops else natByte hops]
  | .refused r _ _ _ => [r.toByte] ++ List.replicate 6 0#8 ++ [0xFF#8]

/-- How many requesters the arbiter passes over from a pointer at `a` before it looks at `b` (R14): 0 for the one that follows
`a`, 5 for `a` itself. -/
def Requester.distance (a b : Requester) : Nat := (b.place + 5 - a.place) % 6

/-- The requester whose grant a holder holds. -/
def Holder.requester : Holder → Requester
  | .port p _ _ _ => .port p
  | .lease _ _ => .lease
  | .sweep _ => .sweep

/-- A record after a whole lease access of `k` ticks (R71, R72, R73). -/
def Record.afterAccess (k : Nat) (r : Record) : Record :=
  match r.body with
  | .live (.value v) =>
    if v.interval = 0 ∨ v.remaining = 0 then r
    else if v.remaining.val ≤ k then ⟨r.generation, .live (.value { v with remaining := 0, quality := .stale })⟩
    else ⟨r.generation, .live (.value { v with remaining := lowerTicks v.remaining k })⟩
  | .live (.aliasOf _) | .free | .retiring _ => r

/-- The record expires in a whole lease access of `k` ticks (R72). -/
def Record.expiresIn (k : Nat) (r : Record) : Prop :=
  ∃ v, r.body = .live (.value v) ∧ 0 < v.interval ∧ 0 < v.remaining ∧ v.remaining.val ≤ k

/-- A lease access of `k` ticks whose next slot is `lo` goes on from `s` to `u` (R71 to R73): it visits every slot from `lo` on
and its grant ends; or it visits those up to the first record that expires, and that record's expiry is due. The first half
is for an access that no record stops, the second for one that slot `i` stops. -/
def State.accessFrom (s : State) (k lo : Nat) (u : State) : Prop :=
  ((∀ i : Slot, lo ≤ i.val → ¬(s.table.record i).expiresIn k) →
    ∃ t : Table, u = endGrant { s with table := t } ∧
      (∀ i : Slot, t.record i = if lo ≤ i.val then (s.table.record i).afterAccess k else s.table.record i) ∧
      t.freeList = s.table.freeList ∧ t.views = s.table.views ∧ t.pool = s.table.pool) ∧
  ∀ i : Slot, lo ≤ i.val → (s.table.record i).expiresIn k →
    (∀ j : Slot, lo ≤ j.val → j < i → ¬(s.table.record j).expiresIn k) →
    ∃ t : Table,
      u = { s with
        table := t, arbiter := { s.arbiter with grant := some ⟨.lease k (.expiring i), [], 0⟩ } } ∧
      (∀ j : Slot, j < i →
        t.record j = if lo ≤ j.val then (s.table.record j).afterAccess k else s.table.record j) ∧
      (∀ j : Slot, i < j → t.record j = s.table.record j) ∧
      (∀ v, (s.table.record i).body = .live (.value v) →
        t.record i = ⟨(s.table.record i).generation, .live (.value { v with remaining := 0 })⟩) ∧
      t.freeList = s.table.freeList ∧ t.views = s.table.views ∧ t.pool = s.table.pool

/-- The posts of a slot's expiry: one QUALITY(STALE) for each subscription of its list that wants quality, in list order,
with the record's value and sequence (R72). -/
def Table.stalePosts (t : Table) (i : Slot) (v : ValueFields) : List Arrival :=
  ((t.subsOn i).filter (·.wantsQuality)).map (fun u => .post u.port u.loc (.quality .stale v.value v.sequence))

end Sys2Proof.Machine
end

