-- ==== Sys2Proof/WellFormed.lean ====
section
/-! DEFINITION. Which commands name an event of their row: a frame's body fits the link (R147), an unknown code is none
of R156, a frame error is one (R147), an unknown first byte is neither transaction type (R144). `exec` gives every command a meaning, well-formed or not (log entry 15). -/
namespace Sys2Proof

/-- A frame's body has 0 to 120 bytes (R147). -/
def Transfer.wellFormed : Transfer → Bool
  | .typeByte => true
  | .frame _ body => body.length ≤ Machine.maxBody

/-- The command is an event of its row of the table. -/
def Instr.wellFormed : Instr → Bool
  | .read _ t | .groupRead _ t | .write _ t | .conditionalWrite _ t | .refresh _ t | .subscribe _ t | .unsubscribe _ t
  | .drain _ t | .getStatus _ t | .acknowledge _ t | .createValue _ t | .createAlias _ t | .retire _ t | .map _ t
  | .unmap _ t | .readView _ t | .readSlot _ t | .detach _ t | .setTick _ t | .holdLeases _ t | .resumeLeases _ t
  | .poolReport _ t => t.wellFormed
  | .overrun _ _ t => t.wellFormed
  | .unknownCodeFrame _ code t => t.wellFormed && (Machine.Code.ofByte? code).isNone
  | .frameError _ bytes extra => Machine.judge bytes extra = .frameError
  | .unknownTransaction _ t => t.first ≠ 0xA5#8 && t.first ≠ 0x5A#8
  | .portEngineGrant _ | .tick | .leaseAccess | .leaseExpiry _ | .stepV _ | .stepS _ | .stepF _ | .stepD1 | .stepD2
  | .responseTransaction _ _ | .prstFall _ | .prstRise _ | .rstnFall | .rstnRelease | .initialisationEnd | .refclkStop
  | .refclkResume => true

end Sys2Proof
end

