-- ==== Sys2Proof/Certificates/Slice0/Obligations.lean ====
section
/-! DEFINITION. The statements for the provers. -/
open Sys2Proof Sys2Proof.Machine

/-! ### The queue of commands -/

/-- A step with a command at the front of the queue is `exec` of that command with the queue's rest. The queue is the model's
form of the order of events. -/
def Obligations.StepRunsFrontCommand : Prop :=
  ∀ (c : Instr) (rest : List Instr) (s : State),
    step { s with pending := c :: rest } = exec c { s with pending := rest }

/-- No command reads or changes the queue of waiting commands: whatever waits, the rest of the state becomes the same. The
queue is the model's form of the order of events. -/
def Obligations.ExecIgnoresQueue : Prop :=
  ∀ (c : Instr) (s t : State) (q : List Instr),
    exec c s = .next t → exec c { s with pending := q } = .next { t with pending := q }

/-! ### The encodings of the link -/

/-- R147, R149: a request transaction is judged good exactly when its bytes are the frame of its code, tag and body, with a
body of at most 120 bytes, the right length byte, the right CRC and no clock edge beyond it. -/
def Obligations.JudgeAcceptsExactlyFrames : Prop :=
  ∀ (bytes : List Byte) (extra : Fin 8) (code tag : Byte) (body : List Byte),
    judge bytes extra = .good code tag body ↔ extra = 0 ∧ body.length ≤ 120 ∧ bytes = frameBytes code tag body

/-- R149: two byte strings that differ in exactly one byte have different CRCs. -/
def Obligations.OneByteChangedChangesCrc : Prop :=
  ∀ (before after : List Byte) (b b' : Byte), b ≠ b' → crc (before ++ b :: after) ≠ crc (before ++ b' :: after)

/-- R156, R157: every request with its fields in range is read back from its code and its body, and from no other. -/
def Obligations.RequestBodiesRoundTrip : Prop :=
  (∀ c : Code, Code.ofByte? c.toByte = some c) ∧
  ∀ (c : Code) (body : List Byte) (r : Request),
    parse c body = some r ↔ r.code = c ∧ r.body = body ∧ r.inRange = true

/-- R151: a body of the right length is refused for its fields exactly when a field takes a value outside its range; on a
port that passes checks 1, 2 and 4, the answer is BAD_REQUEST, captured as a refusal with nothing from a resolution, and
nothing else changes. The port's record of the bits shifted out is the model's (log entry 10). -/
def Obligations.OutOfRangeFieldsRefused : Prop :=
  ∀ (c : Code) (p : Port) (tag : Byte) (body : List Byte) (s : State),
    s.taking p → lengthOk c body = true → body.length ≤ 120 → (c.supervisor = true → p = .a) →
    (fieldRefused c body ↔ parse c body = none) ∧
    (fieldRefused c body →
      exec (requestCommand c p (.frame tag body)) s = .next (s.setPort p
        (((s.port p).afterFrame body.length).refusing
          ⟨c.toByte, tag, .badRequest, refusalLocal c body, none, none, 0⟩ [])))

/-! ### Invariants -/

/-- The machine right after reset meets every invariant below. The reset state is the model's reading of a part held in reset
(log entries 7, 9). -/
def Obligations.ResetMeetsInvariants : Prop :=
  State.reset.QuietInv ∧ State.reset.QueueInv ∧ State.reset.RecordInv ∧ State.reset.LinkInv ∧ State.reset.LeaseInv ∧
  State.reset.SweepInv ∧ State.reset.SlotInv ∧ State.reset.PoolInv ∧ State.reset.FreshInv ∧ State.reset.ViewInv ∧
  State.reset.NoticeInv

/-- R16, R116, R134, R158, R159: with RSTn low or the initialiser running, no claim and no grant stands and every block but
the divider and the links is at its power-on value; every step keeps this. -/
def Obligations.ResetQuietnessKept : Prop :=
  ∀ s t : State, s.QuietInv → step s = .next t → t.QuietInv

/-- R101, R102: no step brings a queue above 32 entries, or two entries of one local and class, or a merged count outside 1
to 255; and every step keeps the queued notifications whose class is not RETIRED on locals their ports subscribe, but between
the steps of a detachment, and while the removal of such entries is on its way in the grant that returned the subscription. That
a grant stands between two of its arrivals is log entry 5. -/
def Obligations.QueueLimitsAndSubscribedLocalsKept : Prop :=
  (∀ s t : State, s.QueueInv → step s = .next t → t.QueueInv) ∧
  ∀ s t : State, s.QuietInv → s.SweepInv → s.NoticeInv → step s = .next t → t.NoticeInv

/-- R134: every step keeps the refusal record present exactly while REFUSAL_HELD is set. -/
def Obligations.RefusalRecordKept : Prop :=
  ∀ s t : State, s.RecordInv → step s = .next t → t.RecordInv

/-- R13, R145, R154: one request in work or one response at a port, one claim for the request in work until its grant, and an
empty link under a low PRST; every step keeps this. In every such state each port's link is in the one state of R145's table
that describes it, RECEIVING with what it was entered from, and RDY is high exactly while a response is held; ATN is high
exactly while RSTn is high and the port's queue holds an entry or a condition is set (R114). -/
def Obligations.LinkDisciplineKeptAndShown : Prop :=
  (∀ s t : State, s.QuietInv → s.LinkInv → step s = .next t → t.LinkInv) ∧
  ∀ (s : State) (p : Port), s.LinkInv →
    let x := s.port p
    (x.linkState = .idle ↔ x.select ≠ .request ∧ x.work = none ∧ x.held = none) ∧
    (x.linkState = .receivingFromIdle ↔ x.select = .request ∧ x.work = none ∧ x.held = none) ∧
    (x.linkState = .receivingFromHeld ↔ x.select = .request ∧ x.work = none ∧ x.held.isSome = true) ∧
    (x.linkState = .working ↔ x.work.isSome = true ∧ x.held = none) ∧
    (x.linkState = .held ↔ x.select ≠ .request ∧ x.work = none ∧ x.held.isSome = true) ∧
    (s.rdy p = true ↔ x.linkState = .held ∨ x.linkState = .receivingFromHeld) ∧
    (s.atn p = true ↔ s.rstn = .high ∧ (x.queue ≠ [] ∨ ∃ k, x.conditions.get k = true))

/-- R68 to R71, R79: every step keeps the lease engine's pending count, claim, hold state and divider in step. The divider
counts REFCLK periods (log entry 3). -/
def Obligations.LeaseEngineKept : Prop :=
  ∀ s t : State, s.LeaseInv → step s = .next t → t.LeaseInv

/-- R116, R122, R124, R125, R129, R130: every step keeps the sweep engine's FIFO, flags, attachment states, job and claim in
step, a DETACHING port without a claim, and a port between the steps of its detachment without a subscription. The choice that
may stay due after step F is log entries 6 and 25. -/
def Obligations.SweepEngineKept : Prop :=
  ∀ s t : State, s.SweepInv → step s = .next t → t.SweepInv

/-- R11, R116, R119: the free list is the FREE slots, the FIFO and the current retirement job are the RETIRING slots, each
slot once; every step keeps this. -/
def Obligations.SlotListsKept : Prop :=
  ∀ s t : State, s.QuietInv → s.SweepInv → s.SlotInv → step s = .next t → t.SlotInv

/-- R83: no step brings the pool above 192 subscriptions, a port above 64, or a port to two on one local. -/
def Obligations.PoolLimitsKept : Prop :=
  ∀ s t : State, s.PoolInv → step s = .next t → t.PoolInv

/-- R9, R73: every step keeps a record STALE exactly when it has a lease and its remaining count is 0, but for the record
whose expiry is due in the lease access in progress. That an access stops at each expiring record is log entry 4. -/
def Obligations.FreshnessKept : Prop :=
  ∀ s t : State, s.QuietInv → s.FreshInv → step s = .next t → t.FreshInv

/-- R23, R31, R86, R126, R127: every step keeps view entries on LIVE or RETIRING slots, subscriptions on present entries of
their via slots and on VALUE records, and what the current retirement job has swept swept. -/
def Obligations.ViewsAndSubscriptionsKept : Prop :=
  ∀ s t : State, s.QuietInv → s.SweepInv → s.SlotInv → s.ViewInv → step s = .next t → t.ViewInv

/-! ### Resolution -/

/-- R35 to R43: a resolution reaches a record exactly when the port's entry is present with the rights of the style, its slot
is LIVE, and a path of at most 8 aliases that pass the checks leads from it to a LIVE VALUE record; it hands on the target
slot, the via slot and the number of aliases passed. -/
def Obligations.ResolutionReachesAlongPath : Prop :=
  ∀ (t : Table) (style : Style) (p : Port) (l : Local) (target via : Slot) (v : ValueFields) (hops : Nat),
    resolve t style p l = .reached target via v hops ↔
      ∃ e, t.entry p l = some e ∧ e.slot = via ∧ (style = .write → e.rights = .readWrite) ∧
        (t.record via).isLive = true ∧ hops ≤ 8 ∧ t.path style hops via target ∧
        (t.record target).body = .live (.value v)

/-- R44's table: a resolution is refused with this result, via slot, stop slot and hop count exactly in these cases. The
hypothesis is R23 for the entry. -/
def Obligations.ResolutionRefusalTable : Prop :=
  ∀ (t : Table) (style : Style) (p : Port) (l : Local) (r : Result) (via stop : Option Slot) (hops : Nat),
    (∀ e, t.entry p l = some e → (t.record e.slot).body ≠ .free) →
    (resolve t style p l = .refused r via stop hops ↔
      (t.entry p l = none ∧ r = .noEntry ∧ via = none ∧ stop = none ∧ hops = 0) ∨
      ∃ e, t.entry p l = some e ∧ via = some e.slot ∧
        ((style = .write ∧ e.rights = .read ∧ r = .noRight ∧ stop = none ∧ hops = 0) ∨
         ((style = .write → e.rights = .readWrite) ∧ (t.record e.slot).isRetiring = true ∧ r = .retired ∧
            stop = some e.slot ∧ hops = 0) ∨
         ((style = .write → e.rights = .readWrite) ∧ (t.record e.slot).isLive = true ∧
            ∃ a f, hops ≤ 8 ∧ t.path style hops e.slot a ∧ (t.record a).body = .live (.aliasOf f) ∧ stop = some a ∧
              ((style = .write ∧ f.writeThrough = false ∧ r = .noRight) ∨
               ((style = .write → f.writeThrough = true) ∧ hops = 8 ∧ r = .chainTooLong) ∨
               ((style = .write → f.writeThrough = true) ∧ hops ≤ 7 ∧ r = .dangling ∧
                 ((t.record f.target).isLive = false ∨ (t.record f.target).generation ≠ f.targetGeneration))))))

/-! ### The arbiter -/

/-- R13, R14, R71, R119: with the table free, the arbiter grants the raised claim that follows its pointer most closely: the
claim ends, the pointer names it, a lease access takes the pending ticks, and nothing else changes; every other claim stays
raised and comes strictly closer to the pointer, so a claim sees at most five grants to others. With no claim raised, or the
table not free, it grants nothing. At the end of a grant the sweep engine makes a choice left due, and the arbiter chooses. The
hypothesis of the first part is R13: a port's claim stands for its request in work. That the grant begins at once is the
model's reading (log entry 1); a choice left due is log entries 6 and 25. -/
def Obligations.ArbiterServesInOrder : Prop :=
  (∀ s : State, (∀ p, s.arbiter.claims.get p = true → (s.port p).work.isSome = true) →
    (s.arbiter.grant.isSome = true → arbitrate s = s) ∧
    ((∀ r, s.claimed r = false) → arbitrate s = s) ∧
    (s.arbiter.grant = none → (∃ r, s.claimed r = true) →
      ∃ r, s.claimed r = true ∧
        (match r with
          | .port p => ∃ w, (s.port p).work = some w ∧ arbitrate s = { s with arbiter :=
              ⟨.port p, s.arbiter.claims.set p false, some ⟨.port p w false none, [], 0⟩⟩ }
          | .lease => arbitrate s = { s with
              arbiter := { s.arbiter with pointer := .lease, grant := some ⟨.lease s.lease.pending .start, [], 0⟩ }
              lease := { s.lease with pending := 0, claim := false } }
          | .sweep => arbitrate s = { s with
              arbiter := { s.arbiter with pointer := .sweep, grant := some ⟨.sweep false, [], 0⟩ }
              sweep := { s.sweep with claim := false } }) ∧
        ∀ q, q ≠ r → s.claimed q = true →
          s.arbiter.pointer.distance r < s.arbiter.pointer.distance q ∧ (arbitrate s).claimed q = true ∧
          (arbitrate s).arbiter.pointer.distance q < s.arbiter.pointer.distance q)) ∧
  ∀ s : State,
    (s.sweep.choiceDue = false → endGrant s = arbitrate { s with arbiter := { s.arbiter with grant := none } }) ∧
    (s.sweep.choiceDue = true → ∃ w, s.sweep.takes w ∧
      endGrant s = arbitrate { s with arbiter := { s.arbiter with grant := none }, sweep := w })

/-! ### Notification queues -/

/-- R104, R105: a post merges into the entry of its local and class where it stands, with the post's state, value and
sequence and a merged count one higher up to 255; else it is appended with merged count 1; else, at 32 entries, it is dropped
and LOST set. Nothing else changes. -/
def Obligations.PostMergesAppendsOrDrops : Prop :=
  ∀ (s : State) (p : Port) (l : Local) (n : Note), s.initialising = false → QueueWf (s.port p).queue →
    (∀ before e after, (s.port p).queue = before ++ e :: after → e.loc = l → e.note.cls = n.cls →
      takeArrival (.post p l n) s =
        s.setPort p { s.port p with queue := before ++ ⟨l, n, min 255 (e.merged + 1)⟩ :: after }) ∧
    ((∀ e ∈ (s.port p).queue, ¬(e.loc = l ∧ e.note.cls = n.cls)) →
      ((s.port p).queue.length < 32 →
        takeArrival (.post p l n) s = s.setPort p { s.port p with queue := (s.port p).queue ++ [⟨l, n, 1⟩] }) ∧
      ((s.port p).queue.length = 32 →
        takeArrival (.post p l n) s =
          s.setPort p { s.port p with conditions := { (s.port p).conditions with lost := true } }))

/-- R106: of a retirement step's two arrivals for a local, the removal leaves of that local the RETIRED entry alone and the
other entries in their order; the RETIRED post after it is dropped exactly when the queue held 32 entries and none of that
local. -/
def Obligations.RetiredPostDroppedOnlyWhenFull : Prop :=
  ∀ (q : List Entry) (l : Local), QueueWf q →
    (queueRemove q l .allButRetired).Sublist q ∧
    (∀ e, e ∈ queueRemove q l .allButRetired ↔ e ∈ q ∧ (e.loc = l → e.note = .retired)) ∧
    (queuePost (queueRemove q l .allButRetired) l .retired = none ↔ q.length = 32 ∧ ∀ e ∈ q, e.loc ≠ l)

/-- R88: the watch state is MATCH exactly when every bit that the mask selects is equal in the value and the reference. -/
def Obligations.MatchComparesSelectedBits : Prop :=
  ∀ mask reference value : Word32,
    watchOf mask reference value = .matched ↔
      ∀ i : Fin 32, mask.getLsbD i = true → value.getLsbD i = reference.getLsbD i

/-- R89, R90: the evaluation of a record's subscriptions at a write posts, for each subscription of its list in list order,
what the mode's row of R89 gives for the stored and the new watch state, to the subscription's port and under its local; and
the stored watch state becomes the new one, on that record's list alone. -/
def Obligations.EvaluationFollowsModes : Prop :=
  ∀ (t : Table) (i : Slot) (x : Word32) (n : Word16),
    (evaluationPosts t i x n = (t.subsOn i).flatMap (fun u =>
      let new := watchOf u.mask u.reference x
      let post (k : Note) : List Arrival := [.post u.port u.loc k]
      match u.mode with
      | .trip => if u.watch = .matched ∧ new = .mismatched then post (.watch .mismatched x n) else []
      | .both => if u.watch ≠ new then post (.watch new x n) else []
      | .writes => post (.change new x n))) ∧
    (evaluatedPool t i x).length = t.pool.length ∧
    ∀ (k : Nat) (u : Subscription), t.pool[k]? = some u →
      ∃ u', (evaluatedPool t i x)[k]? = some u' ∧ { u' with watch := u.watch } = u ∧
        u'.watch = if u.target = i then watchOf u.mask u.reference x else u.watch

/-! ### Requests answered at once -/

/-- R110, R114, R115: a Drain taken removes the first entries from the head, at most the maximum of 1 to 8, answers them oldest
first with the number still queued, and changes no condition. The link is HELD with RDY high, and ATN is low exactly where no
entry is left and no condition set. The port's record of the bits shifted out is the model's (log entry 10). -/
def Obligations.DrainTakesFromHead : Prop :=
  ∀ (p : Port) (tag : Byte) (m : Nat) (s : State), s.taking p → 1 ≤ m → m ≤ 8 →
    let x := (s.port p).afterFrame 1
    let k := min m x.queue.length
    let t := s.setPort p (({ x with queue := x.queue.drop k }).answering tag .done
      ([natByte k, natByte (x.queue.length - k)] ++ (x.queue.take k).flatMap Entry.bytes))
    exec (.drain p (.frame tag [BitVec.ofNat 8 m])) s = .next t ∧ (t.port p).linkState = .held ∧ t.rdy p = true ∧
    (t.atn p = false ↔ x.queue.length ≤ m ∧ ∀ c, x.conditions.get c = false)

/-- R141: Get Status answers the conditions, the depth, ATTACHED and the refusal record as they stand when it is taken, and
changes none of them. The two highest bits of the conditions are 0 (log entry 12). The port's record of the bits shifted out
is the model's (log entry 10). -/
def Obligations.GetStatusReportsPort : Prop :=
  ∀ (p : Port) (tag : Byte) (s : State), s.taking p →
    exec (.getStatus p (.frame tag [])) s = .next (
      let x := (s.port p).afterFrame 0
      s.setPort p (x.answering tag .done
        ([conditionBits x.conditions, natByte x.queue.length, 0x00#8] ++ recordBytes x.record)))

/-- R136: an Acknowledge clears the conditions its mask names and no other, discards the refusal record with REFUSAL_HELD,
and answers the conditions as they stood before. The link is HELD with RDY high, and ATN is low exactly where the queue is empty
and no condition is left (R114). The two highest bits of the answer are 0 (log entry 12). The port's record of the bits shifted
out is the model's (log entry 10). -/
def Obligations.AcknowledgeClearsNamedConditions : Prop :=
  ∀ (p : Port) (tag mask : Byte) (s : State), s.taking p → mask.getLsbD 7 = false → mask.getLsbD 6 = false →
    ∃ c : Conditions,
      (∀ k : Condition,
        c.get k = (((s.port p).afterFrame 1).conditions.get k && !mask.getLsbD k.position)) ∧
      let x := (s.port p).afterFrame 1
      let t := s.setPort p (({ x with
        conditions := c
        record := if mask.getLsbD 4 then none else x.record }).answering tag .done [conditionBits x.conditions])
      exec (.acknowledge p (.frame tag [mask])) s = .next t ∧ (t.port p).linkState = .held ∧ t.rdy p = true ∧
      (t.atn p = false ↔ x.queue = [] ∧ ∀ k, c.get k = false)

/-- R78, R79, R80: what the lease engine does with a Set Tick, a Hold Leases and a Resume Leases, in RUNNING and in HELD, and
what each answers; no record is visited. The port's record of the bits shifted out is the model's (log entry 10). -/
def Obligations.LeaseControlsTaken : Prop :=
  ∀ (tag : Byte) (s : State), s.taking .a →
    (∀ τ : TickPeriod, exec (.setTick .a (.frame tag [periodByte τ])) s = .next
      { s.setPort .a (((s.port .a).afterFrame 1).answering tag .done [periodByte s.lease.period]) with
        lease := { s.lease with period := τ, divider := 0 } }) ∧
    (s.lease.hold = .running → exec (.holdLeases .a (.frame tag [])) s = .next
      { s.setPort .a (((s.port .a).afterFrame 0).answering tag .done [0x00#8, natByte s.lease.pending]) with
        lease := { s.lease with hold := .held, pending := 0, claim := false } }) ∧
    (s.lease.hold = .held → exec (.holdLeases .a (.frame tag [])) s = .next
      (s.setPort .a (((s.port .a).afterFrame 0).answering tag .done [0x01#8, 0x00#8]))) ∧
    (s.lease.hold = .held → exec (.resumeLeases .a (.frame tag [])) s = .next
      { s.setPort .a (((s.port .a).afterFrame 0).answering tag .done [0x01#8]) with
        lease := { s.lease with hold := .running, divider := 0 } }) ∧
    (s.lease.hold = .running → exec (.resumeLeases .a (.frame tag [])) s = .next
      (s.setPort .a (((s.port .a).afterFrame 0).answering tag .done [0x00#8])))

/-- R120, R122, R124: a Detach from port A answers the named port's attachment state before it, drops the named port's request
if its claim waits, and marks the port, for which an idle sweep engine raises its claim at once; the arbiter chooses if the
table is free (R14). Nothing else changes, and a grant in progress goes on. The link of a port whose request was dropped is
IDLE, or RECEIVING from IDLE while a request transaction is under way (R145, R146). That the grant begins at once is the model's
reading (log entry 1), and that an engine whose choice is still due takes the port only then is log entry 25. The port's record
of the bits shifted out is the model's (log entry 10). -/
def Obligations.DetachMarksPort : Prop :=
  ∀ (q : Port) (tag : Byte) (s : State), s.taking .a →
    let u := s.setPort .a
      (((s.port .a).afterFrame 1).answering tag .done [attachmentByte (s.sweep.attachment.get q)])
    let v := u.setPort q (if s.arbiter.claims.get q = true then { u.port q with work := none } else u.port q)
    ∃ w, s.sweep.marks w q ∧
      let t := arbitrate { v with
        sweep := w, arbiter := { s.arbiter with claims := s.arbiter.claims.set q false } }
      exec (.detach .a (.frame tag [portByte q])) s = .next t ∧
      (q ≠ .a → s.arbiter.claims.get q = true → (s.port q).held = none →
        (t.port q).linkState = if (s.port q).select = .request then .receivingFromIdle else .idle)

/-! ### Requests that use the table -/

/-- R13, R14, R150: each of the fifteen table requests, taken and past the checks, is in work with its claim raised, and the
arbiter chooses if the table is free: while a grant is in progress the claim waits, and at an idle table it is granted at once.
Nothing else changes. The link is WORKING with RDY low, and ATN is high if it was or a response was discarded (R114, R146, R148).
That the grant begins at once is the model's reading (log entry 1). The port's record of the bits shifted out is the model's (log
entry 10). -/
def Obligations.TableRequestsRaiseClaims : Prop :=
  ∀ (r : Request) (p : Port) (tag : Byte) (s : State), s.taking p → r.inRange = true → r.code.atOnce = false →
    (r.code.supervisor = true → p = .a) →
    let w : Work := ⟨⟨r.code.toByte, tag, refusalLocal r.code r.body⟩, r⟩
    let s' := s.setPort p { (s.port p).afterFrame r.body.length with work := some w }
    let c := requestCommand r.code p (.frame tag r.body)
    let claiming : State := { s' with arbiter := { s.arbiter with claims := s.arbiter.claims.set p true } }
    (exec c s = .next (arbitrate claiming) ∧ ((arbitrate claiming).port p).linkState = .working ∧
      (arbitrate claiming).rdy p = false ∧ (arbitrate claiming).atn p = (s.atn p || (s.port p).held.isSome)) ∧
    (s.arbiter.grant.isSome = true → exec c s = .next claiming) ∧
    (s.tableIdle → exec c s = .next
      { s' with arbiter := { s.arbiter with pointer := .port p, grant := some ⟨.port p w false none, [], 0⟩ } })

/-- R50, R51, R53, R54: a Read that resolves answers the target's value, sequence, quality and the hop count; a Group Read
answers DONE with one item for each local of its list, in order, whatever each item's result. Neither changes the table. So it
is whenever the request has the grant, other claims waiting or not, and for one granted at once at an idle table. That a grant
begins at once is the model's reading (log entry 1). The port's record of the bits shifted out is the model's (log entry 10). -/
def Obligations.ReadsAnswerTargets : Prop :=
  ∀ (p : Port) (tag : Byte) (s : State),
    (∀ (l : Local) (target via : Slot) (v : ValueFields) (hops : Nat),
      resolve s.table .read p l = .reached target via v hops →
      s.concludes (.read p (.frame tag [localByte l])) p tag (.read l) s.table []
        (bytes4 v.value ++ bytes2 v.sequence ++ [qualityByte v.quality, natByte hops])) ∧
    (∀ ls : List Local, 1 ≤ ls.length → ls.length ≤ 8 →
      s.concludes (.groupRead p (.frame tag (natByte ls.length :: ls.map localByte))) p tag (.groupRead ls) s.table []
        (natByte ls.length :: ls.flatMap (fun l => (resolve s.table .read p l).itemBytes)))

/-- R55 to R57, R60, R61: an accepted Write, or Conditional Write on the expected sequence, stores the value, advances the
sequence, restarts the lease, makes the record GOOD, posts QUALITY(GOOD) first if it was STALE and then the evaluation's
posts, and answers the new sequence. A Conditional Write on another sequence changes nothing and is refused with
SEQ_MISMATCH, carrying the record's sequence and value. So it is whenever the request has the grant, other claims waiting or
not, and for one granted at once at an idle table. That a grant begins at once is the model's reading (log entry 1). The port's
record of the bits shifted out is the model's (log entry 10). -/
def Obligations.WritesReachTarget : Prop :=
  ∀ (p : Port) (tag : Byte) (l : Local) (x : Word32) (s : State) (i via : Slot) (v : ValueFields) (hops : Nat),
    resolve s.table .write p l = .reached i via v hops →
    let t : Table := { s.table.setRecord i ⟨(s.table.record i).generation, .live (.value
        { v with
          value := x
          sequence := v.sequence + 1
          quality := .good
          remaining := if v.interval = 0 then v.remaining else v.interval })⟩ with
      pool := s.table.pool.map (fun u => if u.target = i then { u with watch := watchOf u.mask u.reference x } else u) }
    let restored := ((s.table.subsOn i).filter (·.wantsQuality)).map
      (fun u => Arrival.post u.port u.loc (.quality .good x (v.sequence + 1)))
    let posts := (if v.quality = .stale then restored else []) ++ evaluationPosts s.table i x (v.sequence + 1)
    s.concludes (.write p (.frame tag (localByte l :: bytes4 x))) p tag (.write l x) t posts (bytes2 (v.sequence + 1)) ∧
    s.concludes (.conditionalWrite p (.frame tag (localByte l :: (bytes2 v.sequence ++ bytes4 x)))) p tag
      (.conditionalWrite l v.sequence x) t posts (bytes2 (v.sequence + 1)) ∧
    ∀ e : Word16, e ≠ v.sequence →
      s.declines (.conditionalWrite p (.frame tag (localByte l :: (bytes2 e ++ bytes4 x)))) p tag (.conditionalWrite l e x)
        ⟨0x19#8, tag, .seqMismatch, some l, some via, some i, hops⟩ (bytes2 v.sequence ++ bytes4 v.value)

/-- R63, R64: a Refresh that resolves restarts the lease of a leased record, makes it GOOD with one QUALITY(GOOD) post for
each subscription that wants quality if it was STALE, and answers sequence, interval and whether it was restored; a record
with no lease is left as it stands. So it is whenever the request has the grant, other claims waiting or not, and for one
granted at once at an idle table. That a grant begins at once is the model's reading (log entry 1). The port's record of the
bits shifted out is the model's (log entry 10). -/
def Obligations.RefreshRestartsLease : Prop :=
  ∀ (p : Port) (tag : Byte) (l : Local) (s : State) (i via : Slot) (v : ValueFields) (hops : Nat),
    resolve s.table .write p l = .reached i via v hops →
    (v.interval = 0 → s.concludes (.refresh p (.frame tag [localByte l])) p tag (.refresh l) s.table []
      (bytes2 v.sequence ++ [0#8, 0#8, 0#8])) ∧
    (v.interval ≠ 0 → s.concludes (.refresh p (.frame tag [localByte l])) p tag (.refresh l)
      (s.table.setRecord i ⟨(s.table.record i).generation, .live (.value
        { v with quality := .good, remaining := v.interval })⟩)
      (if v.quality = .stale then ((s.table.subsOn i).filter (·.wantsQuality)).map
          (fun u => Arrival.post u.port u.loc (.quality .good v.value v.sequence)) else [])
      (bytes2 v.sequence ++ ticksBytes v.interval ++ [flagByte (v.quality = .stale)]))

/-- R93 to R96: a Subscribe that resolves replaces the port's subscription on the local, in its place on the list when the
target is the same and at the tail otherwise; or makes one at the tail while the pool has a free record and the port holds
fewer than 64; or is refused with NO_SUB_SPACE. No notification is posted. So it is whenever the request has the grant, other
claims waiting or not, and for one granted at once at an idle table. That a grant begins at once is the model's reading (log
entry 1). The port's record of the bits shifted out is the model's (log entry 10). -/
def Obligations.SubscribeReplacesOrCreates : Prop :=
  ∀ (p : Port) (tag : Byte) (l : Local) (mask reference : Word32) (mode : Mode) (wants : Bool) (s : State)
    (target via : Slot) (v : ValueFields) (hops : Nat),
    resolve s.table .read p l = .reached target via v hops →
    let c : Instr := .subscribe p (.frame tag
      (localByte l :: (bytes4 mask ++ bytes4 reference ++ [modeByte mode, flagByte wants])))
    let r : Request := .subscribe l mask reference mode wants
    let w := watchOf mask reference v.value
    let new : Subscription := ⟨p, l, via, target, mask, reference, mode, wants, w⟩
    let answer (replaced : Byte) : List Byte :=
      [replaced, watchByte w] ++ bytes4 v.value ++ [qualityByte v.quality] ++ bytes2 v.sequence
    (∀ before old after, s.table.pool = before ++ old :: after → old.port = p → old.loc = l →
      (∀ u ∈ before ++ after, ¬(u.port = p ∧ u.loc = l)) →
      s.concludes c p tag r
        { s.table with pool := if old.target = target then before ++ new :: after else before ++ after ++ [new] }
        [] (answer 0x01#8)) ∧
    ((∀ u ∈ s.table.pool, ¬(u.port = p ∧ u.loc = l)) →
      (s.table.pool.length < 192 → s.table.portCount p < 64 →
        s.concludes c p tag r { s.table with pool := s.table.pool ++ [new] } [] (answer 0x00#8)) ∧
      (192 ≤ s.table.pool.length ∨ 64 ≤ s.table.portCount p →
        s.declines c p tag r ⟨0x20#8, tag, .noSubSpace, some l, some via, some target, hops⟩ []))

/-- R97, R98: an Unsubscribe returns the port's subscription on the local, removes the port's queue entries of that local and
answers how many; without a subscription it is refused with NOT_SUBSCRIBED and changes nothing. So it is whenever the request
has the grant, other claims waiting or not, and for one granted at once at an idle table. That a grant begins at once is the
model's reading (log entry 1). The port's record of the bits shifted out is the model's (log entry 10). -/
def Obligations.UnsubscribeReturnsSubscription : Prop :=
  ∀ (p : Port) (tag : Byte) (l : Local) (s : State),
    ((∃ u ∈ s.table.pool, u.port = p ∧ u.loc = l) →
      s.concludes (.unsubscribe p (.frame tag [localByte l])) p tag (.unsubscribe l)
        { s.table with pool := s.table.pool.filter (fun u => ¬(u.port = p ∧ u.loc = l)) }
        [.removal p l .all] [natByte ((s.port p).queue.countP (fun e => e.loc = l))]) ∧
    ((∀ u ∈ s.table.pool, ¬(u.port = p ∧ u.loc = l)) →
      s.declines (.unsubscribe p (.frame tag [localByte l])) p tag (.unsubscribe l)
        ⟨0x21#8, tag, .notSubscribed, some l, none, none, 0⟩ [])

/-- R25 to R28: a Map names a LIVE slot under an absent local and answers its generation, else NOT_LIVE, else IN_USE; an
Unmap removes the entry, the subscription on it and the named port's queue entries of the local, and answers the slot,
whether there was a subscription and how many entries; an absent entry is refused with NO_ENTRY. So it is whenever the request
has the grant, other claims waiting or not, and for one granted at once at an idle table. That a grant begins at once is the
model's reading (log entry 1). The port's record of the bits shifted out is the model's (log entry 10). -/
def Obligations.MapAndUnmapChangeView : Prop :=
  ∀ (q : Port) (tag : Byte) (l : Local) (s : State),
    (∀ (i : Slot) (rights : Rights),
      let c : Instr := .map .a (.frame tag (portByte q :: localByte l :: (slotBytes i ++ [rightsByte rights])))
      let r : Request := .map q l i rights
      ((s.table.record i).isLive = true → s.table.entry q l = none →
        s.concludes c .a tag r (s.table.setEntry q l (some ⟨i, rights⟩)) [] [(s.table.record i).generation]) ∧
      ((s.table.record i).isLive = false →
        s.declines c .a tag r ⟨0x48#8, tag, .notLive, some l, none, none, 0⟩ []) ∧
      ((s.table.record i).isLive = true → (s.table.entry q l).isSome = true →
        s.declines c .a tag r ⟨0x48#8, tag, .inUse, some l, none, none, 0⟩ [])) ∧
    (∀ e, s.table.entry q l = some e →
      s.concludes (.unmap .a (.frame tag [portByte q, localByte l])) .a tag (.unmap q l)
        { s.table.setEntry q l none with pool := s.table.pool.filter (fun u => ¬(u.port = q ∧ u.loc = l)) }
        [.removal q l .all]
        (slotBytes e.slot ++ [flagByte (s.table.pool.any (fun u => u.port = q ∧ u.loc = l)),
          natByte ((s.port q).queue.countP (fun x => x.loc = l))])) ∧
    (s.table.entry q l = none →
      s.declines (.unmap .a (.frame tag [portByte q, localByte l])) .a tag (.unmap q l)
        ⟨0x49#8, tag, .noEntry, some l, none, none, 0⟩ [])

/-- R12, R18, R19: a creation takes the slot at the head of the free list, which keeps its generation, and answers both; an
alias stores its target's generation; without a free slot it is refused with TABLE_FULL, and a target that is not LIVE with
NOT_LIVE before that. So it is whenever the request has the grant, other claims waiting or not, and for one granted at once at
an idle table. That a grant begins at once is the model's reading (log entry 1). The port's record of the bits shifted out is
the model's (log entry 10). -/
def Obligations.CreationsTakeFreeListHead : Prop :=
  ∀ (tag : Byte) (s : State),
    (∀ (x : Word32) (n : Ticks),
      let c : Instr := .createValue .a (.frame tag (bytes4 x ++ ticksBytes n))
      (∀ i rest, s.table.freeList = i :: rest →
        s.concludes c .a tag (.createValue x n)
          { s.table.setRecord i ⟨(s.table.record i).generation, .live (.value ⟨x, 0, .good, n, n⟩)⟩ with freeList := rest }
          [] (slotBytes i ++ [(s.table.record i).generation])) ∧
      (s.table.freeList = [] →
        s.declines c .a tag (.createValue x n) ⟨0x40#8, tag, .tableFull, none, none, none, 0⟩ [])) ∧
    (∀ (j : Slot) (through : Bool),
      let c : Instr := .createAlias .a (.frame tag (slotBytes j ++ [flagByte through]))
      ((s.table.record j).isLive = true → ∀ i rest, s.table.freeList = i :: rest →
        s.concludes c .a tag (.createAlias j through)
          { s.table.setRecord i ⟨(s.table.record i).generation,
              .live (.aliasOf ⟨j, (s.table.record j).generation, through⟩)⟩ with freeList := rest }
          [] (slotBytes i ++ [(s.table.record i).generation])) ∧
      ((s.table.record j).isLive = true → s.table.freeList = [] →
        s.declines c .a tag (.createAlias j through) ⟨0x41#8, tag, .tableFull, none, none, none, 0⟩ []) ∧
      ((s.table.record j).isLive = false →
        s.declines c .a tag (.createAlias j through) ⟨0x41#8, tag, .notLive, none, none, none, 0⟩ []))

/-- R117, R118, R119, R124: an accepted Retire makes the slot RETIRING with its generation advanced and its fields kept, and
answers its position in the FIFO. An engine with a job, whose step's claim may wait, or with its choice still due keeps the slot
in the FIFO; an idle engine takes its next job, which is the slot if no other work waits, and raises that job's claim. A slot
that is not LIVE is refused with NOT_LIVE, else a full FIFO with BUSY. So it is whenever the request has the grant, other claims
waiting or not, and for one granted at once at an idle table, where the first step of the job is then granted. That a grant
begins at once is the model's reading (log entry 1); the choice still due is log entries 6 and 25. The port's record of the bits
shifted out is the model's (log entry 10). -/
def Obligations.RetireJoinsFifo : Prop :=
  ∀ (tag : Byte) (i : Slot) (s : State),
    let c : Instr := .retire .a (.frame tag (slotBytes i))
    (∀ k, (s.table.record i).body = .live k → s.sweep.fifo.length < 4 →
      let t := s.table.setRecord i ⟨(s.table.record i).generation + 1, .retiring k⟩
      let done (u : State) : State := u.concluded .a t [] tag [natByte (s.sweep.fifo.length + 1)]
      let joined : Sweep := { s.sweep with fifo := s.sweep.fifo ++ [i] }
      (s.carries .a tag (.retire i) → (s.sweep.job.isSome = true ∨ s.sweep.choiceDue = true) →
        exec (.portEngineGrant .toEnd) s = .next (endGrant { done s with sweep := joined })) ∧
      (s.carries .a tag (.retire i) → s.sweep.job = none → s.sweep.choiceDue = false →
        (∃ w, joined.takes w ∧ exec (.portEngineGrant .toEnd) s = .next (endGrant { done s with sweep := w })) ∧
        (s.sweep.fifo = [] → (∀ p, s.sweep.flags.get p = false) →
          exec (.portEngineGrant .toEnd) s = .next (endGrant { done s with
            sweep := { s.sweep with job := some (.retirement i (.v .a)), claim := true } }))) ∧
      (s.serving .a → s.sweep.job.isSome = true → s.serves c .a 2 (fun u => { done u with sweep := joined })) ∧
      (s.serving .a → s.sweep.job = none → s.sweep.fifo = [] → (∀ p, s.sweep.flags.get p = false) →
        ∃ u, exec c s = .next u ∧ exec (.portEngineGrant .toEnd) u = .next
          { done (s.setPort .a ((s.port .a).afterFrame 2)) with
            sweep := { s.sweep with job := some (.retirement i (.v .a)) }
            arbiter := { s.arbiter with pointer := .sweep, grant := some ⟨.sweep false, [], 0⟩ } })) ∧
    ((s.table.record i).isLive = false →
      s.declines c .a tag (.retire i) ⟨0x42#8, tag, .notLive, none, none, none, 0⟩ []) ∧
    ((s.table.record i).isLive = true → 4 ≤ s.sweep.fifo.length →
      s.declines c .a tag (.retire i) ⟨0x42#8, tag, .busy, none, none, none, 0⟩ [])

/-- R20, R32, R142, R157: Read View, Read Slot and Pool Report answer the entry, the record and the counts as they stand,
field by field, and change nothing; of a FREE slot every field of a kind is absent. So it is whenever the request has the
grant, other claims waiting or not, and for one granted at once at an idle table. The target generation and write-through bytes
of a FREE slot are log entry 13. That a grant begins at once is the model's reading (log entry 1). The port's record of the bits
shifted out is the model's (log entry 10). -/
def Obligations.ReportsAnswerTable : Prop :=
  ∀ (tag : Byte) (s : State),
    (∀ (q : Port) (l : Local),
      let c : Instr := .readView .a (.frame tag [portByte q, localByte l])
      (∀ e : ViewEntry, s.table.entry q l = some e → (s.table.record e.slot).body ≠ .free →
        s.concludes c .a tag (.readView q l) s.table []
          (slotBytes e.slot ++ [rightsByte e.rights, if (s.table.record e.slot).isLive then 1#8 else 2#8,
            (s.table.record e.slot).generation])) ∧
      (s.table.entry q l = none →
        s.declines c .a tag (.readView q l) ⟨0x4A#8, tag, .noEntry, some l, none, none, 0⟩ [])) ∧
    (∀ i : Slot,
      let c : Instr := .readSlot .a (.frame tag (slotBytes i))
      ((s.table.record i).body = .free →
        s.concludes c .a tag (.readSlot i) s.table []
          ([0#8, (s.table.record i).generation, 0xFF#8] ++ List.replicate 6 0#8 ++ [0xFF#8] ++ List.replicate 5 0#8 ++
            [0xFF#8, 0xFF#8, 0#8, 0xFF#8])) ∧
      (∀ (v : ValueFields) (st : Byte),
        ((s.table.record i).body = .live (.value v) ∧ st = 1#8) ∨
            ((s.table.record i).body = .retiring (.value v) ∧ st = 2#8) →
        s.concludes c .a tag (.readSlot i) s.table []
          ([st, (s.table.record i).generation, 0#8] ++ bytes4 v.value ++ bytes2 v.sequence ++ [qualityByte v.quality] ++
            ticksBytes v.interval ++ ticksBytes v.remaining ++
            [natByte (s.table.subsOn i).length, 0xFF#8, 0xFF#8, 0#8, 0xFF#8])) ∧
      (∀ (f : AliasFields) (st : Byte),
        ((s.table.record i).body = .live (.aliasOf f) ∧ st = 1#8) ∨
            ((s.table.record i).body = .retiring (.aliasOf f) ∧ st = 2#8) →
        s.concludes c .a tag (.readSlot i) s.table []
          ([st, (s.table.record i).generation, 1#8] ++ List.replicate 6 0#8 ++ [0xFF#8] ++ List.replicate 5 0#8 ++
            slotBytes f.target ++ [f.targetGeneration, flagByte f.writeThrough]))) ∧
    s.concludes (.poolReport .a (.frame tag [])) .a tag .poolReport s.table []
      (bytes2 (BitVec.ofNat 16 s.table.freeList.length) ++
        [natByte s.table.retiringCount, natByte (192 - s.table.pool.length), natByte (s.table.portCount .a),
          natByte (s.table.portCount .b), natByte (s.table.portCount .c), natByte (s.table.portCount .d),
          natByte s.sweep.fifo.length, flagsByte s.sweep.flags] ++
        jobBytes s.sweep.job ++ [holdByte s.lease.hold, periodByte s.lease.period])

/-- R143: the values of one Pool Report agree: free, RETIRING and LIVE slots make 1024, the RETIRING slots are those of the FIFO
and of a current retirement job and at most 5, and the free subscription records and the four port counts make 192; while a port
engine has the grant, a job at any step but D2 is reported with the claim of that step waiting; a port reported at D2 holds no
subscription; a port whose flag is set is DETACHING. -/
def Obligations.PoolReportCountsAgree : Prop :=
  ∀ s : State, s.tableValid → s.SweepInv → s.SlotInv → s.PoolInv →
    s.table.freeList.length + s.table.retiringCount + s.table.records.toList.countP Record.isLive = 1024 ∧
    s.table.retiringCount = s.sweep.fifo.length + s.sweep.jobSlots.length ∧ s.table.retiringCount ≤ 5 ∧
    s.table.poolFree + s.table.portCount .a + s.table.portCount .b + s.table.portCount .c + s.table.portCount .d = 192 ∧
    (∀ (j : Job) (p : Port) (w : Work) (d : Bool) (v : Option Verdict) (as : List Arrival) (n : Nat),
      s.arbiter.grant = some ⟨.port p w d v, as, n⟩ → s.sweep.job = some j → (∀ q, j ≠ .detachment q .d2) →
      s.sweep.claim = true) ∧
    (∀ p, s.sweep.job = some (.detachment p .d2) → s.table.portCount p = 0) ∧
    ∀ p, s.sweep.flags.get p = true → s.sweep.attachment.get p = .detaching

/-- R44, R45, R51, R58, R60, R63, R93, R139: a Read, Write, Conditional Write, Refresh or Subscribe whose resolution is
refused answers that refusal with an empty body, captures it with its local, via slot, stop slot and hop count if
REFUSAL_HELD is clear, and changes nothing of the table and the queues. So it is whenever the request has the grant, other
claims waiting or not, and for one granted at once at an idle table. That a grant begins at once is the model's reading (log
entry 1). The port's record of the bits shifted out is the model's (log entry 10). -/
def Obligations.RefusedResolutionAnswered : Prop :=
  ∀ (p : Port) (tag : Byte) (l : Local) (result : Result) (via stop : Option Slot) (hops : Nat) (s : State),
    let refused (c : Instr) (r : Request) : Prop :=
      s.declines c p tag r ⟨r.code.toByte, tag, result, some l, via, stop, hops⟩ []
    (resolve s.table .read p l = .refused result via stop hops →
      refused (.read p (.frame tag [localByte l])) (.read l) ∧
      ∀ (mask reference : Word32) (mode : Mode) (wants : Bool),
        refused (.subscribe p (.frame tag
            (localByte l :: (bytes4 mask ++ bytes4 reference ++ [modeByte mode, flagByte wants]))))
          (.subscribe l mask reference mode wants)) ∧
    (resolve s.table .write p l = .refused result via stop hops →
      refused (.refresh p (.frame tag [localByte l])) (.refresh l) ∧
      ∀ (e : Word16) (x : Word32),
        refused (.write p (.frame tag (localByte l :: bytes4 x))) (.write l x) ∧
        refused (.conditionalWrite p (.frame tag (localByte l :: (bytes2 e ++ bytes4 x)))) (.conditionalWrite l e x))

/-- R15, R34, R103, R112: a grant's work may be carried to any of its arrivals first. Carried on to its end with nothing in
between, it ends as when it is carried to its end at once, for the four grants that post: a request's, an expiry's, a step V's
and a step S's. A request's grant that pauses has done its whole table work; the first `m` arrivals are in the queues, the rest
wait in the grant, no response is built, and nothing else has changed. Carried on after whatever events, with its response
wanted, it brings the arrivals that wait to the queues as these then stand, counts for Unmap and Unsubscribe the entries their
removals find then, builds the response, and ends: the link is HELD, or RECEIVING from HELD while a request transaction is under
way, and RDY is high (R145, R146). An expiry's pause is stated in LeaseAccessVisitsInOrder, a step's in RetirementStepsSweep.
Where a grant may pause is log entry 5, and that it needs REFCLK log entry 14. -/
def Obligations.GrantPausesAndGoesOn : Prop :=
  (∀ (s t : State) (n : Nat),
    (exec (.portEngineGrant .toEnd) s = .next t → runs [.portEngineGrant (.arrivals n), .portEngineGrant .toEnd] s t) ∧
    (exec (.leaseExpiry .toEnd) s = .next t → runs [.leaseExpiry (.arrivals n), .leaseExpiry .toEnd] s t) ∧
    (exec (.stepV .toEnd) s = .next t → runs [.stepV (.arrivals n), .stepV .toEnd] s t) ∧
    (exec (.stepS .toEnd) s = .next t → runs [.stepS (.arrivals n), .stepS .toEnd] s t)) ∧
  ∀ (s : State) (p : Port) (w : Work) (d : Bool) (as : List Arrival) (n : Nat), s.clocked = true →
    let paused (m : Nat) (table : Table) (sweep : Sweep) (v : Verdict) (all : List Arrival) (counted : Nat) : State :=
      { takeArrivals (all.take m) s with
        table := table, sweep := sweep
        arbiter := { s.arbiter with
          grant := some ⟨.port p w d (some v), all.drop m, counted + arrivalsRemove (all.take m) s⟩ } }
    let pauses (m : Nat) (t : State) : Prop :=
      exec (.portEngineGrant (.arrivals m)) s = .next t ∧
      ∀ q, (t.port q).held = (s.port q).held ∧ (t.port q).work = (s.port q).work ∧ (t.port q).record = (s.port q).record
    (s.arbiter.grant = some ⟨.port p w d none, as, n⟩ →
      let k := tableWork p w.request s
      ∀ m, pauses m (paused m k.state.table k.state.sweep k.verdict k.arrivals 0)) ∧
    ∀ v : Verdict, s.arbiter.grant = some ⟨.port p w d (some v), as, n⟩ →
      (∀ m, pauses m (paused m s.table s.sweep v as n)) ∧
      (d = false → s.initialising = false →
        let u := takeArrivals as s
        let ends (body : List Byte) : Prop :=
          let t := endGrant (u.setPort p (if v.result = .done then (u.port p).answering w.head.tag .done body
            else (u.port p).refusing ⟨w.head.code, w.head.tag, v.result, w.head.loc, v.via, v.stop, v.hops⟩ body))
          exec (.portEngineGrant .toEnd) s = .next t ∧ t.rdy p = true ∧
          (t.port p).linkState = if (s.port p).select = .request then .receivingFromHeld else .held
        ends (v.answer.bytes (n + arrivalsRemove as s)) ∧
        ∀ (q : Port) (l : Local), as = [.removal q l .all] →
          let found := (s.port q).queue.countP (fun e => e.loc = l)
          (∀ (i : Slot) (had : Bool), v.answer = .unmapped i had →
            ends (slotBytes i ++ [flagByte had, natByte (n + found)])) ∧
          (v.answer = .unsubscribed → ends [natByte (n + found)]))

/-! ### The lease engine -/

/-- R69, R70: a tick ends its period and is counted while RUNNING up to 15, ignored while HELD and while the initialiser
runs; the first of a count raises the engine's claim, and the arbiter chooses if the table is free, so that a claim raised at an
idle table is granted at once. Nothing else changes. That the grant begins at once is the model's reading (log entry 1). A TICK
is the end of a tick period (log entry 3). -/
def Obligations.TickCountsWhileRunning : Prop :=
  ∀ s : State, s.clocked = true →
    let counted : State := { s with lease := { s.lease with
      divider := 0, pending := s.lease.pending + 1, claim := s.lease.pending = 0 || s.lease.claim } }
    ((s.initialising = true ∨ s.lease.hold = .held ∨ 15 ≤ s.lease.pending) →
      exec .tick s = .next { s with lease := { s.lease with divider := 0 } }) ∧
    (s.initialising = false → s.lease.hold = .running → s.lease.pending < 15 →
      exec .tick s = .next (arbitrate counted) ∧ (s.arbiter.grant.isSome = true → exec .tick s = .next counted)) ∧
    (s.initialising = false → s.lease.hold = .running → s.lease.pending = 0 → s.tableIdle →
      exec .tick s = .next { s with
        lease := { s.lease with divider := 0 }
        arbiter := { s.arbiter with pointer := .lease, grant := some ⟨.lease 1 .start, [], 0⟩ } })

/-- R69, R161, and log entry 3 (the model's choice): with no command waiting, a step is one REFCLK period, and the period
that fills a tick period of 4,000, 40,000 or 400,000 REFCLK periods makes a tick. -/
def Obligations.FullPeriodMakesTick : Prop :=
  ∀ (s : State) (n : Nat), s.pending = [] → s.clocked = true →
    s.lease.divider + n + 1 =
      (match s.lease.period with | .ms1 => 4000 | .ms10 => 40000 | .ms100 => 400000) →
    steps n s { s with lease := { s.lease with divider := s.lease.divider + n } } ∧
    step { s with lease := { s.lease with divider := s.lease.divider + n } } = exec .tick s

/-- R71 to R73: a lease access visits the slots in order. LEASE_ACCESS begins the visits at slot 0. A LEASE_EXPIRY makes the
record whose expiry is due STALE and posts to its list, and carried to its end it goes on with the visits from the next slot.
The visits lower every counted record up to the first that expires, whose expiry is then due; with none left, the grant ends.
Nothing else changes. That an access stops at each expiring record is log entry 4, and that it may pause between two posts, and
goes on with those left, is log entry 5. -/
def Obligations.LeaseAccessVisitsInOrder : Prop :=
  ∀ (s : State) (k : Nat) (as : List Arrival) (n : Nat), s.clocked = true →
    (s.arbiter.grant = some ⟨.lease k .start, as, n⟩ → ∃ u, exec .leaseAccess s = .next u ∧ s.accessFrom k 0 u) ∧
    (∀ i : Slot,
      (∀ v : ValueFields, s.arbiter.grant = some ⟨.lease k (.expiring i), as, n⟩ →
        (s.table.record i).body = .live (.value v) →
        let expired : Table :=
          s.table.setRecord i ⟨(s.table.record i).generation, .live (.value { v with quality := .stale })⟩
        (∃ u, exec (.leaseExpiry .toEnd) s = .next u ∧
          State.accessFrom { takeArrivals (s.table.stalePosts i v) s with table := expired } k (i.val + 1) u) ∧
        ∀ m : Nat, exec (.leaseExpiry (.arrivals m)) s = .next
          { takeArrivals ((s.table.stalePosts i v).take m) s with
            table := expired
            arbiter := { s.arbiter with
              grant := some ⟨.lease k (.posting i), (s.table.stalePosts i v).drop m, 0⟩ } }) ∧
      (s.arbiter.grant = some ⟨.lease k (.posting i), as, n⟩ →
        ∃ u, exec (.leaseExpiry .toEnd) s = .next u ∧ (takeArrivals as s).accessFrom k (i.val + 1) u))

/-- R71, R72, R73: a whole lease access of `k` ticks, one LEASE_ACCESS and then one LEASE_EXPIRY for each record that
expires, lowers every counted record by `k`, makes STALE those that come to 0, posts QUALITY(STALE) for them in ascending
slot order and list order, and frees the table; no other record, entry, subscription or port state changes. That an access
stops at each expiring record is log entry 4. -/
def Obligations.WholeLeaseAccess : Prop :=
  ∀ (s : State) (k : Nat), s.clocked = true → s.granted (.lease k .start) →
    ∃ (n : Nat) (t : State),
      n = (List.finRange 1024).countP (fun i => Record.expires k (s.table.record i)) ∧
      runs (.leaseAccess :: List.replicate n (.leaseExpiry .toEnd)) s t ∧
      (∀ i, t.table.record i = (s.table.record i).afterAccess k) ∧
      t.table.freeList = s.table.freeList ∧ t.table.views = s.table.views ∧ t.table.pool = s.table.pool ∧
      t.arbiter = { s.arbiter with grant := none } ∧ t.lease = s.lease ∧ t.sweep = s.sweep ∧ t.outer = s.outer ∧
      t.ports = (takeArrivals ((List.finRange 1024).flatMap (fun i =>
        match (s.table.record i).body with
        | .live (.value v) =>
          if 0 < v.interval ∧ 0 < v.remaining ∧ v.remaining.val ≤ k then s.table.stalePosts i v else []
        | .live (.aliasOf _) | .free | .retiring _ => [])) s).ports

/-! ### The sweep engine -/

/-- R126, R127: step V-x removes port x's entries that name the slot, returns the port's subscriptions on them, with a
removal and a RETIRED post for each in ascending order of local; step S returns the subscriptions left on the list of a VALUE
record, in list order. Each step's grant ends with the claim for the engine's next step raised and the arbiter's choice; with no
other claim raised, the next step is then granted. Nothing else changes. A step that pauses has done its table work, the first
`m` arrivals are in the queues and the rest wait in the grant (R103); carried on after whatever events, it brings those that wait
to the queues as these then stand, and ends in the same way. That the grant begins at once is the model's reading (log entry 1),
and where it may pause is log entry 5. -/
def Obligations.RetirementStepsSweep : Prop :=
  ∀ (s : State) (i : Slot) (as : List Arrival) (n : Nat), s.clocked = true →
    let runsTo (c : Progress → Instr) (j : Job) (table : Table) (all : List Arrival) (counted : Nat) : Prop :=
      let u : State := { takeArrivals all s with table := table }
      exec (c .toEnd) s = .next (endGrant { u with sweep := { s.sweep with job := some j, claim := true } }) ∧
      ((∀ r, s.claimed r = false) → s.sweep.choiceDue = false → exec (c .toEnd) s = .next { u with
        sweep := { s.sweep with job := some j }
        arbiter := { s.arbiter with pointer := .sweep, grant := some ⟨.sweep false, [], 0⟩ } }) ∧
      ∀ m, exec (c (.arrivals m)) s = .next { takeArrivals (all.take m) s with
        table := table
        arbiter := { s.arbiter with
          grant := some ⟨.sweep true, all.drop m, counted + arrivalsRemove (all.take m) s⟩ } }
    (∀ x : Port, s.sweep.job = some (.retirement i (.v x)) →
      let named (l : Local) : Bool := (s.table.entry x l).any (fun e => e.slot = i)
      let next : Job := .retirement i (match x with | .a => .v .b | .b => .v .c | .c => .v .d | .d => .s)
      (s.arbiter.grant = some ⟨.sweep false, as, n⟩ →
        ∃ t : Table,
          runsTo .stepV next t ((List.finRange 256).flatMap (fun l =>
            if named l ∧ (s.table.subscription? x l).isSome then
              [.removal x l .allButRetired, .post x l .retired] else [])) 0 ∧
          t.records = s.table.records ∧ t.freeList = s.table.freeList ∧
          (∀ y l, t.entry y l = if y = x ∧ named l = true then none else s.table.entry y l) ∧
          t.pool = s.table.pool.filter (fun u => ¬(u.port = x ∧ named u.loc = true))) ∧
      (s.arbiter.grant = some ⟨.sweep true, as, n⟩ → runsTo .stepV next s.table as n)) ∧
    (s.sweep.job = some (.retirement i .s) →
      (s.arbiter.grant = some ⟨.sweep false, as, n⟩ →
        (∀ v, (s.table.record i).body = .retiring (.value v) →
          runsTo .stepS (.retirement i .f) { s.table with pool := s.table.pool.filter (fun u => ¬u.target = i) }
            ((s.table.subsOn i).flatMap (fun u =>
              [.removal u.port u.loc .allButRetired, .post u.port u.loc .retired])) 0) ∧
        (∀ f, (s.table.record i).body = .retiring (.aliasOf f) → runsTo .stepS (.retirement i .f) s.table [] 0)) ∧
      (s.arbiter.grant = some ⟨.sweep true, as, n⟩ → runsTo .stepS (.retirement i .f) s.table as n))

/-- R6, R119, R124, R128: step F frees the slot, which keeps its generation and joins the tail of the free list, and the job
and the grant end. The engine chooses its next job before the arbiter chooses, or, where another claim waits, leaves that choice
due over the grant that follows. Nothing else changes. The hypothesis on claims is R13. The two times of the choice are log
entry 6; that it may stay due whatever grant follows, and also where no work waits, is log entry 25; that the grant begins at
once is log entry 1. -/
def Obligations.StepFFreesSlot : Prop :=
  ∀ (s : State) (i : Slot) (as : List Arrival) (worked : Bool) (n : Nat), s.clocked = true →
    s.arbiter.grant = some ⟨.sweep worked, as, n⟩ → s.sweep.job = some (.retirement i .f) →
    (∀ p, s.arbiter.claims.get p = true → (s.port p).work.isSome = true) →
    let freed : State := { s with
      table := { s.table.setRecord i ⟨(s.table.record i).generation, .free⟩ with freeList := s.table.freeList ++ [i] }
      arbiter := { s.arbiter with grant := none } }
    let idle : Sweep := { s.sweep with job := none }
    (∀ c : JobChoice, (c = .atOnce ∨ (∀ r, s.claimed r = false)) →
      ∃ w, idle.takes w ∧ exec (.stepF c) s = .next (arbitrate { freed with sweep := w })) ∧
    ((∃ r, s.claimed r = true) →
      ∃ t, exec (.stepF .afterNextGrant) s = .next t ∧ t = arbitrate { freed with sweep := { idle with choiceDue := true } } ∧
        t.arbiter.grant.isSome = true ∧ t.sweep.choiceDue = true)

/-- R108, R129, R130, R131: step D1 returns the port's subscriptions and posts nothing, and its grant ends; step D2 empties the
port's queue, clears its conditions but DETACHED, discards its refusal record and attaches it unless its flag has been set
again, and the engine takes its next job. Nothing else changes: with no job taken the arbiter stands as it was, and a job taken
while no other claim waits is granted its first step at once, which is the model's reading (log entry 1). The port's ATN is high
after step D2 (R114). That step D2 may come while another grant is in progress, that of an Unmap of the port too, is log
entry 22. -/
def Obligations.DetachmentStepsClearPort : Prop :=
  ∀ (s : State) (p : Port),
    (∀ (as : List Arrival) (n : Nat), s.clocked = true → s.arbiter.grant = some ⟨.sweep false, as, n⟩ →
      s.sweep.job = some (.detachment p .d1) →
      let u : State := { s with
        table := { s.table with pool := s.table.pool.filter (fun u => ¬u.port = p) }
        sweep := { s.sweep with job := some (.detachment p .d2) } }
      exec .stepD1 s = .next (endGrant u) ∧
      (s.granted (.sweep false) → exec .stepD1 s = .next { u with arbiter := { s.arbiter with grant := none } })) ∧
    (s.sweep.job = some (.detachment p .d2) →
      ∃ w,
        ({ s.sweep with
            job := none
            attachment := s.sweep.attachment.set p (if s.sweep.flags.get p then .detaching else .attached) } :
          Sweep).takes w ∧
        let u : State := { s.setPort p { s.port p with
            queue := [], conditions := ⟨false, false, false, false, false, true⟩, record := none } with sweep := w }
        exec .stepD2 s = .next (arbitrate u) ∧ (s.rstn = .high → (arbitrate u).atn p = true) ∧
        (s.arbiter.grant.isSome = true ∨ (w.job = none ∧ ∀ r, s.claimed r = false) → exec .stepD2 s = .next u) ∧
        (s.arbiter.grant = none → w.job.isSome = true → (∀ r, s.claimed r = false) →
          exec .stepD2 s = .next { u with
            sweep := { w with claim := false }
            arbiter := { s.arbiter with pointer := .sweep, grant := some ⟨.sweep false, [], 0⟩ } }))

/-- R6, R7, R126 to R128, R132: a retirement job run through its six steps, with no other claim raised, leaves the slot FREE
at the tail of the free list with its generation, no view entry that names it and no subscription whose via slot or target
slot it is; every other record, entry and subscription stays. That the grant begins at once is the model's reading (log entry
1). The time of the last choice is log entry 6. -/
def Obligations.WholeRetirementFreesSlot : Prop :=
  ∀ (s : State) (i : Slot), s.clocked = true → s.initialising = false → s.granted (.sweep false) →
    s.sweep.job = some (.retirement i (.v .a)) → (s.table.record i).isRetiring = true → s.ViewInv →
    ∃ t, runs [.stepV .toEnd, .stepV .toEnd, .stepV .toEnd, .stepV .toEnd, .stepS .toEnd, .stepF .atOnce] s t ∧
      t.table.record i = ⟨(s.table.record i).generation, .free⟩ ∧
      (∀ j, j ≠ i → t.table.record j = s.table.record j) ∧ t.table.freeList = s.table.freeList ++ [i] ∧
      (∀ p l, t.table.entry p l = if (s.table.entry p l).any (fun e => e.slot = i) then none else s.table.entry p l) ∧
      t.table.pool = s.table.pool.filter (fun u => ¬(u.via = i ∨ u.target = i))

/-! ### Lines -/

/-- R16, R121, R122, R144, R154: a fall of PRST empties the port's link and abandons its transaction, of which a low select
remains; it drops a request not yet granted and marks the port for detachment, for which an idle sweep engine raises its claim at
once, and the arbiter chooses if the table is free; queue and conditions stay, and a grant begun goes on with its response to be
discarded. The link is IDLE with RDY low, and ATN stays as it was (R114). While the initialiser runs no port is marked; while
RSTn is low only the pin changes. A rise changes the pin alone. That the grant begins at once is the model's reading (log entry
1), and that an engine whose choice is still due takes the port only then is log entry 25. The emptied record of the bits
shifted out is the model's (log entry 10). -/
def Obligations.PortResetFallAndRise : Prop :=
  ∀ (s : State) (p : Port),
    let fallen : State := { s.setPort p { s.port p with
        prst := .low
        select := if (s.port p).select = .high then .high else .low
        work := none, held := none, dataOut := [] } with
      arbiter := { s.arbiter with
        claims := s.arbiter.claims.set p false
        grant := s.arbiter.grant.map (fun g => { g with holder := match g.holder with
          | .port q w d v => .port q w (d || q = p) v
          | h => h }) } }
    let pinLow : State := s.setPort p { s.port p with prst := .low }
    let falls (t : State) : Prop :=
      exec (.prstFall p) s = .next t ∧ (t.port p).linkState = .idle ∧ t.rdy p = false ∧ t.atn p = s.atn p
    ((s.port p).prst = .high → s.rstn = .high →
      (s.initialising = true → falls fallen) ∧
      (s.initialising = false → ∃ w, s.sweep.marks w p ∧ falls (arbitrate { fallen with sweep := w }))) ∧
    ((s.port p).prst = .high → s.rstn = .low → exec (.prstFall p) s = .next pinLow) ∧
    exec (.prstRise p) s = .next (s.setPort p { s.port p with prst := .high })

/-- R16, R67, R118, R154: a grant whose port's PRST has fallen keeps its whole effect on the table, the queues and the sweep
engine, whether the line fell before its work was done or between two of its arrivals; its response is never held, so its
port's held response, request in work and refusal record stay as they are; and the grant ends. That it needs REFCLK is log entry
14, and where a grant may pause is log entry 5. -/
def Obligations.DiscardedGrantKeepsEffect : Prop :=
  ∀ (s : State) (p : Port) (w : Work) (as : List Arrival) (n : Nat), s.clocked = true →
    let k := tableWork p w.request s
    let ends (u : State) : Prop :=
      exec (.portEngineGrant .toEnd) s = .next (endGrant u) ∧ ((endGrant u).port p).held = (s.port p).held ∧
        ((endGrant u).port p).record = (s.port p).record ∧ ((endGrant u).port p).work = (s.port p).work
    (s.arbiter.grant = some ⟨.port p w true none, as, n⟩ →
      ends { takeArrivals k.arrivals s with table := k.state.table, sweep := k.state.sweep }) ∧
    ∀ v : Verdict, s.arbiter.grant = some ⟨.port p w true (some v), as, n⟩ → ends (takeArrivals as s)

/-- R144, R158: a fall of RSTn gives every block its power-on value, whatever work was in progress, and abandons every
transaction, of which a low select remains; RDY and ATN are low on every port. Nothing is said of the table memory, which has no
defined value then. That the divider stands at 0 is log entry 23, and the emptied record of the bits shifted out is the model's
(log entry 10). -/
def Obligations.RstnFallClearsBlocks : Prop :=
  ∀ s : State, s.rstn = .high →
    ∃ t, exec .rstnFall s = .next t ∧ t.rstn = .low ∧ t.initialising = false ∧ t.refclk = s.refclk ∧ t.pending = s.pending ∧
      t.arbiter.pointer = .sweep ∧ t.arbiter.grant = none ∧ t.lease = ⟨.ms10, 0, .running, 0, false⟩ ∧
      t.sweep.fifo = [] ∧ t.sweep.job = none ∧ t.sweep.claim = false ∧ t.sweep.choiceDue = false ∧
      ∀ p, t.arbiter.claims.get p = false ∧ t.sweep.flags.get p = false ∧ t.sweep.attachment.get p = .attached ∧
        t.port p = ⟨(s.port p).prst, if (s.port p).select = .high then .high else .low, none, none, [], [],
          ⟨false, false, false, false, false, false⟩, none⟩ ∧
        t.rdy p = false ∧ t.atn p = false

/-- R159, R160: the release of RSTn sets the initialiser's flag and starts a fresh tick period; the end of initialisation
clears the flag, establishes the power-on contents of the table memory and sets DETACHED on all four ports, so ATN is high.
Nothing else changes. That the table memory stands unchanged from the release to the end is log entry 24, and that the end needs
REFCLK is log entry 14. -/
def Obligations.ReleaseAndInitialisation : Prop :=
  ∀ s : State,
    (s.rstn = .low → exec .rstnRelease s = .next
      { s with rstn := .high, initialising := true, lease := { s.lease with divider := 0 } }) ∧
    (s.initialising = true → s.clocked = true →
      ∃ t, exec .initialisationEnd s = .next t ∧ t.initialising = false ∧ t.rstn = s.rstn ∧ t.refclk = s.refclk ∧
        t.arbiter = s.arbiter ∧ t.lease = s.lease ∧ t.sweep = s.sweep ∧ t.pending = s.pending ∧
        (∀ i, t.table.record i = ⟨0#8, .free⟩) ∧ t.table.freeList = List.finRange 1024 ∧
        (∀ p l, t.table.entry p l = none) ∧ t.table.pool = [] ∧
        ∀ p, t.port p = { s.port p with conditions := { (s.port p).conditions with detached := true } } ∧ t.atn p = true)

/-- R159, R161, and log entry 14: REFCLK stops and resumes; while it is stopped, no tick completes, the initialiser does not
end and no table work proceeds. -/
def Obligations.StoppedClockHoldsWork : Prop :=
  ∀ (s : State) (g : Progress) (c : JobChoice),
    exec .refclkStop s = .next { s with refclk := false } ∧ exec .refclkResume s = .next { s with refclk := true } ∧
    (s.refclk = false → ∀ i ∈ [Instr.tick, .initialisationEnd, .portEngineGrant g, .leaseAccess, .leaseExpiry g, .stepV g,
      .stepS g, .stepF c, .stepD1], exec i s = .next s)

/-! ### The link -/

/-- R48, R134, R159: while the initialiser runs, every good frame is answered NOT_READY; nothing is captured, DISCARDED is
not set, and the conditions byte is that of the port as it stands. A frame error and a transaction of unknown type set no
condition then. The port's record of the bits shifted out is the model's (log entry 10). -/
def Obligations.NotReadyWhileInitialising : Prop :=
  ∀ (p : Port) (s : State), s.initialising = true →
    (∀ (tag : Byte) (body : List Byte), s.framed p → (s.port p).work = none → body.length ≤ 120 →
      let t := s.setPort p (({ (s.port p).closing body.length with held := none }).answering tag .notReady [])
      (∀ c : Code, exec (requestCommand c p (.frame tag body)) s = .next t) ∧
      ∀ code : Byte, Code.ofByte? code = none → exec (.unknownCodeFrame p code (.frame tag body)) s = .next t) ∧
    (∀ (bytes : List Byte) (extra : Fin 8), s.framed p → judge bytes extra = .frameError →
      exec (.frameError p bytes extra) s = .next (s.setPort p { s.port p with
        select := .high
        dataOut := List.replicate (8 * (bytes.length + 1) + extra) false })) ∧
    ∀ (n : Nat) (t : OtherStretch), s.linkOn p = true → (s.port p).opened = some n → t.first ≠ 0xA5#8 → t.first ≠ 0x5A#8 →
      8 ≤ n + t.stretch.edges →
      exec (.unknownTransaction p t) s = .next (s.setPort p { s.port p with
        select := if t.stretch.ends then .high else .unknown
        dataOut := List.replicate (n + t.stretch.edges) false })

/-- R123, R138, R139, R150, checks 2 to 4: a frame from a DETACHING port is answered DETACHING; else an unknown code or a
body of a wrong length BAD_REQUEST, with no local captured; else a supervisor request from port B, C or D NOT_SUPERVISOR. The
refusal is captured if REFUSAL_HELD was clear, and nothing else changes. The port's record of the bits shifted out is the
model's (log entry 10). -/
def Obligations.RefusedBeforeDispatch : Prop :=
  ∀ (p : Port) (tag : Byte) (body : List Byte) (s : State), s.framed p → (s.port p).work = none →
    s.initialising = false → body.length ≤ 120 →
    let refused (code : Byte) (r : Result) (l : Option Local) : State := s.setPort p
      (((s.port p).afterFrame body.length).refusing ⟨code, tag, r, l, none, none, 0⟩ [])
    (∀ c : Code,
      (s.sweep.attachment.get p = .detaching →
        exec (requestCommand c p (.frame tag body)) s = .next (refused c.toByte .detaching none)) ∧
      (s.sweep.attachment.get p = .attached → lengthOk c body = false →
        exec (requestCommand c p (.frame tag body)) s = .next (refused c.toByte .badRequest none)) ∧
      (s.sweep.attachment.get p = .attached → lengthOk c body = true → c.supervisor = true → p ≠ .a →
        exec (requestCommand c p (.frame tag body)) s = .next (refused c.toByte .notSupervisor (refusalLocal c body)))) ∧
    ∀ code : Byte, Code.ofByte? code = none →
      exec (.unknownCodeFrame p code (.frame tag body)) s = .next
        (refused code (if s.sweep.attachment.get p = .detaching then .detaching else .badRequest) none)

/-- R144 to R148: the type byte of a request transaction brings the link to RECEIVING and changes nothing held. A frame error
sets LINK_ERROR and nothing else, and so does a transaction of unknown type when its first byte is complete; the rest of it sets
nothing, to its end. A transaction of fewer than eight clock edges sets nothing. A good frame while a request is in work is
discarded and sets OVERRUN. So the link goes from IDLE and HELD to RECEIVING, which remembers them, and back; WORKING stays; RDY
stays; and ATN is high where a condition has been set, and else stays (R114). The zeros shifted out are the model's record of
data-out (log entry 10). -/
def Obligations.LinkEventsSetStatesAndConditions : Prop :=
  ∀ (p : Port) (s : State), s.linkOn p = true → s.initialising = false →
    let event (c : Instr) (x : PortState) (l : LinkState) (sets : Bool) : Prop :=
      let t := s.setPort p x
      exec c s = .next t ∧ (t.port p).linkState = l ∧ t.rdy p = s.rdy p ∧ t.atn p = (sets || s.atn p)
    let now := (s.port p).linkState
    let entered : LinkState := match now with | .idle => .receivingFromIdle | .held => .receivingFromHeld | l => l
    let left : LinkState := match now with | .receivingFromIdle => .idle | .receivingFromHeld => .held | l => l
    (∀ c : Code, (s.port p).opened.isSome = true → event (requestCommand c p .typeByte)
      { s.port p with select := .request, dataOut := List.replicate 8 false } entered false) ∧
    (∀ (bytes : List Byte) (extra : Fin 8), (s.port p).framing = true → judge bytes extra = .frameError →
      event (.frameError p bytes extra) { s.port p with
        select := .high
        dataOut := List.replicate (8 * (bytes.length + 1) + extra) false
        conditions := { (s.port p).conditions with linkError := true } } left true) ∧
    (∀ (n : Nat) (t : OtherStretch), (s.port p).opened = some n → t.first ≠ 0xA5#8 → t.first ≠ 0x5A#8 →
      8 ≤ n + t.stretch.edges →
      event (.unknownTransaction p t) { s.port p with
        select := if t.stretch.ends then .high else .unknown
        dataOut := List.replicate (n + t.stretch.edges) false
        conditions := { (s.port p).conditions with linkError := true } } now true) ∧
    (∀ t : OtherStretch, (s.port p).select = .unknown →
      event (.unknownTransaction p t) { s.port p with
        select := if t.stretch.ends then .high else .unknown
        dataOut := (s.port p).dataOut ++ List.replicate t.stretch.edges false } now false) ∧
    (∀ (n : Nat) (first : Byte) (t : Stretch), (s.port p).opened = some n → n + t.edges < 8 →
      ∀ c ∈ [Instr.unknownTransaction p ⟨first, t⟩, .responseTransaction p t],
        event c { s.port p with
          select := if t.ends then .high else .opening (n + t.edges)
          dataOut := List.replicate (n + t.edges) false } now false) ∧
    (∀ (code tag : Byte) (body : List Byte), (s.port p).framing = true → (s.port p).work.isSome = true →
      body.length ≤ 120 →
      event (.overrun p code (.frame tag body)) { (s.port p).closing body.length with
        conditions := { (s.port p).conditions with overrun := true } } .working true)

/-- R152, R156: a response transaction shifts out zeros during its type byte, then the response that was held when that byte
completed, whose length byte is the body length plus 5 and which ends in the CRC of what comes before, then zeros; the response
is released exactly when its last bit has been shifted out. With none held then, it shifts out zeros to its end, and a response
that becomes held meanwhile stays. So for a transaction that comes whole and for one that comes in stretches. Nothing else
changes. At the release the link becomes IDLE and RDY falls; until then, and else, the link state and RDY stay, and ATN stays
throughout (R114, R146). The port's record of the bits shifted out is the model's (log entry 10). -/
def Obligations.ResponseTransactionDelivers : Prop :=
  ∀ (p : Port) (n : Nat) (t : Stretch) (s : State), s.linkOn p = true →
    let total := n + t.edges
    let now (d : Option Response) : SelectState := if t.ends then .high else .response total d
    let zeros : PortState := { s.port p with select := now none, dataOut := List.replicate total false }
    let leaves (x : PortState) (l : LinkState) (ready : Bool) : Prop :=
      let u := s.setPort p x
      exec (.responseTransaction p t) s = .next u ∧ (u.port p).linkState = l ∧ u.rdy p = ready ∧ u.atn p = s.atn p
    ((s.port p).opened = some n → 8 ≤ total → (s.port p).held = none → leaves zeros (s.port p).linkState false) ∧
    ((s.port p).select = .response n none → 8 ≤ n → leaves zeros (s.port p).linkState (s.rdy p)) ∧
    ∀ (tag : Byte) (result : Result) (cond : Byte) (body : List Byte),
      let r := makeResponse tag result cond body
      let sent := natByte (body.length + 5) :: tag :: result.toByte :: cond :: body
      let bits := List.replicate 8 false ++ (sent ++ bytes2 (crc sent)).flatMap byteBits
      ((s.port p).opened = some n ∧ n < 8 ∧ 8 ≤ total ∧ (s.port p).held = some r) ∨
          ((s.port p).select = .response n (some r) ∧ 8 ≤ n) →
      (total < bits.length →
        leaves { s.port p with select := now (some r), dataOut := bits.take total } (s.port p).linkState (s.rdy p)) ∧
      (bits.length ≤ total →
        let sentAll : PortState :=
          { s.port p with select := now (some r), dataOut := bits ++ List.replicate (total - bits.length) false }
        (n < bits.length → leaves { sentAll with held := none }
          (if (s.port p).work.isSome then .working else .idle) false) ∧
        (bits.length ≤ n → leaves sentAll (s.port p).linkState (s.rdy p)))

/-- R144, R154, R158: while RSTn or the port's PRST is low, and after that until a low select has risen, every transaction on
the port is ignored: nothing changes but the level of select. -/
def Obligations.DeadLinkIgnoresTransactions : Prop :=
  ∀ (p : Port) (s : State), (s.linkOn p = false ∨ (s.port p).select = .low) →
    let left (level : SelectState) : Host.Outcome State Fault Refusal := .next (s.setPort p { s.port p with select := level })
    ∀ (c : Code) (b tag : Byte) (body bytes : List Byte) (extra : Fin 8) (t : OtherStretch),
      (∀ i ∈ [requestCommand c p .typeByte, .overrun p b .typeByte, .unknownCodeFrame p b .typeByte],
        exec i s = left .low) ∧
      (∀ i ∈ [requestCommand c p (.frame tag body), .overrun p b (.frame tag body), .unknownCodeFrame p b (.frame tag body),
        .frameError p bytes extra], exec i s = left .high) ∧
      ∀ i ∈ [Instr.unknownTransaction p t, .responseTransaction p t.stretch],
        exec i s = left (if t.stretch.ends then .high else .low)
end

