-- ==== Sys2Proof/Laws/State.lean ====
section
/-! SUPPORT. The small lemmas of the state: one per field per update, and reading back what was replaced. -/
namespace Sys2Proof

theorem Port.forall_iff {P : Port → Prop} : (∀ p, P p) ↔ P .a ∧ P .b ∧ P .c ∧ P .d :=
  ⟨fun h => ⟨h _, h _, h _, h _⟩, fun h p => by cases p <;> simp [h]⟩

@[simp] theorem PerPort.get_set_self {α : Type} (x : PerPort α) (p : Port) (v : α) : (x.set p v).get p = v := by
  cases p <;> rfl

@[simp] theorem PerPort.get_set_ne {α : Type} (x : PerPort α) {p q : Port} (v : α) (h : q ≠ p) :
    (x.set p v).get q = x.get q := by
  cases p <;> cases q <;> first | rfl | exact absurd rfl h

theorem PerPort.get_set {α : Type} (x : PerPort α) (p q : Port) (v : α) :
    (x.set p v).get q = if q = p then v else x.get q := by
  by_cases h : q = p
  · subst h; simp
  · simp [h]

@[simp] theorem PerPort.get_replicate {α : Type} (v : α) (p : Port) : (PerPort.replicate v).get p = v := by
  cases p <;> rfl

theorem PerPort.ext_get {α : Type} {x y : PerPort α} (h : ∀ p, x.get p = y.get p) : x = y := by
  cases x; cases y
  have ha := h .a; have hb := h .b; have hc := h .c; have hd := h .d
  simp only [PerPort.get] at ha hb hc hd
  subst ha hb hc hd; rfl

@[simp] theorem PerPort.set_get_self {α : Type} (x : PerPort α) (p : Port) : x.set p (x.get p) = x := by
  cases p <;> rfl

@[simp] theorem PerPort.set_set {α : Type} (x : PerPort α) (p : Port) (v w : α) : (x.set p v).set p w = x.set p w := by
  cases p <;> rfl

namespace Machine

variable (s : State) (p q : Port) (x : PortState)

@[simp] theorem setPort_rstn : (s.setPort p x).rstn = s.rstn := rfl
@[simp] theorem setPort_refclk : (s.setPort p x).refclk = s.refclk := rfl
@[simp] theorem setPort_initialising : (s.setPort p x).initialising = s.initialising := rfl
@[simp] theorem setPort_table : (s.setPort p x).table = s.table := rfl
@[simp] theorem setPort_arbiter : (s.setPort p x).arbiter = s.arbiter := rfl
@[simp] theorem setPort_lease : (s.setPort p x).lease = s.lease := rfl
@[simp] theorem setPort_sweep : (s.setPort p x).sweep = s.sweep := rfl
@[simp] theorem setPort_freeDraws : (s.setPort p x).freeDraws = s.freeDraws := rfl
@[simp] theorem setPort_pending : (s.setPort p x).pending = s.pending := rfl

@[simp] theorem port_setPort_self : (s.setPort p x).port p = x := PerPort.get_set_self _ _ _

@[simp] theorem port_setPort_ne {q : Port} (h : q ≠ p) : (s.setPort p x).port q = s.port q := PerPort.get_set_ne _ _ h

theorem port_setPort : (s.setPort p x).port q = if q = p then x else s.port q := PerPort.get_set _ _ _ _

@[simp] theorem setPort_port_self : s.setPort p (s.port p) = s := by
  simp [State.setPort, State.port]

@[simp] theorem setPort_setPort (y : PortState) : (s.setPort p x).setPort p y = s.setPort p y := by
  simp [State.setPort]

variable (t : Table) (i j : Slot) (r : Record)

@[simp] theorem setRecord_freeList : (t.setRecord i r).freeList = t.freeList := rfl
@[simp] theorem setRecord_views : (t.setRecord i r).views = t.views := rfl
@[simp] theorem setRecord_pool : (t.setRecord i r).pool = t.pool := rfl
@[simp] theorem setRecord_entry (l : Local) : (t.setRecord i r).entry p l = t.entry p l := rfl
@[simp] theorem setRecord_subsOn : (t.setRecord i r).subsOn j = t.subsOn j := rfl

@[simp] theorem record_setRecord_self : (t.setRecord i r).record i = r := by
  simp [Table.record, Table.setRecord, Vector.get_eq_getElem]

@[simp] theorem record_setRecord_ne {j : Slot} (h : j ≠ i) : (t.setRecord i r).record j = t.record j := by
  have h' : i.val ≠ j.val := fun e => h (Fin.ext e.symm)
  simp [Table.record, Table.setRecord, Vector.get_eq_getElem, Vector.getElem_set_ne, h']

theorem record_setRecord : (t.setRecord i r).record j = if j = i then r else t.record j := by
  by_cases h : j = i
  · subst h; simp
  · simp [h]

variable (l m : Local) (e : Option ViewEntry)

@[simp] theorem setEntry_records : (t.setEntry p l e).records = t.records := rfl
@[simp] theorem setEntry_record : (t.setEntry p l e).record i = t.record i := rfl
@[simp] theorem setEntry_freeList : (t.setEntry p l e).freeList = t.freeList := rfl
@[simp] theorem setEntry_pool : (t.setEntry p l e).pool = t.pool := rfl

theorem entry_setEntry : (t.setEntry p l e).entry q m = if q = p ∧ m = l then e else t.entry q m := by
  unfold Table.entry Table.setEntry
  by_cases hq : q = p
  · subst hq
    by_cases hm : m = l
    · subst hm; simp [Vector.get_eq_getElem]
    · have h' : l.val ≠ m.val := fun e => hm (Fin.ext e.symm)
      simp [Vector.get_eq_getElem, Vector.getElem_set_ne, h', hm]
  · simp [hq]

@[simp] theorem entry_setEntry_self : (t.setEntry p l e).entry p l = e := by simp [entry_setEntry]

variable (drop : Subscription → Bool)

@[simp] theorem returnSubs_records : (t.returnSubs drop).records = t.records := rfl
@[simp] theorem returnSubs_record : (t.returnSubs drop).record i = t.record i := rfl
@[simp] theorem returnSubs_freeList : (t.returnSubs drop).freeList = t.freeList := rfl
@[simp] theorem returnSubs_views : (t.returnSubs drop).views = t.views := rfl
@[simp] theorem returnSubs_entry : (t.returnSubs drop).entry p l = t.entry p l := rfl
@[simp] theorem returnSubs_pool : (t.returnSubs drop).pool = t.pool.filter (fun u => !drop u) := rfl

@[simp] theorem cleared_record : Table.cleared.record i = ⟨0#8, .free⟩ := by
  show (Vector.replicate 1024 (⟨0#8, .free⟩ : Record))[i.val] = _
  exact Vector.getElem_replicate ..

@[simp] theorem cleared_entry : Table.cleared.entry p l = none := by
  rw [Table.entry, Table.cleared, PerPort.get_replicate]
  exact Vector.getElem_replicate ..

@[simp] theorem cleared_pool : Table.cleared.pool = [] := by rw [Table.cleared]

theorem cleared_freeList : Table.cleared.freeList = List.finRange 1024 := by rw [Table.cleared]

theorem mem_cleared_freeList : i ∈ Table.cleared.freeList := by
  rw [cleared_freeList]; exact List.mem_finRange i

@[simp] theorem isLive_iff : r.isLive = true ↔ ∃ c, r.body = .live c := by
  unfold Record.isLive; cases h : r.body <;> simp

@[simp] theorem isRetiring_iff : r.isRetiring = true ↔ ∃ c, r.body = .retiring c := by
  unfold Record.isRetiring; cases h : r.body <;> simp

@[simp] theorem keyed_iff (u : Subscription) : u.keyed p l = true ↔ u.port = p ∧ u.loc = l := by
  simp [Subscription.keyed]

theorem subscription?_some {u : Subscription} (h : t.subscription? p l = some u) :
    u ∈ t.pool ∧ u.port = p ∧ u.loc = l := by
  have hk := List.find?_some h
  exact ⟨List.mem_of_find?_eq_some h, (keyed_iff p l u).1 hk⟩

theorem subscription?_none : t.subscription? p l = none ↔ ∀ u ∈ t.pool, ¬(u.port = p ∧ u.loc = l) := by
  simp [Table.subscription?, Subscription.keyed]

end Machine
end Sys2Proof
end

