-- ==== Sys2Proof/Laws/Ops.lean ====
section
/-! SUPPORT. What the shared operations can do, each said once: condition blocks, response building, queues, the arbiter, the
sweep engine's choice. Proofs cite these and do not unfold the operations. -/
namespace Sys2Proof.Machine

theorem outer_iff {s t : State} : t.outer = s.outer ↔
    t.rstn = s.rstn ∧ t.refclk = s.refclk ∧ t.initialising = s.initialising ∧ t.freeDraws = s.freeDraws ∧
    t.pending = s.pending := by
  simp [State.outer]

/-- What stands outside the ports: the rest of the state that work at one port leaves alone. -/
def State.core (s : State) : Table × Arbiter × Lease × Sweep := (s.table, s.arbiter, s.lease, s.sweep)

theorem core_iff {s t : State} : t.core = s.core ↔
    t.table = s.table ∧ t.arbiter = s.arbiter ∧ t.lease = s.lease ∧ t.sweep = s.sweep := by
  simp [State.core]

theorem State.ext_parts {s t : State} (ho : t.outer = s.outer) (hc : t.core = s.core) (hp : ∀ p, t.port p = s.port p) :
    t = s := by
  have hq : t.ports = s.ports := PerPort.ext_get hp
  cases s; cases t
  simp only [State.outer, State.core, Prod.mk.injEq] at ho hc hq
  simp_all

variable (s : State) (p q : Port)

@[simp] theorem outer_setPort (x : PortState) : (s.setPort p x).outer = s.outer := rfl
@[simp] theorem core_setPort (x : PortState) : (s.setPort p x).core = s.core := rfl

/-! ### Condition blocks and responses -/

theorem setCondition_of_not_initialising (k : Condition) (h : s.initialising = false) :
    setCondition k p s = s.setPort p { s.port p with conditions := (s.port p).conditions.raise k } := by
  simp [setCondition, h]

theorem setCondition_of_initialising (k : Condition) (h : s.initialising = true) : setCondition k p s = s := by
  simp [setCondition, h]

@[simp] theorem setCondition_outer (k : Condition) : (setCondition k p s).outer = s.outer := by
  unfold setCondition; split <;> simp

@[simp] theorem setCondition_core (k : Condition) : (setCondition k p s).core = s.core := by
  unfold setCondition; split <;> simp

@[simp] theorem setCondition_port_ne (k : Condition) (h : q ≠ p) : (setCondition k p s).port q = s.port q := by
  unfold setCondition; split <;> simp [h]

/-- A capture leaves the state as it is, or writes the record and sets REFUSAL_HELD (R138). -/
theorem capture_cases (r : RefusalRecord) :
    ((s.initialising = true ∨ (s.port p).conditions.refusalHeld = true) ∧ capture p r s = s) ∨
    (s.initialising = false ∧ (s.port p).conditions.refusalHeld = false ∧
      capture p r s = s.setPort p
        { s.port p with conditions := (s.port p).conditions.raise .refusalHeld, record := some r }) := by
  unfold capture
  cases h : s.initialising <;> cases h' : (s.port p).conditions.refusalHeld <;> simp

@[simp] theorem capture_outer (r : RefusalRecord) : (capture p r s).outer = s.outer := by
  unfold capture; split <;> simp

@[simp] theorem capture_core (r : RefusalRecord) : (capture p r s).core = s.core := by
  unfold capture; split <;> simp

@[simp] theorem capture_port_ne (r : RefusalRecord) (h : q ≠ p) : (capture p r s).port q = s.port q := by
  unfold capture; split <;> simp [h]

@[simp] theorem respond_outer (h : Head) (v : Verdict) (n : Nat) : (respond p h v n s).outer = s.outer := by
  unfold respond; dsimp only; split <;> simp

@[simp] theorem respond_core (h : Head) (v : Verdict) (n : Nat) : (respond p h v n s).core = s.core := by
  unfold respond; dsimp only; split <;> simp

@[simp] theorem respond_port_ne (h : Head) (v : Verdict) (n : Nat) (hq : q ≠ p) :
    (respond p h v n s).port q = s.port q := by
  unfold respond; dsimp only; split <;> simp [hq]

/-- A DONE response changes nothing of its port but the held response and the request in work. -/
theorem respond_done (h : Head) (v : Verdict) (n : Nat) (hv : v.result = .done) :
    respond p h v n s = s.setPort p { s.port p with
      work := none
      held := some (makeResponse h.tag .done (conditionsByte (s.port p)) (v.answer.bytes n)) } := by
  simp [respond, hv]

/-- What a response does at its own port: the request leaves work, a response is held, and only REFUSAL_HELD and the refusal
record may change with it. -/
theorem respond_port_self (h : Head) (v : Verdict) (n : Nat) :
    ((respond p h v n s).port p).work = none ∧ ((respond p h v n s).port p).held.isSome = true ∧
    ((respond p h v n s).port p).queue = (s.port p).queue ∧ ((respond p h v n s).port p).prst = (s.port p).prst ∧
    ((respond p h v n s).port p).select = (s.port p).select := by
  unfold respond; dsimp only
  split
  · simp
  · rcases capture_cases s p (refusalOf h v) with ⟨-, e⟩ | ⟨-, -, e⟩ <;> rw [e] <;> simp

/-! ### Notification queues -/

/-- A post at a queue: it merges, it is appended, or it is dropped (R104, R105). -/
theorem queuePost_cases (es : List Entry) (l : Local) (n : Note) :
    ((∃ e ∈ es, e.loc = l ∧ e.note.cls = n.cls) ∧
      queuePost es l n = some (es.map (fun e => if e.keyed l n.cls then e.merge n else e))) ∨
    ((∀ e ∈ es, ¬(e.loc = l ∧ e.note.cls = n.cls)) ∧ es.length < 32 ∧ queuePost es l n = some (es ++ [⟨l, n, 1⟩])) ∨
    ((∀ e ∈ es, ¬(e.loc = l ∧ e.note.cls = n.cls)) ∧ 32 ≤ es.length ∧ queuePost es l n = none) := by
  unfold queuePost
  by_cases h : es.any (·.keyed l n.cls) = true
  · left; refine ⟨?_, by simp [h]⟩
    simpa [Entry.keyed] using h
  · right
    have hn : ∀ e ∈ es, ¬(e.loc = l ∧ e.note.cls = n.cls) := by simpa [Entry.keyed] using h
    by_cases hl : es.length < Config.queueSize
    · left; exact ⟨hn, hl, by simp [h, hl]⟩
    · right; exact ⟨hn, by simpa [Config.queueSize] using hl, by simp [h, hl]⟩

theorem mem_queueRemove (es : List Entry) (l : Local) (k : RemovalSet) (e : Entry) :
    e ∈ queueRemove es l k ↔ e ∈ es ∧ ¬(e.loc = l ∧ k.has e.note.cls = true) := by
  simp [queueRemove, Entry.removedBy, imp_iff_not_or]

theorem queueRemove_length (es : List Entry) (l : Local) (k : RemovalSet) :
    (queueRemove es l k).length + queueRemoved es l k = es.length := by
  unfold queueRemove queueRemoved
  rw [← List.countP_eq_length_filter, Nat.add_comm]
  have := List.length_eq_countP_add_countP (p := fun e => Entry.removedBy l k e) (l := es)
  simpa using this.symm

@[simp] theorem takeArrival_outer (a : Arrival) : (takeArrival a s).outer = s.outer := by
  cases a <;> simp only [takeArrival]
  · split <;> simp
  · simp

@[simp] theorem takeArrival_core (a : Arrival) : (takeArrival a s).core = s.core := by
  cases a <;> simp only [takeArrival]
  · split <;> simp
  · simp

/-- The port whose queue an arrival reaches. -/
def Arrival.port : Arrival → Port
  | .post p _ _ => p
  | .removal p _ _ => p

@[simp] theorem takeArrival_port_ne (a : Arrival) (h : q ≠ a.port) : (takeArrival a s).port q = s.port q := by
  cases a <;> simp only [takeArrival, Arrival.port] at *
  · split <;> simp [h]
  · simp [h]

/-- An arrival changes its port's queue and, when it is dropped, LOST; nothing else of the port. -/
theorem takeArrival_port_self (a : Arrival) :
    ∃ es c, (takeArrival a s).port a.port = { s.port a.port with queue := es, conditions := c } ∧
      (c = (s.port a.port).conditions ∨ c = (s.port a.port).conditions.raise .lost) := by
  cases a <;> simp only [takeArrival, Arrival.port]
  · split
    · exact ⟨_, _, by rw [port_setPort_self], .inl rfl⟩
    · unfold setCondition; split
      · exact ⟨_, _, rfl, .inl rfl⟩
      · exact ⟨_, _, by rw [port_setPort_self], .inr rfl⟩
  · exact ⟨_, _, by rw [port_setPort_self], .inl rfl⟩

@[simp] theorem takeArrivals_nil : takeArrivals [] s = s := rfl

@[simp] theorem takeArrivals_cons (a : Arrival) (as : List Arrival) :
    takeArrivals (a :: as) s = takeArrivals as (takeArrival a s) := rfl

theorem takeArrivals_append (as bs : List Arrival) :
    takeArrivals (as ++ bs) s = takeArrivals bs (takeArrivals as s) := by
  simp [takeArrivals]

@[simp] theorem takeArrivals_outer (as : List Arrival) : (takeArrivals as s).outer = s.outer := by
  induction as generalizing s with
  | nil => rfl
  | cons a as ih => simp [ih]

@[simp] theorem takeArrivals_core (as : List Arrival) : (takeArrivals as s).core = s.core := by
  induction as generalizing s with
  | nil => rfl
  | cons a as ih => simp [ih]

/-- Arrivals change of a port its queue and, when one is dropped, LOST; nothing else. -/
theorem takeArrivals_port (as : List Arrival) :
    ∃ es c, (takeArrivals as s).port p = { s.port p with queue := es, conditions := c } ∧
      (c = (s.port p).conditions ∨ c = (s.port p).conditions.raise .lost) := by
  induction as generalizing s with
  | nil => exact ⟨_, _, rfl, .inl rfl⟩
  | cons a as ih =>
    obtain ⟨es, c, h, hc⟩ := ih (takeArrival a s)
    by_cases e : p = a.port
    · subst e
      obtain ⟨es', c', h', hc'⟩ := takeArrival_port_self s a
      refine ⟨es, c, by rw [takeArrivals_cons, h, h'], ?_⟩
      rw [h'] at hc
      rcases hc with rfl | rfl <;> rcases hc' with rfl | rfl <;> simp [Conditions.raise]
    · rw [takeArrival_port_ne s p a e] at h hc
      exact ⟨es, c, h, hc⟩

/-- Arrivals reach a state's ports alone: what they do does not depend on the table, the arbiter or the engines. -/
theorem takeArrivals_ports_congr (as : List Arrival) {s t : State} (hi : t.initialising = s.initialising)
    (hp : t.ports = s.ports) : (takeArrivals as t).ports = (takeArrivals as s).ports := by
  induction as generalizing s t with
  | nil => exact hp
  | cons a as ih =>
    rw [takeArrivals_cons, takeArrivals_cons]
    have key : (takeArrival a t).ports = (takeArrival a s).ports := by
      have hport : ∀ p, t.port p = s.port p := fun p => by rw [State.port, State.port, hp]
      cases a with
      | post p l n =>
        simp only [takeArrival, hport]
        split
        · simp [State.setPort, hp]
        · simp only [setCondition, hi, hport]; split <;> simp [State.setPort, hp]
      | removal p l k => simp [takeArrival, hport, State.setPort, hp]
    refine ih ?_ key
    have h1 := (outer_iff.1 (takeArrival_outer s a)).2.2.1
    have h2 := (outer_iff.1 (takeArrival_outer t a)).2.2.1
    rw [h1, h2, hi]

/-- The same for the number of entries removed. -/
theorem arrivalsRemove_congr (as : List Arrival) {s t : State} (hi : t.initialising = s.initialising)
    (hp : t.ports = s.ports) : arrivalsRemove as t = arrivalsRemove as s := by
  induction as generalizing s t with
  | nil => rfl
  | cons a as ih =>
    have hport : ∀ p, t.port p = s.port p := fun p => by rw [State.port, State.port, hp]
    have hr : arrivalRemoves a t = arrivalRemoves a s := by cases a <;> simp [arrivalRemoves, hport]
    have h1 := (outer_iff.1 (takeArrival_outer s a)).2.2.1
    have h2 := (outer_iff.1 (takeArrival_outer t a)).2.2.1
    have hi' : (takeArrival a t).initialising = (takeArrival a s).initialising := by rw [h1, h2, hi]
    rw [arrivalsRemove, arrivalsRemove, hr, ih hi' (takeArrivals_ports_congr [a] hi hp)]

/-- Two states whose ports have the same queues and conditions. -/
def State.sameQueues (s t : State) : Prop :=
  t.initialising = s.initialising ∧
  ∀ q, (t.port q).queue = (s.port q).queue ∧ (t.port q).conditions = (s.port q).conditions

theorem takeArrival_same (a : Arrival) {s t : State} (h : s.sameQueues t) :
    (∀ q, (takeArrival a t).port q = { t.port q with
      queue := ((takeArrival a s).port q).queue
      conditions := ((takeArrival a s).port q).conditions }) ∧
    arrivalRemoves a t = arrivalRemoves a s := by
  obtain ⟨hi, hp⟩ := h
  have self (q : Port) : t.port q =
      { t.port q with queue := (s.port q).queue, conditions := (s.port q).conditions } := by
    rw [← (hp q).1, ← (hp q).2]
  cases a with
  | post p l n =>
    refine ⟨fun q => ?_, rfl⟩
    simp only [takeArrival, (hp p).1]
    split
    · by_cases e : q = p
      · subst e; simp [(hp q).2]
      · simp only [port_setPort_ne _ _ _ e]; exact self q
    · simp only [setCondition, hi]
      split
      · exact self q
      · by_cases e : q = p
        · subst e; simp [(hp q).1, (hp q).2]
        · simp only [port_setPort_ne _ _ _ e]; exact self q
  | removal p l k =>
    refine ⟨fun q => ?_, by simp [arrivalRemoves, (hp p).1]⟩
    simp only [takeArrival, (hp p).1]
    by_cases e : q = p
    · subst e; simp [(hp q).2]
    · simp only [port_setPort_ne _ _ _ e]; exact self q

/-- Arrivals see the queues and the conditions alone, and change those alone. -/
theorem takeArrivals_same (as : List Arrival) {s t : State} (h : s.sameQueues t) :
    (∀ q, (takeArrivals as t).port q = { t.port q with
      queue := ((takeArrivals as s).port q).queue
      conditions := ((takeArrivals as s).port q).conditions }) ∧
    arrivalsRemove as t = arrivalsRemove as s := by
  induction as generalizing s t with
  | nil =>
    refine ⟨fun q => ?_, rfl⟩
    simp [← (h.2 q).1, ← (h.2 q).2]
  | cons a as ih =>
    obtain ⟨h1, h2⟩ := takeArrival_same a h
    have h' : (takeArrival a s).sameQueues (takeArrival a t) := by
      refine ⟨?_, fun q => ?_⟩
      · rw [(outer_iff.1 (takeArrival_outer t a)).2.2.1, (outer_iff.1 (takeArrival_outer s a)).2.2.1, h.1]
      · rw [h1 q]; exact ⟨rfl, rfl⟩
    obtain ⟨i1, i2⟩ := ih h'
    refine ⟨fun q => ?_, by rw [arrivalsRemove, arrivalsRemove, h2, i2]⟩
    rw [takeArrivals_cons, i1 q, h1 q]; rfl

theorem takeArrivals_eq (as : List Arrival) : takeArrivals as s = { s with ports := (takeArrivals as s).ports } := by
  have ho := outer_iff.1 (takeArrivals_outer s as)
  have hc := core_iff.1 (takeArrivals_core s as)
  refine State.ext_parts ?_ ?_ (fun p => rfl)
  · exact outer_iff.2 ho
  · exact core_iff.2 hc

/-! ### The arbiter -/

theorem beginGrant_outer (r : Requester) : (beginGrant r s).outer = s.outer := by
  cases r <;> simp only [beginGrant]
  · split <;> rfl
  · rfl
  · rfl

theorem beginGrant_table (r : Requester) : (beginGrant r s).table = s.table := by
  cases r <;> simp only [beginGrant]
  split <;> rfl

theorem beginGrant_ports (r : Requester) : (beginGrant r s).ports = s.ports := by
  cases r <;> simp only [beginGrant]
  split <;> rfl

theorem beginGrant_lease (r : Requester) :
    (beginGrant r s).lease = s.lease ∨ (beginGrant r s).lease = { s.lease with pending := 0, claim := false } := by
  cases r <;> simp only [beginGrant]
  · split <;> simp
  · simp
  · simp

theorem beginGrant_sweep (r : Requester) :
    (beginGrant r s).sweep = s.sweep ∨ (beginGrant r s).sweep = { s.sweep with claim := false } := by
  cases r <;> simp only [beginGrant]
  · split <;> simp
  · simp
  · simp

/-- The arbiter does nothing while a grant is in progress or no claim is raised; else it begins the grant of a requester
whose claim is raised (R14). -/
theorem arbitrate_cases :
    (s.arbiter.grant.isSome = true ∧ arbitrate s = s) ∨
    (s.arbiter.grant = none ∧ (∀ r ∈ s.arbiter.pointer.following, s.claimed r = false) ∧ arbitrate s = s) ∨
    (∃ r, s.arbiter.grant = none ∧ s.claimed r = true ∧ s.arbiter.pointer.following.find? s.claimed = some r ∧
      arbitrate s = beginGrant r s) := by
  unfold arbitrate
  cases hg : s.arbiter.grant with
  | some g => simp
  | none =>
    cases hf : s.arbiter.pointer.following.find? s.claimed with
    | none => right; left; simpa using hf
    | some r => right; right; exact ⟨r, rfl, List.find?_some hf, rfl, rfl⟩

theorem arbitrate_of_grant {g : Grant} (h : s.arbiter.grant = some g) : arbitrate s = s := by
  unfold arbitrate; rw [h]

@[simp] theorem arbitrate_outer : (arbitrate s).outer = s.outer := by
  rcases arbitrate_cases s with ⟨-, e⟩ | ⟨-, -, e⟩ | ⟨r, -, -, -, e⟩ <;> rw [e]
  exact beginGrant_outer s r

@[simp] theorem arbitrate_table : (arbitrate s).table = s.table := by
  rcases arbitrate_cases s with ⟨-, e⟩ | ⟨-, -, e⟩ | ⟨r, -, -, -, e⟩ <;> rw [e]
  exact beginGrant_table s r

@[simp] theorem arbitrate_ports : (arbitrate s).ports = s.ports := by
  rcases arbitrate_cases s with ⟨-, e⟩ | ⟨-, -, e⟩ | ⟨r, -, -, -, e⟩ <;> rw [e]
  exact beginGrant_ports s r

@[simp] theorem arbitrate_port : (arbitrate s).port p = s.port p := by
  rw [State.port, arbitrate_ports, State.port]

/-- What the arbiter leaves of the lease engine. -/
theorem arbitrate_lease :
    (arbitrate s).lease = s.lease ∨ (arbitrate s).lease = { s.lease with pending := 0, claim := false } := by
  rcases arbitrate_cases s with ⟨-, e⟩ | ⟨-, -, e⟩ | ⟨r, -, -, -, e⟩ <;> rw [e]
  · exact .inl rfl
  · exact .inl rfl
  · exact beginGrant_lease s r

/-- What the arbiter leaves of the sweep engine. -/
theorem arbitrate_sweep :
    (arbitrate s).sweep = s.sweep ∨ (arbitrate s).sweep = { s.sweep with claim := false } := by
  rcases arbitrate_cases s with ⟨-, e⟩ | ⟨-, -, e⟩ | ⟨r, -, -, -, e⟩ <;> rw [e]
  · exact .inl rfl
  · exact .inl rfl
  · exact beginGrant_sweep s r

/-- Every requester is among the six that the arbiter looks at. -/
theorem mem_following (r x : Requester) : x ∈ r.following := by
  rcases r with (_ | _ | _ | _) | _ | _ <;> rcases x with (_ | _ | _ | _) | _ | _ <;> decide

theorem arbitrate_of_no_claim (h : ∀ r, s.claimed r = false) : arbitrate s = s := by
  rcases arbitrate_cases s with ⟨-, e⟩ | ⟨-, -, e⟩ | ⟨r, -, c, -, -⟩
  · exact e
  · exact e
  · rw [h r] at c; cases c

/-- With the table free and one claim raised, that one is granted (R14). -/
theorem arbitrate_of_single_claim (r : Requester) (hg : s.arbiter.grant = none) (hr : s.claimed r = true)
    (ho : ∀ x, x ≠ r → s.claimed x = false) : arbitrate s = beginGrant r s := by
  rcases arbitrate_cases s with ⟨h, -⟩ | ⟨-, h, -⟩ | ⟨x, -, hx, -, e⟩
  · rw [hg] at h; cases h
  · rw [h r (mem_following _ r)] at hr; cases hr
  · by_cases hxr : x = r
    · rw [e, hxr]
    · rw [ho x hxr] at hx; cases hx

/-! ### The sweep engine's choice -/

/-- The engine takes the detachment of a flagged port, or the head of the FIFO, or nothing (R124). -/
theorem takeJob_cases (w : Sweep) :
    (∃ x, w.firstFlag = some x ∧ w.flags.get x = true ∧
      w.takeJob = { w with flags := w.flags.set x false, job := some (.detachment x .d1), claim := true, choiceDue := false }) ∨
    (w.firstFlag = none ∧ ∃ i rest, w.fifo = i :: rest ∧
      w.takeJob = { w with fifo := rest, job := some (.retirement i (.v .a)), claim := true, choiceDue := false }) ∨
    (w.firstFlag = none ∧ w.fifo = [] ∧ w.takeJob = { w with choiceDue := false }) := by
  unfold Sweep.takeJob
  cases hf : w.firstFlag with
  | some x => left; exact ⟨x, rfl, List.find?_some (show Port.all.find? w.flags.get = some x from hf), rfl⟩
  | none =>
    right
    cases hq : w.fifo with
    | nil => right; exact ⟨rfl, rfl, rfl⟩
    | cons i rest => left; exact ⟨rfl, i, rest, rfl, rfl⟩

theorem firstFlag_none (w : Sweep) : w.firstFlag = none ↔ ∀ x, w.flags.get x = false := by
  unfold Sweep.firstFlag
  rw [List.find?_eq_none]
  constructor
  · intro h x; have := h x (by cases x <;> simp [Port.all]); simpa using this
  · intro h x _; simp [h x]

@[simp] theorem takeJob_attachment (w : Sweep) : w.takeJob.attachment = w.attachment := by
  rcases takeJob_cases w with ⟨x, -, -, e⟩ | ⟨-, i, rest, -, e⟩ | ⟨-, -, e⟩ <;> rw [e]

@[simp] theorem takeJob_choiceDue (w : Sweep) : w.takeJob.choiceDue = false := by
  rcases takeJob_cases w with ⟨x, -, -, e⟩ | ⟨-, i, rest, -, e⟩ | ⟨-, -, e⟩ <;> rw [e]

theorem offer_of_job (w : Sweep) {j : Job} (h : w.job = some j) : w.offer = w := by
  unfold Sweep.offer; rw [h]

theorem offer_of_idle (w : Sweep) (h : w.job = none) (hc : w.choiceDue = false) : w.offer = w.takeJob := by
  unfold Sweep.offer; rw [h, hc]; rfl

@[simp] theorem offer_attachment (w : Sweep) : w.offer.attachment = w.attachment := by
  unfold Sweep.offer; split
  · split <;> simp
  · rfl

/-- What the engine takes is what `Sweep.takes` says. -/
theorem takes_takeJob (w : Sweep) : w.takes w.takeJob := by
  rcases takeJob_cases w with ⟨x, hf, hx, e⟩ | ⟨hf, i, rest, hq, e⟩ | ⟨hf, hq, e⟩
  · refine .inl ⟨x, hx, ?_, e⟩
    intro y hy
    unfold Sweep.firstFlag at hf
    simp only [Port.all, List.find?_cons, List.find?_nil] at hf hy
    revert hf hy
    cases ha : w.flags.get .a <;> cases hb : w.flags.get .b <;> cases hc : w.flags.get .c <;>
      cases hd : w.flags.get .d <;> cases x <;> cases y <;> simp_all +decide
  · exact .inr (.inl ⟨(firstFlag_none w).1 hf, i, rest, hq, e⟩)
  · exact .inr (.inr ⟨(firstFlag_none w).1 hf, hq, e⟩)

theorem choose_of_not_due (w : Sweep) (h : w.choiceDue = false) : w.choose = w := by
  unfold Sweep.choose; rw [h]; rfl

/-! ### The end of a grant -/

/-- The grant and its arrivals do not outlive the end of the grant. -/
theorem endGrant_of_arbiter {s t : State} (h : { s with arbiter := { s.arbiter with grant := none } } =
    ({ t with arbiter := { t.arbiter with grant := none } } : State)) : endGrant s = endGrant t := by
  have hw : s.sweep = t.sweep := congrArg (·.sweep) h
  unfold endGrant
  rw [hw]
  exact congrArg arbitrate (congrArg (fun u : State => { u with sweep := t.sweep.choose }) h)

@[simp] theorem endGrant_outer : (endGrant s).outer = s.outer := by
  simp only [endGrant, arbitrate_outer]; rfl

@[simp] theorem endGrant_table : (endGrant s).table = s.table := by simp [endGrant]

@[simp] theorem endGrant_ports : (endGrant s).ports = s.ports := by simp [endGrant]

@[simp] theorem endGrant_port : (endGrant s).port p = s.port p := by rw [State.port, endGrant_ports, State.port]

@[simp] theorem advance_outer (pr : Progress) (g : Grant) : (advance pr g s).outer = s.outer := by
  have := takeArrivals_outer s (takenBy pr g.arrivals)
  simp only [advance]; exact this

@[simp] theorem advance_table (pr : Progress) (g : Grant) : (advance pr g s).table = s.table := by
  have := core_iff.1 (takeArrivals_core s (takenBy pr g.arrivals))
  exact this.1

@[simp] theorem advance_ports (pr : Progress) (g : Grant) :
    (advance pr g s).ports = (takeArrivals (takenBy pr g.arrivals) s).ports := rfl

end Sys2Proof.Machine
end

