-- ==== Sys2Proof/Laws/Link.lean ====
section
/-! SUPPORT. The link's way from a frame to its answer, said once: the checks, the dispatch, the responses. -/
namespace Sys2Proof.Machine

variable (s : State) (p : Port)

/-- Every request command brings its transaction under its code of R156. -/
theorem exec_requestCommand (c : Code) (t : Transfer) :
    exec (requestCommand c p t) s = .next (requestTransaction p c.toByte t s) := by
  cases c <;> rfl

theorem exec_unknownCodeFrame (code : Byte) (t : Transfer) :
    exec (.unknownCodeFrame p code t) s = .next (requestTransaction p code t s) := rfl

@[simp] theorem ofByte_toByte (c : Code) : Code.ofByte? c.toByte = some c := by cases c <;> decide

theorem linkOn_iff : s.linkOn p = true ↔ s.rstn = .high ∧ (s.port p).prst = .high := by
  simp [State.linkOn]

theorem hears_iff : s.hears p = true ↔ s.linkOn p = true ∧ (s.port p).select ≠ .low := by
  simp [State.hears]

/-- Where a frame can end, the link heeds the clock edges. -/
theorem framed_hears (h : s.framed p) : s.hears p = true := by
  refine (hears_iff s p).2 ⟨h.1, fun e => ?_⟩
  have := h.2
  rw [PortState.framing, PortState.opened, e] at this
  cases this

/-! ### What a board sees of its link (R114, R145) -/

theorem any_iff (c : Conditions) : c.any = true ↔ ∃ k, c.get k = true := by
  constructor
  · intro h
    simp only [Conditions.any, Bool.or_eq_true] at h
    rcases h with ((((h | h) | h) | h) | h) | h
    exacts [⟨.lost, h⟩, ⟨.discarded, h⟩, ⟨.overrun, h⟩, ⟨.linkError, h⟩, ⟨.refusalHeld, h⟩, ⟨.detached, h⟩]
  · rintro ⟨k, h⟩
    cases k <;> simp only [Conditions.get] at h <;> simp [Conditions.any, h]

theorem atn_iff : s.atn p = true ↔
    s.rstn = .high ∧ ((s.port p).queue ≠ [] ∨ ∃ k, (s.port p).conditions.get k = true) := by
  simp [State.atn, any_iff]

/-- The link state of a port at which no request transaction is under way. -/
theorem linkState_of_not_request (x : PortState) (h : x.select ≠ .request) :
    x.linkState = if x.work.isSome then .working else if x.held.isSome then .held else .idle := by
  have hr : x.receiving = false := by simp [PortState.receiving, h]
  unfold PortState.linkState
  rw [hr]
  cases x.work <;> cases x.held <;> rfl

/-- The link state of a port at which one is. -/
theorem linkState_of_request (x : PortState) (h : x.select = .request) :
    x.linkState = if x.work.isSome then .working else if x.held.isSome then .receivingFromHeld else .receivingFromIdle := by
  have hr : x.receiving = true := by simp [PortState.receiving, h]
  unfold PortState.linkState
  rw [hr]
  cases x.work <;> cases x.held <;> rfl

theorem clocked_iff : s.clocked = true ↔ s.rstn = .high ∧ s.refclk = true := by
  simp [State.clocked]

/-- A frame that is taken with no request in work finds its port as `afterFrame` says. -/
theorem discardHeld_closeRequest (n : Nat) (hi : s.initialising = false) :
    discardHeld p (closeRequest p (8 * (n + 6)) s) = s.setPort p ((s.port p).afterFrame n) := by
  unfold discardHeld closeRequest
  simp only [port_setPort_self]
  cases hh : (s.port p).held with
  | none => simp [PortState.afterFrame, PortState.closing, hh]
  | some r => simp [setCondition, hi, PortState.afterFrame, PortState.closing, hh, Conditions.raise]

/-- The same while the initialiser runs: DISCARDED is not set (R148). -/
theorem discardHeld_closeRequest_initialising (n : Nat) (hi : s.initialising = true) :
    discardHeld p (closeRequest p (8 * (n + 6)) s) =
      s.setPort p { (s.port p).closing n with held := none } := by
  unfold discardHeld closeRequest
  simp only [port_setPort_self]
  cases hh : (s.port p).held with
  | none => simp [PortState.closing, hh]
  | some r => simp [setCondition, hi, PortState.closing]

/-! ### Transactions -/

/-- The type byte of a request transaction completes, is ignored, or cannot come now. -/
theorem openRequest_cases :
    (s.hears p = false ∧ openRequest p s = ignoreEdges p false s) ∨
    (s.hears p = true ∧ (s.port p).opened = none ∧ openRequest p s = s) ∨
    (s.hears p = true ∧ (s.port p).opened.isSome = true ∧
      openRequest p s = s.setPort p { s.port p with select := .request, dataOut := List.replicate 8 false }) := by
  unfold openRequest
  cases h : s.hears p with
  | false => simp
  | true => cases ho : (s.port p).opened <;> simp

/-- The end of a request transaction is judged, is ignored, or cannot come now. -/
theorem endRequest_cases (edges : Nat) (judged : State → State) :
    (s.hears p = false ∧ endRequest p edges judged s = ignoreEdges p true s) ∨
    (s.hears p = true ∧ (s.port p).framing = false ∧ endRequest p edges judged s = s) ∨
    (s.framed p ∧ endRequest p edges judged s = judged (closeRequest p edges s)) := by
  unfold endRequest
  cases h : s.hears p with
  | false => simp
  | true =>
    cases hf : (s.port p).framing with
    | false => simp
    | true => right; right; exact ⟨⟨((hears_iff s p).1 h).1, hf⟩, by simp⟩

theorem endRequest_of_framed (edges : Nat) (judged : State → State) (h : s.framed p) :
    endRequest p edges judged s = judged (closeRequest p edges s) := by
  simp [endRequest, framed_hears s p h, h.2]

/-- A response transaction shifts its port on, is ignored, or cannot come now. -/
theorem responseTransaction_cases (t : Stretch) :
    (s.hears p = false ∧ responseTransaction p t s = ignoreEdges p t.ends s) ∨
    (s.hears p = true ∧ responseTransaction p t s = s) ∨
    (s.hears p = true ∧ ∃ n d, ((s.port p).opened = some n ∧ d = none ∨ (s.port p).select = .response n d) ∧
      responseTransaction p t s = s.setPort p ((s.port p).shiftResponse n d t)) := by
  unfold responseTransaction
  cases h : s.hears p with
  | false => simp
  | true =>
    cases hs : (s.port p).select with
    | response n d => right; right; refine ⟨rfl, n, d, .inr rfl, ?_⟩; simp [PortState.opened, hs]
    | high => right; right; refine ⟨rfl, 0, none, .inl ⟨?_, rfl⟩, ?_⟩ <;> simp [PortState.opened, hs]
    | opening n => right; right; refine ⟨rfl, n, none, .inl ⟨?_, rfl⟩, ?_⟩ <;> simp [PortState.opened, hs]
    | low => right; left; simp [PortState.opened, hs]
    | request => right; left; simp [PortState.opened, hs]
    | unknown => right; left; simp [PortState.opened, hs]

/-- A transaction of neither type sets LINK_ERROR at its first byte, goes on, proves to be one of the two types or too short to
have one, is ignored, or cannot come now. -/
theorem unknownTransaction_cases (t : OtherStretch) :
    (s.hears p = false ∧ unknownTransaction p t s = ignoreEdges p t.stretch.ends s) ∨
    (s.hears p = true ∧
      (unknownTransaction p t s = s ∨
      unknownTransaction p t s = responseTransaction p t.stretch s ∨
      unknownTransaction p t s = openRequest p s ∨
      ((s.port p).select = .unknown ∧
        unknownTransaction p t s = s.setPort p ((s.port p).shiftZeros (s.port p).dataOut t.stretch)) ∨
      ∃ n, (s.port p).opened = some n ∧ 8 ≤ n + t.stretch.edges ∧ unknownTransaction p t s =
        setCondition .linkError p (s.setPort p ((s.port p).shiftZeros (List.replicate n false) t.stretch)))) := by
  unfold unknownTransaction
  cases h : s.hears p with
  | false => simp
  | true =>
    right; refine ⟨rfl, ?_⟩
    dsimp only
    rw [if_pos rfl]
    split
    · next _ n ho =>
      split
      · right; left; rfl
      · next hk =>
        split
        · right; right; left; rfl
        · right; right; right; right; exact ⟨n, ho, by simp only [not_or] at hk; omega, rfl⟩
    · next hs => right; right; right; left; exact ⟨hs, rfl⟩
    · left; rfl

/-- With nothing to deliver, zeros are shifted out. -/
theorem shiftedOut_nil (k : Nat) : shiftedOut k [] = List.replicate k false := by
  simp only [shiftedOut, List.append_nil, List.replicate_append_replicate, List.take_replicate]
  congr 1; omega

/-! ### The checks -/

@[simp] theorem check_setPort (q : Port) (x : PortState) (code : Byte) (body : List Byte) :
    check p code body (s.setPort q x) = check p code body s := rfl

/-- What a good frame does, taken with no request in work. -/
theorem requestTransaction_frame (code tag : Byte) (body : List Byte) (hl : s.framed p)
    (hw : (s.port p).work = none) (hb : body.length ≤ 120) :
    requestTransaction p code (.frame tag body) s =
      (match check p code body s with
        | .refused r loc =>
          respond p ⟨code, tag, loc⟩ (.refusal r) 0 (discardHeld p (closeRequest p (8 * (body.length + 6)) s))
        | .dispatched loc r => dispatch p ⟨code, tag, loc⟩ r (discardHeld p (closeRequest p (8 * (body.length + 6)) s))) := by
  have hb' : body.length ≤ maxBody := hb
  have hw' : ((closeRequest p (8 * (body.length + 6)) s).port p).work = none := by simp [closeRequest, hw]
  have hc : check p code body (discardHeld p (closeRequest p (8 * (body.length + 6)) s)) = check p code body s := by
    unfold discardHeld
    split
    · unfold setCondition closeRequest
      split <;> simp
    · simp [closeRequest]
  generalize check p code body s = k at hc ⊢
  cases k <;> simp only [requestTransaction, endRequest, framed_hears s p hl, hl.2, hb', takeFrame, hw', if_true, hc]

/-- The checks of R150 that a request with its fields in range passes. -/
theorem check_dispatches (c : Code) (body : List Byte) (r : Request) (hi : s.initialising = false)
    (ha : s.sweep.attachment.get p = .attached) (hl : lengthOk c body = true) (hs : c.supervisor = true → p = .a)
    (hp : parse c body = some r) : check p c.toByte body s = .dispatched (refusalLocal c body) r := by
  have hs' : ¬(c.supervisor = true ∧ p ≠ .a) := fun h => h.2 (hs h.1)
  simp [check, hi, ha, hl, hs', hp]

/-- A refusal as it is answered and captured, with an empty body or SEQ_MISMATCH's. -/
theorem respond_refusal (h : Head) (v : Verdict) (n : Nat) (hv : v.result ≠ .done) (hi : s.initialising = false) :
    respond p h v n s = s.setPort p ((s.port p).refusing ⟨h.code, h.tag, v.result, h.loc, v.via, v.stop, v.hops⟩
      (v.answer.bytes n) |> fun x => { x with work := none }) := by
  unfold respond capture
  cases hr : (s.port p).conditions.refusalHeld <;>
    simp [hv, hi, hr, refusalOf, PortState.refusing, PortState.answering, Conditions.raise]

theorem respond_done_answering (h : Head) (v : Verdict) (n : Nat) (hv : v.result = .done) :
    respond p h v n s = s.setPort p ((s.port p).answering h.tag .done (v.answer.bytes n)) :=
  respond_done s p h v n hv

theorem refusing_work (x : PortState) (r : RefusalRecord) (body : List Byte) : (x.refusing r body).work = none := by
  unfold PortState.refusing PortState.answering; rfl

theorem respond_refusal' (h : Head) (v : Verdict) (n : Nat) (hv : v.result ≠ .done) (hi : s.initialising = false) :
    respond p h v n s = s.setPort p ((s.port p).refusing ⟨h.code, h.tag, v.result, h.loc, v.via, v.stop, v.hops⟩
      (v.answer.bytes n)) := by
  rw [respond_refusal s p h v n hv hi]; rfl

/-! ### Table work -/

/-- A request's table work changes the table and, for Retire, the sweep engine; nothing else. -/
theorem tableWork_state (r : Request) :
    (tableWork p r s).state =
      { s with table := (tableWork p r s).state.table, sweep := (tableWork p r s).state.sweep } := by
  cases r <;> simp only [tableWork, workRead, workGroupRead, workWrite, workConditionalWrite, workRefresh, workSubscribe,
    workUnsubscribe, workCreateValue, workCreateAlias, workRetire, workMap, workUnmap, workReadView, workReadSlot,
    workPoolReport, acceptWrite, Worked.report, Worked.unresolved, Worked.changed]
  all_goals repeat' split
  all_goals rfl

/-- A request's table work depends on the table and the engines alone. -/
theorem tableWork_congr (r : Request) {s t : State} (ht : t.table = s.table) (hl : t.lease = s.lease)
    (hs : t.sweep = s.sweep) :
    (tableWork p r t).state.table = (tableWork p r s).state.table ∧
    (tableWork p r t).state.sweep = (tableWork p r s).state.sweep ∧
    (tableWork p r t).arrivals = (tableWork p r s).arrivals ∧
    (tableWork p r t).verdict = (tableWork p r s).verdict := by
  cases r <;> simp only [tableWork, workRead, workGroupRead, workWrite, workConditionalWrite, workRefresh, workSubscribe,
    workUnsubscribe, workCreateValue, workCreateAlias, workRetire, workMap, workUnmap, workReadView, workReadSlot,
    workPoolReport, acceptWrite, Worked.report, Worked.unresolved, Worked.changed, ht, hl, hs]
  all_goals repeat' split
  all_goals simp [ht, hs]

/-- So does a refusal of it. -/
theorem tableWork_refused (r : Request) {s t : State} (ht : t.table = s.table) (hl : t.lease = s.lease)
    (hs : t.sweep = s.sweep) {v : Verdict} (hk : tableWork p r s = ⟨s, [], v⟩) : tableWork p r t = ⟨t, [], v⟩ := by
  obtain ⟨c1, c2, c3, c4⟩ := tableWork_congr p r ht hl hs
  have hst := tableWork_state t p r
  rw [c1, c2, hk] at hst
  rw [hk] at c3 c4
  have e : (tableWork p r t).state = t := by rw [hst, ← ht, ← hs]
  calc tableWork p r t = ⟨(tableWork p r t).state, (tableWork p r t).arrivals, (tableWork p r t).verdict⟩ := rfl
    _ = ⟨t, [], v⟩ := by rw [e, c3, c4]

end Sys2Proof.Machine
end

