-- ==== Sys2Proof/Laws/Served.lean ====
section
/-! SUPPORT. A table request from its frame to its response, said once: its grant, carried to its end, comes to
`State.concluded` when its work answers DONE and to `State.declined` when its work refuses it; so it does from an idle table. -/
namespace Sys2Proof.Machine

theorem set_set_of_get {α : Type} (x : PerPort α) (p : Port) (v w : α) (h : x.get p = w) : (x.set p v).set p w = x := by
  rw [PerPort.set_set]; rw [← h, PerPort.set_get_self]

/-- The port's request in work and its grant begun, from `s` with `x` for the port's state. -/
def grantState (s : State) (p : Port) (x : PortState) (w : Work) : State :=
  { s.setPort p { x with work := some w } with
    arbiter := { s.arbiter with pointer := .port p, grant := some ⟨.port p w false none, [], 0⟩ } }

/-- A claim raised at an idle table is granted at once. -/
theorem raiseClaim_of_idle {s : State} {p : Port} (h : s.tableIdle) (x : PortState) (w : Work) (hd : Head) (r : Request)
    (hw : w = ⟨hd, r⟩) :
    raiseClaim p hd r (s.setPort p x) = grantState s p x w := by
  obtain ⟨hg, hcl, hd⟩ := h
  have hclp : ∀ q, s.arbiter.claims.get q = false := fun q => hcl (.port q)
  unfold raiseClaim grantState
  simp only [port_setPort_self, setPort_setPort]
  rw [arbitrate_of_single_claim _ (.port p)]
  · simp only [beginGrant]
    simp only [State.port, State.setPort, PerPort.get_set_self]
    subst hw
    simp [set_set_of_get _ _ _ _ (hclp p)]
  · exact hg
  · simp [State.claimed, State.setPort]
  · intro q hq
    cases q with
    | port q =>
      have : q ≠ p := fun e => hq (by rw [e])
      simp [State.claimed, this]; exact hcl (.port q)
    | lease => exact hcl .lease
    | sweep => exact hcl .sweep

/-- Which claims are raised depends on the three blocks that hold them alone. -/
theorem claimed_congr {s t : State} (ha : t.arbiter.claims = s.arbiter.claims) (hl : t.lease.claim = s.lease.claim)
    (hs : t.sweep.claim = s.sweep.claim) (r : Requester) : t.claimed r = s.claimed r := by
  cases r <;> simp [State.claimed, ha, hl, hs]

/-- With no claim raised and no choice due, the end of a grant leaves the table free. -/
theorem endGrant_of_no_claim (s : State) (h : ∀ r, s.claimed r = false) (hd : s.sweep.choiceDue = false) :
    endGrant s = { s with arbiter := { s.arbiter with grant := none } } := by
  unfold endGrant
  rw [choose_of_not_due _ hd, arbitrate_of_no_claim]
  intro r
  rw [← h r]; exact claimed_congr rfl rfl rfl r


/-! ### A grant carried to its end -/

/-- The removals see the queues alone. -/
theorem arrivalsRemove_queues (as : List Arrival) {s t : State} (h : ∀ q, (t.port q).queue = (s.port q).queue) :
    arrivalsRemove as t = arrivalsRemove as s := by
  induction as generalizing s t with
  | nil => rfl
  | cons a as ih =>
    have key : arrivalRemoves a t = arrivalRemoves a s ∧
        ∀ q, ((takeArrival a t).port q).queue = ((takeArrival a s).port q).queue := by
      cases a with
      | post p l n =>
        refine ⟨rfl, fun q => ?_⟩
        simp only [takeArrival, h p]
        by_cases e : q = p
        · subst e
          split
          · simp
          · simp only [setCondition]; split <;> split <;> simp [h]
        · split <;> simp [e, h]
      | removal p l k =>
        refine ⟨by simp [arrivalRemoves, h p], fun q => ?_⟩
        simp only [takeArrival, h p]
        by_cases e : q = p
        · subst e; simp
        · simp [e, h]
    rw [arrivalsRemove, arrivalsRemove, key.1, ih key.2]

/-- The end of a grant sees nothing of the grant or of its arrivals: only the ports, the table and the engines it leaves. -/
theorem endGrant_congr {s t : State} (ho : s.outer = t.outer) (hp : s.ports = t.ports) (ht : s.table = t.table)
    (hl : s.lease = t.lease) (hs : s.sweep = t.sweep)
    (ha : ({ s.arbiter with grant := none } : Arbiter) = { t.arbiter with grant := none }) : endGrant s = endGrant t := by
  apply endGrant_of_arbiter
  cases s; cases t
  simp only [State.outer, Prod.mk.injEq] at *
  simp_all

/-- What a request's grant leaves of the state before it ends: the arrivals are in the queues, the work is done, and the grant
stands with none left. -/
theorem grant_work (s : State) (p : Port) (tag : Byte) (r : Request) (h : s.carries p tag r) :
    let w : Work := ⟨⟨r.code.toByte, tag, refusalLocal r.code r.body⟩, r⟩
    let k := tableWork p r s
    let u := advance .toEnd ⟨.port p w false (some k.verdict), k.arrivals, 0⟩ k.state
    exec (.portEngineGrant .toEnd) s = .next (endGrant (respond p w.head k.verdict (arrivalsRemove k.arrivals s) u)) ∧
    u.outer = s.outer ∧ u.ports = (takeArrivals k.arrivals s).ports ∧ u.table = k.state.table ∧ u.lease = s.lease ∧
    u.sweep = k.state.sweep ∧ ({ u.arbiter with grant := none } : Arbiter) = { s.arbiter with grant := none } := by
  intro w k u
  obtain ⟨hc, hi, as, n, hg⟩ := h
  have hst : k.state = { s with table := k.state.table, sweep := k.state.sweep } := tableWork_state s p r
  have hrem : arrivalsRemove k.arrivals k.state = arrivalsRemove k.arrivals s := by
    rw [hst]; exact arrivalsRemove_congr _ rfl rfl
  have hcore := core_iff.1 (takeArrivals_core k.state k.arrivals)
  refine ⟨?_, ?_, ?_, ?_, ?_, ?_, ?_⟩
  · simp only [exec, execPortEngineGrant, hg, hc, if_true, carryRequest, Nat.zero_add, Bool.false_eq_true, if_false]
    change Host.Outcome.next (endGrant (respond p w.head k.verdict (arrivalsRemove k.arrivals k.state) u)) = _
    rw [hrem]
  · rw [advance_outer, hst]; rfl
  · rw [advance_ports]
    exact takeArrivals_ports_congr k.arrivals (by rw [hst]) (by rw [hst])
  · exact hcore.1
  · exact hcore.2.2.1.trans (by rw [hst])
  · exact hcore.2.2.2
  · show ({ (takeArrivals k.arrivals k.state).arbiter with grant := none } : Arbiter) = _
    rw [hcore.2.1, hst]

/-- A request whose work answers DONE: what its grant comes to. -/
theorem carries_done {s : State} {p : Port} {tag : Byte} {r : Request} (h : s.carries p tag r)
    (hd : (tableWork p r s).verdict.result = .done) :
    let k := tableWork p r s
    exec (.portEngineGrant .toEnd) s = .next (endGrant
      { s.concluded p k.state.table k.arrivals tag (k.verdict.answer.bytes (arrivalsRemove k.arrivals s)) with
        sweep := k.state.sweep }) := by
  intro k
  obtain ⟨e, ho, hp, ht, hl, hs, ha⟩ := grant_work s p tag r h
  rw [e, respond_done_answering _ _ _ _ _ hd]
  have hpt : (takeArrivals k.arrivals { s with table := k.state.table }).ports = (takeArrivals k.arrivals s).ports :=
    takeArrivals_ports_congr _ rfl rfl
  have hc := core_iff.1 (takeArrivals_core { s with table := k.state.table } k.arrivals)
  refine congrArg _ (endGrant_congr ?_ ?_ ?_ ?_ ?_ ?_)
  · exact ho.trans (takeArrivals_outer { s with table := k.state.table } k.arrivals).symm
  · simp only [State.concluded, State.setPort, State.port, hp, hpt]; rfl
  · exact ht.trans hc.1.symm
  · exact hl.trans hc.2.2.1.symm
  · exact hs
  · exact ha.trans (by rw [show (State.concluded s p k.state.table k.arrivals tag _).arbiter = s.arbiter from hc.2.1])

/-- A request that its work refuses: what its grant comes to. -/
theorem carries_refused {s : State} {p : Port} {tag : Byte} {r : Request} (h : s.carries p tag r) {v : Verdict}
    (hk : tableWork p r s = ⟨s, [], v⟩) (hd : v.result ≠ .done) :
    exec (.portEngineGrant .toEnd) s = .next (endGrant (s.declined p
      ⟨r.code.toByte, tag, v.result, refusalLocal r.code r.body, v.via, v.stop, v.hops⟩ (v.answer.bytes 0))) := by
  obtain ⟨e, ho, hp, ht, hl, hs, ha⟩ := grant_work s p tag r h
  simp only [hk, arrivalsRemove, takeArrivals_nil] at e ho hp ht hl hs ha
  rw [e, respond_refusal' _ _ _ _ _ hd ((outer_iff.1 ho).2.2.1.trans h.2.1)]
  refine congrArg _ (endGrant_congr ho ?_ ht hl hs ha)
  simp only [State.declined, State.setPort, State.port, hp]

/-! ### From an idle table -/

/-- A frame taken at an idle table begins the grant of its request, which then has it. -/
theorem serving_grants {s : State} {p : Port} (h : s.serving p) (r : Request) (tag : Byte) (hb : r.body.length ≤ 120)
    (hparse : parse r.code r.body = some r) (hlen : lengthOk r.code r.body = true) (hc : r.code.atOnce = false)
    (hs : r.code.supervisor = true → p = .a) :
    let u := grantState s p ((s.port p).afterFrame r.body.length) ⟨⟨r.code.toByte, tag, refusalLocal r.code r.body⟩, r⟩
    exec (requestCommand r.code p (.frame tag r.body)) s = .next u ∧ u.carries p tag r := by
  obtain ⟨⟨h1, h2, h3, h4⟩, hidle, hck⟩ := h
  refine ⟨?_, (clocked_iff _).2 ⟨((linkOn_iff _ _).1 h1.1).1, hck⟩, h3, [], 0, rfl⟩
  rw [exec_requestCommand, requestTransaction_frame s p _ _ _ h1 h2 hb,
    check_dispatches s p r.code r.body r h3 h4 hlen hs hparse]
  simp only
  rw [discardHeld_closeRequest s p _ h3]
  have : ∀ hd s', dispatch p hd r s' = raiseClaim p hd r s' := by
    intro hd s'; cases r <;> first | rfl | (simp [Request.code, Code.atOnce] at hc)
  rw [this, raiseClaim_of_idle hidle _ _ _ _ rfl]

/-- The queues and condition blocks do not see that the request is in work and has its grant. -/
theorem sameQueues_grantState (s : State) (p : Port) (x : PortState) (w : Work) (t : Table) :
    State.sameQueues { s.setPort p x with table := t } { grantState s p x w with table := t } := by
  refine ⟨rfl, fun q => ?_⟩
  by_cases e : q = p
  · subst e; simp [State.port, State.setPort, grantState]
  · simp [State.port, State.setPort, e, grantState]

/-- With no other claim and no choice due, a request granted at an idle table ends as if its port had come to it at once. -/
theorem endGrant_concluded {s : State} {p : Port} (h : s.tableIdle) (x : PortState) (w : Work) (t : Table)
    (as : List Arrival) (tag : Byte) (body : List Byte) :
    endGrant ((grantState s p x w).concluded p t as tag body) =
      { (s.setPort p x).concluded p t as tag body with arbiter := { s.arbiter with pointer := .port p } } := by
  obtain ⟨hg, hcl, hdue⟩ := h
  have hg1 := core_iff.1 (takeArrivals_core { grantState s p x w with table := t } as)
  have hs1 := core_iff.1 (takeArrivals_core { s.setPort p x with table := t } as)
  obtain ⟨q1, -⟩ := takeArrivals_same as (sameQueues_grantState s p x w t)
  rw [endGrant_of_no_claim]
  · apply State.ext_parts
    · show (takeArrivals as { grantState s p x w with table := t }).outer =
        (takeArrivals as { s.setPort p x with table := t }).outer
      rw [takeArrivals_outer, takeArrivals_outer]; rfl
    · simp only [State.core, Prod.mk.injEq]
      refine ⟨hg1.1.trans hs1.1.symm, ?_, hg1.2.2.1.trans hs1.2.2.1.symm, hg1.2.2.2.trans hs1.2.2.2.symm⟩
      show ({ (takeArrivals as { grantState s p x w with table := t }).arbiter with grant := none } : Arbiter) = _
      rw [hg1.2.1]; simp [grantState, hg]
    · intro q
      show State.port ((takeArrivals as { grantState s p x w with table := t }).setPort p _) q =
        State.port ((takeArrivals as { s.setPort p x with table := t }).setPort p _) q
      obtain ⟨es, c, ps, -⟩ := takeArrivals_port { s.setPort p x with table := t } q as
      by_cases e : q = p
      · subst e
        simp only [port_setPort_self, q1]
        rw [ps]
        simp [PortState.answering, conditionsByte, grantState, State.setPort, State.port]
      · simp only [port_setPort_ne _ _ _ e, q1]
        rw [ps]
        simp [grantState, State.setPort, State.port, e]
  · intro r'
    rw [← hcl r']
    refine claimed_congr ?_ ?_ ?_ r'
    · exact congrArg (·.claims) hg1.2.1
    · exact congrArg (·.claim) hg1.2.2.1
    · exact congrArg (·.claim) hg1.2.2.2
  · exact (congrArg (·.choiceDue) hg1.2.2.2).trans hdue

theorem refusing_with_work (x : PortState) (w : Option Work) (r : RefusalRecord) (b : List Byte) :
    ({ x with work := w } : PortState).refusing r b = x.refusing r b := by
  unfold PortState.refusing
  cases h : x.conditions.refusalHeld <;> simp [PortState.answering, conditionsByte]

/-- The same for a refused request. -/
theorem endGrant_declined {s : State} {p : Port} (h : s.tableIdle) (x : PortState) (w : Work) (record : RefusalRecord)
    (body : List Byte) :
    endGrant ((grantState s p x w).declined p record body) =
      { (s.setPort p x).declined p record body with arbiter := { s.arbiter with pointer := .port p } } := by
  obtain ⟨hg, hcl, hdue⟩ := h
  rw [endGrant_of_no_claim]
  · apply State.ext_parts
    · rfl
    · simp [State.core, State.declined, grantState, hg, State.setPort]
    · intro q
      show State.port ((grantState s p x w).setPort p _) q = State.port ((s.setPort p x).setPort p _) q
      by_cases e : q = p
      · subst e
        simp only [port_setPort_self]
        rw [← refusing_with_work x (some w)]
        simp [State.port, State.setPort, grantState]
      · simp [e, grantState, State.port, State.setPort]
  · intro r'
    rw [← hcl r']
    exact claimed_congr rfl rfl rfl r'
  · exact hdue

/-- A request whose work answers DONE, and changes no more than the table and the queues. -/
theorem concludes_done {s : State} {p : Port} (r : Request) (tag : Byte) (hb : r.body.length ≤ 120)
    (hparse : parse r.code r.body = some r) (hlen : lengthOk r.code r.body = true) (hc : r.code.atOnce = false)
    (hs : r.code.supervisor = true → p = .a)
    (hd : (tableWork p r s).verdict.result = .done) (hsw : (tableWork p r s).state.sweep = s.sweep) :
    s.concludes (requestCommand r.code p (.frame tag r.body)) p tag r (tableWork p r s).state.table
      (tableWork p r s).arrivals ((tableWork p r s).verdict.answer.bytes (arrivalsRemove (tableWork p r s).arrivals s)) := by
  refine ⟨fun h => ?_, fun h => ?_⟩
  · rw [carries_done h hd]
    refine congrArg _ (endGrant_congr rfl rfl rfl rfl ?_ rfl)
    exact hsw.trans (core_iff.1
      (takeArrivals_core { s with table := (tableWork p r s).state.table } (tableWork p r s).arrivals)).2.2.2.symm
  · obtain ⟨e1, e2⟩ := serving_grants h r tag hb hparse hlen hc hs
    refine ⟨_, e1, ?_⟩
    set u := grantState s p ((s.port p).afterFrame r.body.length) ⟨⟨r.code.toByte, tag, refusalLocal r.code r.body⟩, r⟩
      with hu
    obtain ⟨c1, c2, c3, c4⟩ := tableWork_congr p r (s := s) (t := u) rfl rfl rfl
    have hq : arrivalsRemove (tableWork p r s).arrivals u = arrivalsRemove (tableWork p r s).arrivals s := by
      refine arrivalsRemove_queues _ fun q => ?_
      by_cases e : q = p
      · subst e; simp [hu, grantState, State.port, State.setPort, PortState.afterFrame, PortState.closing]
      · simp [hu, grantState, State.port, State.setPort, e]
    have hd' : (tableWork p r u).verdict.result = .done := by rw [c4]; exact hd
    rw [carries_done e2 hd', c1, c2, c3, c4, hq, ← endGrant_concluded h.2.1]
    refine congrArg _ (endGrant_congr rfl rfl rfl rfl ?_ rfl)
    exact hsw.trans (core_iff.1 (takeArrivals_core { u with table := (tableWork p r s).state.table } _)).2.2.2.symm

/-- A request that its work refuses. -/
theorem declines_refused {s : State} {p : Port} (r : Request) (tag : Byte) (hb : r.body.length ≤ 120)
    (hparse : parse r.code r.body = some r) (hlen : lengthOk r.code r.body = true) (hc : r.code.atOnce = false)
    (hs : r.code.supervisor = true → p = .a) (v : Verdict)
    (hk : tableWork p r s = ⟨s, [], v⟩) (hd : v.result ≠ .done) :
    s.declines (requestCommand r.code p (.frame tag r.body)) p tag r
      ⟨r.code.toByte, tag, v.result, refusalLocal r.code r.body, v.via, v.stop, v.hops⟩ (v.answer.bytes 0) := by
  refine ⟨fun h => carries_refused h hk hd, fun h => ?_⟩
  obtain ⟨e1, e2⟩ := serving_grants h r tag hb hparse hlen hc hs
  refine ⟨_, e1, ?_⟩
  have hk' := tableWork_refused p r (s := s) (t := grantState s p ((s.port p).afterFrame r.body.length)
    ⟨⟨r.code.toByte, tag, refusalLocal r.code r.body⟩, r⟩) rfl rfl rfl hk
  rw [carries_refused e2 hk' hd, endGrant_declined h.2.1]

end Sys2Proof.Machine
end

