-- ==== Sys2Proof/Laws/Engines.lean ====
section
/-! SUPPORT. What the sweep engine's operations can do: withdrawing a claim, marking a port, taking a job, passing to the next
step of a job; and what a grant's arrivals do in two parts. -/
namespace Sys2Proof.Machine

variable (s : State) (p q : Port)

/-! ### Withdrawing a claim -/

/-- A withdrawn claim drops the request in work behind it; nothing else of a port changes. -/
theorem withdrawClaim_port :
    (withdrawClaim p s).port q =
      if q = p ∧ s.arbiter.claims.get p = true then { s.port q with work := none } else s.port q := by
  unfold withdrawClaim
  split
  · by_cases e : q = p
    · subst e; simp [*, State.port, State.setPort]
    · simp [*, State.port, State.setPort]
  · simp [*]

/-- After the withdrawal the port has no claim; pointer, grant and the other claims stay. -/
theorem withdrawClaim_arbiter :
    (withdrawClaim p s).arbiter = { s.arbiter with claims := s.arbiter.claims.set p false } := by
  unfold withdrawClaim
  split
  · rfl
  · next h =>
    have : s.arbiter.claims.get p = false := by simpa using h
    rw [← this, PerPort.set_get_self]

theorem withdrawClaim_rest :
    (withdrawClaim p s).outer = s.outer ∧ (withdrawClaim p s).table = s.table ∧ (withdrawClaim p s).lease = s.lease ∧
      (withdrawClaim p s).sweep = s.sweep := by
  unfold withdrawClaim
  split <;> exact ⟨rfl, rfl, rfl, rfl⟩

/-! ### The engine's choice of a job -/

/-- Offered the work of a marked port, the engine does what `Sweep.marks` says. -/
theorem marks_offer (w : Sweep) : w.marks
    ({ w with flags := w.flags.set q true, attachment := w.attachment.set q .detaching } : Sweep).offer q := by
  refine ⟨fun hb => ?_, fun hj hd => ?_⟩
  · unfold Sweep.offer
    cases hj : w.job with
    | some j => simp
    | none =>
      rcases hb with hb | hb
      · rw [hj] at hb; cases hb
      · simp [hb]
  · rw [offer_of_idle _ (by exact hj) (by exact hd)]; exact takes_takeJob _

/-- Marking a port for detachment: the engine marks it, and the arbiter chooses. -/
theorem markDetachment_eq :
    ∃ w, s.sweep.marks w q ∧ markDetachment q s = arbitrate { s with sweep := w } :=
  ⟨_, marks_offer q s.sweep, rfl⟩

/-- The end of a grant: a choice left due is made, and the arbiter chooses (R14, R119). -/
theorem endGrant_cases :
    (s.sweep.choiceDue = false → endGrant s = arbitrate { s with arbiter := { s.arbiter with grant := none } }) ∧
    (s.sweep.choiceDue = true → ∃ w, s.sweep.takes w ∧
      endGrant s = arbitrate { s with arbiter := { s.arbiter with grant := none }, sweep := w }) := by
  refine ⟨fun h => ?_, fun h => ⟨_, takes_takeJob s.sweep, ?_⟩⟩
  · unfold endGrant; rw [choose_of_not_due _ h]
  · unfold endGrant Sweep.choose; rw [h]; rfl

/-! ### The steps of a job -/

/-- With no other claim raised, the end of a step's grant is followed at once by the grant of the next step. -/
theorem nextStep_eq (j : Job) (hcl : ∀ r, s.claimed r = false) (hd : s.sweep.choiceDue = false) :
    nextStep j s = { s with
      sweep := { s.sweep with job := some j }
      arbiter := { s.arbiter with pointer := .sweep, grant := some ⟨.sweep false, [], 0⟩ } } := by
  have hsc : s.sweep.claim = false := hcl .sweep
  unfold nextStep endGrant
  rw [choose_of_not_due _ (by exact hd), arbitrate_of_single_claim _ .sweep]
  · simp [beginGrant, hsc]
  · rfl
  · rfl
  · intro r hr
    cases r with
    | port q => exact hcl (.port q)
    | lease => exact hcl .lease
    | sweep => exact absurd rfl hr

/-- A step carried to its end: the queues have taken its arrivals and the next step is granted. -/
theorem carryStep_eq (j : Job) (g : Grant) (hcl : ∀ r, s.claimed r = false) (hd : s.sweep.choiceDue = false) :
    carryStep .toEnd j g s = { takeArrivals g.arrivals s with
      sweep := { s.sweep with job := some j }
      arbiter := { s.arbiter with pointer := .sweep, grant := some ⟨.sweep false, [], 0⟩ } } := by
  have ha := core_iff.1 (takeArrivals_core s g.arrivals)
  simp only [carryStep]
  rw [nextStep_eq]
  · simp only [advance, takenBy, leftBy, ha.2.1, ha.2.2.2]
  · intro r; rw [← hcl r]; refine claimed_congr ?_ ?_ ?_ r
    · simp only [advance, takenBy, ha.2.1]
    · simp only [advance, takenBy, ha.2.2.1]
    · simp only [advance, takenBy, ha.2.2.2]
  · simp only [advance, takenBy, ha.2.2.2, hd]

/-- A view after step V-x: port `x`'s entries that name the slot are gone, every other entry stands. -/
theorem entry_viewStepTable (t : Table) (x y : Port) (i : Slot) (l : Local) :
    (viewStepTable t x i).entry y l = if y = x ∧ t.names x i l = true then none else t.entry y l := by
  by_cases h : y = x
  · subst h
    simp only [viewStepTable, Table.entry, Table.returnSubs, Table.names, PerPort.get_set_self, Vector.get_eq_getElem,
      Vector.getElem_map, true_and]
    cases (t.views.get y)[l.val] with
    | none => rfl
    | some d => by_cases hd : d.slot = i <;> simp [hd]
  · simp [viewStepTable, Table.entry, Table.returnSubs, h]

/-! ### The lease access's visits -/

/-- A visit of the slots from `lo` to `hi`: those records are visited, every other record stands. -/
theorem record_visit (t : Table) (k lo hi : Nat) (i : Slot) :
    (t.visit k lo hi).record i = if lo ≤ i.val ∧ i.val ≤ hi then (t.record i).visited k else t.record i := by
  simp [Table.visit, Table.record, Vector.get_eq_getElem]

@[simp] theorem visit_freeList (t : Table) (k lo hi : Nat) : (t.visit k lo hi).freeList = t.freeList := rfl
@[simp] theorem visit_views (t : Table) (k lo hi : Nat) : (t.visit k lo hi).views = t.views := rfl
@[simp] theorem visit_pool (t : Table) (k lo hi : Nat) : (t.visit k lo hi).pool = t.pool := rfl

/-! ### A grant between its arrivals -/

/-- The queues take the arrivals the command brings, the rest wait in the grant, and nothing else changes. -/
theorem advance_eq (pr : Progress) (g : Grant) : advance pr g s =
    { takeArrivals (takenBy pr g.arrivals) s with
      arbiter := { s.arbiter with
        grant := some ⟨g.holder, leftBy pr g.arrivals, g.removed + arrivalsRemove (takenBy pr g.arrivals) s⟩ } } := by
  have h := core_iff.1 (takeArrivals_core s (takenBy pr g.arrivals))
  simp only [advance, h.2.1]

/-! ### Arrivals in two parts -/

theorem arrivalsRemove_append (as bs : List Arrival) :
    arrivalsRemove (as ++ bs) s = arrivalsRemove as s + arrivalsRemove bs (takeArrivals as s) := by
  induction as generalizing s with
  | nil => simp [arrivalsRemove]
  | cons a as ih => simp [arrivalsRemove, ih]; omega

end Sys2Proof.Machine
end

