-- ==== Sys2Proof/Tests/Slice0.lean ====
section
/-! SUPPORT. Tests of our own: ill-formed commands, the manual's worked examples, one step of each kind of command, and for
every statement with hypotheses a state and operands that meet them. -/
namespace Sys2Proof.Tests
open Sys2Proof Sys2Proof.Machine

set_option maxRecDepth 20000

/-! ### Small states -/

/-- The part just initialised: ATTACHED, DETACHED set on every port, the table cleared (R160). -/
def boot : State := { State.reset with
  rstn := .high
  ports := .replicate { PortState.powerOn with conditions := ⟨false, false, false, false, false, true⟩ } }

/-- `boot` over another table. -/
def withTable (t : Table) : State := { boot with table := t }

/-- The table with records, entries and subscriptions put into it. -/
def build (rs : List (Slot × Record)) (es : List (Port × Local × ViewEntry)) (pool : List Subscription) : Table :=
  let t := rs.foldl (fun (t : Table) r => t.setRecord r.1 r.2) Table.cleared
  { es.foldl (fun (t : Table) e => t.setEntry e.1 e.2.1 (some e.2.2)) t with pool := pool }

/-- `s` with this grant in progress. -/
def granting (s : State) (h : Holder) : State := { s with arbiter := { s.arbiter with grant := some ⟨h, [], 0⟩ } }

/-- A request of port `p` with tag 1, in work. -/
def workOf (r : Request) : Work := ⟨⟨r.code.toByte, 1#8, refusalLocal r.code r.body⟩, r⟩

/-- `s` with port `p`'s request granted. -/
def grantedRequest (p : Port) (r : Request) (s : State) : State :=
  granting (s.setPort p { s.port p with work := some (workOf r) }) (.port p (workOf r) false none)

/-- What the command leaves, `s` itself where it leaves nothing. -/
def after (c : Instr) (s : State) : State :=
  match exec c s with
  | .next t => t
  | .fault _ | .refused _ => s

/-- The result and the body of the response held at a port. -/
def answer (s : State) (p : Port) : Option (Result × List Byte) := (s.port p).held.map (fun r => (r.result, r.body))

theorem no_claim {s : State} (h : s.arbiter.claims = .replicate false ∧ s.lease.claim = false ∧ s.sweep.claim = false)
    (r : Requester) : s.claimed r = false := by
  obtain ⟨h1, h2, h3⟩ := h
  cases r with
  | port p => simp [State.claimed, h1]
  | lease => exact h2
  | sweep => exact h3

theorem idle_withTable (t : Table) : (withTable t).tableIdle := ⟨rfl, no_claim ⟨rfl, rfl, rfl⟩, rfl⟩

theorem serving_withTable (t : Table) (p : Port) : (withTable t).serving p :=
  ⟨by cases p <;> exact ⟨⟨rfl, rfl⟩, rfl, rfl, rfl⟩, idle_withTable t, rfl⟩

theorem taking_boot (p : Port) : boot.taking p := by cases p <;> exact ⟨⟨rfl, rfl⟩, rfl, rfl, rfl⟩

/-- Port `p`'s request has its grant over this table, and the lease engine's claim waits. -/
def carrying (p : Port) (r : Request) (t : Table) : State :=
  grantedRequest p r { withTable t with lease := { boot.lease with pending := 1, claim := true } }

theorem carrying_carries (p : Port) (r : Request) (t : Table) : (carrying p r t).carries p 1#8 r ∧
    (carrying p r t).table = t ∧ (carrying p r t).claimed .lease = true := ⟨⟨rfl, rfl, [], 0, rfl⟩, rfl, rfl⟩

theorem granted_granting (h : Holder) : (granting boot h).granted h := ⟨rfl, no_claim ⟨rfl, rfl, rfl⟩, rfl⟩

/-! ### Ill-formed commands (WellFormed) -/

theorem test_wf_body_too_long : (Instr.read .a (.frame 0 (List.replicate 121 0))).wellFormed = false := by decide
theorem test_wf_body_longest : (Instr.read .a (.frame 0 (List.replicate 120 0))).wellFormed = true := by decide
theorem test_wf_overrun_too_long : (Instr.overrun .a 0x10 (.frame 0 (List.replicate 121 0))).wellFormed = false := by decide
theorem test_wf_unknown_code_known : (Instr.unknownCodeFrame .b 0x10 (.frame 0 [])).wellFormed = false := by decide
theorem test_wf_frame_error_good : (Instr.frameError .b [0x04, 0x01, 0x30, 0x15, 0x3E] 0).wellFormed = false := by decide
theorem test_wf_unknown_transaction_request : (Instr.unknownTransaction .c ⟨0xA5, 8, true⟩).wellFormed = false := by decide
theorem test_wf_unknown_transaction_response : (Instr.unknownTransaction .c ⟨0x5A, 8, true⟩).wellFormed = false := by decide

/-! ### The link's encodings (worked example of chapter 10) -/

theorem test_crc_get_status : crc [0x04, 0x01, 0x30] = 0x153E := by decide
theorem test_crc_registers : crc [0x04] = 0xA174 ∧ crc [0x04, 0x01] = 0xC1EA := by decide
theorem test_frame_get_status : frameBytes 0x30 0x01 [] = [0x04, 0x01, 0x30, 0x15, 0x3E] := by decide
theorem test_judge_good : judge [0x04, 0x01, 0x30, 0x15, 0x3E] 0 = .good 0x30 0x01 [] := by decide
theorem test_judge_wrong_crc : judge [0x04, 0x01, 0x30, 0x15, 0x3F] 0 = .frameError := by decide
theorem test_judge_extra_edge : judge [0x04, 0x01, 0x30, 0x15, 0x3E] 1 = .frameError := by decide
theorem test_judge_short : judge [0x04, 0x01] 0 = .frameError := by decide
theorem test_decode_gives_none : decodeTableWord 8 0 = none := by decide

/-- R151's table at both ends of each range: refused. -/
theorem test_fields_out_of_range :
    [(Code.groupRead, [0]), (.groupRead, 9 :: List.replicate 9 0), (.subscribe, [0, 0, 0, 0, 0, 0, 0, 0, 0, 3, 0]),
     (.subscribe, [0, 0, 0, 0, 0, 0, 0, 0, 0, 0, 2]), (.drain, [0]), (.drain, [9]), (.acknowledge, [0x40]),
     (.acknowledge, [0x80]), (.createValue, [0, 0, 0, 0, 0x10, 0]), (.createAlias, [4, 0, 0]), (.createAlias, [0, 0, 2]),
     (.retire, [4, 0]), (.readSlot, [4, 0]), (.map, [4, 0, 0, 0, 0]), (.map, [0, 0, 4, 0, 0]), (.map, [0, 0, 0, 0, 2]),
     (.unmap, [4, 0]), (.readView, [4, 0]), (.detach, [4]), (.setTick, [3])].all
      (fun x => lengthOk x.1 x.2 && (parse x.1 x.2).isNone) = true := by decide

/-- The last values in range: accepted. -/
theorem test_fields_in_range :
    [(Code.groupRead, [1, 0xFF]), (.groupRead, 8 :: List.replicate 8 0), (.subscribe, [0, 0, 0, 0, 0, 0, 0, 0, 0, 2, 1]),
     (.drain, [1]), (.drain, [8]), (.acknowledge, [0x3F]), (.createValue, [0, 0, 0, 0, 0x0F, 0xFF]),
     (.createAlias, [3, 0xFF, 1]), (.retire, [3, 0xFF]), (.readSlot, [3, 0xFF]), (.map, [3, 0xFF, 3, 0xFF, 1]),
     (.unmap, [3, 0xFF]), (.readView, [3, 0xFF]), (.detach, [3]), (.setTick, [2])].all
      (fun x => lengthOk x.1 x.2 && (parse x.1 x.2).isSome) = true := by decide

/-! ### Reset and lines -/

theorem test_reset_not_ready : State.reset.linkOn .a = false ∧ State.reset.atn .a = false := by decide
theorem test_release : (after .rstnRelease State.reset).initialising = true := by decide
theorem test_initialisation_end : after .initialisationEnd (after .rstnRelease State.reset) = boot := by rfl
theorem test_rstn_fall : (after .rstnFall boot).atn .b = false ∧ boot.atn .b = true := by decide
theorem test_prst_fall_marks : (after (.prstFall .c) boot).sweep.job = some (.detachment .c .d1) := by decide
theorem test_prst_rise : ((after (.prstRise .c) (after (.prstFall .c) boot)).port .c).prst = .high := by decide
theorem test_refclk_stop : after .tick (after .refclkStop boot) = after .refclkStop boot := by rfl
theorem test_refclk_resume : after .refclkResume (after .refclkStop boot) = boot := by rfl

/-! ### Resolutions (worked example of chapter 3) -/

/-- A LIVE VALUE record with no lease. -/
def point (g : Byte) (v : Word32) (q : Word16) : Record := ⟨g, .live (.value ⟨v, q, .good, 0, 0⟩)⟩

def chain (first : Record) : Table :=
  build [(60, first), (61, ⟨0, .live (.aliasOf ⟨60, 2, true⟩)⟩), (62, ⟨0, .live (.aliasOf ⟨61, 0, false⟩)⟩)]
    [(.c, 0, ⟨60, .readWrite⟩), (.c, 1, ⟨61, .readWrite⟩), (.c, 2, ⟨62, .readWrite⟩), (.c, 3, ⟨62, .read⟩)] []

theorem test_resolve_before_retire :
    let t := chain (point 2 9 0)
    let v : ValueFields := ⟨9, 0, .good, 0, 0⟩
    resolve t .read .c 0 = .reached 60 60 v 0 ∧ resolve t .read .c 2 = .reached 60 62 v 2 ∧
    resolve t .write .c 1 = .reached 60 61 v 1 ∧ resolve t .write .c 2 = .refused .noRight (some 62) (some 62) 0 ∧
    resolve t .write .c 3 = .refused .noRight (some 62) none 0 ∧ resolve t .read .c 5 = .refused .noEntry none none 0 := by
  decide

theorem test_resolve_after_retire :
    let t := chain ⟨3, .retiring (.value ⟨9, 0, .good, 0, 0⟩)⟩
    resolve t .read .c 0 = .refused .retired (some 60) (some 60) 0 ∧
    resolve t .read .c 1 = .refused .dangling (some 61) (some 61) 0 ∧
    resolve t .read .c 2 = .refused .dangling (some 62) (some 61) 1 ∧
    resolve t .write .c 2 = .refused .noRight (some 62) (some 62) 0 ∧
    resolve t .write .c 3 = .refused .noRight (some 62) none 0 := by decide

/-- Nine aliases, slots 0 to 8, each naming the next slot, and the point in slot 9. -/
def longChain : Table :=
  build ((9, point 0 7 0) :: (List.range 9).map (fun i =>
      (Fin.ofNat 1024 i, ⟨0, .live (.aliasOf ⟨Fin.ofNat 1024 (i + 1), 0, true⟩)⟩)))
    [(.b, 0, ⟨0, .readWrite⟩), (.b, 1, ⟨1, .readWrite⟩)] []

/-- Eight aliases are passed; a ninth is not (R42). -/
theorem test_resolve_hop_limit :
    resolve longChain .write .b 1 = .reached 9 1 ⟨7, 0, .good, 0, 0⟩ 8 ∧
    resolve longChain .read .b 0 = .refused .chainTooLong (some 0) (some 8) 8 := by decide

/-! ### Requests in their grants (worked examples of chapters 1, 4 and 6) -/

def groupTable : Table :=
  build [(80, point 0 0x1F4 12), (81, ⟨0, .live (.aliasOf ⟨80, 0, true⟩)⟩), (84, ⟨1, .free⟩),
      (85, ⟨0, .live (.aliasOf ⟨84, 0, true⟩)⟩), (90, ⟨1, .retiring (.value ⟨0, 0, .good, 0, 0⟩)⟩)]
    [(.d, 0, ⟨80, .read⟩), (.d, 1, ⟨81, .read⟩), (.d, 2, ⟨85, .readWrite⟩), (.d, 3, ⟨90, .read⟩)] []

theorem test_group_read :
    answer (after (.portEngineGrant .toEnd) (grantedRequest .d (.groupRead [0, 7, 1, 2, 0]) (withTable groupTable))) .d =
      some (.done, [5,
        0x00, 0, 0, 1, 0xF4, 0, 12, 0x00,
        0x01, 0, 0, 0, 0, 0, 0, 0xFF,
        0x00, 0, 0, 1, 0xF4, 0, 12, 0x01,
        0x04, 0, 0, 0, 0, 0, 0, 0xFF,
        0x00, 0, 0, 1, 0xF4, 0, 12, 0x00]) := by decide

theorem test_group_read_wrong_length :
    answer (after (.groupRead .d (.frame 2 [3, 0, 1, 2, 0])) boot) .d = some (.badRequest, []) := by decide

theorem test_read :
    answer (after (.portEngineGrant .toEnd) (grantedRequest .d (.read 1) (withTable groupTable))) .d =
      some (.done, [0, 0, 1, 0xF4, 0, 12, 0, 1]) := by decide

theorem test_read_claims : (after (.read .d (.frame 1 [1])) (withTable groupTable)).arbiter.grant =
    some ⟨.port .d (workOf (.read 1)) false none, [], 0⟩ := by decide

/-- Slot 300 STALE, with its three subscriptions (chapter 4). -/
def staleTable : Table :=
  build [(300, ⟨0, .live (.value ⟨0x10, 77, .stale, 200, 0⟩)⟩)] [(.d, 6, ⟨300, .readWrite⟩)]
    [⟨.b, 4, 300, 300, 0xF, 0, .trip, true, .matched⟩, ⟨.c, 9, 300, 300, 0, 0, .writes, false, .matched⟩,
     ⟨.b, 5, 300, 300, 0xF0, 0x10, .both, true, .matched⟩]

def written : State := after (.portEngineGrant .toEnd) (grantedRequest .d (.write 6 0x11) (withTable staleTable))

theorem test_write_record : written.table.record 300 = ⟨0, .live (.value ⟨0x11, 78, .good, 200, 200⟩)⟩ ∧
    written.table.pool.map (·.watch) = [.mismatched, .matched, .matched] ∧
    answer written .d = some (.done, [0, 78]) := by decide

theorem test_write_queues :
    (written.port .b).queue =
      [⟨4, .quality .good 0x11 78, 1⟩, ⟨5, .quality .good 0x11 78, 1⟩, ⟨4, .watch .mismatched 0x11 78, 1⟩] ∧
    (written.port .c).queue = [⟨9, .change .matched 0x11 78, 1⟩] ∧ (written.port .d).queue = [] := by decide

/-- A Drain between two arrivals of one grant finds what has arrived (R103). -/
theorem test_grant_pauses :
    let s := after (.portEngineGrant (.arrivals 1)) (grantedRequest .d (.write 6 0x11) (withTable staleTable))
    (s.port .b).queue.map (·.loc) = [4] ∧ (s.port .d).held = none := by decide

theorem test_conditional_write_mismatch :
    answer (after (.portEngineGrant .toEnd) (grantedRequest .d (.conditionalWrite 6 76 1) (withTable staleTable))) .d =
      some (.seqMismatch, [0, 77, 0, 0, 0, 0x10]) := by decide

theorem test_refresh :
    let s := after (.portEngineGrant .toEnd) (grantedRequest .d (.refresh 6) (withTable staleTable))
    s.table.record 300 = ⟨0, .live (.value ⟨0x10, 77, .good, 200, 200⟩)⟩ ∧ answer s .d = some (.done, [0, 77, 0, 200, 1]) := by
  decide

theorem test_subscribe_replaces :
    let s := after (.portEngineGrant .toEnd) (grantedRequest .b (.subscribe 4 0xFF 0x10 .both false)
      (withTable { staleTable.setEntry .b 4 (some ⟨300, .read⟩) with pool := staleTable.pool }))
    s.table.pool.map (fun u => (u.loc, u.mode)) = [(4, .both), (9, .writes), (5, .both)] ∧
      answer s .b = some (.done, [1, 0, 0, 0, 0, 0x10, 1, 0, 77]) := by decide

theorem test_unsubscribe :
    let s := after (.portEngineGrant .toEnd) (grantedRequest .b (.unsubscribe 4) (written.setPort .d (boot.port .d)))
    (s.port .b).queue.map (·.loc) = [5] ∧ answer s .b = some (.done, [2]) := by decide

theorem test_create_value :
    let s := after (.portEngineGrant .toEnd) (grantedRequest .a (.createValue 100 50) boot)
    s.table.record 0 = ⟨0, .live (.value ⟨100, 0, .good, 50, 50⟩)⟩ ∧ s.table.freeList.head? = some 1 ∧
      answer s .a = some (.done, [0, 0, 0]) := by decide

theorem test_create_alias_not_live :
    answer (after (.portEngineGrant .toEnd) (grantedRequest .a (.createAlias 0 true) boot)) .a = some (.notLive, []) := by
  decide

theorem test_retire :
    let s := after (.portEngineGrant .toEnd) (grantedRequest .a (.retire 40) (withTable (build [(40, point 5 0x64 20)] [] [])))
    s.table.record 40 = ⟨6, .retiring (.value ⟨0x64, 20, .good, 0, 0⟩)⟩ ∧ answer s .a = some (.done, [1]) ∧
      s.sweep.job = some (.retirement 40 (.v .a)) ∧ s.sweep.fifo = [] := by decide

theorem test_map :
    let s := after (.portEngineGrant .toEnd)
      (grantedRequest .a (.map .b 3 40 .readWrite) (withTable (build [(40, point 5 0x64 20)] [] [])))
    s.table.entry .b 3 = some ⟨40, .readWrite⟩ ∧ answer s .a = some (.done, [5]) := by decide

theorem test_unmap :
    let s := after (.portEngineGrant .toEnd) (grantedRequest .a (.unmap .d 6) (withTable staleTable))
    s.table.entry .d 6 = none ∧ answer s .a = some (.done, [1, 44, 0, 0]) := by decide

/-- An Unmap of port B's local 4 with its table work done and its removal on the way; two entries of the local are queued. -/
def unmapping : State :=
  after (.portEngineGrant (.arrivals 0)) (grantedRequest .a (.unmap .b 4)
    ((withTable { staleTable.setEntry .b 4 (some ⟨300, .read⟩) with pool := staleTable.pool }).setPort .b { boot.port .b with
      queue := [⟨4, .watch .matched 1 1, 1⟩, ⟨5, .retired, 1⟩, ⟨4, .quality .good 1 1, 1⟩] }))

/-- A Drain taken before the removal takes an entry of the local, which the Unmap does not count (R34). -/
theorem test_unmap_after_drain :
    let s := after (.portEngineGrant .toEnd) (after (.drain .b (.frame 2 [1])) unmapping)
    answer s .a = some (.done, [1, 44, 1, 1]) ∧ (s.port .b).queue = [⟨5, .retired, 1⟩] := by decide

theorem test_read_view :
    answer (after (.portEngineGrant .toEnd) (grantedRequest .a (.readView .d 3) (withTable groupTable))) .a =
      some (.done, [0, 90, 0, 2, 1]) := by decide

theorem test_read_slot :
    answer (after (.portEngineGrant .toEnd) (grantedRequest .a (.readSlot 300) (withTable staleTable))) .a =
      some (.done, [1, 0, 0, 0, 0, 0, 0x10, 0, 77, 1, 0, 200, 0, 0, 3, 0xFF, 0xFF, 0, 0xFF]) := by decide

theorem test_read_slot_free :
    answer (after (.portEngineGrant .toEnd) (grantedRequest .a (.readSlot 84) (withTable groupTable))) .a =
      some (.done, [0, 1, 0xFF, 0, 0, 0, 0, 0, 0, 0xFF, 0, 0, 0, 0, 0, 0xFF, 0xFF, 0, 0xFF]) := by decide

theorem test_pool_report :
    answer (after (.portEngineGrant .toEnd) (grantedRequest .a .poolReport boot)) .a =
      some (.done, [4, 0, 0, 192, 0, 0, 0, 0, 0, 0, 0, 0xFF, 0xFF, 0xFF, 0, 1]) := by decide

/-! ### Requests answered at once, and the link (worked example of chapter 10) -/

/-- A port with one CHANGE entry for each of the locals 0 to `n - 1`. -/
def queued (n : Nat) : State := boot.setPort .c { boot.port .c with
  queue := (List.range n).map (fun i => ⟨Fin.ofNat 256 i, .change .matched 1 1, 1⟩) }

theorem test_drain :
    let s := after (.drain .c (.frame 1 [8])) (queued 32)
    (s.port .c).queue.length = 24 ∧ (answer s .c).map (fun a => a.2.take 6) = some [8, 24, 0, 1, 0, 1] := by decide

theorem test_get_status :
    answer (after (.getStatus .c (.frame 1 [])) (queued 3)) .c = some (.done, [0x20, 3, 0, 0] ++ List.replicate 10 0xFF) := by
  decide

theorem test_acknowledge :
    let s := after (.acknowledge .c (.frame 1 [0x20])) boot
    (s.port .c).conditions = .none ∧ answer s .c = some (.done, [0x20]) := by decide

theorem test_detach :
    let s := after (.detach .a (.frame 1 [1])) boot
    answer s .a = some (.done, [0]) ∧ s.sweep.attachment.get .b = .detaching := by decide

theorem test_set_tick :
    let s := after (.setTick .a (.frame 1 [2])) { boot with lease := { boot.lease with divider := 77 } }
    s.lease.period = .ms100 ∧ s.lease.divider = 0 ∧ answer s .a = some (.done, [1]) := by decide

theorem test_hold_leases :
    let s := after (.holdLeases .a (.frame 1 []))
      (granting { boot with lease := { boot.lease with pending := 4, claim := true } } (.sweep false))
    s.lease = ⟨.ms10, 0, .held, 0, false⟩ ∧ answer s .a = some (.done, [0, 4]) := by decide

theorem test_resume_leases :
    let s := after (.resumeLeases .a (.frame 1 [])) { boot with lease := { boot.lease with hold := .held, divider := 9 } }
    s.lease = ⟨.ms10, 0, .running, 0, false⟩ ∧ answer s .a = some (.done, [1]) := by decide

theorem test_not_supervisor :
    answer (after (.poolReport .b (.frame 1 [])) boot) .b = some (.notSupervisor, []) := by decide

theorem test_unknown_code :
    let s := after (.unknownCodeFrame .b 0x7F (.frame 9 [])) boot
    answer s .b = some (.badRequest, []) ∧ (s.port .b).record = some ⟨0x7F, 9, .badRequest, none, none, none, 0⟩ := by decide

theorem test_overrun :
    let s := (after (.overrun .d 0x30 (.frame 0x22 [])) (grantedRequest .d (.read 1) (withTable groupTable)))
    (s.port .d).conditions.overrun = true ∧ (s.port .d).held = none := by decide

theorem test_frame_error :
    ((after (.frameError .d [0x04, 0x01, 0x30, 0x15, 0x3F] 0) boot).port .d).conditions.linkError = true := by decide

theorem test_unknown_transaction :
    let s := after (.unknownTransaction .d ⟨0x00, 24, true⟩) boot
    (s.port .d).conditions.linkError = true ∧ (s.port .d).dataOut = List.replicate 24 false := by decide

/-- Seven clock edges complete no first byte; the eighth does (R144). -/
theorem test_unknown_transaction_short :
    let s := after (.unknownTransaction .d ⟨0x00, 7, false⟩) boot
    (s.port .d).conditions.linkError = false ∧ (s.port .d).select = .opening 7 ∧
      ((after (.unknownTransaction .d ⟨0x00, 1, false⟩) s).port .d).conditions.linkError = true := by decide

/-- Select low over a reset of the port: the frame that ends then is ignored, and the next one is taken (R144). -/
theorem test_select_low_over_prst_rise :
    let s := after (.prstRise .d) (after (.prstFall .d) (after (.getStatus .d .typeByte) boot))
    let t := after (.getStatus .d (.frame 1 [])) s
    (s.port .d).select = .low ∧ (t.port .d).held = none ∧ (t.port .d).select = .high ∧
      ((after (.getStatus .d (.frame 2 [])) t).port .d).held.isSome = true := by decide

/-- A held response of no body: 48 bits behind the type byte. -/
def holding : State := boot.setPort .d { boot.port .d with held := some (makeResponse 0x21 .done 0x20 []) }

theorem test_response_read_out :
    ((after (.responseTransaction .d ⟨56, true⟩) holding).port .d).held = none ∧
    ((after (.responseTransaction .d ⟨55, true⟩) holding).port .d).held.isSome = true := by decide

/-- The same in two stretches, and a response that becomes held after the type byte is not delivered (R152). -/
theorem test_response_in_stretches :
    let s := after (.responseTransaction .d ⟨30, false⟩) holding
    let late := (after (.responseTransaction .d ⟨8, false⟩) boot).setPort .d
      { holding.port .d with select := .response 8 none }
    (s.port .d).held.isSome = true ∧ ((after (.responseTransaction .d ⟨26, false⟩) s).port .d).held = none ∧
      ((after (.responseTransaction .d ⟨48, true⟩) late).port .d).held.isSome = true := by decide

theorem test_response_none_held :
    ((after (.responseTransaction .d ⟨16, true⟩) boot).port .d).dataOut = List.replicate 16 false := by decide

theorem test_discarded :
    let s := after (.getStatus .d (.frame 0x24 [])) holding
    (s.port .d).conditions.discarded = true ∧ (s.port .d).held.map (·.conditions) = some 0x22 := by decide

/-- RECEIVING remembers HELD, and a frame error goes back to it (R146). -/
theorem test_receiving_from_held :
    let s := after (.read .d .typeByte) holding
    (s.port .d).linkState = .receivingFromHeld ∧
      ((after (.frameError .d [0x04] 0) s).port .d).linkState = .held := by decide

/-! ### Queues (worked example of chapter 7) -/

/-- Port C's full queue: locals 0 to 30 with CHANGE, local 5 merged 254 times, and QUALITY of local 40. -/
def fullQueue : List Entry :=
  (List.range 31).map (fun i => ⟨Fin.ofNat 256 i, .change .matched 1 1, if i = 5 then 254 else 1⟩) ++
    [⟨40, .quality .stale 1 1, 1⟩]

def full : State := boot.setPort .c { boot.port .c with queue := fullQueue }

theorem test_post_dropped :
    let s := takeArrival (.post .c 41 (.watch .mismatched 3 3)) full
    (s.port .c).queue = fullQueue ∧ (s.port .c).conditions.lost = true := by decide

theorem test_post_saturates :
    ((takeArrivals [.post .c 5 (.change .matched 2 2), .post .c 5 (.change .matched 3 3)] full).port .c).queue[5]? =
      some ⟨5, .change .matched 3 3, 255⟩ := by decide

theorem test_retired_post :
    let s := takeArrivals [.removal .c 5 .allButRetired, .post .c 5 .retired] full
    (s.port .c).queue.length = 32 ∧ (s.port .c).queue.getLast? = some ⟨5, .retired, 1⟩ ∧
      (s.port .c).conditions.lost = false := by
  decide

/-! ### The engines (worked examples of chapters 5 and 8) -/

def leaseTable : Table :=
  build [(5, ⟨0, .live (.value ⟨0x100, 7, .good, 3, 1⟩)⟩), (12, ⟨0, .live (.value ⟨0x40, 19, .stale, 10, 0⟩)⟩),
      (14, ⟨1, .retiring (.value ⟨5, 2, .good, 8, 1⟩)⟩), (20, ⟨0, .live (.value ⟨0xFFFF, 300, .good, 2, 1⟩)⟩),
      (33, ⟨0, .live (.value ⟨1, 0, .good, 6, 4⟩)⟩)] []
    [⟨.b, 1, 5, 5, 0, 0, .both, true, .matched⟩, ⟨.c, 3, 20, 20, 0, 0, .both, true, .matched⟩,
     ⟨.a, 0, 20, 20, 0, 0, .both, false, .matched⟩, ⟨.d, 8, 20, 20, 0, 0, .both, true, .matched⟩]

theorem test_tick : (after .tick boot).arbiter.grant = some ⟨.lease 1 .start, [], 0⟩ := by decide

theorem test_lease_access_stops_at_first_expiry :
    (after .leaseAccess (granting (withTable leaseTable) (.lease 1 .start))).arbiter.grant =
      some ⟨.lease 1 (.expiring 5), [], 0⟩ := by decide

theorem test_lease_visits :
    let t := leaseTable.visit 1 0 1023
    t.record 33 = ⟨0, .live (.value ⟨1, 0, .good, 6, 3⟩)⟩ ∧ t.record 14 = leaseTable.record 14 ∧
      t.record 12 = leaseTable.record 12 := by
  simp only [record_visit]; decide

theorem test_lease_expiry :
    let s := after (.leaseExpiry (.arrivals 2)) (granting (withTable leaseTable) (.lease 1 (.expiring 20)))
    (s.port .c).queue = [⟨3, .quality .stale 0xFFFF 300, 1⟩] ∧ (s.port .d).queue = [⟨8, .quality .stale 0xFFFF 300, 1⟩] ∧
      (s.port .a).queue = [] ∧ s.table.record 20 = ⟨0, .live (.value ⟨0xFFFF, 300, .stale, 2, 1⟩)⟩ := by decide

/-- The table of chapter 8's example. -/
def retireTable : Table :=
  build [(40, ⟨6, .retiring (.value ⟨0x64, 20, .good, 0, 0⟩)⟩), (41, ⟨0, .live (.aliasOf ⟨40, 5, true⟩)⟩)]
    [(.b, 3, ⟨40, .readWrite⟩), (.c, 0, ⟨41, .readWrite⟩), (.d, 9, ⟨40, .read⟩), (.d, 10, ⟨40, .read⟩)]
    [⟨.d, 9, 40, 40, 0, 0, .writes, false, .matched⟩, ⟨.c, 0, 41, 40, 0, 0, .both, false, .matched⟩,
     ⟨.b, 3, 40, 40, 0, 0, .trip, false, .matched⟩]

/-- The sweep engine granted for this job over `retireTable`. -/
def sweeping (j : Job) : State :=
  granting { withTable retireTable with sweep := { boot.sweep with job := some j } } (.sweep false)

def swept (j : Job) (c : Instr) : State :=
  after c ((sweeping j).setPort .b { boot.port .b with
    queue := [⟨3, .watch .mismatched 0x64 20, 1⟩, ⟨12, .watch .matched 8 3, 1⟩] })

theorem test_step_v :
    let s := swept (.retirement 40 (.v .b)) (.stepV .toEnd)
    s.table.pool.map (·.port) = [.d, .c] ∧
      (s.port .b).queue = [⟨12, .watch .matched 8 3, 1⟩, ⟨3, .retired, 1⟩] ∧ s.sweep.job = some (.retirement 40 (.v .c)) := by
  decide

theorem test_step_v_entries :
    (viewStepTable retireTable .d 40).entry .d 10 = none ∧
    (viewStepTable retireTable .d 40).entry .c 0 = some ⟨41, .readWrite⟩ := by
  constructor <;> rw [entry_viewStepTable] <;> decide

theorem test_step_s :
    let s := swept (.retirement 40 .s) (.stepS .toEnd)
    s.table.pool = [] ∧ (s.port .c).queue = [⟨0, .retired, 1⟩] := by decide

theorem test_step_f :
    let s := swept (.retirement 40 .f) (.stepF .atOnce)
    s.table.record 40 = ⟨6, .free⟩ ∧ s.table.freeList.getLast? = some 40 ∧ s.sweep.job = none := by decide

theorem test_step_d1 :
    let s := swept (.detachment .b .d1) .stepD1
    s.table.pool.map (·.port) = [.d, .c] ∧ (s.port .b).queue.length = 2 := by decide

theorem test_step_d2 :
    let s := after .stepD2 { queued 3 with sweep := { boot.sweep with job := some (.detachment .c .d2) } }
    (s.port .c).queue = [] ∧ s.sweep.job = none ∧ s.sweep.attachment.get .c = .attached := by decide

/-- Port C's work ends while A, the lease engine and D claim: D is granted (worked example of chapter 1). -/
theorem test_arbiter_order :
    let s := granting { boot.setPort .d { boot.port .d with work := some (workOf (.read 0)) } with
      arbiter := ⟨.port .c, ⟨true, false, false, true⟩, none⟩
      lease := { boot.lease with pending := 1, claim := true } } (.port .c (workOf (.read 0)) true none)
    (after (.portEngineGrant .toEnd) s).arbiter.pointer = .port .d := by decide

/-! ### Witnesses: for each statement with hypotheses, a state and operands that meet them, clause by clause -/

theorem witness_ExecIgnoresQueue : exec (.prstFall .c) boot = .next (after (.prstFall .c) boot) := rfl

theorem witness_OneByteChangedChangesCrc : (0x3E#8 : Byte) ≠ 0x3F#8 := by decide

theorem witness_OutOfRangeFieldsRefused :
    boot.taking .a ∧ lengthOk .drain [9] = true ∧ ([9] : List Byte).length ≤ 120 ∧
      ((Code.drain).supervisor = true → Port.a = .a) ∧ fieldRefused .drain [9] :=
  ⟨taking_boot .a, by decide, by decide, fun _ => rfl, ⟨9, by simp, by decide⟩⟩

/-- Both ends of every range of R151. -/
theorem witness_OutOfRangeFieldsRefused_ends :
    (∀ x ∈ [(Code.groupRead, [(0 : Byte)]), (.groupRead, [9]), (.subscribe, [0, 0, 0, 0, 0, 0, 0, 0, 0, 3, 0]),
      (.subscribe, [0, 0, 0, 0, 0, 0, 0, 0, 0, 0, 2]), (.drain, [0]), (.drain, [9]), (.acknowledge, [0x40]),
      (.acknowledge, [0x80]), (.createValue, [0, 0, 0, 0, 0x10, 0]), (.createAlias, [4, 0, 0]), (.createAlias, [0, 0, 2]),
      (.retire, [4, 0]), (.readSlot, [4, 0]), (.map, [4, 0, 0, 0, 0]), (.map, [0, 0, 4, 0, 0]), (.map, [0, 0, 0, 0, 2]),
      (.unmap, [4, 0]), (.readView, [4, 0]), (.detach, [4]), (.setTick, [3])], fieldRefused x.1 x.2) ∧
    ∀ x ∈ [(Code.groupRead, [(1 : Byte)]), (.groupRead, [8]), (.subscribe, [0, 0, 0, 0, 0, 0, 0, 0, 0, 2, 1]), (.drain, [1]),
      (.drain, [8]), (.acknowledge, [0x3F]), (.createValue, [0, 0, 0, 0, 0x0F, 0xFF]), (.createAlias, [3, 0xFF, 1]),
      (.retire, [3, 0xFF]), (.readSlot, [3, 0xFF]), (.map, [3, 0, 3, 0xFF, 1]), (.unmap, [3, 0]), (.readView, [3, 0]),
      (.detach, [3]), (.setTick, [2])], ¬fieldRefused x.1 x.2 := by
  simp [fieldRefused]

/-! #### Invariants -/

/-- `boot` with a tick waiting. -/
def ticking : State := { boot with pending := [.tick] }

theorem ticking_steps : step ticking = .next (after .tick boot) := rfl

theorem ticking_quiet : ticking.QuietInv := ⟨fun h => (by rcases h with h | h <;> cases h), fun h => (by cases h)⟩

theorem ticking_idle : ticking.arbiter.grant = none ∧ ticking.sweep.job = none := ⟨rfl, rfl⟩

theorem ticking_sweep : ticking.SweepInv :=
  ⟨by decide, fun h => (by cases h), fun ⟨_, _, _, h⟩ => (by cases h), fun _ h => (by cases h), fun h => (by cases h),
    fun _ _ => ⟨rfl, fun p => (by cases p <;> rfl)⟩,
    fun p => ⟨fun h => (by cases p <;> cases h), fun h => (by
      rcases h with h | ⟨_, h, _⟩
      · cases p <;> cases h
      · cases h)⟩,
    fun p h => (by cases p <;> cases h), fun _ h => (by cases h)⟩

theorem ticking_notice : ticking.NoticeInv := fun _ =>
  ⟨fun p e h => (by cases p <;> cases h), fun _ _ _ h => (by cases h), fun _ _ _ h => (by cases h), fun _ _ h => (by cases h)⟩

theorem ticking_slot : ticking.SlotInv := fun _ =>
  ⟨by rw [show ticking.table.freeList = List.finRange 1024 from cleared_freeList]; exact List.nodup_finRange _,
    fun i => ⟨fun _ => (by rw [show ticking.table.record i = _ from cleared_record i]), fun _ => mem_cleared_freeList i⟩,
    List.nodup_nil, fun i => (by
      rw [show ticking.table.record i = _ from cleared_record i]
      exact ⟨fun h => (by cases h), fun h => (by cases h)⟩)⟩

theorem ticking_pool : ticking.PoolInv := fun _ =>
  ⟨Nat.zero_le _, fun _ => Nat.zero_le _, List.Pairwise.nil⟩

theorem witness_ResetQuietnessKept : ticking.QuietInv ∧ step ticking = .next (after .tick boot) :=
  ⟨ticking_quiet, ticking_steps⟩

theorem witness_QueueLimitsAndSubscribedLocalsKept : ticking.QueueInv ∧ ticking.QuietInv ∧ ticking.SweepInv ∧
    ticking.NoticeInv ∧ step ticking = .next (after .tick boot) :=
  ⟨fun p => by cases p <;> exact ⟨by decide, List.Pairwise.nil, fun _ h => (by cases h)⟩, ticking_quiet, ticking_sweep,
    ticking_notice, ticking_steps⟩

theorem witness_RefusalRecordKept : ticking.RecordInv ∧ step ticking = .next (after .tick boot) :=
  ⟨fun p => (by cases p <;> rfl), ticking_steps⟩

theorem witness_LinkDisciplineKeptAndShown : ticking.QuietInv ∧ ticking.LinkInv ∧ step ticking = .next (after .tick boot) :=
  ⟨ticking_quiet, fun p => ⟨fun h => (by cases p <;> cases h), fun h => (by cases p <;> cases h),
    fun _ ⟨_, _, _, h⟩ => (by cases h), fun _ h => (by cases p <;> cases h), fun h => (by cases p <;> cases h),
    fun _ h => (by cases p <;> cases h), fun _ _ h => (by cases p <;> cases h)⟩, ticking_steps⟩

theorem witness_LeaseEngineKept : ticking.LeaseInv ∧ step ticking = .next (after .tick boot) :=
  ⟨⟨by decide, by decide, by decide, by decide, fun _ _ _ _ h => (by cases h)⟩, ticking_steps⟩

theorem witness_SweepEngineKept : ticking.SweepInv ∧ step ticking = .next (after .tick boot) := ⟨ticking_sweep, ticking_steps⟩

theorem witness_SlotListsKept :
    ticking.QuietInv ∧ ticking.SweepInv ∧ ticking.SlotInv ∧ step ticking = .next (after .tick boot) :=
  ⟨ticking_quiet, ticking_sweep, ticking_slot, ticking_steps⟩

theorem witness_PoolLimitsKept : ticking.PoolInv ∧ step ticking = .next (after .tick boot) := ⟨ticking_pool, ticking_steps⟩

theorem witness_FreshnessKept : ticking.QuietInv ∧ ticking.FreshInv ∧ step ticking = .next (after .tick boot) :=
  ⟨ticking_quiet, fun _ => ⟨fun i v h => (by rw [show ticking.table.record i = _ from cleared_record i] at h; cases h),
    fun _ ⟨_, _, _, h⟩ => (by cases h)⟩, ticking_steps⟩

theorem witness_ViewsAndSubscriptionsKept : ticking.QuietInv ∧ ticking.SweepInv ∧ ticking.SlotInv ∧ ticking.ViewInv ∧
    step ticking = .next (after .tick boot) :=
  ⟨ticking_quiet, ticking_sweep, ticking_slot, fun _ =>
    ⟨fun p l e h => (by rw [show ticking.table.entry p l = none from cleared_entry p l] at h; cases h),
      fun u h => (by cases h), fun _ _ h => (by cases h), fun _ h => (by
        rcases h with h | ⟨h, _⟩ <;> cases h)⟩, ticking_steps⟩

theorem witness_PoolReportCountsAgree : ticking.tableValid ∧ ticking.SweepInv ∧ ticking.SlotInv ∧ ticking.PoolInv :=
  ⟨⟨rfl, rfl⟩, ticking_sweep, ticking_slot, ticking_pool⟩

/-- Port C between the steps of its detachment, with three entries still queued that no subscription of its own answers for. -/
def detaching : State := { queued 3 with sweep := { boot.sweep with
  job := some (.detachment .c .d2), attachment := boot.sweep.attachment.set .c .detaching } }

theorem detaching_sweep : detaching.SweepInv :=
  ⟨by decide, fun h => (by cases h), fun ⟨_, _, _, h⟩ => (by cases h), fun j h ht => (by cases h; cases ht),
    fun h => (by cases h), fun h => (by cases h),
    fun p => (by
      cases p <;>
        simp [Job.detaches, detaching, boot, State.reset, Sweep.powerOn, PerPort.get, PerPort.set, PerPort.replicate]),
    fun p _ => (by cases p <;> rfl), fun _ _ => ⟨fun u h => (by cases h), fun _ _ _ _ _ h => (by cases h)⟩⟩

theorem witness_QueueLimitsAndSubscribedLocalsKept_detaching : detaching.QuietInv ∧ detaching.SweepInv ∧
    detaching.NoticeInv ∧ (detaching.port .c).queue.length = 3 ∧ step detaching = .next (refclkPeriod detaching) := by
  refine ⟨⟨fun h => (by rcases h with h | h <;> cases h), fun h => (by cases h)⟩, detaching_sweep, fun _ => ⟨fun p e he => ?_,
    fun _ _ _ h => (by cases h), fun _ _ _ h => (by cases h), fun _ _ h => (by cases h)⟩, by decide, rfl⟩
  cases p
  case c => exact .inr (.inr (.inl rfl))
  all_goals cases he

theorem witness_PoolReportCountsAgree_detaching : detaching.tableValid ∧ detaching.SweepInv ∧ detaching.SlotInv ∧
    detaching.PoolInv ∧ detaching.sweep.job = some (.detachment .c .d2) :=
  ⟨⟨rfl, rfl⟩, detaching_sweep, fun _ => ticking_slot ⟨rfl, rfl⟩, fun _ => ticking_pool ⟨rfl, rfl⟩, rfl⟩

/-! #### Resolution and the arbiter -/

/-- The hypothesis of the refusal table; `test_resolve_…` show a refusal of each of its rows. -/
theorem witness_ResolutionRefusalTable : let t := chain (point 2 9 0)
    ∀ e, t.entry .c 2 = some e → (t.record e.slot).body ≠ .free := by
  intro t e h
  have : t.entry .c 2 = some ⟨62, .readWrite⟩ := by decide
  rw [this] at h; cases h; decide

/-- Port D's Read waits with its claim raised. -/
def waiting : State :=
  { boot.setPort .d { boot.port .d with work := some (workOf (.read 0)) } with
    arbiter := { boot.arbiter with claims := ⟨false, false, false, true⟩ } }

theorem waiting_claims (p : Port) : waiting.arbiter.claims.get p = true → (waiting.port p).work.isSome = true := by
  cases p <;> decide

theorem witness_ArbiterServesInOrder :
    (∀ p, waiting.arbiter.claims.get p = true → (waiting.port p).work.isSome = true) ∧ waiting.arbiter.grant = none ∧
      waiting.claimed (.port .d) = true ∧ waiting.claimed .lease = false := ⟨waiting_claims, rfl, rfl, rfl⟩

theorem witness_ArbiterServesInOrder_idle : (∀ r, boot.claimed r = false) ∧
    (∀ p, boot.arbiter.claims.get p = true → (boot.port p).work.isSome = true) :=
  ⟨no_claim ⟨rfl, rfl, rfl⟩, fun p => (by cases p <;> decide)⟩

theorem witness_ArbiterServesInOrder_busy : (granting waiting (.sweep false)).arbiter.grant.isSome = true ∧
    ∀ p, (granting waiting (.sweep false)).arbiter.claims.get p = true →
      ((granting waiting (.sweep false)).port p).work.isSome = true :=
  ⟨rfl, waiting_claims⟩

/-- A choice left due, with a flag set and with none; and no choice due. -/
theorem witness_ArbiterServesInOrder_choice : boot.sweep.choiceDue = false ∧
    ({ boot with sweep := { boot.sweep with choiceDue := true } } : State).sweep.choiceDue = true ∧
    ({ boot with sweep := { boot.sweep with choiceDue := true, flags := ⟨false, true, false, false⟩ } } :
      State).sweep.flags.get .b = true := ⟨rfl, rfl, rfl⟩

/-! #### Queues and watches -/

theorem fullQueue_wf : QueueWf fullQueue := ⟨by decide, by decide, by decide⟩

theorem witness_PostMergesAppendsOrDrops_merge : full.initialising = false ∧ QueueWf (full.port .c).queue ∧
    (full.port .c).queue = fullQueue.take 5 ++ ⟨5, .change .matched 1 1, 254⟩ :: fullQueue.drop 6 ∧
    (Note.change .matched 1 1).cls = (Note.change .matched 2 2).cls := ⟨rfl, fullQueue_wf, by decide, rfl⟩

theorem witness_PostMergesAppendsOrDrops_drop : QueueWf (full.port .c).queue ∧ (full.port .c).queue.length = 32 ∧
    ∀ e ∈ (full.port .c).queue, ¬(e.loc = 41 ∧ e.note.cls = (Note.watch .mismatched 3 3).cls) :=
  ⟨fullQueue_wf, by decide, by decide⟩

theorem witness_PostMergesAppendsOrDrops_append :
    QueueWf ((queued 31).port .c).queue ∧ ((queued 31).port .c).queue.length = 31 ∧
    ∀ e ∈ ((queued 31).port .c).queue, ¬(e.loc = 41 ∧ e.note.cls = (Note.watch .mismatched 3 3).cls) :=
  ⟨⟨by decide, by decide, by decide⟩, by decide, by decide⟩

theorem witness_RetiredPostDroppedOnlyWhenFull : QueueWf fullQueue ∧ (fullQueue.length = 32 ∧ ∀ e ∈ fullQueue, e.loc ≠ 33) ∧
    ¬∀ e ∈ fullQueue, e.loc ≠ 5 := ⟨fullQueue_wf, by decide, by decide⟩

theorem witness_EvaluationFollowsModes : staleTable.pool[0]? = some ⟨.b, 4, 300, 300, 0xF, 0, .trip, true, .matched⟩ := by decide

/-! #### Requests answered at once -/

theorem witness_DrainTakesFromHead : (queued 32).taking .c ∧ 1 ≤ 1 ∧ 1 ≤ 8 ∧ 8 ≤ 8 := ⟨⟨⟨rfl, rfl⟩, rfl, rfl, rfl⟩, by decide⟩

theorem witness_GetStatusReportsPort : boot.taking .b := taking_boot .b

theorem witness_AcknowledgeClearsNamedConditions :
    boot.taking .b ∧ (0x3F#8 : Byte).getLsbD 7 = false ∧ (0x3F#8 : Byte).getLsbD 6 = false := ⟨taking_boot .b, rfl, rfl⟩

/-- `boot` with the leases held. -/
def heldLeases : State := { boot with lease := { boot.lease with hold := .held } }

theorem witness_LeaseControlsTaken : (boot.taking .a ∧ boot.lease.hold = .running) ∧
    heldLeases.taking .a ∧ heldLeases.lease.hold = .held := ⟨⟨taking_boot .a, rfl⟩, taking_boot .a, rfl⟩

theorem witness_DetachMarksPort : waiting.taking .a ∧ waiting.arbiter.claims.get .d = true ∧
    (granting waiting (.sweep false)).taking .a ∧ (granting waiting (.sweep false)).arbiter.grant.isSome = true ∧
    (waiting.port .d).held = none :=
  ⟨⟨⟨rfl, rfl⟩, rfl, rfl, rfl⟩, rfl, ⟨⟨rfl, rfl⟩, rfl, rfl, rfl⟩, rfl, rfl⟩

/-! #### Requests that use the table -/

theorem witness_TableRequestsRaiseClaims_busy :
    (granting boot (.sweep false)).taking .a ∧ (Request.retire 1023).inRange = true ∧
    (Request.retire 1023).code.atOnce = false ∧ ((Request.retire 1023).code.supervisor = true → Port.a = .a) ∧
    (granting boot (.sweep false)).arbiter.grant.isSome = true := ⟨taking_boot .a, rfl, rfl, fun _ => rfl, rfl⟩

theorem witness_TableRequestsRaiseClaims_idle : boot.taking .d ∧ (Request.groupRead (List.replicate 8 0)).inRange = true ∧
    (Request.groupRead (List.replicate 8 0)).code.atOnce = false ∧
    ((Request.groupRead (List.replicate 8 0)).code.supervisor = true → Port.d = .a) ∧ boot.tableIdle :=
  ⟨taking_boot .d, rfl, rfl, by decide, idle_withTable _⟩

theorem witness_ReadsAnswerTargets : (withTable groupTable).serving .d ∧
    (carrying .d (.read 1) groupTable).carries .d 1 (.read 1) ∧
    (carrying .d (.groupRead [0]) groupTable).carries .d 1 (.groupRead [0]) ∧
    resolve groupTable .read .d 1 = .reached 80 81 ⟨0x1F4, 12, .good, 0, 0⟩ 1 ∧
    ([0] : List Local).length = 1 ∧ ([0, 7, 1, 2, 0, 3, 4, 5] : List Local).length = 8 :=
  ⟨serving_withTable _ _, (carrying_carries _ _ _).1, (carrying_carries _ _ _).1, by decide, rfl, rfl⟩

theorem witness_WritesReachTarget : (withTable staleTable).serving .d ∧
    (carrying .d (.write 6 1) staleTable).carries .d 1 (.write 6 1) ∧
    (carrying .d (.conditionalWrite 6 77 1) staleTable).carries .d 1 (.conditionalWrite 6 77 1) ∧
    (carrying .d (.conditionalWrite 6 76 1) staleTable).carries .d 1 (.conditionalWrite 6 76 1) ∧
    resolve staleTable .write .d 6 = .reached 300 300 ⟨0x10, 77, .stale, 200, 0⟩ 0 ∧ (76 : Word16) ≠ 77 :=
  ⟨serving_withTable _ _, (carrying_carries _ _ _).1, (carrying_carries _ _ _).1, (carrying_carries _ _ _).1, by decide,
    by decide⟩

theorem witness_RefreshRestartsLease : ((withTable staleTable).serving .d ∧
      (carrying .d (.refresh 6) staleTable).carries .d 1 (.refresh 6) ∧
      resolve staleTable .write .d 6 = .reached 300 300 ⟨0x10, 77, .stale, 200, 0⟩ 0 ∧ (200 : Ticks) ≠ 0) ∧
    (withTable (chain (point 2 9 0))).serving .c ∧
      resolve (chain (point 2 9 0)) .write .c 0 = .reached 60 60 ⟨9, 0, .good, 0, 0⟩ 0 :=
  ⟨⟨serving_withTable _ _, (carrying_carries _ _ _).1, by decide, by decide⟩, serving_withTable _ _, by decide⟩

/-- `n` subscriptions on slot 300, the first 64 of port B, the next 64 of port C, the rest of port D; ports A and B see the slot
under local 200. -/
def crowded (n : Nat) : Table :=
  build [(300, point 0 1 1)] [(.a, 200, ⟨300, .read⟩), (.b, 200, ⟨300, .read⟩)]
    ((List.range n).map (fun i => ⟨if i < 64 then .b else if i < 128 then .c else .d, Fin.ofNat 256 i, 300, 300, 0, 0, .trip,
      false, .matched⟩))

theorem witness_SubscribeReplacesOrCreates_replace :
    let t := { staleTable.setEntry .b 4 (some ⟨300, .read⟩) with pool := staleTable.pool }
    (withTable t).serving .b ∧
    (carrying .b (.subscribe 4 0 0 .both true) t).carries .b 1 (.subscribe 4 0 0 .both true) ∧
    resolve t .read .b 4 = .reached 300 300 ⟨0x10, 77, .stale, 200, 0⟩ 0 ∧
    t.pool = [] ++ ⟨.b, 4, 300, 300, 0xF, 0, .trip, true, .matched⟩ :: t.pool.drop 1 ∧
    ∀ u ∈ [] ++ t.pool.drop 1, ¬(u.port = .b ∧ u.loc = 4) :=
  ⟨serving_withTable _ _, (carrying_carries _ _ _).1, by decide, by decide, by decide⟩

theorem witness_SubscribeReplacesOrCreates_last_free : (withTable (crowded 191)).serving .a ∧
    resolve (crowded 191) .read .a 200 = .reached 300 300 ⟨1, 1, .good, 0, 0⟩ 0 ∧
    (∀ u ∈ (crowded 191).pool, ¬(u.port = .a ∧ u.loc = 200)) ∧ (crowded 191).pool.length < 192 ∧
    (crowded 191).portCount .a < 64 := ⟨serving_withTable _ _, by decide, by decide, by decide, by decide⟩

theorem witness_SubscribeReplacesOrCreates_pool_full :
    resolve (crowded 192) .read .a 200 = .reached 300 300 ⟨1, 1, .good, 0, 0⟩ 0 ∧
    (∀ u ∈ (crowded 192).pool, ¬(u.port = .a ∧ u.loc = 200)) ∧ 192 ≤ (crowded 192).pool.length :=
  ⟨by decide, by decide, by decide⟩

theorem witness_SubscribeReplacesOrCreates_port_limit : (crowded 63).portCount .b < 64 ∧ 64 ≤ (crowded 64).portCount .b ∧
    resolve (crowded 64) .read .b 200 = .reached 300 300 ⟨1, 1, .good, 0, 0⟩ 0 ∧
    ∀ u ∈ (crowded 64).pool, ¬(u.port = .b ∧ u.loc = 200) := ⟨by decide, by decide, by decide, by decide⟩

theorem witness_UnsubscribeReturnsSubscription : (withTable staleTable).serving .b ∧
    (carrying .b (.unsubscribe 4) staleTable).carries .b 1 (.unsubscribe 4) ∧
    (∃ u ∈ staleTable.pool, u.port = .b ∧ u.loc = 4) ∧ ∀ u ∈ staleTable.pool, ¬(u.port = .b ∧ u.loc = 6) :=
  ⟨serving_withTable _ _, (carrying_carries _ _ _).1, by decide, by decide⟩

theorem witness_MapAndUnmapChangeView : (withTable staleTable).serving .a ∧
    (carrying .a (.map .b 6 300 .read) staleTable).carries .a 1 (.map .b 6 300 .read) ∧
    (carrying .a (.unmap .d 6) staleTable).carries .a 1 (.unmap .d 6) ∧ (staleTable.record 300).isLive = true ∧
    staleTable.entry .b 6 = none ∧ (staleTable.record 301).isLive = false ∧ (staleTable.entry .d 6).isSome = true ∧
    staleTable.entry .d 6 = some ⟨300, .readWrite⟩ :=
  ⟨serving_withTable _ _, (carrying_carries _ _ _).1, (carrying_carries _ _ _).1, by decide, by decide, by decide, by decide,
    by decide⟩

theorem witness_CreationsTakeFreeListHead : boot.serving .a ∧ boot.table.freeList = 0 :: boot.table.freeList.drop 1 ∧
    (carrying .a (.createValue 100 50) Table.cleared).carries .a 1 (.createValue 100 50) ∧
    (carrying .a (.createAlias 300 true) staleTable).carries .a 1 (.createAlias 300 true) ∧
    (boot.table.record 0).isLive = false ∧ (staleTable.record 300).isLive = true ∧
    (withTable { staleTable with freeList := [] }).serving .a :=
  ⟨serving_withTable _ _, by decide, (carrying_carries _ _ _).1, (carrying_carries _ _ _).1, by decide, by decide,
    serving_withTable _ _⟩

/-- The sweep engine at step D2 with this FIFO, over `staleTable`. -/
def loaded (fifo : List Slot) : State :=
  { withTable staleTable with sweep := { boot.sweep with fifo := fifo, job := some (.detachment .c .d2) } }

theorem loaded_serving (fifo : List Slot) : (loaded fifo).serving .a :=
  ⟨⟨⟨rfl, rfl⟩, rfl, rfl, rfl⟩, ⟨rfl, no_claim ⟨rfl, rfl, rfl⟩, rfl⟩, rfl⟩

/-- A Retire of slot 300 with its grant over `staleTable`, the sweep engine as `w` says. -/
def retiringUnder (w : Sweep) : State := { carrying .a (.retire 300) staleTable with sweep := w }

/-- Granted while a job's step claim waits, while a choice is due, and with the engine idle. -/
theorem witness_RetireJoinsFifo_carries (w : Sweep) : (retiringUnder w).carries .a 1 (.retire 300) ∧
    ({ boot.sweep with fifo := [1, 2, 3], job := some (.retirement 4 .s), claim := true } : Sweep).job.isSome = true ∧
    ({ boot.sweep with choiceDue := true } : Sweep).choiceDue = true ∧
    boot.sweep.job = none ∧ boot.sweep.choiceDue = false ∧ boot.sweep.fifo = [] ∧ ∀ p, boot.sweep.flags.get p = false :=
  ⟨⟨rfl, rfl, [], 0, rfl⟩, rfl, rfl, rfl, rfl, rfl, fun p => (by cases p <;> rfl)⟩

theorem witness_RetireJoinsFifo :
    ((loaded [1, 2, 3]).serving .a ∧ [1, 2, 3].length < 4 ∧ (loaded [1, 2, 3]).sweep.job.isSome = true ∧
      (staleTable.record 300).body = .live (.value ⟨0x10, 77, .stale, 200, 0⟩)) ∧
    ((withTable staleTable).serving .a ∧ (withTable staleTable).sweep.job = none ∧ (withTable staleTable).sweep.fifo = [] ∧
      ∀ p, (withTable staleTable).sweep.flags.get p = false) ∧
    ((loaded [1, 2, 3, 4]).serving .a ∧ 4 ≤ (loaded [1, 2, 3, 4]).sweep.fifo.length ∧ (staleTable.record 300).isLive = true) ∧
    (staleTable.record 301).isLive = false :=
  ⟨⟨loaded_serving _, by decide, rfl, by decide⟩, ⟨serving_withTable _ _, rfl, rfl, fun p => (by cases p <;> rfl)⟩,
    ⟨loaded_serving _, by decide, by decide⟩, by decide⟩

theorem witness_ReportsAnswerTable : (withTable groupTable).serving .a ∧
    (carrying .a (.readView .d 3) groupTable).carries .a 1 (.readView .d 3) ∧
    (carrying .a (.readSlot 84) groupTable).carries .a 1 (.readSlot 84) ∧
    (carrying .a .poolReport groupTable).carries .a 1 .poolReport ∧ groupTable.entry .d 3 = some ⟨90, .read⟩ ∧
    (groupTable.record 90).body = .retiring (.value ⟨0, 0, .good, 0, 0⟩) ∧ groupTable.entry .d 7 = none ∧
    (groupTable.record 80).body = .live (.value ⟨0x1F4, 12, .good, 0, 0⟩) ∧
    (groupTable.record 81).body = .live (.aliasOf ⟨80, 0, true⟩) ∧ groupTable.record 84 = ⟨1, .free⟩ :=
  ⟨serving_withTable _ _, (carrying_carries _ _ _).1, (carrying_carries _ _ _).1, (carrying_carries _ _ _).1, by decide,
    by decide, by decide, by decide, by decide, by decide⟩

theorem witness_RefusedResolutionAnswered : (withTable groupTable).serving .d ∧
    (carrying .d (.read 7) groupTable).carries .d 1 (.read 7) ∧
    (carrying .d (.write 0 1) groupTable).carries .d 1 (.write 0 1) ∧
    resolve groupTable .read .d 7 = .refused .noEntry none none 0 ∧
    resolve groupTable .write .d 0 = .refused .noRight (some 80) none 0 :=
  ⟨serving_withTable _ _, (carrying_carries _ _ _).1, (carrying_carries _ _ _).1, by decide, by decide⟩

theorem witness_GrantPausesAndGoesOn :
    let s := grantedRequest .d (.write 6 0x11) (withTable staleTable)
    exec (.portEngineGrant .toEnd) s = .next (after (.portEngineGrant .toEnd) s) ∧
    exec (.leaseExpiry .toEnd) s = .next (after (.leaseExpiry .toEnd) s) ∧
    exec (.stepV .toEnd) s = .next (after (.stepV .toEnd) s) ∧ exec (.stepS .toEnd) s = .next (after (.stepS .toEnd) s) ∧
    s.clocked = true ∧ s.arbiter.grant = some ⟨.port .d (workOf (.write 6 0x11)) false none, [], 0⟩ :=
  ⟨rfl, rfl, rfl, rfl, rfl, rfl⟩

/-- A grant that stands between two arrivals, and an Unmap's and an Unsubscribe's before their removal. -/
theorem witness_GrantPausesAndGoesOn_paused :
    (∃ v as n, (after (.portEngineGrant (.arrivals 1)) (grantedRequest .d (.write 6 0x11) (withTable staleTable))).arbiter.grant
      = some ⟨.port .d (workOf (.write 6 0x11)) false (some v), as, n⟩ ∧ as.length = 3) ∧
    unmapping.clocked = true ∧ unmapping.initialising = false ∧
    unmapping.arbiter.grant =
      some ⟨.port .a (workOf (.unmap .b 4)) false (some (.done (.unmapped 300 true))), [.removal .b 4 .all], 0⟩ ∧
    (after (.portEngineGrant (.arrivals 0)) (grantedRequest .b (.unsubscribe 4) (withTable staleTable))).arbiter.grant =
      some ⟨.port .b (workOf (.unsubscribe 4)) false (some (.done .unsubscribed)), [.removal .b 4 .all], 0⟩ :=
  ⟨⟨_, _, _, rfl, rfl⟩, by decide, by decide, by decide, by decide⟩

/-! #### The engines -/

/-- Fourteen ticks pending while the sweep engine holds the table. -/
def fourteen : State := granting { boot with lease := { boot.lease with pending := 14, claim := true } } (.sweep false)

theorem witness_TickCountsWhileRunning :
    (boot.clocked = true ∧ boot.initialising = false ∧ boot.lease.hold = .running ∧ boot.lease.pending = 0 ∧ boot.tableIdle) ∧
    (fourteen.clocked = true ∧ fourteen.lease.pending < 15 ∧ fourteen.arbiter.grant.isSome = true) ∧
    heldLeases.lease.hold = .held ∧ (after .rstnRelease State.reset).initialising = true ∧
    (after .rstnRelease State.reset).clocked = true :=
  ⟨⟨rfl, rfl, rfl, rfl, idle_withTable _⟩, ⟨rfl, by decide, rfl⟩, rfl, rfl, rfl⟩

theorem witness_FullPeriodMakesTick : boot.pending = [] ∧ boot.clocked = true ∧ boot.lease.divider + 39999 + 1 = 40000 ∧
    boot.lease.period = .ms10 := ⟨rfl, rfl, rfl, rfl⟩

/-- An access that no record stops. -/
theorem witness_LeaseAccessVisitsInOrder_none : (granting boot (.lease 15 .start)).clocked = true ∧
    (granting boot (.lease 15 .start)).arbiter.grant = some ⟨.lease 15 .start, [], 0⟩ ∧
    ∀ i : Slot, 0 ≤ i.val → ¬(boot.table.record i).expiresIn 15 :=
  ⟨rfl, rfl, fun i _ ⟨_, h, _⟩ => (by
    rw [show boot.table.record i = _ from cleared_record i] at h
    cases h)⟩

/-- An access that slot 5 stops. -/
theorem witness_LeaseAccessVisitsInOrder_first :
    (granting (withTable leaseTable) (.lease 1 .start)).arbiter.grant = some ⟨.lease 1 .start, [], 0⟩ ∧
    (leaseTable.record 5).expiresIn 1 ∧ ∀ j : Slot, 0 ≤ j.val → j < 5 → ¬(leaseTable.record j).expiresIn 1 := by
  refine ⟨rfl, ⟨⟨0x100, 7, .good, 3, 1⟩, by decide, by decide, by decide, by decide⟩, ?_⟩
  rintro j - hj ⟨v, h, -⟩
  have : ∀ n, n < 5 → (leaseTable.record (Fin.ofNat 1024 n)).body = .free := by decide
  have := this j.val hj
  rw [show Fin.ofNat 1024 j.val = j from Fin.ext (Nat.mod_eq_of_lt j.isLt)] at this
  rw [this] at h; cases h

/-- An expiry that is due, one whose posts are under way, and the last slot, after which no slot is left. -/
theorem witness_LeaseAccessVisitsInOrder_expiry :
    (granting (withTable leaseTable) (.lease 1 (.expiring 20))).arbiter.grant = some ⟨.lease 1 (.expiring 20), [], 0⟩ ∧
    (leaseTable.record 20).body = .live (.value ⟨0xFFFF, 300, .good, 2, 1⟩) ∧
    (granting (withTable leaseTable) (.lease 1 (.posting 1023))).arbiter.grant = some ⟨.lease 1 (.posting 1023), [], 0⟩ ∧
    ∀ i : Slot, (1023 : Slot).val + 1 ≤ i.val → ¬(leaseTable.record i).expiresIn 1 :=
  ⟨rfl, by decide, rfl, fun i h => absurd i.isLt (by simp at h ⊢; omega)⟩

theorem witness_WholeLeaseAccess : (granting (withTable leaseTable) (.lease 1 .start)).clocked = true ∧
    (granting (withTable leaseTable) (.lease 1 .start)).granted (.lease 1 .start) :=
  ⟨rfl, rfl, no_claim ⟨rfl, rfl, rfl⟩, rfl⟩

theorem sweeping_granted (j : Job) : (sweeping j).granted (.sweep false) := ⟨rfl, no_claim ⟨rfl, rfl, rfl⟩, rfl⟩

theorem witness_RetirementStepsSweep : (sweeping (.retirement 40 (.v .d))).clocked = true ∧
    (sweeping (.retirement 40 (.v .d))).arbiter.grant = some ⟨.sweep false, [], 0⟩ ∧
    (sweeping (.retirement 40 (.v .d))).granted (.sweep false) ∧
    (sweeping (.retirement 40 .s)).sweep.job = some (.retirement 40 .s) ∧
    (retireTable.record 40).body = .retiring (.value ⟨0x64, 20, .good, 0, 0⟩) :=
  ⟨rfl, rfl, sweeping_granted _, rfl, by decide⟩

theorem witness_RetirementStepsSweep_alias : ((build [(40, ⟨1, .retiring (.aliasOf ⟨3, 0, true⟩)⟩)] [] []).record 40).body =
    .retiring (.aliasOf ⟨3, 0, true⟩) := by decide

/-- A step V-D that stands between two of its arrivals. -/
theorem witness_RetirementStepsSweep_paused :
    let s := after (.stepV (.arrivals 1)) (sweeping (.retirement 40 (.v .d)))
    s.clocked = true ∧ s.sweep.job = some (.retirement 40 (.v .d)) ∧ (∀ r, s.claimed r = false) ∧
      s.sweep.choiceDue = false ∧ ∃ as n, s.arbiter.grant = some ⟨.sweep true, as, n⟩ ∧ as = [.post .d 9 .retired] :=
  ⟨by decide, by decide, no_claim (by decide), by decide, _, _, rfl, by decide⟩

theorem witness_StepFFreesSlot : (sweeping (.retirement 40 .f)).clocked = true ∧
    (sweeping (.retirement 40 .f)).arbiter.grant = some ⟨.sweep false, [], 0⟩ ∧
    (sweeping (.retirement 40 .f)).sweep.job = some (.retirement 40 .f) ∧
    (∀ r, (sweeping (.retirement 40 .f)).claimed r = false) ∧
    ∀ p, (sweeping (.retirement 40 .f)).arbiter.claims.get p = true →
      ((sweeping (.retirement 40 .f)).port p).work.isSome = true :=
  ⟨rfl, rfl, rfl, no_claim ⟨rfl, rfl, rfl⟩, fun p h => (by cases p <;> cases h)⟩

/-- The same with port D's claim waiting. -/
theorem witness_StepFFreesSlot_waiting :
    let s := granting { waiting with sweep := { boot.sweep with job := some (.retirement 40 .f) } } (.sweep false)
    s.clocked = true ∧ s.sweep.job = some (.retirement 40 .f) ∧ (∃ r, s.claimed r = true) ∧
      ∀ p, s.arbiter.claims.get p = true → (s.port p).work.isSome = true := ⟨rfl, rfl, ⟨.port .d, rfl⟩, waiting_claims⟩

theorem witness_DetachmentStepsClearPort : (sweeping (.detachment .b .d1)).clocked = true ∧
    (sweeping (.detachment .b .d1)).arbiter.grant = some ⟨.sweep false, [], 0⟩ ∧
    (sweeping (.detachment .b .d1)).granted (.sweep false) ∧
    (sweeping (.detachment .b .d1)).sweep.job = some (.detachment .b .d1) ∧
    (loaded []).sweep.job = some (.detachment .c .d2) := ⟨rfl, rfl, sweeping_granted _, rfl, rfl⟩

/-- Step D2 with no job to take, with one, and with a grant in progress. -/
theorem witness_DetachmentStepsClearPort_next : (after .stepD2 (loaded [])).sweep.job = none ∧
    (after .stepD2 (loaded [9])).sweep.job = some (.retirement 9 (.v .a)) ∧ (∀ r, (loaded [9]).claimed r = false) ∧
    (loaded [9]).arbiter.grant = none ∧ (granting (loaded [9]) (.lease 1 .start)).arbiter.grant.isSome = true :=
  ⟨by decide, by decide, no_claim ⟨rfl, rfl, rfl⟩, rfl, rfl⟩

/-- A small retirement of slot 40 at its first step, over a table with one entry that names the slot. -/
def retiringOne : State :=
  granting { withTable (build [(40, ⟨6, .retiring (.value ⟨0x64, 20, .good, 0, 0⟩)⟩)] [(.b, 3, ⟨40, .readWrite⟩)] []) with
    sweep := { boot.sweep with job := some (.retirement 40 (.v .a)) } } (.sweep false)

theorem witness_WholeRetirementFreesSlot : retiringOne.clocked = true ∧ retiringOne.initialising = false ∧
    retiringOne.granted (.sweep false) ∧ retiringOne.sweep.job = some (.retirement 40 (.v .a)) ∧
    (retiringOne.table.record 40).isRetiring = true ∧ retiringOne.ViewInv := by
  have he : ∀ p l, retiringOne.table.entry p l = if p = .b ∧ l = 3 then some ⟨40, .readWrite⟩ else none := by
    intro p l
    show ((Table.cleared.setRecord 40 _).setEntry .b 3 (some ⟨40, .readWrite⟩)).entry p l = _
    rw [entry_setEntry, setRecord_entry, cleared_entry]
  refine ⟨rfl, rfl, ⟨rfl, no_claim ⟨rfl, rfl, rfl⟩, rfl⟩, rfl, by decide, fun _ => ⟨?_, fun u h => (by cases h), ?_, ?_⟩⟩
  · intro p l e h
    rw [he] at h
    split at h
    · cases h; decide
    · cases h
  · intro i st hj x hx
    cases hj
    have : Port.all.idxOf x < Port.all.idxOf Port.a := hx
    cases x <;> exact absurd this (by decide)
  · rintro i (h | ⟨h, -⟩) <;> cases h

/-! #### Lines and the link -/

theorem witness_PortResetFallAndRise : (boot.port .c).prst = .high ∧ boot.rstn = .high ∧ boot.initialising = false ∧
    (State.reset.port .c).prst = .high ∧ State.reset.rstn = .low ∧ (after .rstnRelease State.reset).initialising = true ∧
    (after .rstnRelease State.reset).rstn = .high := ⟨rfl, rfl, rfl, rfl, rfl, rfl, rfl⟩

theorem witness_DiscardedGrantKeepsEffect :
    (granting (withTable staleTable) (.port .d (workOf (.write 6 0x11)) true none)).clocked = true ∧
    (granting (withTable staleTable) (.port .d (workOf (.write 6 0x11)) true none)).arbiter.grant =
      some ⟨.port .d (workOf (.write 6 0x11)) true none, [], 0⟩ := ⟨rfl, rfl⟩

/-- PRST falls between the first and the second arrival of a Write's grant. -/
theorem witness_DiscardedGrantKeepsEffect_paused :
    let s := after (.prstFall .d)
      (after (.portEngineGrant (.arrivals 1)) (grantedRequest .d (.write 6 0x11) (withTable staleTable)))
    s.clocked = true ∧ (s.arbiter.grant.map (fun g => g.arrivals.length)) = some 3 ∧
      ∃ v as n, s.arbiter.grant = some ⟨.port .d (workOf (.write 6 0x11)) true (some v), as, n⟩ :=
  ⟨by decide, by decide, _, _, _, rfl⟩

theorem witness_RstnFallClearsBlocks : boot.rstn = .high := rfl

theorem witness_ReleaseAndInitialisation : State.reset.rstn = .low ∧ (after .rstnRelease State.reset).initialising = true ∧
    (after .rstnRelease State.reset).clocked = true := ⟨rfl, rfl, rfl⟩

theorem witness_StoppedClockHoldsWork : (after .refclkStop boot).refclk = false := rfl

theorem witness_NotReadyWhileInitialising :
    let s := after .rstnRelease State.reset
    s.framed .d ∧ s.linkOn .d = true ∧ (s.port .d).work = none ∧ s.initialising = true ∧ ([] : List Byte).length ≤ 120 ∧
      (List.replicate 120 (0 : Byte)).length ≤ 120 ∧ Code.ofByte? 0x7F = none ∧ judge [0x04, 0x01] 0 = .frameError ∧
      (0x00#8 : Byte) ≠ 0xA5#8 ∧ (0x00#8 : Byte) ≠ 0x5A#8 ∧ (s.port .d).opened = some 0 ∧ 8 ≤ 0 + 8 :=
  ⟨⟨rfl, rfl⟩, rfl, rfl, rfl, by decide, by decide, by decide, by decide, by decide, by decide, rfl, by decide⟩

theorem witness_RefusedBeforeDispatch : boot.framed .b ∧ (boot.port .b).work = none ∧ boot.initialising = false ∧
    boot.sweep.attachment.get .b = .attached ∧ lengthOk .drain [1, 2] = false ∧ lengthOk .poolReport [] = true ∧
    (Code.poolReport).supervisor = true ∧ Port.b ≠ .a ∧ Code.ofByte? 0x7F = none ∧
    (after (.prstRise .b) (after (.prstFall .b) boot)).sweep.attachment.get .b = .detaching ∧
    (after (.prstRise .b) (after (.prstFall .b) boot)).framed .b :=
  ⟨⟨rfl, rfl⟩, rfl, rfl, rfl, by decide, by decide, by decide, by decide, by decide, by decide, by decide, by decide⟩

theorem witness_LinkEventsSetStatesAndConditions :
    boot.linkOn .d = true ∧ boot.initialising = false ∧ (boot.port .d).opened = some 0 ∧ (boot.port .d).framing = true ∧
    judge [0x04, 0x01, 0x30, 0x15, 0x3F] 0 = .frameError ∧ (0x00#8 : Byte) ≠ 0xA5#8 ∧ (0x00#8 : Byte) ≠ 0x5A#8 ∧
    8 ≤ 0 + 8 ∧ 0 + 7 < 8 ∧ (waiting.port .d).work.isSome = true ∧ waiting.linkOn .d = true ∧
    (waiting.port .d).framing = true := by decide

/-- The rest of a transaction of unknown type, its first byte in two stretches, and a request transaction under way. -/
theorem witness_LinkEventsSetStatesAndConditions_under_way :
    ((after (.unknownTransaction .d ⟨0x00, 8, false⟩) boot).port .d).select = .unknown ∧
    ((after (.unknownTransaction .d ⟨0x00, 7, false⟩) boot).port .d).opened = some 7 ∧
    ((after (.read .d .typeByte) waiting).port .d).framing = true := by decide

theorem witness_ResponseTransactionDelivers : holding.linkOn .d = true ∧ (holding.port .d).opened = some 0 ∧
    (holding.port .d).held = some (makeResponse 0x21 .done 0x20 []) ∧ (boot.port .d).held = none ∧ 8 ≤ 0 + 8 := by decide

/-- Under way: nothing to deliver, and a response half delivered; the last edge of one of no body is the 56th. -/
theorem witness_ResponseTransactionDelivers_under_way :
    ((after (.responseTransaction .d ⟨8, false⟩) boot).port .d).select = .response 8 none ∧
    ((after (.responseTransaction .d ⟨30, false⟩) holding).port .d).select =
      .response 30 (some (makeResponse 0x21 .done 0x20 [])) ∧
    releaseEdges (makeResponse 0x21 .done 0x20 []) = 56 ∧
    ((after (.responseTransaction .d ⟨56, false⟩) holding).port .d).select =
      .response 56 (some (makeResponse 0x21 .done 0x20 [])) := by decide

theorem witness_DeadLinkIgnoresTransactions :
    State.reset.linkOn .a = false ∧ (after (.prstFall .c) boot).linkOn .c = false ∧
    ((after (.prstRise .c) (after (.prstFall .c) (after (.read .c .typeByte) boot))).port .c).select = .low := by decide

end Sys2Proof.Tests
end

/-! ## What a command can do

Every command has one of the effects below. Each invariant is shown of the effects, one case each, and so of every step. -/
namespace Sys2Proof.Machine

/-- The conditions of port `p` are as they were or, with RSTn high and outside initialisation, have one more set that is not
REFUSAL_HELD (R134, R135, R158). -/
def State.mayRaise (s : State) (p : Port) (c : Conditions) : Prop :=
  c = (s.port p).conditions ∨
  s.tableValid ∧ ∃ k, k ≠ Condition.refusalHeld ∧ c = (s.port p).conditions.raise k

/-- A frame has ended on port `p` with no request in work, and the checks find the port as `x` (R148). -/
def State.receives (s : State) (p : Port) (x : PortState) : Prop :=
  s.framed p ∧ (s.port p).work = none ∧ ∃ out c, s.mayRaise p c ∧
    x = { s.port p with select := .high, dataOut := out, held := none, conditions := c }

/-- Clock edges have made `x` of port `p` (R144 to R147, R152): only the level of select has changed, or the link heeds the
edges, a transaction in order is in order still, and the held response stands or has been released. -/
def State.linkMoves (s : State) (p : Port) (x : PortState) : Prop :=
  ∃ sel out h c, s.mayRaise p c ∧ x = { s.port p with select := sel, dataOut := out, held := h, conditions := c } ∧
    ((sel = .high ∨ sel = .low) ∧ h = (s.port p).held ∨
      s.hears p = true ∧ (h = (s.port p).held ∨ h = none) ∧ ((s.port p).transactionOk → x.transactionOk))

/-- What a Set Tick, a Hold Leases or a Resume Leases makes of the lease engine (R78 to R80). -/
def Lease.controls (l l' : Lease) : Prop :=
  l' = l ∨ (∃ τ, l' = { l with period := τ, divider := 0 }) ∨
  l' = { l with hold := .held, pending := 0, claim := false } ∨ l' = { l with hold := .running, divider := 0 }

/-- The effects of the commands and of a REFCLK period, each with what is known of the state it comes to. -/
inductive Effect (s : State) : State → Prop
  | stays : Effect s s
  | refclk (b : Bool) : Effect s { s with refclk := b }
  /-- The divider counts on or restarts, and no tick is counted (R69). -/
  | divider (d : Nat) (hd : d < s.lease.period.refclks) : Effect s { s with lease := { s.lease with divider := d } }
  /-- A tick is counted (R69, R70). -/
  | tick (hc : s.clocked = true) (hi : s.initialising = false) (hh : s.lease.hold = .running)
      (hp : s.lease.pending < Config.pendingLimit) :
      Effect s (arbitrate { s with lease := { s.lease with
        divider := 0, pending := s.lease.pending + 1, claim := s.lease.pending = 0 || s.lease.claim } })
  /-- Clock edges at a port (R144 to R147, R152). -/
  | link (p : Port) (x : PortState) (hx : s.linkMoves p x) : Effect s (s.setPort p x)
  /-- A frame is answered at once: a refusal of the checks, or a Get Status (R141, R150). -/
  | answered (p : Port) (x : PortState) (h : Head) (v : Verdict) (hx : s.receives p x) :
      Effect s (respond p h v 0 (s.setPort p x))
  /-- A Drain (R110). -/
  | drained (p : Port) (x : PortState) (h : Head) (v : Verdict) (m : Nat) (hx : s.receives p x)
      (hi : s.initialising = false) (hv : v.result = .done) :
      Effect s (respond p h v 0 (s.setPort p { x with queue := x.queue.drop m }))
  /-- An Acknowledge (R136). -/
  | acknowledged (p : Port) (x : PortState) (h : Head) (v : Verdict) (mask : Byte) (hx : s.receives p x)
      (hi : s.initialising = false) (hv : v.result = .done) :
      Effect s (respond p h v 0 (s.setPort p { x with
        conditions := x.conditions.clear mask, record := if mask.getLsbD 4 then none else x.record }))
  /-- A Set Tick, Hold Leases or Resume Leases (R78 to R80). -/
  | leaseControl (p : Port) (x : PortState) (h : Head) (v : Verdict) (l : Lease) (hx : s.receives p x)
      (hi : s.initialising = false) (hv : v.result = .done) (hl : s.lease.controls l) :
      Effect s (respond p h v 0 { s.setPort p x with lease := l })
  /-- A Detach of port `q` (R120, R122). -/
  | detach (p q : Port) (x : PortState) (h : Head) (v : Verdict) (hx : s.receives p x) (hi : s.initialising = false)
      (hv : v.result = .done) :
      Effect s (markDetachment q (withdrawClaim q (respond p h v 0 (s.setPort p x))))
  /-- A table request raises its claim (R13, R150). -/
  | claim (p : Port) (x : PortState) (h : Head) (r : Request) (hx : s.receives p x) (hi : s.initialising = false)
      (ha : s.sweep.attachment.get p = .attached) : Effect s (raiseClaim p h r (s.setPort p x))
  /-- A request's work in its grant (R15). -/
  | request (pr : Progress) (p : Port) (w : Work) (d : Bool) (as : List Arrival) (n : Nat) (hc : s.clocked = true)
      (hg : s.arbiter.grant = some ⟨.port p w d none, as, n⟩) :
      Effect s (carryRequest pr p w d (tableWork p w.request s).verdict (tableWork p w.request s).arrivals 0
        (tableWork p w.request s).state)
  /-- A request's grant carried on (R103). -/
  | requestOn (pr : Progress) (p : Port) (w : Work) (d : Bool) (v : Verdict) (as : List Arrival) (n : Nat)
      (hc : s.clocked = true) (hg : s.arbiter.grant = some ⟨.port p w d (some v), as, n⟩) :
      Effect s (carryRequest pr p w d v as n s)
  /-- A lease access begins its visits (R71). -/
  | access (k : Nat) (as : List Arrival) (n : Nat) (hc : s.clocked = true)
      (hg : s.arbiter.grant = some ⟨.lease k .start, as, n⟩) : Effect s (runAccess k 0 s)
  /-- An expiry is made (R72). -/
  | expiry (pr : Progress) (k : Nat) (i : Slot) (as : List Arrival) (n : Nat) (hc : s.clocked = true)
      (hg : s.arbiter.grant = some ⟨.lease k (.expiring i), as, n⟩) :
      Effect s (carryExpiry pr k i ⟨.lease k (.posting i), s.table.expiryPosts i, 0⟩ { s with table := s.table.expire i })
  /-- An expiry's posts are carried on (R103). -/
  | expiryOn (pr : Progress) (k : Nat) (i : Slot) (as : List Arrival) (n : Nat) (hc : s.clocked = true)
      (hg : s.arbiter.grant = some ⟨.lease k (.posting i), as, n⟩) :
      Effect s (carryExpiry pr k i ⟨.lease k (.posting i), as, n⟩ s)
  /-- Step V-x (R126). -/
  | stepV (pr : Progress) (i : Slot) (x : Port) (as : List Arrival) (n : Nat) (hc : s.clocked = true)
      (hg : s.arbiter.grant = some ⟨.sweep false, as, n⟩) (hj : s.sweep.job = some (.retirement i (.v x))) :
      Effect s (carryStep pr (.retirement i (.afterV x)) ⟨.sweep true, viewStepArrivals s.table x i, 0⟩
        { s with table := viewStepTable s.table x i })
  /-- Step S (R127). -/
  | stepS (pr : Progress) (i : Slot) (as : List Arrival) (n : Nat) (hc : s.clocked = true)
      (hg : s.arbiter.grant = some ⟨.sweep false, as, n⟩) (hj : s.sweep.job = some (.retirement i .s)) :
      Effect s (carryStep pr (.retirement i .f) ⟨.sweep true, (s.table.listLeft i).flatMap retiredArrivals, 0⟩
        { s with table := listStepTable s.table i })
  /-- Step V-x or S carried on to the next step (R103). -/
  | stepOn (pr : Progress) (i : Slot) (st next : RetireStep) (as : List Arrival) (n : Nat) (hc : s.clocked = true)
      (hg : s.arbiter.grant = some ⟨.sweep true, as, n⟩) (hj : s.sweep.job = some (.retirement i st))
      (hn : (∃ x, st = .v x ∧ next = .afterV x) ∨ st = .s ∧ next = .f) :
      Effect s (carryStep pr (.retirement i next) ⟨.sweep true, as, n⟩ s)
  /-- Step F (R128). -/
  | stepF (c : JobChoice) (i : Slot) (worked : Bool) (as : List Arrival) (n : Nat) (hc : s.clocked = true)
      (hg : s.arbiter.grant = some ⟨.sweep worked, as, n⟩) (hj : s.sweep.job = some (.retirement i .f)) :
      Effect s (endJob c { s with table := freeStepTable s.table i })
  /-- Step D1 (R129). -/
  | stepD1 (p : Port) (worked : Bool) (as : List Arrival) (n : Nat) (hc : s.clocked = true)
      (hg : s.arbiter.grant = some ⟨.sweep worked, as, n⟩) (hj : s.sweep.job = some (.detachment p .d1)) :
      Effect s (endGrant { s with
        table := s.table.returnSubs (fun u => u.port = p), sweep := { s.sweep with job := some (.detachment p .d2) } })
  /-- Step D2 (R130). -/
  | stepD2 (p : Port) (hj : s.sweep.job = some (.detachment p .d2)) :
      Effect s (arbitrate { s.setPort p (detachedPort (s.port p)) with sweep := ({ s.sweep with
        attachment := s.sweep.attachment.set p (if s.sweep.flags.get p then .detaching else .attached)
        job := none } : Sweep).takeJob })
  /-- PRST falls while RSTn is low (R158). -/
  | prstPin (p : Port) (hr : s.rstn = .low) : Effect s (s.setPort p { s.port p with prst := .low })
  /-- PRST falls while the initialiser runs (R121). -/
  | prstInit (p : Port) (hr : s.rstn = .high) (hi : s.initialising = true) : Effect s (resetPort p s)
  /-- PRST falls (R121, R154). -/
  | prstFall (p : Port) (hr : s.rstn = .high) (hi : s.initialising = false) (hp : (s.port p).prst = .high) :
      Effect s (markDetachment p (resetPort p s))
  | prstRise (p : Port) : Effect s (s.setPort p { s.port p with prst := .high })
  | rstnFall (hr : s.rstn = .high) : Effect s { s with
      rstn := .low
      initialising := false
      ports := ⟨s.ports.a.cleared, s.ports.b.cleared, s.ports.c.cleared, s.ports.d.cleared⟩
      table := Config.tableUnderReset s.freeDraws
      arbiter := .powerOn
      lease := .powerOn
      sweep := .powerOn
      freeDraws := s.freeDraws + 1 }
  | rstnRelease (hr : s.rstn = .low) :
      Effect s { s with rstn := .high, initialising := true, lease := { s.lease with divider := 0 } }
  | initialised (hi : s.initialising = true) (hc : s.clocked = true) : Effect s { s with
      initialising := false
      table := .cleared
      ports := ⟨s.ports.a.initialised, s.ports.b.initialised, s.ports.c.initialised, s.ports.d.initialised⟩ }

/-! ### Transactions -/

variable (s : State) (p : Port)

/-- A condition set at a port just replaced. -/
theorem setCondition_setPort (k : Condition) (x : PortState) : setCondition k p (s.setPort p x) =
    s.setPort p { x with conditions := if s.initialising then x.conditions else x.conditions.raise k } := by
  unfold setCondition
  cases h : s.initialising <;> simp [h]

theorem mayRaise_refl : s.mayRaise p (s.port p).conditions := .inl rfl

theorem mayRaise_raise {k : Condition} (hr : s.rstn = .high) (hk : k ≠ .refusalHeld) :
    s.mayRaise p (if s.initialising then (s.port p).conditions else (s.port p).conditions.raise k) := by
  cases h : s.initialising
  · exact .inr ⟨⟨hr, h⟩, k, hk, rfl⟩
  · exact .inl rfl

theorem framed_rstn (h : s.framed p) : s.rstn = .high := ((linkOn_iff s p).1 h.1).1

theorem hears_rstn (h : s.hears p = true) : s.rstn = .high := ((linkOn_iff s p).1 ((hears_iff s p).1 h).1).1

theorem transactionOk_of_not_under_way {x : PortState} (h1 : ∀ n, x.select ≠ .opening n)
    (h2 : ∀ n d, x.select ≠ .response n d) : x.transactionOk :=
  ⟨fun n h => absurd h (h1 n), fun n d h => absurd h (h2 n d)⟩

theorem ignoreEdges_effect (ends : Bool) : Effect s (ignoreEdges p ends s) :=
  .link p _ ⟨_, _, _, _, mayRaise_refl s p, rfl, .inl ⟨by cases ends <;> simp, rfl⟩⟩

/-- The end of a transaction that sets a condition and nothing else. -/
theorem closeRequest_effect (edges : Nat) {k : Condition} (hf : s.framed p) (hk : k ≠ .refusalHeld) :
    Effect s (setCondition k p (closeRequest p edges s)) := by
  rw [closeRequest, setCondition_setPort]
  exact .link p _ ⟨_, _, _, _, mayRaise_raise s p (framed_rstn s p hf) hk, rfl, .inl ⟨.inl rfl, rfl⟩⟩

theorem openRequest_effect : Effect s (openRequest p s) := by
  rcases openRequest_cases s p with ⟨-, e⟩ | ⟨-, -, e⟩ | ⟨h, -, e⟩ <;> rw [e]
  · exact ignoreEdges_effect s p false
  · exact .stays
  · exact .link p _ ⟨_, _, _, _, mayRaise_refl s p, rfl, .inr ⟨h, .inl rfl, fun _ =>
      transactionOk_of_not_under_way (fun _ h => by cases h) (fun _ _ h => by cases h)⟩⟩

/-- A response transaction that goes on stays in order, and at most releases the held response (R152). -/
theorem shiftResponse_moves {n : Nat} {d : Option Response} (t : Stretch) (hh : s.hears p = true)
    (hs : (s.port p).opened = some n ∧ d = none ∨ (s.port p).select = .response n d) :
    s.linkMoves p ((s.port p).shiftResponse n d t) := by
  refine ⟨_, _, _, _, mayRaise_refl s p, rfl, .inr ⟨hh, ite_eq_or_eq _ _ _ |>.symm, fun hok => ?_⟩⟩
  unfold PortState.shiftResponse
  cases ht : t.ends with
  | true => exact transactionOk_of_not_under_way (fun _ h => by cases h) (fun _ _ h => by cases h)
  | false =>
    by_cases h8 : n + t.edges < 8
    · exact ⟨fun m h => by simp [h8] at h; omega, fun m d h => by simp [h8] at h⟩
    · refine ⟨fun m h => by simp [h8] at h, fun m d' h => ?_⟩
      simp only [h8, if_false, Bool.false_eq_true, SelectState.response.injEq] at h
      obtain ⟨rfl, rfl⟩ := h
      refine ⟨by omega, fun r hr hlt => ?_⟩
      have hnr : ¬(releaseEdges r ≤ n + t.edges) := by omega
      dsimp only
      rw [hr]
      by_cases hn : n < 8
      · have h8' : 8 ≤ n + t.edges := by omega
        rw [if_pos ⟨hn, h8'⟩] at hr
        simp [hnr, hr]
      · rw [if_neg (fun h => hn h.1)] at hr
        rcases hs with ⟨-, hd⟩ | hs
        · rw [hd] at hr; cases hr
        · have := (hok.2 n d hs).2 r hr (by omega)
          simp [hnr, this]

theorem responseTransaction_effect (t : Stretch) : Effect s (responseTransaction p t s) := by
  rcases responseTransaction_cases s p t with ⟨-, e⟩ | ⟨-, e⟩ | ⟨hh, n, d, hs, e⟩ <;> rw [e]
  · exact ignoreEdges_effect s p _
  · exact .stays
  · exact .link p _ (shiftResponse_moves s p t hh hs)

theorem shiftZeros_transactionOk (bits : List Bool) (t : Stretch) (x : PortState) : (x.shiftZeros bits t).transactionOk := by
  refine transactionOk_of_not_under_way (fun _ h => ?_) (fun _ _ h => ?_) <;>
    · simp only [PortState.shiftZeros] at h; split at h <;> cases h

theorem unknownTransaction_effect (t : OtherStretch) : Effect s (unknownTransaction p t s) := by
  rcases unknownTransaction_cases s p t with ⟨-, e⟩ | ⟨hh, e | e | e | ⟨-, e⟩ | ⟨n, -, -, e⟩⟩ <;> rw [e]
  · exact ignoreEdges_effect s p _
  · exact .stays
  · exact responseTransaction_effect s p _
  · exact openRequest_effect s p
  · exact .link p _ ⟨_, _, _, _, mayRaise_refl s p, rfl, .inr ⟨hh, .inl rfl, fun _ => shiftZeros_transactionOk _ _ _⟩⟩
  · rw [setCondition_setPort]
    exact .link p _ ⟨_, _, _, _, mayRaise_raise s p (hears_rstn s p hh) (by decide), rfl,
      .inr ⟨hh, .inl rfl, fun _ => shiftZeros_transactionOk (List.replicate n false) t.stretch (s.port p)⟩⟩

/-! ### Frames -/

/-- A dispatched frame passed checks 1 and 2 of R150. -/
theorem check_dispatched {code : Byte} {body : List Byte} {loc : Option Local} {r : Request}
    (h : check p code body s = .dispatched loc r) :
    s.initialising = false ∧ s.sweep.attachment.get p = .attached := by
  unfold check at h
  split at h
  · cases h
  · next hi =>
    split at h
    · cases h
    · next ha =>
      refine ⟨by simpa using hi, ?_⟩
      cases e : s.sweep.attachment.get p
      · rfl
      · exact absurd e ha

/-- A frame that ends with no request in work comes to the checks (R148). -/
theorem discardHeld_receives (edges : Nat) (hf : s.framed p) (hw : (s.port p).work = none) :
    ∃ x, s.receives p x ∧ discardHeld p (closeRequest p edges s) = s.setPort p x := by
  unfold discardHeld closeRequest
  simp only [port_setPort_self]
  cases hh : (s.port p).held with
  | none => exact ⟨_, ⟨hf, hw, List.replicate edges false, _, mayRaise_refl s p, rfl⟩, by simp⟩
  | some r =>
    simp only [setPort_setPort, setCondition_setPort]
    exact ⟨_, ⟨hf, hw, _, _, mayRaise_raise s p (k := .discarded) (framed_rstn s p hf) (by decide), rfl⟩, rfl⟩

theorem dispatch_effect (h : Head) (r : Request) {x : PortState} (hx : s.receives p x) (hi : s.initialising = false)
    (ha : s.sweep.attachment.get p = .attached) : Effect s (dispatch p h r (s.setPort p x)) := by
  cases r with
  | drain m => 
    simp only [dispatch, takeDrain, port_setPort_self, setPort_setPort]
    exact .drained p x h _ m hx hi rfl
  | getStatus => exact .answered p x h _ hx
  | acknowledge mask =>
    simp only [dispatch, takeAcknowledge, port_setPort_self, setPort_setPort]
    exact .acknowledged p x h _ mask hx hi rfl
  | setTick τ => exact .leaseControl p x h _ _ hx hi rfl (.inr (.inl ⟨τ, rfl⟩))
  | holdLeases =>
    simp only [dispatch, takeHoldLeases]
    split
    · exact .leaseControl p x h _ _ hx hi rfl (.inr (.inr (.inl rfl)))
    · exact .answered p x h _ hx
  | resumeLeases =>
    simp only [dispatch, takeResumeLeases]
    split
    · exact .leaseControl p x h _ _ hx hi rfl (.inr (.inr (.inr rfl)))
    · exact .answered p x h _ hx
  | detach q => exact .detach p q x h _ hx hi rfl
  | read _ | groupRead _ | write _ _ | conditionalWrite _ _ _ | refresh _ | subscribe _ _ _ _ _ | unsubscribe _
  | createValue _ _ | createAlias _ _ | retire _ | map _ _ _ _ | unmap _ _ | readView _ _ | readSlot _ | poolReport =>
    exact .claim p x h _ hx hi ha

theorem takeFrame_effect (edges : Nat) (code tag : Byte) (body : List Byte) (hf : s.framed p) :
    Effect s (takeFrame p code tag body (closeRequest p edges s)) := by
  unfold takeFrame
  have hcw : ((closeRequest p edges s).port p).work = (s.port p).work := by simp [closeRequest]
  rw [hcw]
  cases hw : (s.port p).work with
  | some w => exact closeRequest_effect s p edges hf (by decide)
  | none =>
    obtain ⟨x, hx, e⟩ := discardHeld_receives s p edges hf hw
    simp only [e, check_setPort]
    cases hk : check p code body s with
    | refused r loc => exact .answered p x _ _ hx
    | dispatched loc r =>
      obtain ⟨hi, ha⟩ := check_dispatched s p hk
      exact dispatch_effect s p _ r hx hi ha

/-- The end of a request transaction, whatever is judged of its frame. -/
theorem endRequest_effect (edges : Nat) (judged : State → State)
    (h : s.framed p → Effect s (judged (closeRequest p edges s))) : Effect s (endRequest p edges judged s) := by
  rcases endRequest_cases s p edges judged with ⟨-, e⟩ | ⟨-, -, e⟩ | ⟨hf, e⟩ <;> rw [e]
  · exact ignoreEdges_effect s p true
  · exact .stays
  · exact h hf

theorem requestTransaction_effect (code : Byte) (t : Transfer) : Effect s (requestTransaction p code t s) := by
  cases t with
  | typeByte => exact openRequest_effect s p
  | frame tag body =>
    refine endRequest_effect s p _ _ fun hf => ?_
    split
    · exact takeFrame_effect s p _ code tag body hf
    · exact closeRequest_effect s p _ hf (by decide)

theorem frameError_effect (bytes : List Byte) (extra : Fin 8) :
    ∃ t, execFrameError p bytes extra s = .next t ∧ Effect s t := by
  refine ⟨_, rfl, endRequest_effect s p _ _ fun hf => ?_⟩
  cases judge bytes extra with
  | frameError => exact closeRequest_effect s p _ hf (by decide)
  | good code tag body => exact takeFrame_effect s p _ code tag body hf

/-! ### Ticks, grants and lines -/

theorem completePeriod_effect (hc : s.clocked = true) : Effect s (completePeriod s) := by
  have ignored : Effect s { s with lease := { s.lease with divider := 0 } } :=
    .divider 0 (by cases s.lease.period <;> decide)
  unfold completePeriod countTick
  dsimp only
  split
  · exact ignored
  · next hi =>
    split
    · exact ignored
    · next hh =>
      split
      · next hp => exact .tick hc (by simpa using hi) hh hp
      · exact ignored

theorem refclkPeriod_effect : Effect s (refclkPeriod s) := by
  unfold refclkPeriod
  split
  · next hc =>
    split
    · next hd => exact .divider _ hd
    · exact completePeriod_effect s hc
  · exact .stays

/-- A command that needs REFCLK stays without it (log entry 14). -/
theorem clocked_effect (t : State) (h : s.clocked = true → Effect s t) : Effect s (if s.clocked then t else s) := by
  split
  · next hc => exact h hc
  · exact .stays

theorem tick_effect : ∃ t, execTick s = .next t ∧ Effect s t :=
  ⟨_, rfl, clocked_effect s _ (completePeriod_effect s)⟩

theorem portEngineGrant_effect (pr : Progress) : ∃ t, execPortEngineGrant pr s = .next t ∧ Effect s t := by
  unfold execPortEngineGrant
  split
  · next hg => exact ⟨_, rfl, clocked_effect s _ fun hc => .request pr _ _ _ _ _ hc hg⟩
  · next hg => exact ⟨_, rfl, clocked_effect s _ fun hc => .requestOn pr _ _ _ _ _ _ hc hg⟩
  · exact ⟨_, rfl, .stays⟩

theorem leaseAccess_effect : ∃ t, execLeaseAccess s = .next t ∧ Effect s t := by
  unfold execLeaseAccess
  split
  · next hg => exact ⟨_, rfl, clocked_effect s _ fun hc => .access _ _ _ hc hg⟩
  · exact ⟨_, rfl, .stays⟩

theorem leaseExpiry_effect (pr : Progress) : ∃ t, execLeaseExpiry pr s = .next t ∧ Effect s t := by
  unfold execLeaseExpiry
  split
  · next hg => exact ⟨_, rfl, clocked_effect s _ fun hc => .expiry pr _ _ _ _ hc hg⟩
  · next hg => exact ⟨_, rfl, clocked_effect s _ fun hc => .expiryOn pr _ _ _ _ hc hg⟩
  · exact ⟨_, rfl, .stays⟩

theorem stepV_effect (pr : Progress) : ∃ t, execStepV pr s = .next t ∧ Effect s t := by
  unfold execStepV
  split
  · next worked as n i x hg hj =>
    refine ⟨_, rfl, clocked_effect s _ fun hc => ?_⟩
    cases worked
    · exact .stepV pr i x as n hc hg hj
    · exact .stepOn pr i _ _ as n hc hg hj (.inl ⟨x, rfl, rfl⟩)
  · exact ⟨_, rfl, .stays⟩

theorem stepS_effect (pr : Progress) : ∃ t, execStepS pr s = .next t ∧ Effect s t := by
  unfold execStepS
  split
  · next worked as n i hg hj =>
    refine ⟨_, rfl, clocked_effect s _ fun hc => ?_⟩
    cases worked
    · exact .stepS pr i as n hc hg hj
    · exact .stepOn pr i _ _ as n hc hg hj (.inr ⟨rfl, rfl⟩)
  · exact ⟨_, rfl, .stays⟩

theorem stepF_effect (c : JobChoice) : ∃ t, execStepF c s = .next t ∧ Effect s t := by
  unfold execStepF
  split
  · next hg hj => exact ⟨_, rfl, clocked_effect s _ fun hc => .stepF c _ _ _ _ hc hg hj⟩
  · exact ⟨_, rfl, .stays⟩

theorem stepD1_effect : ∃ t, execStepD1 s = .next t ∧ Effect s t := by
  unfold execStepD1
  split
  · next hg hj => exact ⟨_, rfl, clocked_effect s _ fun hc => .stepD1 _ _ _ _ hc hg hj⟩
  · exact ⟨_, rfl, .stays⟩

theorem stepD2_effect : ∃ t, execStepD2 s = .next t ∧ Effect s t := by
  unfold execStepD2
  split
  · next hj => exact ⟨_, rfl, .stepD2 _ hj⟩
  · exact ⟨_, rfl, .stays⟩

theorem prstFall_effect : ∃ t, execPrstFall p s = .next t ∧ Effect s t := by
  refine ⟨_, rfl, ?_⟩
  split
  · exact .stays
  · next hr => exact .prstPin p hr
  · next hp hr =>
    split
    · next hi => exact .prstInit p hr hi
    · next hi => exact .prstFall p hr (by simpa using hi) hp

theorem rstnFall_effect : ∃ t, execRstnFall s = .next t ∧ Effect s t := by
  refine ⟨_, rfl, ?_⟩
  split
  · exact .stays
  · next hr => exact .rstnFall hr

theorem rstnRelease_effect : ∃ t, execRstnRelease s = .next t ∧ Effect s t := by
  refine ⟨_, rfl, ?_⟩
  split
  · exact .stays
  · next hr => exact .rstnRelease hr

theorem initialisationEnd_effect : ∃ t, execInitialisationEnd s = .next t ∧ Effect s t := by
  refine ⟨_, rfl, ?_⟩
  split
  · next h =>
    simp only [Bool.and_eq_true] at h
    exact .initialised h.1 h.2
  · exact .stays

/-! ### Every command and every step -/

/-- Every command answers a next state, by one of the effects. -/
theorem exec_effect (c : Instr) : ∃ t, exec c s = .next t ∧ Effect s t := by
  cases c with
  | read p t | groupRead p t | write p t | conditionalWrite p t | refresh p t | subscribe p t | unsubscribe p t
  | drain p t | getStatus p t | acknowledge p t | createValue p t | createAlias p t | retire p t | map p t | unmap p t
  | readView p t | readSlot p t | detach p t | setTick p t | holdLeases p t | resumeLeases p t | poolReport p t
  | overrun p _ t | unknownCodeFrame p _ t => exact ⟨_, rfl, requestTransaction_effect s p _ t⟩
  | portEngineGrant pr => exact portEngineGrant_effect s pr
  | tick => exact tick_effect s
  | leaseAccess => exact leaseAccess_effect s
  | leaseExpiry pr => exact leaseExpiry_effect s pr
  | stepV pr => exact stepV_effect s pr
  | stepS pr => exact stepS_effect s pr
  | stepF c => exact stepF_effect s c
  | stepD1 => exact stepD1_effect s
  | stepD2 => exact stepD2_effect s
  | prstFall p => exact prstFall_effect s p
  | prstRise p => exact ⟨_, rfl, .prstRise p⟩
  | rstnFall => exact rstnFall_effect s
  | rstnRelease => exact rstnRelease_effect s
  | initialisationEnd => exact initialisationEnd_effect s
  | frameError p bytes extra => exact frameError_effect s p bytes extra
  | unknownTransaction p t => exact ⟨_, rfl, unknownTransaction_effect s p t⟩
  | responseTransaction p t => exact ⟨_, rfl, responseTransaction_effect s p t⟩
  | refclkStop => exact ⟨_, rfl, .refclk false⟩
  | refclkResume => exact ⟨_, rfl, .refclk true⟩

/-- A step has one of the effects, on the state with its command taken from the queue. -/
theorem step_effect {s t : State} (h : step s = .next t) : ∃ rest, Effect { s with pending := rest } t := by
  unfold step at h
  split at h
  · next hp =>
    cases h
    exact ⟨[], hp ▸ refclkPeriod_effect s⟩
  · next c rest hp =>
    obtain ⟨u, hu, he⟩ := exec_effect { s with pending := rest } c
    rw [hu] at h
    cases h
    exact ⟨rest, he⟩

end Sys2Proof.Machine


/-! ## What the shared operations leave alone, and what table work does to the table -/
namespace Sys2Proof.Machine

variable (s : State) (p q : Port)

/-! ### Lines and the initialiser -/

theorem outer_rstn {s t : State} (h : t.outer = s.outer) : t.rstn = s.rstn := (outer_iff.1 h).1

theorem outer_initialising {s t : State} (h : t.outer = s.outer) : t.initialising = s.initialising :=
  (outer_iff.1 h).2.2.1

theorem tableValid_of_outer {s t : State} (h : t.outer = s.outer) : t.tableValid ↔ s.tableValid := by
  rw [State.tableValid, State.tableValid, outer_rstn h, outer_initialising h]

@[simp] theorem withdrawClaim_outer : (withdrawClaim p s).outer = s.outer := (withdrawClaim_rest s p).1
@[simp] theorem withdrawClaim_table : (withdrawClaim p s).table = s.table := (withdrawClaim_rest s p).2.1
@[simp] theorem withdrawClaim_lease : (withdrawClaim p s).lease = s.lease := (withdrawClaim_rest s p).2.2.1
@[simp] theorem withdrawClaim_sweep : (withdrawClaim p s).sweep = s.sweep := (withdrawClaim_rest s p).2.2.2

@[simp] theorem markDetachment_outer : (markDetachment p s).outer = s.outer := arbitrate_outer _
@[simp] theorem markDetachment_table : (markDetachment p s).table = s.table := arbitrate_table _
@[simp] theorem markDetachment_port : (markDetachment p s).port q = s.port q := arbitrate_port _ _

@[simp] theorem resetPort_outer : (resetPort p s).outer = s.outer := withdrawClaim_outer s p
@[simp] theorem resetPort_table : (resetPort p s).table = s.table := withdrawClaim_table s p
@[simp] theorem resetPort_lease : (resetPort p s).lease = s.lease := withdrawClaim_lease s p
@[simp] theorem resetPort_sweep : (resetPort p s).sweep = s.sweep := withdrawClaim_sweep s p

@[simp] theorem raiseClaim_outer (h : Head) (r : Request) : (raiseClaim p h r s).outer = s.outer := arbitrate_outer _
@[simp] theorem raiseClaim_table (h : Head) (r : Request) : (raiseClaim p h r s).table = s.table := arbitrate_table _

@[simp] theorem respond_table (h : Head) (v : Verdict) (n : Nat) : (respond p h v n s).table = s.table :=
  (core_iff.1 (respond_core s p h v n)).1
@[simp] theorem respond_arbiter (h : Head) (v : Verdict) (n : Nat) : (respond p h v n s).arbiter = s.arbiter :=
  (core_iff.1 (respond_core s p h v n)).2.1
@[simp] theorem respond_lease (h : Head) (v : Verdict) (n : Nat) : (respond p h v n s).lease = s.lease :=
  (core_iff.1 (respond_core s p h v n)).2.2.1
@[simp] theorem respond_sweep (h : Head) (v : Verdict) (n : Nat) : (respond p h v n s).sweep = s.sweep :=
  (core_iff.1 (respond_core s p h v n)).2.2.2

@[simp] theorem advance_sweep (pr : Progress) (g : Grant) : (advance pr g s).sweep = s.sweep :=
  (core_iff.1 (takeArrivals_core s (takenBy pr g.arrivals))).2.2.2
@[simp] theorem advance_lease (pr : Progress) (g : Grant) : (advance pr g s).lease = s.lease :=
  (core_iff.1 (takeArrivals_core s (takenBy pr g.arrivals))).2.2.1

theorem advance_grant (pr : Progress) (g : Grant) : (advance pr g s).arbiter.grant =
    some ⟨g.holder, leftBy pr g.arrivals, g.removed + arrivalsRemove (takenBy pr g.arrivals) s⟩ := rfl

@[simp] theorem runAccess_outer (k lo : Nat) : (runAccess k lo s).outer = s.outer := by
  unfold runAccess; split
  · rfl
  · rw [endGrant_outer]; rfl

@[simp] theorem carryExpiry_outer (pr : Progress) (k : Nat) (i : Slot) (g : Grant) :
    (carryExpiry pr k i g s).outer = s.outer := by
  cases pr <;> simp [carryExpiry]

@[simp] theorem carryStep_outer (pr : Progress) (j : Job) (g : Grant) : (carryStep pr j g s).outer = s.outer := by
  cases pr
  · simp only [carryStep, nextStep, endGrant_outer]; exact advance_outer _ _ _
  · simp [carryStep]

@[simp] theorem carryStep_table (pr : Progress) (j : Job) (g : Grant) : (carryStep pr j g s).table = s.table := by
  cases pr <;> simp [carryStep, nextStep]

@[simp] theorem carryRequest_outer (pr : Progress) (w : Work) (d : Bool) (v : Verdict) (as : List Arrival) (n : Nat) :
    (carryRequest pr p w d v as n s).outer = s.outer := by
  cases pr <;> cases d <;> simp [carryRequest]

@[simp] theorem carryRequest_table (pr : Progress) (w : Work) (d : Bool) (v : Verdict) (as : List Arrival) (n : Nat) :
    (carryRequest pr p w d v as n s).table = s.table := by
  cases pr <;> cases d <;> simp [carryRequest]

/-- The job and its grant have ended, the engine's choice is left due, and the arbiter has chosen (R119). -/
def State.choiceLeft (s : State) : State := arbitrate { s with
  arbiter := { s.arbiter with grant := none }, sweep := { s.sweep with job := none, choiceDue := true } }

/-- After step F the engine has chosen its next job and then the arbiter chose, or the choice is left due over the grant that
follows, or none follows and the choice is made (R119, R124). -/
theorem endJob_cases (c : JobChoice) :
    endJob c s = arbitrate { s with
      arbiter := { s.arbiter with grant := none }, sweep := ({ s.sweep with job := none } : Sweep).takeJob } ∨
    (endJob c s = s.choiceLeft ∧ s.choiceLeft.arbiter.grant.isSome = true) ∨
    (s.choiceLeft.arbiter.grant = none ∧
      endJob c s = arbitrate { s.choiceLeft with sweep := s.choiceLeft.sweep.choose }) := by
  cases c with
  | atOnce => exact .inl rfl
  | afterNextGrant =>
    right
    simp only [endJob]
    split
    · next g hg => exact .inl ⟨rfl, by rw [State.choiceLeft, hg]; rfl⟩
    · next hg => exact .inr ⟨hg, rfl⟩

@[simp] theorem choiceLeft_outer : s.choiceLeft.outer = s.outer := arbitrate_outer _
@[simp] theorem choiceLeft_table : s.choiceLeft.table = s.table := arbitrate_table _

@[simp] theorem endJob_outer (c : JobChoice) : (endJob c s).outer = s.outer := by
  rcases endJob_cases s c with e | ⟨e, -⟩ | ⟨-, e⟩ <;> rw [e]
  · exact arbitrate_outer _
  · exact choiceLeft_outer s
  · rw [arbitrate_outer]; exact choiceLeft_outer s

@[simp] theorem endJob_table (c : JobChoice) : (endJob c s).table = s.table := by
  rcases endJob_cases s c with e | ⟨e, -⟩ | ⟨-, e⟩ <;> simp [e]

@[simp] theorem tableWork_outer (r : Request) : (tableWork p r s).state.outer = s.outer := by
  rw [tableWork_state]; rfl

/-! ### What table work does to the table and the sweep engine -/

/-- A walk that reaches a record ends at a LIVE VALUE record with the fields handed on (R39, R43). -/
theorem walk_reached {t : Table} {style : Style} {via cur i via' : Slot} {left hops : Nat} {c : Content} {v : ValueFields}
    (hc : (t.record cur).body = .live c) (h : walk t style via left cur c = .reached i via' v hops) :
    (t.record i).body = .live (.value v) := by
  induction left generalizing cur c with
  | zero =>
    unfold walk at h
    split at h
    · cases h; exact hc
    · split at h <;> cases h
  | succ n ih =>
    unfold walk at h
    split at h
    · cases h; exact hc
    · split at h
      · cases h
      · simp only at h
        split at h
        · next c' hb =>
          split at h
          · exact ih hb h
          · cases h
        · cases h
        · cases h

/-- A resolution reaches a LIVE VALUE record with the fields handed on (R43). -/
theorem resolve_reached {t : Table} {style : Style} {p : Port} {l : Local} {i via : Slot} {v : ValueFields} {hops : Nat}
    (h : resolve t style p l = .reached i via v hops) : (t.record i).body = .live (.value v) := by
  unfold resolve at h
  split at h
  · cases h
  · split at h
    · cases h
    · split at h
      · next hb => exact walk_reached hb h
      · cases h
      · cases h

/-- What a request's table work makes of the table and the sweep engine (R15, R17). -/
inductive TableChange (t : Table) (w : Sweep) : Table → Sweep → Prop
  | none : TableChange t w t w
  /-- An accepted write (R55). -/
  | written (i : Slot) (v : ValueFields) (x : Word32) (hb : (t.record i).body = .live (.value v)) :
      TableChange t w (writtenTable t i v x) w
  /-- A Refresh of a leased record (R64). -/
  | refreshed (i : Slot) (v : ValueFields) (hb : (t.record i).body = .live (.value v)) (hi : 0 < v.interval) :
      TableChange t w (t.setRecord i ⟨(t.record i).generation, .live (.value (refreshedFields v))⟩) w
  /-- A subscription replaced (R94). -/
  | replaced (p : Port) (l : Local) (via target : Slot) (v : ValueFields) (hops : Nat) (old new : Subscription)
      (hr : resolve t .read p l = .reached target via v hops) (ho : t.subscription? p l = some old)
      (hn : ∃ m f md o, new = newSubscription p l via target m f md o v.value) :
      TableChange t w { t with pool := replaceSubscription t.pool old new } w
  /-- A subscription made (R95). -/
  | subscribed (p : Port) (l : Local) (via target : Slot) (v : ValueFields) (hops : Nat) (new : Subscription)
      (hr : resolve t .read p l = .reached target via v hops) (ho : t.subscription? p l = none)
      (hp : poolRefuses t p = false) (hn : ∃ m f md o, new = newSubscription p l via target m f md o v.value) :
      TableChange t w { t with pool := t.pool ++ [new] } w
  /-- An Unsubscribe (R97). -/
  | unsubscribed (p : Port) (l : Local) : TableChange t w (t.returnSubs (·.keyed p l)) w
  /-- A creation: a VALUE record with a fresh lease, or an ALIAS (R18, R19). -/
  | created (i : Slot) (rest : List Slot) (c : Content) (hf : t.freeList = i :: rest)
      (hc : (∃ x n, c = .value ⟨x, 0, .good, n, n⟩) ∨ ∃ f, c = .aliasOf f) : TableChange t w (takeFree t i rest c) w
  /-- A Map (R26). -/
  | mapped (p : Port) (l : Local) (i : Slot) (r : Rights) (hl : (t.record i).isLive = true) (he : t.entry p l = Option.none) :
      TableChange t w (t.setEntry p l (some ⟨i, r⟩)) w
  /-- An Unmap (R28). -/
  | unmapped (p : Port) (l : Local) (e : ViewEntry) (he : t.entry p l = some e) :
      TableChange t w ((t.setEntry p l Option.none).returnSubs (·.keyed p l)) w
  /-- An accepted Retire (R118). -/
  | retired (i : Slot) (c : Content) (hb : (t.record i).body = .live c) (hq : w.fifo.length < Config.fifoSize) :
      TableChange t w (t.setRecord i (retiredRecord (t.record i).generation c))
        ({ w with fifo := w.fifo ++ [i] } : Sweep).offer

theorem tableWork_change (r : Request) :
    TableChange s.table s.sweep (tableWork p r s).state.table (tableWork p r s).state.sweep := by
  cases r with
  | read l => simp only [tableWork, workRead]; split <;> exact .none
  | groupRead ls => exact .none
  | write l x =>
    simp only [tableWork, workWrite]
    split
    · next hr => exact .written _ _ x (resolve_reached hr)
    · exact .none
  | conditionalWrite l e x =>
    simp only [tableWork, workConditionalWrite]
    split
    · next hr =>
      split
      · exact .written _ _ x (resolve_reached hr)
      · exact .none
    · exact .none
  | refresh l =>
    simp only [tableWork, workRefresh]
    split
    · next hr =>
      split
      · next hi => exact .refreshed _ _ (resolve_reached hr) hi
      · exact .none
    · exact .none
  | subscribe l m f md o =>
    simp only [tableWork, workSubscribe]
    split
    · next hr =>
      split
      · next old ho => exact .replaced p l _ _ _ _ old _ hr ho ⟨m, f, md, o, rfl⟩
      · next ho =>
        split
        · exact .none
        · next hp => exact .subscribed p l _ _ _ _ _ hr ho (by simpa using hp) ⟨m, f, md, o, rfl⟩
    · exact .none
  | unsubscribe l =>
    simp only [tableWork, workUnsubscribe]
    split
    · exact .unsubscribed p l
    · exact .none
  | createValue x n =>
    simp only [tableWork, workCreateValue]
    split
    · exact .none
    · next hf => exact .created _ _ _ hf (.inl ⟨x, n, rfl⟩)
  | createAlias i through =>
    simp only [tableWork, workCreateAlias]
    split
    · split
      · exact .none
      · next hf => exact .created _ _ _ hf (.inr ⟨_, rfl⟩)
    · exact .none
  | retire i =>
    simp only [tableWork, workRetire]
    split
    · next c hb =>
      split
      · exact .none
      · next hq => exact .retired i c hb (by omega)
    · exact .none
    · exact .none
  | map port l i rights =>
    simp only [tableWork, workMap]
    split
    · next hl =>
      split
      · exact .none
      · next he => exact .mapped port l i rights hl he
    · exact .none
  | unmap port l =>
    simp only [tableWork, workUnmap]
    split
    · exact .none
    · next e he => exact .unmapped port l e he
  | readView port l => simp only [tableWork, workReadView]; split <;> exact .none
  | readSlot _ | poolReport | drain _ | getStatus | acknowledge _ | detach _ | setTick _ | holdLeases | resumeLeases =>
    exact .none

end Sys2Proof.Machine


/-! ## The free list, the retire FIFO and the slots' states (R11, R116, R119) -/
namespace Sys2Proof.Machine

variable (s : State) (p q : Port)

/-! ### The slots that the sweep engine holds -/

/-- The slots of the retire FIFO and of the current retirement job (R116). -/
def Sweep.slots (w : Sweep) : List Slot := w.fifo ++ w.jobSlots

/-- A choice is left due only while no job is current (R119). -/
def Sweep.dueIdle (w : Sweep) : Prop := w.choiceDue = true → w.job = none

theorem State.SweepInv.dueIdle {s : State} (h : s.SweepInv) : s.sweep.dueIdle := fun hd => (h.2.2.2.2.1 hd).1

theorem dueIdle_of_not_due {w : Sweep} (h : w.choiceDue = false) : w.dueIdle := fun hd => by rw [h] at hd; cases hd

theorem not_due_of_job {w : Sweep} {j : Job} (h : w.dueIdle) (hj : w.job = some j) : w.choiceDue = false := by
  cases e : w.choiceDue
  · rfl
  · have := h e; rw [hj] at this; cases this

theorem takeJob_slots {w : Sweep} (h : w.job = none) : w.takeJob.slots.Perm w.slots := by
  rcases takeJob_cases w with ⟨x, -, -, e⟩ | ⟨-, i, rest, hq, e⟩ | ⟨-, -, e⟩ <;> rw [e]
  · simp [Sweep.slots, Sweep.jobSlots, h]
  · simp [Sweep.slots, Sweep.jobSlots, h, hq]
  · rfl

theorem choose_slots {w : Sweep} (h : w.dueIdle) : w.choose.slots.Perm w.slots := by
  unfold Sweep.choose
  split
  · next hd => exact takeJob_slots (h hd)
  · rfl

theorem offer_slots (w : Sweep) : w.offer.slots.Perm w.slots := by
  unfold Sweep.offer
  split
  · next hj =>
    split
    · rfl
    · exact takeJob_slots hj
  · rfl

theorem offer_dueIdle {w : Sweep} (h : w.dueIdle) : w.offer.dueIdle := by
  unfold Sweep.offer
  split
  · split
    · exact h
    · exact dueIdle_of_not_due (takeJob_choiceDue w)
  · exact h

@[simp] theorem arbitrate_slots : (arbitrate s).sweep.slots = s.sweep.slots := by
  rcases arbitrate_sweep s with e | e <;> rw [e]; rfl

theorem endGrant_slots (h : s.sweep.dueIdle) : (endGrant s).sweep.slots.Perm s.sweep.slots := by
  rw [endGrant, arbitrate_slots]; exact choose_slots h

theorem markDetachment_slots : (markDetachment p s).sweep.slots.Perm s.sweep.slots := by
  rw [markDetachment, arbitrate_slots]; exact offer_slots _

theorem raiseClaim_slots (h : Head) (r : Request) : (raiseClaim p h r s).sweep.slots = s.sweep.slots :=
  arbitrate_slots _

theorem carryRequest_slots (pr : Progress) (w : Work) (d : Bool) (v : Verdict) (as : List Arrival) (n : Nat)
    (h : s.sweep.dueIdle) : (carryRequest pr p w d v as n s).sweep.slots.Perm s.sweep.slots := by
  cases pr with
  | toEnd =>
    simp only [carryRequest]
    refine (endGrant_slots _ ?_).trans ?_ <;> cases d <;> simp [h]
  | arrivals m => simp [carryRequest]

theorem runAccess_slots (k lo : Nat) (h : s.sweep.dueIdle) : (runAccess k lo s).sweep.slots.Perm s.sweep.slots := by
  unfold runAccess
  split
  · rfl
  · exact endGrant_slots _ h

theorem carryExpiry_slots (pr : Progress) (k : Nat) (i : Slot) (g : Grant) (h : s.sweep.dueIdle) :
    (carryExpiry pr k i g s).sweep.slots.Perm s.sweep.slots := by
  cases pr with
  | toEnd =>
    simp only [carryExpiry]
    exact (runAccess_slots _ k _ (by rw [advance_sweep]; exact h)).trans (by rw [advance_sweep])
  | arrivals m => simp [carryExpiry]

/-- A job that goes on to its next step keeps its slot. -/
theorem carryStep_slots (pr : Progress) (i : Slot) (st next : RetireStep) (g : Grant)
    (hj : s.sweep.job = some (.retirement i st)) (h : s.sweep.dueIdle) :
    (carryStep pr (.retirement i next) g s).sweep.slots.Perm s.sweep.slots := by
  have hd := not_due_of_job h hj
  cases pr with
  | toEnd =>
    refine (endGrant_slots _ (dueIdle_of_not_due (by simp [hd]))).trans ?_
    rw [advance_sweep]
    simp [Sweep.slots, Sweep.jobSlots, hj]
  | arrivals m => simp [carryStep]

/-- At the end of a retirement job its slot leaves the engine; the FIFO's slots stay with it. -/
theorem endJob_slots (c : JobChoice) : (endJob c s).sweep.slots.Perm s.sweep.fifo := by
  have idle {w : Sweep} (hj : w.job = none) : w.slots = w.fifo := by simp [Sweep.slots, Sweep.jobSlots, hj]
  have left : s.choiceLeft.sweep.slots = s.sweep.fifo := (arbitrate_slots _).trans (idle rfl)
  rcases endJob_cases s c with e | ⟨e, -⟩ | ⟨-, e⟩ <;> rw [e]
  · rw [arbitrate_slots]; exact (takeJob_slots rfl).trans (by rw [idle rfl])
  · rw [left]
  · rw [arbitrate_slots, ← left]
    refine choose_slots ?_
    rcases arbitrate_sweep { s with
      arbiter := { s.arbiter with grant := none }, sweep := { s.sweep with job := none, choiceDue := true } } with e | e <;>
      exact fun _ => by rw [State.choiceLeft, e]

/-! ### The states of the slots -/

/-- The FREE slots are those of the free list, and the RETIRING slots those of `l`, each once. -/
def Table.slotsIn (t : Table) (l : List Slot) : Prop :=
  t.freeList.Nodup ∧ (∀ i, i ∈ t.freeList ↔ (t.record i).body = .free) ∧
  l.Nodup ∧ ∀ i, i ∈ l ↔ (t.record i).isRetiring = true

theorem slotInv_iff : s.SlotInv ↔ (s.tableValid → s.table.slotsIn s.sweep.slots) := Iff.rfl

/-- The free list stands, and every slot has the state it had: FREE, LIVE or RETIRING (R1). -/
def Table.sameStates (t t' : Table) : Prop :=
  t'.freeList = t.freeList ∧ ∀ i, ((t'.record i).body = .free ↔ (t.record i).body = .free) ∧
    ((t'.record i).isRetiring = true ↔ (t.record i).isRetiring = true)

theorem sameStates_refl (t : Table) : t.sameStates t := ⟨rfl, fun _ => ⟨Iff.rfl, Iff.rfl⟩⟩

theorem sameStates_of_records {t t' : Table} (hf : t'.freeList = t.freeList) (hr : ∀ i, t'.record i = t.record i) :
    t.sameStates t' := ⟨hf, fun i => by rw [hr i]; exact ⟨Iff.rfl, Iff.rfl⟩⟩

/-- A LIVE record that stays LIVE. -/
theorem sameStates_setRecord {t : Table} {i : Slot} {c c' : Content} (g : Byte) (hb : (t.record i).body = .live c) :
    t.sameStates (t.setRecord i ⟨g, .live c'⟩) := by
  refine ⟨rfl, fun j => ?_⟩
  by_cases e : j = i
  · subst e; simp [hb]
  · simp [e]

theorem visited_states (k : Nat) (r : Record) :
    ((r.visited k).body = .free ↔ r.body = .free) ∧ ((r.visited k).isRetiring = true ↔ r.isRetiring = true) := by
  unfold Record.visited
  split
  · next hb => split <;> simp [hb]
  all_goals exact ⟨Iff.rfl, Iff.rfl⟩

theorem sameStates_visit (t : Table) (k lo hi : Nat) : t.sameStates (t.visit k lo hi) := by
  refine ⟨rfl, fun i => ?_⟩
  rw [record_visit]
  split
  · exact visited_states k _
  · exact ⟨Iff.rfl, Iff.rfl⟩

theorem sameStates_expire (t : Table) (i : Slot) : t.sameStates (t.expire i) := by
  unfold Table.expire
  split
  · next hb => exact sameStates_setRecord _ hb
  all_goals exact sameStates_refl t

theorem sameStates_runAccess (k lo : Nat) : s.table.sameStates (runAccess k lo s).table := by
  unfold runAccess
  split
  · exact sameStates_visit _ _ _ _
  · rw [endGrant_table]; exact sameStates_visit _ _ _ _

theorem sameStates_carryExpiry (pr : Progress) (k : Nat) (i : Slot) (g : Grant) :
    s.table.sameStates (carryExpiry pr k i g s).table := by
  cases pr with
  | toEnd => simpa [carryExpiry] using sameStates_runAccess (advance .toEnd g s) k (i.val + 1)
  | arrivals m => simpa [carryExpiry] using sameStates_refl s.table

theorem slotsIn_congr {t t' : Table} {l l' : List Slot} (h : t.slotsIn l) (ht : t.sameStates t') (hl : l'.Perm l) :
    t'.slotsIn l' := by
  obtain ⟨h1, h2, h3, h4⟩ := h
  obtain ⟨hf, hs⟩ := ht
  refine ⟨hf ▸ h1, fun i => ?_, hl.nodup_iff.2 h3, fun i => ?_⟩
  · rw [hf, h2 i]; exact (hs i).1.symm
  · rw [hl.mem_iff, h4 i]; exact (hs i).2.symm

/-- A creation takes the head of the free list, which becomes LIVE (R12). -/
theorem slotsIn_created {t : Table} {l rest : List Slot} {i : Slot} (c : Content) (h : t.slotsIn l)
    (hf : t.freeList = i :: rest) : (takeFree t i rest c).slotsIn l := by
  obtain ⟨h1, h2, h3, h4⟩ := h
  rw [hf, List.nodup_cons] at h1
  have hi : (t.record i).body = .free := (h2 i).1 (by simp [hf])
  refine ⟨h1.2, fun j => ?_, h3, fun j => ?_⟩
  · show j ∈ rest ↔ ((t.setRecord i _).record j).body = .free
    by_cases e : j = i
    · subst e; simpa using h1.1
    · rw [record_setRecord_ne _ _ _ e, ← h2 j, hf]; simp [e]
  · show j ∈ l ↔ ((t.setRecord i _).record j).isRetiring = true
    by_cases e : j = i
    · subst e; rw [h4 j]; simp [hi]
    · rw [record_setRecord_ne _ _ _ e]; exact h4 j

/-- An accepted Retire makes a LIVE slot RETIRING, and the engine holds it (R118). -/
theorem slotsIn_retired {t : Table} {l : List Slot} {i : Slot} {c : Content} (h : t.slotsIn l)
    (hb : (t.record i).body = .live c) :
    (t.setRecord i (retiredRecord (t.record i).generation c)).slotsIn (i :: l) := by
  obtain ⟨h1, h2, h3, h4⟩ := h
  have hl : i ∉ l := fun hm => by simpa [hb] using (h4 i).1 hm
  refine ⟨h1, fun j => ?_, List.nodup_cons.2 ⟨hl, h3⟩, fun j => ?_⟩
  · by_cases e : j = i
    · subst e; rw [setRecord_freeList, h2 j]; simp [hb, retiredRecord]
    · rw [record_setRecord_ne _ _ _ e]; exact h2 j
  · by_cases e : j = i
    · subst e; simp [retiredRecord]
    · rw [record_setRecord_ne _ _ _ e, ← h4 j]; simp [e]

/-- Step F frees the slot of the job, which joins the free list (R128). -/
theorem slotsIn_freed {t : Table} {l : List Slot} {i : Slot} (h : t.slotsIn (l ++ [i])) :
    (freeStepTable t i).slotsIn l := by
  obtain ⟨h1, h2, h3, h4⟩ := h
  have hi : i ∉ t.freeList := fun hm => by
    have := (h4 i).1 (by simp)
    simp [(h2 i).1 hm] at this
  have hl : i ∉ l := fun hm => (List.disjoint_of_nodup_append h3) hm (by simp)
  refine ⟨?_, fun j => ?_, (List.nodup_append.1 h3).1, fun j => ?_⟩
  · show (t.freeList ++ [i]).Nodup
    rw [← List.concat_eq_append]; exact h1.concat hi
  · show j ∈ t.freeList ++ [i] ↔ ((t.setRecord i _).record j).body = .free
    by_cases e : j = i
    · subst e; simp
    · rw [record_setRecord_ne _ _ _ e, ← h2 j]; simp [e]
  · show j ∈ l ↔ ((t.setRecord i _).record j).isRetiring = true
    by_cases e : j = i
    · subst e; simpa using hl
    · rw [record_setRecord_ne _ _ _ e, ← h4 j]; simp [e]

/-- A request's table work keeps the slot lists: a creation and a Retire move their slot with its state. -/
theorem slotsIn_change {t t' : Table} {w w' : Sweep} (h : t.slotsIn w.slots) (hc : TableChange t w t' w') :
    t'.slotsIn w'.slots := by
  cases hc with
  | none => exact h
  | written i v x hb => exact slotsIn_congr h (sameStates_setRecord _ hb) (.refl _)
  | refreshed i v hb hi => exact slotsIn_congr h (sameStates_setRecord _ hb) (.refl _)
  | created i rest c hf hk => exact slotsIn_created c h hf
  | retired i c hb hq =>
    refine slotsIn_congr (slotsIn_retired h hb) (sameStates_refl _) ((offer_slots _).trans ?_)
    simp [Sweep.slots, Sweep.jobSlots]
  | replaced | subscribed | unsubscribed | mapped | unmapped =>
    exact slotsIn_congr h (sameStates_of_records rfl fun _ => rfl) (.refl _)

theorem change_dueIdle {t t' : Table} {w w' : Sweep} (hc : TableChange t w t' w') (h : w.dueIdle) : w'.dueIdle := by
  cases hc with
  | retired i c hb hq => exact offer_dueIdle h
  | _ => exact h

theorem slotsIn_cleared : Table.cleared.slotsIn [] := by
  refine ⟨?_, fun i => ?_, List.nodup_nil, fun i => ?_⟩
  · rw [cleared_freeList]; exact List.nodup_finRange 1024
  · simp [mem_cleared_freeList]
  · simp

/-! ### Every step -/

/-- An effect that stays with the same readiness keeps the slot lists if it keeps them where the table is valid. -/
theorem slotInv_of {s t : State} (ho : t.outer = s.outer) (h : s.SlotInv)
    (hk : s.table.slotsIn s.sweep.slots → t.table.slotsIn t.sweep.slots) : t.SlotInv :=
  fun hv => hk (h ((tableValid_of_outer ho).1 hv))

/-- An effect that changes no slot's state and moves no slot into or out of the engine. -/
theorem slotInv_frame {s t : State} (h : s.SlotInv) (ho : t.outer = s.outer) (ht : s.table.sameStates t.table)
    (hw : t.sweep.slots.Perm s.sweep.slots) : t.SlotInv :=
  slotInv_of ho h fun hs => slotsIn_congr hs ht hw

/-- An effect that leaves the table and the sweep engine alone. -/
theorem slotInv_untouched {s t : State} (h : s.SlotInv) (ho : t.rstn = s.rstn ∧ t.initialising = s.initialising)
    (ht : t.table = s.table) (hw : t.sweep = s.sweep) : t.SlotInv := by
  rw [slotInv_iff, State.tableValid, ho.1, ho.2, ht, hw]; exact h

theorem Effect.slotInv {s t : State} (e : Effect s t) (hq : s.QuietInv) (hw : s.SweepInv) (h : s.SlotInv) :
    t.SlotInv := by
  have due := hw.dueIdle
  cases e with
  | stays | refclk | divider | link | prstPin | prstRise => exact slotInv_untouched h ⟨rfl, rfl⟩ rfl rfl
  | answered p x hd v hx | drained p x hd v m hx | acknowledged p x hd v m hx | leaseControl p x hd v l hx =>
    exact slotInv_frame h (respond_outer ..) (by rw [respond_table]; exact sameStates_refl _)
      (by rw [respond_sweep]; exact .refl _)
  | tick => exact slotInv_frame h (arbitrate_outer _) (by simp [sameStates_refl]) (by simp)
  | detach p q x hd v hx =>
    exact slotInv_frame h (by simp) (by simp [sameStates_refl]) ((markDetachment_slots _ q).trans (by simp))
  | claim p x hd r hx => exact slotInv_frame h (by simp) (by simp [sameStates_refl]) (by simp [raiseClaim_slots])
  | request pr p w d as n hc hg =>
    have hch := tableWork_change s p w.request
    refine slotInv_of (by simp) h fun hs => slotsIn_congr (slotsIn_change hs hch) ?_
      (carryRequest_slots _ _ _ _ _ _ _ _ (change_dueIdle hch due))
    rw [carryRequest_table]; exact sameStates_refl _
  | requestOn pr p w d v as n hc hg =>
    exact slotInv_frame h (by simp) (by simp [sameStates_refl]) (carryRequest_slots _ _ _ _ _ _ _ _ due)
  | access k as n hc hg => exact slotInv_frame h (by simp) (sameStates_runAccess s k 0) (runAccess_slots s k 0 due)
  | expiry pr k i as n hc hg =>
    refine slotInv_of (s := s) (carryExpiry_outer ..) h fun hs => ?_
    exact slotsIn_congr (slotsIn_congr hs (sameStates_expire s.table i) (.refl _)) (sameStates_carryExpiry _ pr k i _)
      (carryExpiry_slots _ pr k i _ due)
  | expiryOn pr k i as n hc hg =>
    exact slotInv_frame h (by simp) (sameStates_carryExpiry s pr k i _) (carryExpiry_slots s pr k i _ due)
  | stepV pr i x as n hc hg hj =>
    refine slotInv_frame h (carryStep_outer ..) ?_ (carryStep_slots _ pr i _ _ _ hj due)
    rw [carryStep_table]; exact sameStates_of_records rfl fun _ => rfl
  | stepS pr i as n hc hg hj =>
    refine slotInv_frame h (carryStep_outer ..) ?_ (carryStep_slots _ pr i _ _ _ hj due)
    rw [carryStep_table]
    unfold listStepTable
    split <;> exact sameStates_of_records rfl fun _ => rfl
  | stepOn pr i st next as n hc hg hj hn =>
    exact slotInv_frame h (by simp) (by simp [sameStates_refl]) (carryStep_slots _ pr i st _ _ hj due)
  | stepF c i worked as n hc hg hj =>
    refine slotInv_of (s := s) (endJob_outer ..) h fun hs => ?_
    have hsl : s.sweep.slots = s.sweep.fifo ++ [i] := by simp [Sweep.slots, Sweep.jobSlots, hj]
    rw [hsl] at hs
    rw [endJob_table]
    exact slotsIn_congr (slotsIn_freed hs) (sameStates_refl _) (endJob_slots _ c)
  | stepD1 p worked as n hc hg hj =>
    have hd := not_due_of_job due hj
    refine slotInv_frame (s := s) h (endGrant_outer _)
      (by rw [endGrant_table]; exact sameStates_of_records rfl fun _ => rfl)
      ((endGrant_slots _ (dueIdle_of_not_due (by exact hd))).trans ?_)
    simp [Sweep.slots, Sweep.jobSlots, hj]
  | stepD2 p hj =>
    refine slotInv_frame h (arbitrate_outer _) (by rw [arbitrate_table]; exact sameStates_refl _) ?_
    rw [arbitrate_slots]
    refine (takeJob_slots rfl).trans ?_
    simp [Sweep.slots, Sweep.jobSlots, hj]
  | prstInit p hr hi => exact slotInv_frame h (by simp) (by simp [sameStates_refl]) (by simp)
  | prstFall p hr hi hp =>
    exact slotInv_frame h (by simp) (by simp [sameStates_refl]) ((markDetachment_slots _ p).trans (by simp))
  | rstnFall => exact fun hv => by cases hv.1
  | rstnRelease => exact fun hv => by cases hv.2
  | initialised hi hc =>
    intro _
    have hsw : s.sweep = .powerOn := (hq.1 (.inr hi)).2.1
    show Table.cleared.slotsIn s.sweep.slots
    rw [hsw]; exact slotsIn_cleared

/-- Settles O14, one case for each effect of a step: the engine's slots are only permuted, but for a Retire, which adds its
slot, and step F, which gives it up. -/
theorem slotListsKept : Obligations.SlotListsKept := by
  intro s t hq hw h hst
  obtain ⟨rest, e⟩ := step_effect hst
  exact e.slotInv hq hw h

end Sys2Proof.Machine


/-! ## Freshness (R9, R73) -/
namespace Sys2Proof.Machine

variable (s : State) (p q : Port)

/-! ### Grants that begin -/

/-- The grant that begins is of a request, of an access at its start, or of a step not yet worked (R14). -/
theorem beginGrant_grant (r : Requester) (hg : s.arbiter.grant = none) :
    (beginGrant r s).arbiter.grant = none ∨ ∃ h, (beginGrant r s).arbiter.grant = some ⟨h, [], 0⟩ ∧
      ((∃ p w, (s.port p).work = some w ∧ h = .port p w false none) ∨ h = .lease s.lease.pending .start ∨
        h = .sweep false) := by
  cases r with
  | port p =>
    simp only [beginGrant]
    split
    · next w hw => exact .inr ⟨_, rfl, .inl ⟨p, w, hw, rfl⟩⟩
    · exact .inl hg
  | lease => exact .inr ⟨_, rfl, .inr (.inl rfl)⟩
  | sweep => exact .inr ⟨_, rfl, .inr (.inr rfl)⟩

theorem expiryDue_of_grant {s t : State} (h : t.arbiter.grant = s.arbiter.grant) (i : Slot) :
    t.expiryDue i ↔ s.expiryDue i := by
  rw [State.expiryDue, State.expiryDue, h]

theorem not_expiryDue_of_none {s : State} (h : s.arbiter.grant = none) (i : Slot) : ¬s.expiryDue i := by
  rintro ⟨k, as, n, hg⟩
  rw [h] at hg; cases hg

theorem not_expiryDue_of_grant {s : State} {g : Grant} (h : s.arbiter.grant = some g)
    (hn : ∀ k i, g.holder ≠ .lease k (.expiring i)) (i : Slot) : ¬s.expiryDue i := by
  rintro ⟨k, as, n, hg⟩
  rw [h] at hg; cases hg; exact hn k i rfl

@[simp] theorem arbitrate_expiryDue (i : Slot) : (arbitrate s).expiryDue i ↔ s.expiryDue i := by
  rcases arbitrate_cases s with ⟨-, e⟩ | ⟨-, -, e⟩ | ⟨r, hg, -, -, e⟩ <;> rw [e]
  have hs := not_expiryDue_of_none hg i
  rcases beginGrant_grant s r hg with h | ⟨h, hb, ⟨_, _, -, rfl⟩ | rfl | rfl⟩
  · exact iff_of_false (not_expiryDue_of_none h i) hs
  all_goals exact iff_of_false (not_expiryDue_of_grant hb (fun _ _ h => by cases h) i) hs

theorem endGrant_not_expiryDue (i : Slot) : ¬(endGrant s).expiryDue i := by
  rw [endGrant, arbitrate_expiryDue]; exact not_expiryDue_of_none rfl i

theorem endJob_not_expiryDue (c : JobChoice) (i : Slot) : ¬(endJob c s).expiryDue i := by
  have left : ¬s.choiceLeft.expiryDue i := by
    rw [State.choiceLeft, arbitrate_expiryDue]; exact not_expiryDue_of_none rfl i
  rcases endJob_cases s c with e | ⟨e, -⟩ | ⟨-, e⟩ <;> rw [e]
  · rw [arbitrate_expiryDue]; exact not_expiryDue_of_none rfl i
  · exact left
  · rw [arbitrate_expiryDue]; exact left

theorem carryRequest_not_expiryDue (pr : Progress) (w : Work) (d : Bool) (v : Verdict) (as : List Arrival) (n : Nat)
    (i : Slot) : ¬(carryRequest pr p w d v as n s).expiryDue i := by
  cases pr with
  | toEnd => exact endGrant_not_expiryDue _ i
  | arrivals m => exact not_expiryDue_of_grant (advance_grant ..) (fun _ _ h => by cases h) i

theorem carryStep_not_expiryDue (pr : Progress) (j : Job) (as : List Arrival) (n : Nat) (i : Slot) :
    ¬(carryStep pr j ⟨.sweep true, as, n⟩ s).expiryDue i := by
  cases pr with
  | toEnd => exact endGrant_not_expiryDue _ i
  | arrivals m => exact not_expiryDue_of_grant (advance_grant ..) (fun _ _ h => by cases h) i

@[simp] theorem withdrawClaim_grant : (withdrawClaim p s).arbiter.grant = s.arbiter.grant := by
  rw [withdrawClaim_arbiter]

@[simp] theorem markDetachment_expiryDue (i : Slot) : (markDetachment p s).expiryDue i ↔ s.expiryDue i :=
  arbitrate_expiryDue _ i

/-- A fall of PRST changes only whether the response of a grant in progress is wanted (R154). -/
theorem resetPort_grant :
    (resetPort p s).arbiter.grant = s.arbiter.grant.map (fun g => { g with holder := g.holder.discardFor p }) := by
  rw [← withdrawClaim_grant s p]; rfl

@[simp] theorem resetPort_expiryDue (i : Slot) : (resetPort p s).expiryDue i ↔ s.expiryDue i := by
  rw [State.expiryDue, State.expiryDue, resetPort_grant]
  rcases s.arbiter.grant with _ | ⟨_ | _ | _, as, n⟩ <;> simp [Holder.discardFor]

/-! ### The lease fields of the records -/

/-- Every VALUE record, LIVE or RETIRING, keeps R73. -/
def Record.leaseOk (r : Record) : Prop := ∀ v, r.body.content? = some (.value v) → v.leaseOk

def Table.leasesOk (t : Table) : Prop := ∀ i, (t.record i).leaseOk

theorem leaseOk_value {g : Byte} {v : ValueFields} : Record.leaseOk ⟨g, .live (.value v)⟩ ↔ v.leaseOk := by
  simp [Record.leaseOk, SlotBody.content?]

/-- An access that lowers a remaining count which stays above 0 keeps R73. -/
theorem leaseOk_lowered {v : ValueFields} {k : Nat} (h : v.leaseOk) (hk : k < v.remaining.val) :
    ({ v with remaining := lowerTicks v.remaining k } : ValueFields).leaseOk := by
  obtain ⟨h1, h2⟩ := h
  rw [Fin.le_def] at h1
  refine ⟨by simp only [Fin.le_def, lowerTicks]; omega, ?_⟩
  simp only [h2, lowerTicks, Fin.ext_iff, Fin.val_zero]
  omega

theorem leaseOk_restarted {v : ValueFields} (h : v.quality = .good) (hr : v.remaining = v.interval) : v.leaseOk := by
  refine ⟨hr ▸ le_refl _, ?_⟩
  rw [h, hr]
  simp only [reduceCtorEq, Fin.lt_def, Fin.ext_iff, Fin.val_zero, false_iff]
  omega

theorem leaseOk_written {v : ValueFields} (h : v.leaseOk) (x : Word32) : (writtenFields v x).leaseOk := by
  by_cases hi : 0 < v.interval
  · exact leaseOk_restarted rfl (by simp [writtenFields, hi])
  · refine ⟨?_, ?_⟩
    · simpa [writtenFields, hi] using h.1
    · simp [writtenFields, hi]

theorem leaseOk_expired {v : ValueFields} (hi : 0 < v.interval) (hr : v.remaining = 0) : (expiredFields v).leaseOk := by
  refine ⟨?_, ?_⟩
  · simp [expiredFields, hr]
  · simp [expiredFields, hi, hr]

theorem leasesOk_setRecord {t : Table} {i : Slot} {r : Record} (h : t.leasesOk) (hr : r.leaseOk) :
    (t.setRecord i r).leasesOk := by
  intro j
  by_cases e : j = i
  · subst e; simpa using hr
  · simpa [e] using h j

theorem leasesOk_of_records {t t' : Table} (h : t.leasesOk) (hr : ∀ i, t'.record i = t.record i) : t'.leasesOk :=
  fun i => by rw [hr i]; exact h i

theorem leasesOk_value {t : Table} (h : t.leasesOk) {i : Slot} {v : ValueFields}
    (hb : (t.record i).body = .live (.value v)) : v.leaseOk := h i v (by rw [hb]; rfl)

/-- A request's table work keeps R73: a write and a Refresh restart the lease, a creation starts it (R18, R55, R64). -/
theorem leasesOk_change {t t' : Table} {w w' : Sweep} (h : t.leasesOk) (hc : TableChange t w t' w') : t'.leasesOk := by
  cases hc with
  | none => exact h
  | written i v x hb => exact leasesOk_setRecord h (leaseOk_value.2 (leaseOk_written (leasesOk_value h hb) x))
  | refreshed i v hb hi => exact leasesOk_setRecord h (leaseOk_value.2 (leaseOk_restarted rfl rfl))
  | created i rest c hf hk =>
    refine leasesOk_setRecord h ?_
    rcases hk with ⟨x, n, rfl⟩ | ⟨f, rfl⟩
    · exact leaseOk_value.2 (leaseOk_restarted rfl rfl)
    · intro v hv; cases hv
  | retired i c hb hq => exact leasesOk_setRecord h fun v hv => h i v (by rw [hb]; exact hv)
  | replaced | subscribed | unsubscribed | mapped | unmapped => exact leasesOk_of_records h fun _ => rfl

theorem leasesOk_cleared : Table.cleared.leasesOk := fun i v hv => by
  rw [cleared_record] at hv; cases hv

/-! ### The visits of a lease access -/

/-- The record at which an access stops expires, and no record from `lo` to it does (R71, R72). -/
theorem nextExpiring_some {t : Table} {k lo : Nat} {i : Slot} (h : t.nextExpiring k lo = some i) :
    lo ≤ i.val ∧ (t.record i).expires k = true ∧
    ∀ j : Slot, lo ≤ j.val → j < i → (t.record j).expires k = false := by
  obtain ⟨hp, n, hn, he, hb⟩ := List.find?_eq_some_iff_getElem.1 h
  simp only [List.getElem_finRange] at he hb
  simp only [Bool.and_eq_true, decide_eq_true_eq] at hp
  refine ⟨hp.1, hp.2, fun j hj hlt => ?_⟩
  have hjn : j.val < n := by rw [← he] at hlt; exact hlt
  have := hb j.val hjn
  simpa [hj] using this

theorem nextExpiring_none {t : Table} {k lo : Nat} (h : t.nextExpiring k lo = none) (j : Slot) (hj : lo ≤ j.val) :
    (t.record j).expires k = false := by
  have := List.find?_eq_none.1 h j (List.mem_finRange j)
  simpa [hj] using this

/-- A visit that brings no record to 0 keeps R73. -/
theorem leaseOk_visited {k : Nat} {r : Record} (h : r.leaseOk) (he : r.expires k = false) : (r.visited k).leaseOk := by
  rcases r with ⟨g, _ | (v | f) | c⟩
  · exact h
  · by_cases hc : 0 < v.interval ∧ 0 < v.remaining
    · have hk : k < v.remaining.val := by simpa [Record.expires, hc.1, hc.2] using he
      simp only [Record.visited, if_pos hc]
      exact leaseOk_value.2 (leaseOk_lowered (leaseOk_value.1 h) hk)
    · simp only [Record.visited, if_neg hc]; exact h
  · exact h
  · exact h

/-- The visit of a record that expires brings it to 0. -/
theorem visited_of_expires {k : Nat} {r : Record} (he : r.expires k = true) :
    ∃ v, (r.visited k).body = .live (.value v) ∧ 0 < v.interval ∧ v.remaining = 0 := by
  rcases r with ⟨g, _ | (v | f) | c⟩ <;> simp only [Record.expires, Bool.false_eq_true] at he
  simp only [Bool.and_eq_true, decide_eq_true_eq] at he
  obtain ⟨⟨hi, hr⟩, hk⟩ := he
  refine ⟨{ v with remaining := lowerTicks v.remaining k }, by simp [Record.visited, hi, hr], hi, ?_⟩
  simp only [lowerTicks, Fin.ext_iff, Fin.val_zero]
  omega

/-! ### Every step -/

/-- Where no expiry is due, the invariant speaks of every record. -/
theorem freshInv_of_leasesOk {s : State} (hl : s.tableValid → s.table.leasesOk) (hd : ∀ i, ¬s.expiryDue i) : s.FreshInv :=
  fun hv => ⟨fun i v hc _ => hl hv i v hc, fun i h => absurd h (hd i)⟩

theorem State.FreshInv.leasesOk {s : State} (h : s.FreshInv) (hd : ∀ i, ¬s.expiryDue i) (hv : s.tableValid) :
    s.table.leasesOk :=
  fun i v hc => (h hv).1 i v hc (hd i)

/-- An effect that leaves the records and a due expiry alone. -/
theorem freshInv_frame {s t : State} (h : s.FreshInv) (hr : t.rstn = s.rstn ∧ t.initialising = s.initialising)
    (ht : t.table = s.table) (hd : ∀ i, t.expiryDue i ↔ s.expiryDue i) : t.FreshInv := by
  intro hv
  rw [State.tableValid, hr.1, hr.2] at hv
  simp only [hd, ht]
  exact h hv

theorem freshInv_outer {s t : State} (h : s.FreshInv) (ho : t.outer = s.outer) (ht : t.table = s.table)
    (hd : ∀ i, t.expiryDue i ↔ s.expiryDue i) : t.FreshInv :=
  freshInv_frame h ⟨outer_rstn ho, outer_initialising ho⟩ ht hd

/-- An access that goes on stops at the first record that it brings to 0, or ends (R71, R72). -/
theorem freshInv_runAccess (k lo : Nat) (h : s.tableValid → s.table.leasesOk) : (runAccess k lo s).FreshInv := by
  unfold runAccess
  split
  · next i hn =>
    obtain ⟨hlo, hex, hbefore⟩ := nextExpiring_some hn
    intro hv
    refine ⟨fun j v hc hj => ?_, fun j hj => ?_⟩
    · have hji : j ≠ i := fun e => hj ⟨k, [], 0, by rw [e]⟩
      simp only [record_visit] at hc
      split at hc
      · next hr =>
        have hlt : j < i := lt_of_le_of_ne (Fin.le_def.2 hr.2) hji
        exact leaseOk_visited (h hv j) (hbefore j hr.1 hlt) v hc
      · exact h hv j v hc
    · obtain ⟨_, _, _, hg⟩ := hj
      cases hg
      simp only [record_visit, hlo, le_refl, and_self, if_true]
      exact visited_of_expires hex
  · next hn =>
    refine freshInv_of_leasesOk (fun hv j => ?_) (endGrant_not_expiryDue _)
    have hv' := (tableValid_of_outer (endGrant_outer _)).1 hv
    rw [endGrant_table, record_visit]
    split
    · next hr => exact leaseOk_visited (h hv' j) (nextExpiring_none hn j hr.1)
    · exact h hv' j

theorem freshInv_carryExpiry (pr : Progress) (k : Nat) (i : Slot) (as : List Arrival) (n : Nat)
    (h : s.tableValid → s.table.leasesOk) : (carryExpiry pr k i ⟨.lease k (.posting i), as, n⟩ s).FreshInv := by
  have hadv (pr : Progress) : (advance pr ⟨.lease k (.posting i), as, n⟩ s).tableValid →
      (advance pr ⟨.lease k (.posting i), as, n⟩ s).table.leasesOk := fun hv => by
    rw [advance_table]; exact h ((tableValid_of_outer (advance_outer ..)).1 hv)
  cases pr with
  | toEnd => simp only [carryExpiry]; exact freshInv_runAccess _ k _ (hadv .toEnd)
  | arrivals m =>
    exact freshInv_of_leasesOk (hadv (.arrivals m)) (not_expiryDue_of_grant (advance_grant ..) (fun _ _ h => by cases h))

/-- The expiry made, every record keeps R73 (R72). -/
theorem leasesOk_expire {s : State} {i : Slot} (h : s.FreshInv) (hi : s.expiryDue i) (hv : s.tableValid) :
    (s.table.expire i).leasesOk := by
  obtain ⟨h1, h2⟩ := h hv
  obtain ⟨v, hb, hpos, hz⟩ := h2 i hi
  unfold Table.expire
  rw [hb]
  intro j
  by_cases e : j = i
  · subst e
    rw [record_setRecord_self]; exact leaseOk_value.2 (leaseOk_expired hpos hz)
  · rw [record_setRecord_ne _ _ _ e]
    refine fun u hu => h1 j u hu fun hj => e ?_
    obtain ⟨_, _, _, hgi⟩ := hi
    obtain ⟨_, _, _, hgj⟩ := hj
    rw [hgi] at hgj; cases hgj; rfl

theorem Effect.freshInv {s t : State} (e : Effect s t) (hq : s.QuietInv) (h : s.FreshInv) : t.FreshInv := by
  -- a grant that is no expiry's: every record keeps R73
  have ok {g : Grant} (hg : s.arbiter.grant = some g) (hn : ∀ k i, g.holder ≠ .lease k (.expiring i)) :
      s.tableValid → s.table.leasesOk := h.leasesOk (not_expiryDue_of_grant hg hn)
  have ok' {g : Grant} (hg : s.arbiter.grant = some g) (hn : ∀ k i, g.holder ≠ .lease k (.expiring i)) {u : State}
      (ho : u.outer = s.outer) (hr : s.table.leasesOk → u.table.leasesOk) : u.tableValid → u.table.leasesOk :=
    fun hv => hr (ok hg hn ((tableValid_of_outer ho).1 hv))
  cases e with
  | stays | refclk | divider | link | prstPin | prstRise => exact freshInv_frame h ⟨rfl, rfl⟩ rfl fun _ => Iff.rfl
  | answered p x hd v hx | drained p x hd v m hx | acknowledged p x hd v m hx | leaseControl p x hd v l hx =>
    exact freshInv_outer h (respond_outer ..) (respond_table ..) (expiryDue_of_grant (by rw [respond_arbiter]; rfl))
  | tick => exact freshInv_outer h (arbitrate_outer _) (arbitrate_table _) (arbitrate_expiryDue _)
  | detach p q x hd v hx =>
    exact freshInv_outer h (by simp) (by simp) fun i =>
      (markDetachment_expiryDue _ q i).trans (expiryDue_of_grant (by simp) i)
  | claim p x hd r hx => exact freshInv_outer h (by simp) (by simp) (arbitrate_expiryDue _)
  | request pr p w d as n hc hg =>
    refine freshInv_of_leasesOk (ok' hg (fun _ _ h => by cases h) (by simp) fun hl => ?_)
      (carryRequest_not_expiryDue _ _ _ _ _ _ _ _)
    rw [carryRequest_table]; exact leasesOk_change hl (tableWork_change s p w.request)
  | requestOn pr p w d v as n hc hg =>
    refine freshInv_of_leasesOk (ok' hg (fun _ _ h => by cases h) (by simp) fun hl => ?_)
      (carryRequest_not_expiryDue _ _ _ _ _ _ _ _)
    rw [carryRequest_table]; exact hl
  | access k as n hc hg => exact freshInv_runAccess s k 0 (ok hg fun _ _ h => by cases h)
  | expiry pr k i as n hc hg => exact freshInv_carryExpiry _ pr k i _ _ (leasesOk_expire h ⟨k, as, n, hg⟩)
  | expiryOn pr k i as n hc hg => exact freshInv_carryExpiry s pr k i as n (ok hg fun _ _ h => by cases h)
  | stepV pr i x as n hc hg hj =>
    refine freshInv_of_leasesOk (ok' hg (fun _ _ h => by cases h) (carryStep_outer ..) fun hl => ?_)
      (carryStep_not_expiryDue _ _ _ _ _)
    rw [carryStep_table]; exact leasesOk_of_records hl fun _ => rfl
  | stepS pr i as n hc hg hj =>
    refine freshInv_of_leasesOk (ok' hg (fun _ _ h => by cases h) (carryStep_outer ..) fun hl => ?_)
      (carryStep_not_expiryDue _ _ _ _ _)
    rw [carryStep_table]
    refine leasesOk_of_records hl fun _ => ?_
    simp only [listStepTable]
    split <;> rfl
  | stepOn pr i st next as n hc hg hj hn =>
    refine freshInv_of_leasesOk (ok' hg (fun _ _ h => by cases h) (by simp) fun hl => ?_)
      (carryStep_not_expiryDue _ _ _ _ _)
    rw [carryStep_table]; exact hl
  | stepF c i worked as n hc hg hj =>
    refine freshInv_of_leasesOk (ok' hg (fun _ _ h => by cases h) (endJob_outer ..) fun hl => ?_) (endJob_not_expiryDue _ c)
    rw [endJob_table]
    exact leasesOk_setRecord hl fun v hv => by cases hv
  | stepD1 p worked as n hc hg hj =>
    refine freshInv_of_leasesOk (ok' hg (fun _ _ h => by cases h) (endGrant_outer _) fun hl => ?_) (endGrant_not_expiryDue _)
    rw [endGrant_table]; exact leasesOk_of_records hl fun _ => rfl
  | stepD2 p hj => exact freshInv_outer h (arbitrate_outer _) (arbitrate_table _) (arbitrate_expiryDue _)
  | prstInit p hr hi => exact freshInv_outer h (by simp) (by simp) (resetPort_expiryDue s p)
  | prstFall p hr hi hp =>
    exact freshInv_outer h (by simp) (by simp) fun i => (markDetachment_expiryDue _ p i).trans (resetPort_expiryDue s p i)
  | rstnFall => exact fun hv => by cases hv.1
  | rstnRelease => exact fun hv => by cases hv.2
  | initialised hi hc =>
    have hg : s.arbiter.grant = none := by rw [(hq.1 (.inr hi)).1]; rfl
    exact freshInv_of_leasesOk (fun _ => leasesOk_cleared) (not_expiryDue_of_none hg)

/-- Settles O16, one case for each effect of a step: a lease access stops at each record that it brings to 0, and until the
expiry is made no other grant's work can be done. -/
theorem freshnessKept : Obligations.FreshnessKept := by
  intro s t hq h hst
  obtain ⟨rest, e⟩ := step_effect hst
  exact e.freshInv hq h

end Sys2Proof.Machine


/-! ## Reset and initialisation (R16, R116, R134, R158, R159) -/
namespace Sys2Proof.Machine

variable (s : State) (p q : Port)

/-- Nothing of a port's work, queue and condition block stands (R134, R159). -/
def PortState.quiet (x : PortState) : Prop := x.work = none ∧ x.queue = [] ∧ x.conditions = .none ∧ x.record = none

/-- Nothing is held at a port and no transaction is under way (R158). -/
def PortState.still (x : PortState) : Prop := x.held = none ∧ x.noTransaction

theorem not_unready_iff : ¬s.unready ↔ s.tableValid := by
  rw [State.unready, State.tableValid]
  cases s.rstn <;> cases s.initialising <;> simp

/-- Outside reset and initialisation the invariant says nothing. -/
theorem quietInv_of_valid {s : State} (h : s.tableValid) : s.QuietInv :=
  have hn := (not_unready_iff s).2 h
  ⟨fun hu => absurd hu hn, fun hr => absurd (.inl hr) hn⟩

/-- Where a grant stands, RSTn is high and the initialiser does not run (R16). -/
theorem State.QuietInv.valid_of_grant {s : State} (h : s.QuietInv) {g : Grant} (hg : s.arbiter.grant = some g) :
    s.tableValid := by
  refine (not_unready_iff s).1 fun hu => ?_
  rw [(h.1 hu).1] at hg
  cases hg

/-- So it is where a job is current (R116). -/
theorem State.QuietInv.valid_of_job {s : State} (h : s.QuietInv) {j : Job} (hj : s.sweep.job = some j) : s.tableValid := by
  refine (not_unready_iff s).1 fun hu => ?_
  rw [(h.1 hu).2.1] at hj
  cases hj

theorem quietInv_of_outer_valid {s t : State} (ho : t.outer = s.outer) (h : s.tableValid) : t.QuietInv :=
  quietInv_of_valid ((tableValid_of_outer ho).2 h)

theorem receives_rstn {x : PortState} (hx : s.receives p x) : s.rstn = .high := framed_rstn s p hx.1

/-- A change at one port that keeps it quiet and still. -/
theorem quietInv_setPort {s : State} {p : Port} {x : PortState} (h : s.QuietInv)
    (hq : s.unready → (s.port p).quiet → x.quiet) (hs : s.rstn = .low → (s.port p).still → x.still) :
    (s.setPort p x).QuietInv := by
  refine ⟨fun hu => ?_, fun hr => ?_⟩
  · obtain ⟨h1, h2, h3, h4⟩ := h.1 hu
    refine ⟨h1, h2, h3, fun q => ?_⟩
    by_cases e : q = p
    · subst e; rw [port_setPort_self]; exact hq hu (h4 q)
    · rw [port_setPort_ne _ _ _ e]; exact h4 q
  · obtain ⟨h1, h2⟩ := h.2 hr
    refine ⟨h1, fun q => ?_⟩
    by_cases e : q = p
    · subst e; rw [port_setPort_self]; exact hs hr (h2 q)
    · rw [port_setPort_ne _ _ _ e]; exact h2 q

theorem mayRaise_unready {c : Conditions} (h : s.mayRaise p c) (hu : s.unready) : c = (s.port p).conditions := by
  rcases h with h | ⟨hv, -⟩
  · exact h
  · exact absurd hu ((not_unready_iff s).2 hv)

theorem quietInv_linkMoves {s : State} {p : Port} {x : PortState} (h : s.QuietInv) (hx : s.linkMoves p x) :
    (s.setPort p x).QuietInv := by
  obtain ⟨sel, out, hd, c, hc, rfl, hm⟩ := hx
  refine quietInv_setPort h (fun hu hp => ?_) (fun hr hp => ?_)
  · rw [mayRaise_unready s p hc hu]; exact hp
  · rcases hm with ⟨hsel, rfl⟩ | ⟨hh, -⟩
    · exact ⟨hp.1, hsel⟩
    · rw [hears_rstn s p hh] at hr; cases hr

/-- While the initialiser runs an answer captures nothing (R134). -/
theorem quietInv_answered {s : State} {p : Port} {x : PortState} (h : s.QuietInv) (hx : s.receives p x) (hd : Head)
    (v : Verdict) : (respond p hd v 0 (s.setPort p x)).QuietInv := by
  have hr := receives_rstn s p hx
  obtain ⟨-, -, out, c, hc, rfl⟩ := hx
  cases hi : s.initialising with
  | false => exact quietInv_of_outer_valid (respond_outer ..) ⟨hr, hi⟩
  | true =>
    have hu : s.unready := .inr hi
    have hcap (r : RefusalRecord) (t : State) (ht : t.initialising = true) : capture p r t = t := by simp [capture, ht]
    simp only [respond, hcap _ _ (show (s.setPort p _).initialising = true from hi), ite_self, port_setPort_self,
      setPort_setPort]
    refine quietInv_setPort h (fun _ hp => ?_) (fun hr' _ => by rw [hr] at hr'; cases hr')
    obtain ⟨-, h2, h3, h4⟩ := hp
    exact ⟨rfl, h2, (mayRaise_unready s p hc hu).trans h3, h4⟩

theorem resetPort_initialising (h : s.QuietInv) (hr : s.rstn = .high) (hi : s.initialising = true) :
    (resetPort p s).QuietInv := by
  obtain ⟨h1, h2, h3, h4⟩ := h.1 (.inr hi)
  have hcl : s.arbiter.claims.get p = false := by rw [h1]; simp [Arbiter.powerOn]
  have hw : withdrawClaim p s = s := by simp [withdrawClaim, hcl]
  have hg : s.arbiter.grant = none := by rw [h1]; rfl
  have ha : (resetPort p s).arbiter = .powerOn := by simp [resetPort, hw, h1, Arbiter.powerOn]
  refine ⟨fun _ => ⟨ha, ?_, ?_, fun q => ?_⟩, fun hl => ?_⟩
  · rw [resetPort_sweep]; exact h2
  · rw [resetPort_lease]; exact h3
  · have hp : (resetPort p s).port q = (s.setPort p (resetLink (s.port p))).port q := by rw [resetPort, hw]; rfl
    rw [hp]
    by_cases e : q = p
    · subst e; rw [port_setPort_self]; exact ⟨rfl, (h4 q).2⟩
    · rw [port_setPort_ne _ _ _ e]; exact h4 q
  · rw [outer_rstn (resetPort_outer s p), hr] at hl; cases hl

theorem abandoned_noTransaction (x : SelectState) : x.abandoned = .high ∨ x.abandoned = .low := by
  unfold SelectState.abandoned; split <;> simp

theorem Effect.quietInv {s t : State} (e : Effect s t) (h : s.QuietInv) : t.QuietInv := by
  cases e with
  | stays | refclk => exact h
  | divider => exact h
  | tick hc hi => exact quietInv_of_outer_valid (arbitrate_outer _) ⟨((clocked_iff s).1 hc).1, hi⟩
  | link p x hx => exact quietInv_linkMoves h hx
  | answered p x hd v hx => exact quietInv_answered h hx hd v
  | drained p x hd v m hx hi | acknowledged p x hd v m hx hi | leaseControl p x hd v l hx hi =>
    exact quietInv_of_outer_valid (respond_outer ..) ⟨receives_rstn s p hx, hi⟩
  | detach p q x hd v hx hi => exact quietInv_of_outer_valid (by simp) ⟨receives_rstn s p hx, hi⟩
  | claim p x hd r hx hi => exact quietInv_of_outer_valid (by simp) ⟨receives_rstn s p hx, hi⟩
  | request pr p w d as n hc hg => exact quietInv_of_outer_valid (by simp) (h.valid_of_grant hg)
  | requestOn pr p w d v as n hc hg => exact quietInv_of_outer_valid (by simp) (h.valid_of_grant hg)
  | access k as n hc hg => exact quietInv_of_outer_valid (by simp) (h.valid_of_grant hg)
  | expiry pr k i as n hc hg => exact quietInv_of_outer_valid (carryExpiry_outer ..) (h.valid_of_grant hg)
  | expiryOn pr k i as n hc hg => exact quietInv_of_outer_valid (by simp) (h.valid_of_grant hg)
  | stepV pr i x as n hc hg hj => exact quietInv_of_outer_valid (carryStep_outer ..) (h.valid_of_grant hg)
  | stepS pr i as n hc hg hj => exact quietInv_of_outer_valid (carryStep_outer ..) (h.valid_of_grant hg)
  | stepOn pr i st next as n hc hg hj hn => exact quietInv_of_outer_valid (by simp) (h.valid_of_grant hg)
  | stepF c i worked as n hc hg hj => exact quietInv_of_outer_valid (endJob_outer ..) (h.valid_of_grant hg)
  | stepD1 p worked as n hc hg hj => exact quietInv_of_outer_valid (endGrant_outer _) (h.valid_of_grant hg)
  | stepD2 p hj => exact quietInv_of_outer_valid (arbitrate_outer _) (h.valid_of_job hj)
  | prstPin p hr => exact quietInv_setPort h (fun _ hp => hp) (fun _ hp => hp)
  | prstInit p hr hi => exact resetPort_initialising s p h hr hi
  | prstFall p hr hi hp => exact quietInv_of_outer_valid (by simp) ⟨hr, hi⟩
  | prstRise p => exact quietInv_setPort h (fun _ hp => hp) (fun _ hp => hp)
  | rstnFall hr =>
    refine ⟨fun _ => ⟨rfl, rfl, rfl, fun q => ?_⟩, fun _ => ⟨rfl, fun q => ?_⟩⟩
    · cases q <;> exact ⟨rfl, rfl, rfl, rfl⟩
    · cases q <;> exact ⟨rfl, abandoned_noTransaction _⟩
  | rstnRelease hr => exact ⟨fun _ => h.1 (.inl hr), fun hl => by cases hl⟩
  | initialised hi hc => exact quietInv_of_valid ⟨((clocked_iff s).1 hc).1, rfl⟩

/-- Settles O8, one case for each effect of a step: with RSTn low or the initialiser running there is no grant, no claim and no
job, so only the links and the divider can act. -/
theorem resetQuietnessKept : Obligations.ResetQuietnessKept := by
  intro s t h hst
  obtain ⟨rest, e⟩ := step_effect hst
  exact e.quietInv h

/-! ### The reset state -/

@[simp] theorem reset_port : State.reset.port p = .powerOn := PerPort.get_replicate _ p

theorem reset_not_valid : ¬State.reset.tableValid := fun h => by cases h.1

theorem reset_quietInv : State.reset.QuietInv :=
  ⟨fun _ => ⟨rfl, rfl, rfl, fun p => by simp [PortState.powerOn]⟩,
    fun _ => ⟨rfl, fun p => by simp [PortState.powerOn, PortState.noTransaction]⟩⟩

theorem reset_linkInv : State.reset.LinkInv := by
  intro p
  have hc : State.reset.arbiter.claims.get p = false := PerPort.get_replicate _ p
  have hg : State.reset.arbiter.grant = none := rfl
  have hw : PortState.powerOn.work = none := rfl
  simp only [reset_port, State.servedNow, hc, hg, hw]
  refine ⟨fun _ => rfl, by simp, by simp, by simp, by simp [PortState.powerOn], ?_⟩
  exact transactionOk_of_not_under_way (fun _ h => by cases h) (fun _ _ h => by cases h)

theorem reset_leaseInv : State.reset.LeaseInv := by
  refine ⟨by decide, by decide, fun _ => rfl, by decide, fun k st as n h => ?_⟩
  cases h

theorem reset_sweepInv : State.reset.SweepInv := by
  have hf (p : Port) : State.reset.sweep.flags.get p = false := PerPort.get_replicate _ p
  have ha (p : Port) : State.reset.sweep.attachment.get p = .attached := PerPort.get_replicate _ p
  have hj : State.reset.sweep.job = none := rfl
  have hg : State.reset.arbiter.grant = none := rfl
  have hc : State.reset.sweep.claim = false ∧ State.reset.sweep.choiceDue = false := ⟨rfl, rfl⟩
  refine ⟨by decide, ?_, ?_, ?_, ?_, fun _ _ => ⟨rfl, hf⟩, ?_, ?_, ?_⟩ <;> simp [State.sweepHolds, hf, ha, hj, hg, hc]

/-- Settles O7: every block is at its power-on value, and no invariant speaks of a table memory that is not valid. -/
theorem resetMeetsInvariants : Obligations.ResetMeetsInvariants := by
  have novalid {P : Prop} : State.reset.tableValid → P := fun h => absurd h reset_not_valid
  refine ⟨reset_quietInv, fun p => ?_, fun p => ?_, reset_linkInv, reset_leaseInv, reset_sweepInv, novalid, novalid, novalid,
    novalid, novalid⟩
  · rw [reset_port]
    exact ⟨by simp [PortState.powerOn], List.Pairwise.nil, fun e h => by cases h⟩
  · rw [reset_port]; rfl

end Sys2Proof.Machine


/-! ## Links and claims (R13, R145, R154) -/
namespace Sys2Proof.Machine

variable (s : State) (p q : Port)

/-! ### The link invariant at one port -/

/-- What `State.LinkInv` says of a port with state `x`: `c` is its claim, and `served` the request that has the grant. -/
def PortState.inOrder (x : PortState) (c : Bool) (served : Work → Prop) : Prop :=
  (x.work.isSome → x.held = none) ∧ (c = true → x.work.isSome) ∧ (∀ w, served w → x.work = some w ∧ c = false) ∧
  (∀ w, x.work = some w → c = true ∨ served w) ∧
  (x.prst = .low → x.noTransaction ∧ x.work = none ∧ x.held = none) ∧ x.transactionOk

theorem linkInv_iff : s.LinkInv ↔ ∀ p, (s.port p).inOrder (s.arbiter.claims.get p) (s.servedNow p) := Iff.rfl

theorem inOrder_served {x : PortState} {c : Bool} {f g : Work → Prop} (h : x.inOrder c f) (hfg : ∀ w, g w ↔ f w) :
    x.inOrder c g := by
  rwa [show g = f from funext fun w => propext (hfg w)]

theorem transactionOk_of_noTransaction {x : PortState} (h : x.noTransaction) : x.transactionOk :=
  transactionOk_of_not_under_way (fun n e => by rcases h with h | h <;> rw [h] at e <;> cases e)
    (fun n d e => by rcases h with h | h <;> rw [h] at e <;> cases e)

/-- A port with no request in work and no transaction under way, and nothing held under a low PRST. -/
theorem inOrder_of_no_work {x : PortState} {served : Work → Prop} (hw : x.work = none) (hx : x.noTransaction)
    (hs : ∀ w, ¬served w) (hl : x.prst = .low → x.held = none) : x.inOrder false served := by
  refine ⟨fun h => ?_, fun h => (by cases h), fun w h => absurd h (hs w), fun w h => ?_, fun h => ⟨hx, hw, hl h⟩,
    transactionOk_of_noTransaction hx⟩
  · rw [hw] at h; cases h
  · rw [hw] at h; cases h

theorem linkInv_no_claim {s : State} {p : Port} (h : s.LinkInv) (hw : (s.port p).work = none) :
    s.arbiter.claims.get p = false := by
  obtain ⟨-, hc, -⟩ := h p
  cases e : s.arbiter.claims.get p
  · rfl
  · rw [hw] at hc; cases hc e

theorem linkInv_not_served {s : State} {p : Port} (h : s.LinkInv) (hw : (s.port p).work = none) (w : Work) :
    ¬s.servedNow p w := fun hs => by
  obtain ⟨-, -, hs', -⟩ := h p
  rw [hw] at hs'; cases (hs' w hs).1

theorem not_servedNow_of_none {s : State} (h : s.arbiter.grant = none) (p : Port) (w : Work) : ¬s.servedNow p w := by
  rintro ⟨v, as, n, hg⟩
  rw [h] at hg; cases hg

theorem not_servedNow_of_grant {s : State} {g : Grant} (h : s.arbiter.grant = some g)
    (hn : ∀ v, g.holder ≠ .port p w false v) : ¬s.servedNow p w := by
  rintro ⟨v, as, n, hg⟩
  rw [h] at hg; cases hg; exact hn v rfl

theorem servedNow_of_grant {s t : State} (h : t.arbiter.grant = s.arbiter.grant) (p : Port) (w : Work) :
    t.servedNow p w ↔ s.servedNow p w := by
  rw [State.servedNow, State.servedNow, h]

/-- Another port's request is not served while `p`'s has the grant. -/
theorem not_servedNow_other {s : State} {w : Work} {d : Bool} {v : Option Verdict} {as : List Arrival} {n : Nat}
    (hg : s.arbiter.grant = some ⟨.port p w d v, as, n⟩) {q : Port} (hq : q ≠ p) (w' : Work) : ¬s.servedNow q w' :=
  not_servedNow_of_grant q hg fun v' e => by cases e; exact hq rfl

/-! ### Operations that keep it -/

/-- The link part of every port stands: only queues, conditions and refusal records may differ (R101, R134). -/
def State.sameLinks (s t : State) : Prop :=
  t.arbiter.claims = s.arbiter.claims ∧
  ∀ p, ∃ es c r, t.port p = { s.port p with queue := es, conditions := c, record := r }

theorem sameLinks_of_ports {s t : State} (hc : t.arbiter.claims = s.arbiter.claims) (hp : t.ports = s.ports) :
    s.sameLinks t := ⟨hc, fun p => ⟨_, _, _, by rw [State.port, hp]; rfl⟩⟩

theorem sameLinks_inOrder {s t : State} (h : s.sameLinks t) {p : Port} {served : Work → Prop}
    (hp : (s.port p).inOrder (s.arbiter.claims.get p) served) :
    (t.port p).inOrder (t.arbiter.claims.get p) served := by
  obtain ⟨hc, hs⟩ := h
  obtain ⟨es, c, r, e⟩ := hs p
  rw [e, hc]; exact hp

theorem linkInv_sameLinks {s t : State} (h : s.LinkInv) (hl : s.sameLinks t)
    (hs : ∀ p w, t.servedNow p w ↔ s.servedNow p w) : t.LinkInv :=
  fun p => inOrder_served (sameLinks_inOrder hl (h p)) (hs p)

theorem sameLinks_advance (pr : Progress) (g : Grant) : s.sameLinks (advance pr g s) := by
  refine ⟨congrArg (·.claims) (core_iff.1 (takeArrivals_core s (takenBy pr g.arrivals))).2.1, fun p => ?_⟩
  obtain ⟨es, c, e, -⟩ := takeArrivals_port s p (takenBy pr g.arrivals)
  exact ⟨es, c, _, e⟩

theorem linkInv_setPort {s : State} {p : Port} {x : PortState} (h : s.LinkInv)
    (hx : (s.port p).inOrder (s.arbiter.claims.get p) (s.servedNow p) →
      x.inOrder (s.arbiter.claims.get p) (s.servedNow p)) : (s.setPort p x).LinkInv := by
  intro q
  by_cases e : q = p
  · subst e; rw [port_setPort_self]; exact hx (h q)
  · rw [port_setPort_ne _ _ _ e]; exact h q

/-- The beginning of a grant keeps the discipline: a request's claim ends where its grant begins (R13, R14). -/
theorem linkInv_beginGrant (r : Requester) (h : s.LinkInv) (hg : s.arbiter.grant = none) : (beginGrant r s).LinkInv := by
  have none_served (q : Port) (w : Work) : ¬s.servedNow q w := not_servedNow_of_none hg q w
  have unserved {t : State} (hl : s.sameLinks t) (hn : ∀ q w, ¬t.servedNow q w) : t.LinkInv :=
    linkInv_sameLinks h hl fun q w => iff_of_false (hn q w) (none_served q w)
  cases r with
  | lease => exact unserved (sameLinks_of_ports rfl rfl) fun q w ⟨_, _, _, hg⟩ => by cases hg
  | sweep => exact unserved (sameLinks_of_ports rfl rfl) fun q w ⟨_, _, _, hg⟩ => by cases hg
  | port p =>
    simp only [beginGrant]
    split
    · next w hw =>
      intro q
      by_cases e : q = p
      · subst e
        obtain ⟨h1, -, -, -, h5, h6⟩ := h q
        refine ⟨h1, fun hc => ?_, fun w' hs => ?_, fun w' hw' => ?_, h5, h6⟩
        · rw [PerPort.get_set_self] at hc; cases hc
        · obtain ⟨_, _, _, hg'⟩ := hs
          cases hg'; exact ⟨hw, PerPort.get_set_self ..⟩
        · rw [show w' = w from Option.some.inj (hw'.symm.trans hw)]
          exact .inr ⟨_, _, _, rfl⟩
      · show (s.port q).inOrder _ _
        rw [PerPort.get_set_ne _ _ e]
        exact inOrder_served (h q) fun w' =>
          iff_of_false (not_servedNow_other p rfl e w') (none_served q w')
    · next hw =>
      have hcl : s.arbiter.claims.set p false = s.arbiter.claims := by
        rw [← linkInv_no_claim h hw, PerPort.set_get_self]
      rw [hcl]; exact h

theorem linkInv_arbitrate (h : s.LinkInv) : (arbitrate s).LinkInv := by
  rcases arbitrate_cases s with ⟨-, e⟩ | ⟨-, -, e⟩ | ⟨r, hg, -, -, e⟩ <;> rw [e]
  · exact h
  · exact h
  · exact linkInv_beginGrant s r h hg

/-- The end of a grant: with the grant gone, every port must be in order unserved. -/
theorem linkInv_endGrant (h : ∀ q, (s.port q).inOrder (s.arbiter.claims.get q) (fun _ => False)) :
    (endGrant s).LinkInv :=
  linkInv_arbitrate _ fun q => inOrder_served (h q) fun w => iff_of_false (not_servedNow_of_none rfl q w) id

/-- The end of a grant that serves no port. -/
theorem linkInv_endGrant_unserved {s t : State} (h : s.LinkInv) (hn : ∀ q w, ¬s.servedNow q w) (hl : s.sameLinks t) :
    (endGrant t).LinkInv :=
  linkInv_endGrant t fun q => sameLinks_inOrder hl (inOrder_served (h q) fun w => iff_of_false id (hn q w))

/-- A frame that is answered at once leaves its port with nothing in work and a response held (R145, R150). -/
theorem linkInv_answered {s t : State} {p : Port} {x : PortState} (h : s.LinkInv) (hx : s.receives p x)
    (ha : t.arbiter = s.arbiter) (hq : ∀ q, q ≠ p → t.port q = s.port q)
    (hp : (t.port p).work = none ∧ (t.port p).prst = x.prst ∧ (t.port p).select = x.select) : t.LinkInv := by
  obtain ⟨hf, hw, out, c, -, rfl⟩ := hx
  obtain ⟨hpw, hpp, hps⟩ := hp
  have hs (q : Port) (w : Work) : t.servedNow q w ↔ s.servedNow q w := servedNow_of_grant (by rw [ha]) q w
  intro q
  by_cases e : q = p
  · subst e
    show (t.port q).inOrder _ _
    rw [ha, linkInv_no_claim h hw]
    refine inOrder_of_no_work hpw (.inl hps) (fun w hw' => linkInv_not_served h hw w ((hs q w).1 hw')) fun hl => ?_
    rw [hpp, ((linkOn_iff s q).1 hf.1).2] at hl; cases hl
  · show (t.port q).inOrder _ _
    rw [ha, hq q e]; exact inOrder_served (h q) (hs q)

theorem linkInv_respond {s u : State} {p : Port} {x y : PortState} (h : s.LinkInv) (hx : s.receives p x) (hd : Head)
    (v : Verdict) (ha : u.arbiter = s.arbiter) (hq : ∀ q, q ≠ p → u.port q = s.port q) (hy : u.port p = y)
    (hyx : y.prst = x.prst ∧ y.select = x.select) : (respond p hd v 0 u).LinkInv := by
  obtain ⟨h1, -, -, h4, h5⟩ := respond_port_self u p hd v 0
  refine linkInv_answered h hx (by rw [respond_arbiter, ha]) (fun q e => by rw [respond_port_ne _ _ _ _ _ _ e, hq q e]) ?_
  rw [hy] at h4 h5
  exact ⟨h1, h4.trans hyx.1, h5.trans hyx.2⟩

/-- A claim withdrawn drops the request behind it, which is not the one being granted (R16). -/
theorem linkInv_withdrawClaim (h : s.LinkInv) : (withdrawClaim p s).LinkInv := by
  intro q
  have hs (w : Work) : (withdrawClaim p s).servedNow q w ↔ s.servedNow q w :=
    servedNow_of_grant (withdrawClaim_grant s p) q w
  show ((withdrawClaim p s).port q).inOrder _ _
  rw [withdrawClaim_port, withdrawClaim_arbiter]
  by_cases e : q = p
  · subst e
    rw [PerPort.get_set_self]
    obtain ⟨h1, h2, h3, h4, h5, h6⟩ := h q
    cases hc : s.arbiter.claims.get q with
    | true =>
      rw [if_pos ⟨rfl, rfl⟩]
      refine ⟨fun hw => (by cases hw), fun hf => (by cases hf), fun w hw => ?_, fun w hw => (by cases hw),
        fun hl => ⟨(h5 hl).1, rfl, (h5 hl).2.2⟩, h6⟩
      rw [hc] at h3; cases (h3 w ((hs w).1 hw)).2
    | false =>
      rw [if_neg (by simp)]
      exact inOrder_served (hc ▸ h q) hs
  · rw [if_neg (fun h => e h.1), PerPort.get_set_ne _ _ e]
    exact inOrder_served (h q) hs

/-- A table request raises its claim (R13). -/
theorem linkInv_raiseClaim {s : State} {p : Port} {x : PortState} (h : s.LinkInv) (hx : s.receives p x) (hd : Head)
    (r : Request) : (raiseClaim p hd r (s.setPort p x)).LinkInv := by
  obtain ⟨hf, hw, out, c, -, rfl⟩ := hx
  unfold raiseClaim
  refine linkInv_arbitrate _ fun q => ?_
  by_cases e : q = p
  · subst e
    refine inOrder_served (f := fun _ => False) ?_ fun w => iff_of_false (linkInv_not_served h hw w) id
    rw [PerPort.get_set_self]
    show (((s.setPort q _).setPort q _).port q).inOrder true _
    rw [port_setPort_self, port_setPort_self]
    refine ⟨fun _ => rfl, fun _ => rfl, fun w hs => hs.elim, fun w _ => .inl rfl, fun hl => ?_,
      transactionOk_of_noTransaction (.inl rfl)⟩
    rw [show _ = Line.high from ((linkOn_iff s q).1 hf.1).2] at hl; cases hl
  · rw [PerPort.get_set_ne _ _ e]
    show (((s.setPort p _).setPort p _).port q).inOrder _ _
    rw [port_setPort_ne _ _ _ e, port_setPort_ne _ _ _ e]
    exact h q

/-- A request's grant between its arrivals, or ended: its response is held, or discarded if PRST fell (R153, R154). -/
theorem linkInv_carryRequest (pr : Progress) (w : Work) (d : Bool) (v : Verdict) (o : Option Verdict)
    (as as' : List Arrival) (n n' : Nat) (h : s.LinkInv) (hg : s.arbiter.grant = some ⟨.port p w d o, as', n'⟩) :
    (carryRequest pr p w d v as n s).LinkInv := by
  set u := advance pr ⟨.port p w d (some v), as, n⟩ s with hu
  have hl : s.sameLinks u := sameLinks_advance ..
  have hgu : u.arbiter.grant = some ⟨.port p w d (some v), _, _⟩ := advance_grant ..
  have hs (q : Port) (w' : Work) : u.servedNow q w' ↔ s.servedNow q w' := by
    simp only [State.servedNow, hgu, hg, Option.some.injEq, Grant.mk.injEq, Holder.port.injEq]
    constructor
    · rintro ⟨_, _, _, ⟨rfl, rfl, rfl, -⟩, -⟩; exact ⟨_, _, _, ⟨rfl, rfl, rfl, rfl⟩, rfl, rfl⟩
    · rintro ⟨_, _, _, ⟨rfl, rfl, rfl, -⟩, -⟩; exact ⟨_, _, _, ⟨rfl, rfl, rfl, rfl⟩, rfl, rfl⟩
  have hui : u.LinkInv := linkInv_sameLinks h hl hs
  cases pr with
  | arrivals m => exact hui
  | toEnd =>
    have others (q : Port) (e : q ≠ p) : (u.port q).inOrder (u.arbiter.claims.get q) (fun _ => False) :=
      inOrder_served (hui q) fun w' => iff_of_false id (not_servedNow_other p hgu e w')
    cases d with
    | true =>
      refine linkInv_endGrant _ fun q => inOrder_served (hui q) fun w' => iff_of_false id ?_
      exact not_servedNow_of_grant q hgu fun v' e => by cases e
    | false =>
      refine linkInv_endGrant _ fun q => ?_
      simp only [Bool.false_eq_true, if_false, respond_arbiter]
      by_cases e : q = p
      · subst e
        obtain ⟨hw', hh', -, hp', hsel'⟩ := respond_port_self u q w.head v (n + arrivalsRemove as s)
        obtain ⟨h1, -, h3, -, h5, h6⟩ := hui q
        obtain ⟨hwork, hc⟩ := h3 w ⟨_, _, _, hgu⟩
        have hheld : (u.port q).held = none := h1 (by rw [hwork]; rfl)
        rw [hc]
        refine ⟨fun h => ?_, fun h => (by cases h), fun _ h => h.elim, fun w' h => ?_, fun h => ?_, fun m h => ?_,
          fun m dl h => ⟨(h6.2 m dl (hsel' ▸ h)).1, fun r hr hlt => ?_⟩⟩
        · rw [hw'] at h; cases h
        · rw [hw'] at h; cases h
        · rw [hp'] at h; rw [(h5 h).2.1] at hwork; cases hwork
        · exact h6.1 m (hsel' ▸ h)
        · have := (h6.2 m dl (hsel' ▸ h)).2 r hr hlt
          rw [hheld] at this; cases this
      · rw [respond_port_ne _ _ _ _ _ _ e]; exact others q e

theorem linkInv_runAccess (k lo : Nat) (h : s.LinkInv) (hn : ∀ q w, ¬s.servedNow q w) : (runAccess k lo s).LinkInv := by
  unfold runAccess
  split
  · exact linkInv_sameLinks h (sameLinks_of_ports rfl rfl) fun q w =>
      iff_of_false (fun ⟨_, _, _, hg⟩ => by cases hg) (hn q w)
  · exact linkInv_endGrant_unserved h hn (sameLinks_of_ports rfl rfl)

/-- The arrivals of a grant that serves no port. -/
theorem linkInv_advance (pr : Progress) (g : Grant) (h : s.LinkInv) (hn : ∀ q w, ¬s.servedNow q w)
    (hg : ∀ q w v, g.holder ≠ .port q w false v) :
    (advance pr g s).LinkInv ∧ ∀ q w, ¬(advance pr g s).servedNow q w := by
  have hn' (q : Port) (w : Work) : ¬(advance pr g s).servedNow q w :=
    not_servedNow_of_grant q (advance_grant s pr g) (hg q w)
  exact ⟨linkInv_sameLinks h (sameLinks_advance s pr g) fun q w => iff_of_false (hn' q w) (hn q w), hn'⟩

theorem linkInv_carryExpiry (pr : Progress) (k : Nat) (i : Slot) (as : List Arrival) (n : Nat) (h : s.LinkInv)
    (hn : ∀ q w, ¬s.servedNow q w) : (carryExpiry pr k i ⟨.lease k (.posting i), as, n⟩ s).LinkInv := by
  obtain ⟨h1, h2⟩ := linkInv_advance s pr ⟨.lease k (.posting i), as, n⟩ h hn fun _ _ _ e => by cases e
  cases pr with
  | toEnd => simp only [carryExpiry]; exact linkInv_runAccess _ k _ h1 h2
  | arrivals m => exact h1

theorem linkInv_carryStep (pr : Progress) (j : Job) (as : List Arrival) (n : Nat) (h : s.LinkInv)
    (hn : ∀ q w, ¬s.servedNow q w) : (carryStep pr j ⟨.sweep true, as, n⟩ s).LinkInv := by
  obtain ⟨h1, h2⟩ := linkInv_advance s pr ⟨.sweep true, as, n⟩ h hn fun _ _ _ e => by cases e
  cases pr with
  | toEnd => exact linkInv_endGrant_unserved h1 h2 (sameLinks_of_ports rfl rfl)
  | arrivals m => exact h1

theorem linkInv_choiceLeft (h : s.LinkInv) (hn : ∀ q w, ¬s.servedNow q w) : s.choiceLeft.LinkInv :=
  linkInv_arbitrate _ (linkInv_sameLinks h (sameLinks_of_ports rfl rfl) fun q w =>
    iff_of_false (not_servedNow_of_none rfl q w) (hn q w))

theorem linkInv_endJob (c : JobChoice) (h : s.LinkInv) (hn : ∀ q w, ¬s.servedNow q w) : (endJob c s).LinkInv := by
  have left := linkInv_choiceLeft s h hn
  rcases endJob_cases s c with e | ⟨e, -⟩ | ⟨-, e⟩ <;> rw [e]
  · exact linkInv_arbitrate _ (linkInv_sameLinks h (sameLinks_of_ports rfl rfl) fun q w =>
      iff_of_false (not_servedNow_of_none rfl q w) (hn q w))
  · exact left
  · exact linkInv_arbitrate _ left

/-- A fall of PRST empties the link; the response of its grant is no longer wanted (R154). -/
theorem linkInv_resetPort (h : s.LinkInv) : (resetPort p s).LinkInv := by
  have hw := linkInv_withdrawClaim s p h
  have hsv (q : Port) (w : Work) : (resetPort p s).servedNow q w ↔ q ≠ p ∧ s.servedNow q w := by
    rw [State.servedNow, State.servedNow, resetPort_grant]
    rcases s.arbiter.grant with _ | ⟨_ | _ | _, as, n⟩ <;>
      simp [Holder.discardFor]
    constructor
    · rintro ⟨rfl, rfl, rfl, e⟩; exact ⟨e, rfl, rfl, rfl⟩
    · rintro ⟨e, rfl, rfl, rfl⟩; exact ⟨rfl, rfl, rfl, e⟩
  intro q
  by_cases e : q = p
  · subst e
    have hc : (resetPort q s).arbiter.claims.get q = false := by
      show (withdrawClaim q s).arbiter.claims.get q = false
      rw [withdrawClaim_arbiter]; exact PerPort.get_set_self ..
    show ((resetPort q s).port q).inOrder _ _
    rw [hc, show (resetPort q s).port q = resetLink ((withdrawClaim q s).port q) from port_setPort_self ..]
    exact inOrder_of_no_work rfl (abandoned_noTransaction _) (fun w hs => ((hsv q w).1 hs).1 rfl) fun _ => rfl
  · show ((resetPort p s).port q).inOrder ((withdrawClaim p s).arbiter.claims.get q) _
    rw [show (resetPort p s).port q = (withdrawClaim p s).port q from port_setPort_ne _ _ _ e]
    refine inOrder_served (hw q) fun w => ?_
    rw [hsv, servedNow_of_grant (withdrawClaim_grant s p)]
    exact ⟨fun h => h.2, fun h => ⟨e, h⟩⟩

theorem inOrder_linkMoves {s : State} {p : Port} {x : PortState} (hx : s.linkMoves p x) {c : Bool} {served : Work → Prop}
    (h : (s.port p).inOrder c served) : x.inOrder c served := by
  obtain ⟨h1, h2, h3, h4, h5, h6⟩ := h
  obtain ⟨sel, out, hd, cs, -, rfl, ⟨hsel, rfl⟩ | ⟨hh, hhd, hok⟩⟩ := hx
  · exact ⟨h1, h2, h3, h4, fun hl => ⟨hsel, (h5 hl).2⟩, transactionOk_of_noTransaction hsel⟩
  · refine ⟨fun hw => ?_, h2, h3, h4, fun hl => ?_, hok h6⟩
    · rcases hhd with rfl | rfl
      · exact h1 hw
      · rfl
    · rw [show _ = Line.high from ((linkOn_iff s p).1 ((hears_iff s p).1 hh).1).2] at hl; cases hl

/-! ### Every step -/

theorem Effect.linkInv {s t : State} (e : Effect s t) (hq : s.QuietInv) (h : s.LinkInv) : t.LinkInv := by
  have unserved {g : Grant} (hg : s.arbiter.grant = some g) (hn : ∀ p w v, g.holder ≠ .port p w false v) (q : Port)
      (w : Work) : ¬s.servedNow q w := not_servedNow_of_grant q hg (hn q w)
  cases e with
  | stays | refclk | divider | rstnRelease => exact h
  | tick => exact linkInv_arbitrate _ h
  | link p x hx => exact linkInv_setPort h (inOrder_linkMoves hx)
  | answered p x hd v hx =>
    exact linkInv_respond h hx hd v rfl (fun q e => port_setPort_ne _ _ _ e) (port_setPort_self ..) ⟨rfl, rfl⟩
  | drained p x hd v m hx =>
    exact linkInv_respond h hx hd v rfl (fun q e => port_setPort_ne _ _ _ e) (port_setPort_self ..) ⟨rfl, rfl⟩
  | acknowledged p x hd v m hx =>
    exact linkInv_respond h hx hd v rfl (fun q e => port_setPort_ne _ _ _ e) (port_setPort_self ..) ⟨rfl, rfl⟩
  | leaseControl p x hd v l hx =>
    exact linkInv_respond h hx hd v rfl (fun q e => port_setPort_ne s p x e) (port_setPort_self s p x) ⟨rfl, rfl⟩
  | detach p q x hd v hx =>
    exact linkInv_arbitrate _ (linkInv_withdrawClaim _ q
      (linkInv_respond h hx hd v rfl (fun q e => port_setPort_ne _ _ _ e) (port_setPort_self ..) ⟨rfl, rfl⟩))
  | claim p x hd r hx => exact linkInv_raiseClaim h hx hd r
  | request pr p w d as n hc hg =>
    have hst := tableWork_state s p w.request
    refine linkInv_carryRequest _ p pr w d _ none _ as _ n ?_ (by rw [hst]; exact hg)
    rw [hst]; exact h
  | requestOn pr p w d v as n hc hg => exact linkInv_carryRequest s p pr w d v _ as as n n h hg
  | access k as n hc hg => exact linkInv_runAccess s k 0 h (unserved hg fun _ _ _ e => by cases e)
  | expiry pr k i as n hc hg => exact linkInv_carryExpiry _ pr k i _ _ h (unserved hg fun _ _ _ e => by cases e)
  | expiryOn pr k i as n hc hg => exact linkInv_carryExpiry s pr k i as n h (unserved hg fun _ _ _ e => by cases e)
  | stepV pr i x as n hc hg hj => exact linkInv_carryStep _ pr _ _ _ h (unserved hg fun _ _ _ e => by cases e)
  | stepS pr i as n hc hg hj => exact linkInv_carryStep _ pr _ _ _ h (unserved hg fun _ _ _ e => by cases e)
  | stepOn pr i st next as n hc hg hj hn => exact linkInv_carryStep s pr _ as n h (unserved hg fun _ _ _ e => by cases e)
  | stepF c i worked as n hc hg hj => exact linkInv_endJob _ c h (unserved hg fun _ _ _ e => by cases e)
  | stepD1 p worked as n hc hg hj =>
    exact linkInv_endGrant_unserved h (unserved hg fun _ _ _ e => by cases e) (sameLinks_of_ports rfl rfl)
  | stepD2 p hj => exact linkInv_arbitrate _ (linkInv_setPort (p := p) h id)
  | prstPin p hr =>
    obtain ⟨-, -, -, hports⟩ := hq.1 (.inl hr)
    obtain ⟨hheld, hno⟩ := (hq.2 hr).2 p
    refine linkInv_setPort h fun ⟨h1, h2, h3, h4, _, h6⟩ => ⟨h1, h2, h3, h4, fun _ => ⟨hno, (hports p).1, hheld⟩, h6⟩
  | prstInit p hr hi => exact linkInv_resetPort s p h
  | prstFall p hr hi hp => exact linkInv_arbitrate _ (linkInv_resetPort s p h)
  | prstRise p => exact linkInv_setPort h fun ⟨h1, h2, h3, h4, _, h6⟩ => ⟨h1, h2, h3, h4, fun hl => (by cases hl), h6⟩
  | rstnFall hr =>
    intro q
    show PortState.inOrder _ (Arbiter.powerOn.claims.get q) _
    rw [show Arbiter.powerOn.claims.get q = false from PerPort.get_replicate _ q]
    cases q <;> exact inOrder_of_no_work rfl (abandoned_noTransaction _) (not_servedNow_of_none rfl _) fun _ => rfl
  | initialised hi hc =>
    refine linkInv_sameLinks h ⟨rfl, fun q => ?_⟩ fun _ _ => Iff.rfl
    cases q <;> exact ⟨_, _, _, rfl⟩

/-! ### What a board sees of a port in order -/

theorem linkState_shown (x : PortState) (h : x.work.isSome → x.held = none) :
    (x.linkState = .idle ↔ x.select ≠ .request ∧ x.work = none ∧ x.held = none) ∧
    (x.linkState = .receivingFromIdle ↔ x.select = .request ∧ x.work = none ∧ x.held = none) ∧
    (x.linkState = .receivingFromHeld ↔ x.select = .request ∧ x.work = none ∧ x.held.isSome = true) ∧
    (x.linkState = .working ↔ x.work.isSome = true ∧ x.held = none) ∧
    (x.linkState = .held ↔ x.select ≠ .request ∧ x.work = none ∧ x.held.isSome = true) ∧
    (x.held.isSome = true ↔ x.linkState = .held ∨ x.linkState = .receivingFromHeld) := by
  by_cases hr : x.select = .request
  · rw [linkState_of_request x hr]
    cases hw : x.work <;> cases hh : x.held <;> simp_all
  · rw [linkState_of_not_request x hr]
    cases hw : x.work <;> cases hh : x.held <;> simp_all

/-- Settles O11: one case for each effect of a step; then R145's table, from what the port holds. -/
theorem linkDisciplineKeptAndShown : Obligations.LinkDisciplineKeptAndShown := by
  refine ⟨fun s t hq h hst => ?_, fun s p h => ?_⟩
  · obtain ⟨rest, e⟩ := step_effect hst
    exact e.linkInv hq h
  · obtain ⟨h1, h2, h3, h4, h5, h6⟩ := linkState_shown (s.port p) (h p).1
    exact ⟨h1, h2, h3, h4, h5, h6, atn_iff s p⟩

end Sys2Proof.Machine


/-! ## The arbiter's order and the end of a retirement job (R14, R119, R128) -/
namespace Sys2Proof.Machine

variable (s : State) (p q : Port)

/-! ### The cyclic order -/

theorem place_lt (r : Requester) : r.place < 6 := by
  rcases r with (_ | _ | _ | _) | _ | _ <;> decide

/-- The requester passed over `k` others is the one at distance `k`. -/
theorem following_distance (a r : Requester) : a.following[a.distance r]? = some r := by
  rcases a with (_ | _ | _ | _) | _ | _ <;> rcases r with (_ | _ | _ | _) | _ | _ <;> decide

theorem following_nodup (a : Requester) : a.following.Nodup := by
  rcases a with (_ | _ | _ | _) | _ | _ <;> decide

theorem distance_injective (a : Requester) {q r : Requester} (h : a.distance q = a.distance r) : q = r := by
  have := following_distance a q
  rw [h, following_distance a r] at this
  exact (Option.some.inj this).symm

/-- The first claim found is the raised one at the least distance (R14). -/
theorem find_following_closest {a r q : Requester} {f : Requester → Bool} (h : a.following.find? f = some r)
    (hq : f q = true) (hne : q ≠ r) : a.distance r < a.distance q := by
  obtain ⟨-, i, hi, hr, hbefore⟩ := List.find?_eq_some_iff_getElem.1 h
  obtain ⟨hrl, hr'⟩ := List.getElem?_eq_some_iff.1 (following_distance a r)
  obtain ⟨hql, hq'⟩ := List.getElem?_eq_some_iff.1 (following_distance a q)
  have hir : i = a.distance r := ((following_nodup a).getElem_inj_iff).1 (hr.trans hr'.symm)
  have hle : ¬a.distance q < i := fun hlt => by
    have := hbefore _ hlt
    rw [hq', hq] at this; cases this
  have hned : a.distance q ≠ a.distance r := fun e => hne (distance_injective a e)
  omega

/-- Once the pointer names `r`, every requester behind `r` has come closer to it. -/
theorem distance_after {a r q : Requester} (h : a.distance r < a.distance q) : r.distance q < a.distance q := by
  have ha := place_lt a
  have hr := place_lt r
  have hq := place_lt q
  unfold Requester.distance at *
  omega

/-! ### The grant that the arbiter gives -/

theorem arbitrate_begins (hg : s.arbiter.grant = none) (hc : ∃ r, s.claimed r = true) :
    ∃ r, s.claimed r = true ∧ s.arbiter.pointer.following.find? s.claimed = some r ∧ arbitrate s = beginGrant r s := by
  rcases arbitrate_cases s with ⟨h, -⟩ | ⟨-, h, -⟩ | ⟨r, -, hr, hf, e⟩
  · rw [hg] at h; cases h
  · obtain ⟨r, hr⟩ := hc
    rw [h r (mem_following _ r)] at hr; cases hr
  · exact ⟨r, hr, hf, e⟩

/-- A port's grant is for its request in work (R13). -/
theorem beginGrant_port {w : Work} (hw : (s.port p).work = some w) : beginGrant (.port p) s = { s with arbiter :=
    ⟨.port p, s.arbiter.claims.set p false, some ⟨.port p w false none, [], 0⟩⟩ } := by
  simp [beginGrant, hw]

/-- The grant of a raised claim begins, the pointer names its requester, and every other claim stays raised (R14). -/
theorem beginGrant_of_claim (r : Requester) (hr : s.claimed r = true)
    (hw : ∀ p, s.arbiter.claims.get p = true → (s.port p).work.isSome = true) :
    (beginGrant r s).arbiter.grant.isSome = true ∧ (beginGrant r s).arbiter.pointer = r ∧
    ∀ q, q ≠ r → s.claimed q = true → (beginGrant r s).claimed q = true := by
  cases r with
  | lease => exact ⟨rfl, rfl, fun q hq hc => by cases q <;> [exact hc; exact absurd rfl hq; exact hc]⟩
  | sweep => exact ⟨rfl, rfl, fun q hq hc => by cases q <;> [exact hc; exact hc; exact absurd rfl hq]⟩
  | port p =>
    obtain ⟨w, hwp⟩ := Option.isSome_iff_exists.1 (hw p hr)
    rw [beginGrant_port s p hwp]
    refine ⟨rfl, rfl, fun q hq hc => ?_⟩
    cases q with
    | port q => exact (PerPort.get_set_ne _ _ fun e => hq (by rw [e])).trans hc
    | lease => exact hc
    | sweep => exact hc

/-- Settles O20: the claim found first is the one at the least distance, and what its grant's beginning leaves is
`beginGrant`'s. -/
theorem arbiterServesInOrder : Obligations.ArbiterServesInOrder := by
  refine ⟨fun s hw => ⟨fun h => ?_, arbitrate_of_no_claim s, fun hg hc => ?_⟩, endGrant_cases⟩
  · obtain ⟨g, hg⟩ := Option.isSome_iff_exists.1 h
    exact arbitrate_of_grant s hg
  · obtain ⟨r, hr, hf, e⟩ := arbitrate_begins s hg hc
    obtain ⟨-, hp, hcl⟩ := beginGrant_of_claim s r hr hw
    refine ⟨r, hr, ?_, fun q hq hqc => ?_⟩
    · cases r with
      | port p =>
        obtain ⟨w, hwp⟩ := Option.isSome_iff_exists.1 (hw p hr)
        exact ⟨w, hwp, e.trans (beginGrant_port s p hwp)⟩
      | lease => exact e
      | sweep => exact e
    · have hd := find_following_closest hf hqc hq
      rw [e, hp]
      exact ⟨hd, hcl q hq hqc, distance_after hd⟩

/-! ### The end of a retirement job -/

/-- Whether the choice was due makes no difference to the engine's choice. -/
theorem takeJob_of_due (w : Sweep) (b : Bool) : ({ w with choiceDue := b } : Sweep).takeJob = w.takeJob := rfl

/-- At the end of a job with no claim raised the engine chooses its next job at once (R119, R124). -/
theorem endJob_of_no_claim (c : JobChoice) (h : ∀ r, s.claimed r = false) :
    endJob c s = arbitrate { s with
      arbiter := { s.arbiter with grant := none }, sweep := ({ s.sweep with job := none } : Sweep).takeJob } := by
  have hleft : s.choiceLeft = { s with
      arbiter := { s.arbiter with grant := none }, sweep := { s.sweep with job := none, choiceDue := true } } :=
    arbitrate_of_no_claim _ fun r => (claimed_congr rfl rfl rfl r).trans (h r)
  rcases endJob_cases s c with e | ⟨-, hg⟩ | ⟨-, e⟩
  · exact e
  · rw [hleft] at hg; cases hg
  · rw [e, hleft, ← takeJob_of_due { s.sweep with job := none } true]; rfl

/-- With a claim raised, the late order leaves the choice due over the grant that begins (R119). -/
theorem endJob_late (hc : ∃ r, s.claimed r = true)
    (hw : ∀ p, s.arbiter.claims.get p = true → (s.port p).work.isSome = true) :
    endJob .afterNextGrant s = s.choiceLeft ∧ s.choiceLeft.arbiter.grant.isSome = true ∧
      s.choiceLeft.sweep.choiceDue = true := by
  let u : State := { s with
    arbiter := { s.arbiter with grant := none }, sweep := { s.sweep with job := none, choiceDue := true } }
  have hu : ∃ r, u.claimed r = true := hc.imp fun r hr => (claimed_congr rfl rfl rfl r).trans hr
  obtain ⟨r, hr, -, e⟩ := arbitrate_begins u rfl hu
  have hsome : s.choiceLeft.arbiter.grant.isSome = true := by
    rw [State.choiceLeft, e]; exact (beginGrant_of_claim u r hr hw).1
  have hdue : s.choiceLeft.sweep.choiceDue = true := by
    rcases arbitrate_sweep u with h | h <;> rw [State.choiceLeft, h]
  rcases endJob_cases s .afterNextGrant with h | ⟨h, -⟩ | ⟨h, -⟩
  · refine ⟨?_, hsome, hdue⟩
    obtain ⟨g, hg⟩ := Option.isSome_iff_exists.1 hsome
    simp only [endJob]
    rw [show (arbitrate u).arbiter.grant = some g from hg]; rfl
  · exact ⟨h, hsome, hdue⟩
  · rw [h] at hsome; cases hsome

theorem exec_stepF {s : State} {i : Slot} {as : List Arrival} {worked : Bool} {n : Nat} (c : JobChoice)
    (hc : s.clocked = true) (hg : s.arbiter.grant = some ⟨.sweep worked, as, n⟩)
    (hj : s.sweep.job = some (.retirement i .f)) :
    exec (.stepF c) s = .next (endJob c { s with table := freeStepTable s.table i }) := by
  simp [exec, execStepF, hg, hj, hc]

/-- Settles O48: the two times of the engine's choice are the two ends of a job, `endJob`. -/
theorem stepFFreesSlot : Obligations.StepFFreesSlot := by
  intro s i as worked n hck hg hj hw
  refine ⟨fun c hc => ⟨_, takes_takeJob { s.sweep with job := none }, ?_⟩, fun hc => ⟨_, exec_stepF _ hck hg hj, ?_⟩⟩
  · rw [exec_stepF c hck hg hj]
    rcases hc with rfl | hc
    · rfl
    · refine congrArg _ (endJob_of_no_claim { s with table := freeStepTable s.table i } c fun r => ?_)
      exact (claimed_congr rfl rfl rfl r).trans (hc r)
  · have hc' : ∃ r, State.claimed { s with table := freeStepTable s.table i } r = true :=
      hc.imp fun r hr => (claimed_congr rfl rfl rfl r).trans hr
    obtain ⟨e, h1, h2⟩ := endJob_late { s with table := freeStepTable s.table i } hc' hw
    rw [e]
    exact ⟨rfl, h1, h2⟩

end Sys2Proof.Machine


/-! ## The bodies of requests, read back (R156, R157) -/
namespace Sys2Proof.Machine

/-- Bit by bit: the bytes of a field sent most significant first are the field. -/
theorem word2_bytes (w : Word16) : word2 (w.extractLsb' 8 8) (w.extractLsb' 0 8) = w := by
  refine BitVec.eq_of_getLsbD_eq fun i hi => ?_
  simp only [word2, BitVec.getLsbD_append, BitVec.getLsbD_extractLsb']
  grind

theorem word4_bytes (w : Word32) :
    word4 (w.extractLsb' 24 8) (w.extractLsb' 16 8) (w.extractLsb' 8 8) (w.extractLsb' 0 8) = w := by
  refine BitVec.eq_of_getLsbD_eq fun i hi => ?_
  simp only [word4, BitVec.getLsbD_append, BitVec.getLsbD_extractLsb']
  grind

@[simp] theorem localOfByte_localByte (l : Local) : localOfByte (localByte l) = l := rfl

theorem portOfByte_portByte (p : Port) : portOfByte? (portByte p) = some p := by cases p <;> rfl

theorem flagOfByte_flagByte (b : Bool) : flagOfByte? (flagByte b) = some b := by cases b <;> rfl

theorem rightsOfByte_rightsByte (r : Rights) : rightsOfByte? (rightsByte r) = some r := by cases r <;> rfl

theorem modeOfByte_modeByte (m : Mode) : modeOfByte? (modeByte m) = some m := by cases m <;> rfl

theorem periodOfByte_periodByte (t : TickPeriod) : periodOfByte? (periodByte t) = some t := by cases t <;> rfl

theorem slotOfWord_ofNat (i : Slot) : slotOfWord? (BitVec.ofNat 16 i.val) = some i := by
  have h : (BitVec.ofNat 16 i.val).toNat = i.val := by rw [BitVec.toNat_ofNat]; omega
  simp [slotOfWord?, h]

theorem ticksOfWord_ofNat (t : Ticks) : ticksOfWord? (BitVec.ofNat 16 t.val) = some t := by
  have h : (BitVec.ofNat 16 t.val).toNat = t.val := by rw [BitVec.toNat_ofNat]; omega
  simp [ticksOfWord?, h]

/-- A request with its fields in range is read back from its body (R157). -/
theorem parse_body (r : Request) (h : r.inRange = true) : parse r.code r.body = some r := by
  cases r with
  | groupRead ls =>
    simp only [Request.inRange, Bool.and_eq_true, decide_eq_true_eq] at h
    have hl : (BitVec.ofNat 8 ls.length).toNat = ls.length := by rw [BitVec.toNat_ofNat]; omega
    have hm : (ls.map localByte).map localOfByte = ls := by simp [Function.comp_def]
    simp only [Request.code, Request.body, parse, hl, hm]
    simp [h]
  | drain m =>
    simp only [Request.inRange, Bool.and_eq_true, decide_eq_true_eq] at h
    have hm : (BitVec.ofNat 8 m).toNat = m := by rw [BitVec.toNat_ofNat]; omega
    simp only [Request.code, Request.body, parse, hm]
    simp [h]
  | acknowledge m => simpa [Request.inRange, Request.code, Request.body, parse] using h
  | _ =>
    simp [Request.code, Request.body, parse, bytes4, bytes2, slotBytes, ticksBytes, word2_bytes, word4_bytes,
      portOfByte_portByte, flagOfByte_flagByte, rightsOfByte_rightsByte, modeOfByte_modeByte, periodOfByte_periodByte,
      slotOfWord_ofNat, ticksOfWord_ofNat]

/-- Its body has the length that its code requires (check 3 of R150), and fits a frame (R147). -/
theorem lengthOk_body (r : Request) (h : r.inRange = true) : lengthOk r.code r.body = true ∧ r.body.length ≤ 120 := by
  cases r with
  | groupRead ls =>
    simp only [Request.inRange, Bool.and_eq_true, decide_eq_true_eq] at h
    have hl : (BitVec.ofNat 8 ls.length).toNat = ls.length := by rw [BitVec.toNat_ofNat]; omega
    simp only [Request.code, Request.body, lengthOk, List.length_cons, List.length_map, hl]
    simp; omega
  | _ => simp [Request.code, Request.body, lengthOk, bytes4, bytes2, slotBytes, ticksBytes]

variable {s : State} {p : Port}

/-- A request taken by its frame and past the checks is dispatched with its fields, on the port as the frame has left it. -/
theorem exec_request (r : Request) (tag : Byte) (ht : s.taking p) (hr : r.inRange = true)
    (hs : r.code.supervisor = true → p = .a) :
    exec (requestCommand r.code p (.frame tag r.body)) s = .next (dispatch p
      ⟨r.code.toByte, tag, refusalLocal r.code r.body⟩ r (s.setPort p ((s.port p).afterFrame r.body.length))) := by
  obtain ⟨hf, hw, hi, ha⟩ := ht
  obtain ⟨hl, hb⟩ := lengthOk_body r hr
  rw [exec_requestCommand, requestTransaction_frame s p _ _ _ hf hw hb,
    check_dispatches s p r.code r.body r hi ha hl hs (parse_body r hr)]
  simp only
  rw [discardHeld_closeRequest s p _ hi]

theorem dispatch_table_request {r : Request} (hc : r.code.atOnce = false) (h : Head) :
    dispatch p h r s = raiseClaim p h r s := by
  cases r with
  | drain _ | getStatus | acknowledge _ | setTick _ | holdLeases | resumeLeases | detach _ => cases hc
  | read _ | groupRead _ | write _ _ | conditionalWrite _ _ _ | refresh _ | subscribe _ _ _ _ _ | unsubscribe _
  | createValue _ _ | createAlias _ _ | retire _ | map _ _ _ _ | unmap _ _ | readView _ _ | readSlot _ | poolReport => rfl

/-- A table request whose work answers DONE, changing no more than the table and the queues. -/
theorem concludes_request (r : Request) (tag : Byte) (hr : r.inRange = true) (hc : r.code.atOnce = false)
    (hs : r.code.supervisor = true → p = .a) {t : Table} {as : List Arrival} {a : Answer}
    (hk : tableWork p r s = .changed s t as a) :
    s.concludes (requestCommand r.code p (.frame tag r.body)) p tag r t as (a.bytes (arrivalsRemove as s)) := by
  obtain ⟨hl, hb⟩ := lengthOk_body r hr
  have := concludes_done (s := s) (p := p) r tag hb (parse_body r hr) hl hc hs (by rw [hk]; rfl) (by rw [hk]; rfl)
  rw [hk] at this
  exact this

/-- A table request that reports what stands. -/
theorem concludes_report (r : Request) (tag : Byte) (hr : r.inRange = true) (hc : r.code.atOnce = false)
    (hs : r.code.supervisor = true → p = .a) {a : Answer} (hk : tableWork p r s = .report s (.done a)) :
    s.concludes (requestCommand r.code p (.frame tag r.body)) p tag r s.table [] (a.bytes 0) :=
  concludes_request r tag hr hc hs hk

/-- A table request that its work refuses with an empty body and nothing from a resolution. -/
theorem declines_request (r : Request) (tag : Byte) (hr : r.inRange = true) (hc : r.code.atOnce = false)
    (hs : r.code.supervisor = true → p = .a) {x : Result} (hx : x ≠ .done)
    (hk : tableWork p r s = .report s (.refusal x)) :
    s.declines (requestCommand r.code p (.frame tag r.body)) p tag r
      ⟨r.code.toByte, tag, x, refusalLocal r.code r.body, none, none, 0⟩ [] := by
  obtain ⟨hl, hb⟩ := lengthOk_body r hr
  exact declines_refused r tag hb (parse_body r hr) hl hc hs (.refusal x) hk hx

end Sys2Proof.Machine


/-! ## Requests for the table: claims, creations, Retire, reports (R13, R18 to R20, R32, R118, R142) -/
namespace Sys2Proof.Machine

/-! ### The claim -/

section
variable {s : State} {p : Port} {n : Nat} {w : Work}

/-- ATN at a port that a frame has left with a request in work: high if it was or a response was discarded (R114, R148). -/
theorem atn_afterFrame (hr : s.rstn = .high) :
    (s.setPort p { (s.port p).afterFrame n with work := some w }).atn p = (s.atn p || (s.port p).held.isSome) := by
  cases hh : (s.port p).held <;> simp [State.atn, hr, PortState.afterFrame, PortState.closing, hh, Conditions.any]

end

/-- The arbiter changes nothing that a board sees of its link. -/
theorem atn_arbitrate (s : State) (p : Port) : (arbitrate s).atn p = s.atn p := by
  simp [State.atn, outer_rstn (arbitrate_outer s)]

/-- Settles O30: past the checks every table request raises its claim, and `arbitrate` does the rest. -/
theorem tableRequestsRaiseClaims : Obligations.TableRequestsRaiseClaims := by
  intro r p tag s ht hr hc hs w s' c claiming
  have hrstn : s.rstn = .high := framed_rstn s p ht.1
  have hexec : exec c s = .next (raiseClaim p w.head r (s.setPort p ((s.port p).afterFrame r.body.length))) := by
    rw [← dispatch_table_request hc]; exact exec_request r tag ht hr hs
  have hraise : raiseClaim p w.head r (s.setPort p ((s.port p).afterFrame r.body.length)) = arbitrate claiming := by
    simp only [raiseClaim, port_setPort_self, setPort_setPort]
    rfl
  have hport : (arbitrate claiming).port p = { (s.port p).afterFrame r.body.length with work := some w } :=
    (arbitrate_port claiming p).trans (port_setPort_self ..)
  refine ⟨⟨hexec.trans (congrArg _ hraise), ?_, ?_, ?_⟩, fun hg => ?_, fun hidle => ?_⟩
  · rw [hport]; rfl
  · rw [State.rdy, hport]; rfl
  · rw [atn_arbitrate, show claiming.atn p = s'.atn p from rfl, atn_afterFrame hrstn]
  · obtain ⟨g, hg⟩ := Option.isSome_iff_exists.1 hg
    rw [hexec, hraise, arbitrate_of_grant claiming (g := g) hg]
  · rw [hexec, raiseClaim_of_idle hidle _ w _ _ rfl]; rfl

/-! ### Creations -/

/-- Settles O37: the work of each creation, on the free list and on its head. -/
theorem creationsTakeFreeListHead : Obligations.CreationsTakeFreeListHead := by
  refine fun tag s => ⟨fun x n => ⟨fun i rest hf => ?_, fun hf => ?_⟩,
    fun j through => ⟨fun hl i rest hf => ?_, fun hl hf => ?_, fun hl => ?_⟩⟩
  · exact concludes_request (.createValue x n) tag rfl rfl (fun _ => rfl) (a := .created i (s.table.record i).generation)
      (by simp only [tableWork, workCreateValue, hf]; rfl)
  · exact declines_request (.createValue x n) tag rfl rfl (fun _ => rfl) (x := .tableFull) (by decide)
      (by simp only [tableWork, workCreateValue, hf])
  · exact concludes_request (.createAlias j through) tag rfl rfl (fun _ => rfl)
      (a := .created i (s.table.record i).generation) (by simp only [tableWork, workCreateAlias, hl, hf, if_true]; rfl)
  · exact declines_request (.createAlias j through) tag rfl rfl (fun _ => rfl) (x := .tableFull) (by decide)
      (by simp only [tableWork, workCreateAlias, hl, hf, if_true])
  · exact declines_request (.createAlias j through) tag rfl rfl (fun _ => rfl) (x := .notLive) (by decide)
      (by simp only [tableWork, workCreateAlias, hl]; rfl)

/-! ### Reports -/

theorem slotStateByte_of_not_free {r : Record} (h : r.body ≠ .free) :
    slotStateByte r.body = if r.isLive then 1#8 else 2#8 := by
  rcases r with ⟨g, _ | c | c⟩
  · exact absurd rfl h
  · rfl
  · rfl

/-- The fields that an ALIAS record and a FREE slot have not (R157). -/
theorem absent_bytes : bytes4 0 ++ bytes2 0 ++ [0xFF#8] ++ bytes2 0 ++ bytes2 0 ++ [0#8] =
    List.replicate 6 0#8 ++ [0xFF#8] ++ List.replicate 5 0#8 := by decide

theorem contentBytes_none (n : Nat) : contentBytes n none =
    [0xFF#8] ++ (List.replicate 6 0#8 ++ [0xFF#8] ++ List.replicate 5 0#8) ++ [0xFF#8, 0xFF#8, 0#8, 0xFF#8] := by
  rw [← absent_bytes]; simp [contentBytes, slotBytes?]

theorem contentBytes_alias (n : Nat) (f : AliasFields) : contentBytes n (some (.aliasOf f)) =
    [1#8] ++ (List.replicate 6 0#8 ++ [0xFF#8] ++ List.replicate 5 0#8) ++
      (slotBytes f.target ++ [f.targetGeneration, flagByte f.writeThrough]) := by
  rw [← absent_bytes]; simp [contentBytes]

/-- A Read Slot answers the report of the record's bytes (R20). -/
theorem readSlot_concludes (tag : Byte) (s : State) (i : Slot) {g : Byte} {b : SlotBody}
    (h : s.table.record i = ⟨g, b⟩) :
    s.concludes (.readSlot .a (.frame tag (slotBytes i))) .a tag (.readSlot i) s.table []
      ([slotStateByte b, g] ++ contentBytes (s.table.subsOn i).length b.content?) := by
  have := concludes_report (s := s) (p := .a) (.readSlot i) tag rfl rfl (fun _ => rfl)
    (a := .slotReport (s.table.record i) (s.table.subsOn i).length) rfl
  rw [h] at this
  exact this

theorem record_of_body {t : Table} {i : Slot} {b : SlotBody} (h : (t.record i).body = b) :
    t.record i = ⟨(t.record i).generation, b⟩ := by rw [← h]

/-- Settles O39: each report's bytes, read off the entry, the record and the counts. -/
theorem reportsAnswerTable : Obligations.ReportsAnswerTable := by
  refine fun tag s => ⟨fun q l => ⟨fun e he hb => ?_, fun he => ?_⟩, fun i => ⟨fun hb => ?_, fun v st hb => ?_,
    fun f st hb => ?_⟩, ?_⟩
  · have := concludes_report (s := s) (p := .a) (.readView q l) tag rfl rfl (fun _ => rfl)
      (a := .viewEntry e (s.table.record e.slot)) (by simp only [tableWork, workReadView, he])
    rwa [Answer.bytes, slotStateByte_of_not_free hb] at this
  · exact declines_request (.readView q l) tag rfl rfl (fun _ => rfl) (x := .noEntry) (by decide)
      (by simp only [tableWork, workReadView, he])
  · simpa only [SlotBody.content?, contentBytes_none, slotStateByte, List.cons_append, List.nil_append, List.append_assoc]
      using readSlot_concludes tag s i (record_of_body hb)
  · rcases hb with ⟨hb, rfl⟩ | ⟨hb, rfl⟩ <;>
      simpa only [SlotBody.content?, contentBytes, slotStateByte, slotBytes?, List.cons_append, List.nil_append,
        List.append_assoc] using readSlot_concludes tag s i (record_of_body hb)
  · rcases hb with ⟨hb, rfl⟩ | ⟨hb, rfl⟩ <;>
      simpa only [SlotBody.content?, contentBytes_alias, slotStateByte, List.cons_append, List.nil_append,
        List.append_assoc] using readSlot_concludes tag s i (record_of_body hb)
  · have := concludes_report (s := s) (p := .a) .poolReport tag rfl rfl (fun _ => rfl) rfl
    rw [Answer.bytes, PoolReport.bytes, Table.poolFree, Config.poolSize] at this
    exact this

/-! ### Retire -/

/-- A request granted at an idle table whose work has made `w` of the sweep engine: its grant ends, and the arbiter chooses. -/
theorem endGrant_concluded_sweep {s : State} {p : Port} (h : s.tableIdle) (x : PortState) (k : Work) (t : Table)
    (as : List Arrival) (tag : Byte) (body : List Byte) (w : Sweep) :
    endGrant { (grantState s p x k).concluded p t as tag body with sweep := w } =
      arbitrate { (s.setPort p x).concluded p t as tag body with
        arbiter := { s.arbiter with pointer := .port p }, sweep := w.choose } := by
  have hc := core_iff.1 (takeArrivals_core { grantState s p x k with table := t } as)
  have hfree := endGrant_concluded (p := p) h x k t as tag body
  rw [endGrant_of_no_claim] at hfree
  · exact congrArg (fun u : State => arbitrate { u with sweep := w.choose }) hfree
  · intro r
    rw [← h.2.1 r]
    exact claimed_congr (congrArg (·.claims) hc.2.1) (congrArg (·.claim) hc.2.2.1) (congrArg (·.claim) hc.2.2.2) r
  · exact (congrArg (·.choiceDue) hc.2.2.2).trans h.2.2

/-- An accepted Retire: the slot is RETIRING, joins the FIFO, and the engine is offered it (R118, R124). -/
theorem workRetire_accepted {s : State} {i : Slot} {c : Content} (hb : (s.table.record i).body = .live c)
    (hq : s.sweep.fifo.length < 4) :
    tableWork .a (.retire i) s = .changed
      { s with sweep := ({ s.sweep with fifo := s.sweep.fifo ++ [i] } : Sweep).offer }
      (s.table.setRecord i ⟨(s.table.record i).generation + 1, .retiring c⟩) [] (.retired (s.sweep.fifo.length + 1)) := by
  have hq' : ¬s.sweep.fifo.length ≥ Config.fifoSize := by simp only [Config.fifoSize]; omega
  simp only [tableWork, workRetire, hb, if_neg hq', List.length_append, List.length_singleton]
  rfl

/-- An accepted Retire that has the grant (R118). -/
theorem retire_carries {s : State} {i : Slot} {c : Content} {tag : Byte} (h : s.carries .a tag (.retire i))
    (hb : (s.table.record i).body = .live c) (hq : s.sweep.fifo.length < 4) :
    exec (.portEngineGrant .toEnd) s = .next (endGrant
      { s.concluded .a (s.table.setRecord i ⟨(s.table.record i).generation + 1, .retiring c⟩) [] tag
          [natByte (s.sweep.fifo.length + 1)] with
        sweep := ({ s.sweep with fifo := s.sweep.fifo ++ [i] } : Sweep).offer }) := by
  have hk := workRetire_accepted hb hq
  have := carries_done h (by rw [hk]; rfl)
  rw [hk] at this
  exact this

/-- An accepted Retire taken at an idle table (R118). -/
theorem retire_serves {s : State} {i : Slot} {c : Content} (tag : Byte) (h : s.serving .a)
    (hb : (s.table.record i).body = .live c) (hq : s.sweep.fifo.length < 4) :
    ∃ u, exec (.retire .a (.frame tag (slotBytes i))) s = .next u ∧ exec (.portEngineGrant .toEnd) u = .next (arbitrate
      { (s.setPort .a ((s.port .a).afterFrame 2)).concluded .a
          (s.table.setRecord i ⟨(s.table.record i).generation + 1, .retiring c⟩) [] tag
          [natByte (s.sweep.fifo.length + 1)] with
        arbiter := { s.arbiter with pointer := .port .a }
        sweep := (({ s.sweep with fifo := s.sweep.fifo ++ [i] } : Sweep).offer).choose }) := by
  obtain ⟨hl, hlen⟩ := lengthOk_body (.retire i) rfl
  obtain ⟨e1, e2⟩ := serving_grants h (.retire i) tag hlen (parse_body _ rfl) hl rfl (fun _ => rfl)
  refine ⟨_, e1, ?_⟩
  rw [retire_carries e2 hb hq, endGrant_concluded_sweep h.2.1]
  rfl

/-- A busy engine, or one whose choice is still due, leaves the slot in the FIFO (R119, R124). -/
theorem offer_of_busy {w : Sweep} (h : w.job.isSome = true ∨ w.choiceDue = true) : w.offer = w := by
  unfold Sweep.offer
  cases hj : w.job with
  | some j => rfl
  | none =>
    rcases h with h | h
    · rw [hj] at h; cases h
    · simp [h]

/-- An idle engine with no other work takes the slot's job at once (R124). -/
theorem offer_single {w : Sweep} {i : Slot} (hj : w.job = none) (hd : w.choiceDue = false) (hq : w.fifo = [])
    (hf : ∀ p, w.flags.get p = false) :
    ({ w with fifo := w.fifo ++ [i] } : Sweep).offer =
      { w with job := some (.retirement i (.v .a)), claim := true } := by
  rw [offer_of_idle _ (by exact hj) (by exact hd)]
  have hff : ({ w with fifo := w.fifo ++ [i] } : Sweep).firstFlag = none := (firstFlag_none _).2 hf
  rw [Sweep.takeJob, hff]
  simp [hq, hd]

/-- Settles O38: what the engine makes of the offered slot, in each state of the engine. -/
theorem retireJoinsFifo : Obligations.RetireJoinsFifo := by
  refine fun tag i s => ⟨fun k hb hq => ⟨fun h hbusy => ?_, fun h hj hd => ⟨⟨_, ?_, retire_carries h hb hq⟩,
    fun hfifo hflags => ?_⟩, fun h hbusy => ?_, fun h hj hfifo hflags => ?_⟩, fun hl => ?_, fun hl hq => ?_⟩
  · rw [retire_carries h hb hq, offer_of_busy (by exact hbusy)]
  · rw [offer_of_idle _ (by exact hj) (by exact hd)]; exact takes_takeJob _
  · rw [retire_carries h hb hq, offer_single hj hd hfifo hflags]
  · obtain ⟨u, e1, e2⟩ := retire_serves tag h hb hq
    obtain ⟨hg, hcl, hd⟩ := h.2.1
    refine ⟨u, e1, ?_⟩
    rw [e2, offer_of_busy (by exact .inl hbusy), choose_of_not_due _ (by exact hd), arbitrate_of_no_claim]
    intro r
    rw [← hcl r]; exact claimed_congr rfl rfl rfl r
  · obtain ⟨u, e1, e2⟩ := retire_serves tag h hb hq
    obtain ⟨hg, hcl, hd⟩ := h.2.1
    refine ⟨u, e1, ?_⟩
    have hc : s.sweep.claim = false := hcl .sweep
    rw [e2, offer_single hj hd hfifo hflags, choose_of_not_due _ (by exact hd), arbitrate_of_single_claim _ .sweep]
    · simp only [beginGrant, ← hc]
    · exact hg
    · rfl
    · intro r hr
      cases r with
      | sweep => exact absurd rfl hr
      | port q => exact hcl (.port q)
      | lease => exact hcl .lease
  · refine declines_request (.retire i) tag rfl rfl (fun _ => rfl) (x := .notLive) (by decide) ?_
    simp only [tableWork, workRetire]
    split
    · next c hb => simp [Record.isLive, hb] at hl
    · rfl
    · rfl
  · refine declines_request (.retire i) tag rfl rfl (fun _ => rfl) (x := .busy) (by decide) ?_
    obtain ⟨c, hb⟩ := (isLive_iff _).1 hl
    simp only [tableWork, workRetire, hb]
    rw [if_pos (by simp only [Config.fifoSize]; omega)]

end Sys2Proof.Machine


/-! ## A port marked for detachment, and a port reset (R16, R120 to R124, R154) -/
namespace Sys2Proof.Machine

variable (s : State) (p q : Port)

/-- A claim withdrawn, as one change of the port and of the arbiter (R16, R122). -/
theorem withdrawClaim_eq : withdrawClaim q s = { s.setPort q
      (if s.arbiter.claims.get q = true then { s.port q with work := none } else s.port q) with
    arbiter := { s.arbiter with claims := s.arbiter.claims.set q false } } := by
  cases h : s.arbiter.claims.get q with
  | true => simp [withdrawClaim, h]
  | false =>
    have hs : s.arbiter.claims.set q false = s.arbiter.claims := by rw [← h, PerPort.set_get_self]
    simp [withdrawClaim, h, hs]

/-- Settles O29: the answer first, then the withdrawal and the marking. -/
theorem detachMarksPort : Obligations.DetachMarksPort := by
  intro q tag s ht u v
  obtain ⟨w, hm, e⟩ := markDetachment_eq (withdrawClaim q u) q
  rw [withdrawClaim_sweep] at hm
  refine ⟨w, hm, ?_, fun hq hc hh => ?_⟩
  · have hexec := exec_request (.detach q) tag ht rfl (fun _ => rfl)
    refine hexec.trans (congrArg _ ?_)
    have hu : respond .a ⟨Code.detach.toByte, tag, none⟩ (.done (.detached (s.sweep.attachment.get q))) 0
        (s.setPort .a ((s.port .a).afterFrame 1)) = u := by
      rw [respond_done_answering _ _ _ _ _ rfl, port_setPort_self, setPort_setPort]; rfl
    refine Eq.trans (congrArg (fun x => markDetachment q (withdrawClaim q x)) hu) ?_
    rw [e, withdrawClaim_eq]; rfl
  · have hport : v.port q = { s.port q with work := none } := by
      show (u.setPort q _).port q = _
      rw [port_setPort_self, if_pos hc, show u.port q = s.port q from port_setPort_ne _ _ _ hq]
    dsimp only
    rw [arbitrate_port]
    show (v.port q).linkState = _
    rw [hport]
    by_cases hr : (s.port q).select = .request
    · rw [linkState_of_request _ (by exact hr), if_pos hr]; simp [hh]
    · rw [linkState_of_not_request _ (by exact hr), if_neg hr]; simp [hh]

/-- A port reset, as one change of the port and of the arbiter (R154). -/
theorem resetPort_eq : resetPort p s = { s.setPort p (resetLink (s.port p)) with
    arbiter := { s.arbiter with
      claims := s.arbiter.claims.set p false
      grant := s.arbiter.grant.map (fun g => { g with holder := g.holder.discardFor p }) } } := by
  have hp : resetLink ((withdrawClaim p s).port p) = resetLink (s.port p) := by
    rw [withdrawClaim_port]; split <;> rfl
  rw [resetPort, hp, withdrawClaim_eq]
  simp [State.setPort]

/-- Settles O51: the fall as the reset of the port and, outside initialisation, its marking; the pin alone under RSTn low and at
the rise. -/
theorem portResetFallAndRise : Obligations.PortResetFallAndRise := by
  intro s p fallen pinLow falls
  have hfallen : resetPort p s = fallen := by
    rw [resetPort_eq]
    have hd (h : Holder) : h.discardFor p = (match h with | .port q w d v => .port q w (d || q = p) v | h => h) := by
      cases h <;> rfl
    simp only [hd]
    rfl
  have hshown (t : State) (hr : t.rstn = s.rstn) (ht : t.port p = fallen.port p) :
      (t.port p).linkState = .idle ∧ t.rdy p = false ∧ t.atn p = s.atn p := by
    have hf : fallen.port p = resetLink (s.port p) := port_setPort_self ..
    have hsel : (resetLink (s.port p)).select ≠ .request := by
      rcases abandoned_noTransaction (s.port p).select with h | h <;> exact fun e => by cases h.symm.trans e
    refine ⟨?_, ?_, ?_⟩
    · rw [ht, hf, linkState_of_not_request _ hsel]; rfl
    · rw [State.rdy, ht, hf]; rfl
    · rw [State.atn, State.atn, ht, hf, hr]; rfl
  refine ⟨fun hp hr => ⟨fun hi => ?_, fun hi => ?_⟩, fun hp hr => ?_, rfl⟩
  · refine ⟨?_, hshown _ rfl rfl⟩
    simp only [exec, execPrstFall, hp, hr, hi, if_true, hfallen]
  · obtain ⟨w, hm, e⟩ := markDetachment_eq (resetPort p s) p
    rw [resetPort_sweep] at hm
    rw [hfallen] at e
    refine ⟨w, hm, ?_, hshown _ (outer_rstn (arbitrate_outer _)) (arbitrate_port _ _)⟩
    simp only [exec, execPrstFall, hp, hr, hi, hfallen, Bool.false_eq_true, if_false, e]
  · simp only [exec, execPrstFall, hp, hr]; rfl

end Sys2Proof.Machine


/-! ## Grants between their arrivals (R15, R103, R112, R154) -/
namespace Sys2Proof.Machine

variable (s : State) (p q : Port)

/-! ### Arrivals see the ports alone -/

/-- The table, the arbiter and the engines around the ports make no difference to arrivals. -/
theorem takeArrivals_core_eq (as : List Arrival) (t : Table) (a : Arbiter) (w : Sweep) :
    takeArrivals as { s with table := t, arbiter := a, sweep := w } =
      { takeArrivals as s with table := t, arbiter := a, sweep := w } := by
  rw [takeArrivals_eq, takeArrivals_eq s,
    takeArrivals_ports_congr as (s := s) (t := { s with table := t, arbiter := a, sweep := w }) rfl rfl]

@[simp] theorem takeArrivals_arbiter (as : List Arrival) : (takeArrivals as s).arbiter = s.arbiter :=
  (core_iff.1 (takeArrivals_core s as)).2.1

@[simp] theorem takeArrivals_table (as : List Arrival) : (takeArrivals as s).table = s.table :=
  (core_iff.1 (takeArrivals_core s as)).1

@[simp] theorem takeArrivals_lease (as : List Arrival) : (takeArrivals as s).lease = s.lease :=
  (core_iff.1 (takeArrivals_core s as)).2.2.1

@[simp] theorem takeArrivals_sweep (as : List Arrival) : (takeArrivals as s).sweep = s.sweep :=
  (core_iff.1 (takeArrivals_core s as)).2.2.2

/-- Arrivals leave a port's link and its refusal record alone (R103). -/
theorem takeArrivals_link (as : List Arrival) :
    ((takeArrivals as s).port p).held = (s.port p).held ∧ ((takeArrivals as s).port p).work = (s.port p).work ∧
    ((takeArrivals as s).port p).record = (s.port p).record ∧ ((takeArrivals as s).port p).select = (s.port p).select := by
  obtain ⟨es, c, e, -⟩ := takeArrivals_port s p as
  rw [e]; exact ⟨rfl, rfl, rfl, rfl⟩

theorem clocked_of_outer {s t : State} (h : t.outer = s.outer) : t.clocked = s.clocked := by
  rw [State.clocked, State.clocked, (outer_iff.1 h).1, (outer_iff.1 h).2.1]

/-! ### A grant carried in two parts -/

/-- The removals of the rest are counted on top of those already made (R107). -/
theorem arrivalsRemove_advance (n : Nat) (g : Grant) :
    g.removed + arrivalsRemove (g.arrivals.take n) s +
      arrivalsRemove (g.arrivals.drop n) (advance (.arrivals n) g s) = g.removed + arrivalsRemove g.arrivals s := by
  have hu : arrivalsRemove (g.arrivals.drop n) (advance (.arrivals n) g s) =
      arrivalsRemove (g.arrivals.drop n) (takeArrivals (g.arrivals.take n) s) := arrivalsRemove_congr _ rfl rfl
  rw [hu, Nat.add_assoc, ← arrivalsRemove_append, List.take_append_drop]

/-- The first arrivals, and later the rest, come to all of them at once. -/
theorem advance_advance (n : Nat) (g : Grant) :
    advance .toEnd ⟨g.holder, g.arrivals.drop n, g.removed + arrivalsRemove (g.arrivals.take n) s⟩
      (advance (.arrivals n) g s) = advance .toEnd g s := by
  have hcount := arrivalsRemove_advance s n g
  simp only [advance_eq, takenBy, leftBy] at hcount ⊢
  have htake : takeArrivals (g.arrivals.drop n) (takeArrivals (g.arrivals.take n) s) = takeArrivals g.arrivals s := by
    rw [← takeArrivals_append, List.take_append_drop]
  have hcore (a : Arbiter) : takeArrivals (g.arrivals.drop n) { takeArrivals (g.arrivals.take n) s with arbiter := a } =
      { takeArrivals g.arrivals s with arbiter := a } := by
    rw [← htake]
    exact (takeArrivals_core_eq (takeArrivals (g.arrivals.take n) s) _ (takeArrivals (g.arrivals.take n) s).table a
      (takeArrivals (g.arrivals.take n) s).sweep).trans (by simp)
  rw [hcore]
  simp only [hcount]

/-- A command that carries its grant by `advance`, and again from where it paused, ends as when it is carried at once. -/
theorem runs_paused {c : Progress → Instr} {s u t : State} {g : Grant} {n : Nat} {ends : State → State}
    (hend : exec (c .toEnd) s = .next (ends (advance .toEnd g u)))
    (hpause : exec (c (.arrivals n)) s = .next (advance (.arrivals n) g u))
    (hon : exec (c .toEnd) (advance (.arrivals n) g u) = .next (ends (advance .toEnd
      ⟨g.holder, g.arrivals.drop n, g.removed + arrivalsRemove (g.arrivals.take n) u⟩ (advance (.arrivals n) g u))))
    (h : exec (c .toEnd) s = .next t) : runs [c (.arrivals n), c .toEnd] s t := by
  rw [hend] at h
  cases h
  refine ⟨_, hpause, _, hon, ?_⟩
  rw [advance_advance]; rfl

theorem runs_stays {c : Progress → Instr} {s t : State} {n : Nat} (hs : ∀ pr, exec (c pr) s = .next s)
    (h : exec (c .toEnd) s = .next t) : runs [c (.arrivals n), c .toEnd] s t := by
  rw [hs] at h
  cases h
  exact ⟨_, hs _, _, hs _, rfl⟩

/-! ### The four grants that post -/

theorem exec_request_on {s : State} {p : Port} {w : Work} {d : Bool} {v : Verdict} {as : List Arrival} {n : Nat}
    (pr : Progress) (hc : s.clocked = true) (hg : s.arbiter.grant = some ⟨.port p w d (some v), as, n⟩) :
    exec (.portEngineGrant pr) s = .next (carryRequest pr p w d v as n s) := by
  simp [exec, execPortEngineGrant, hg, hc]

theorem exec_request_work {s : State} {p : Port} {w : Work} {d : Bool} {as : List Arrival} {n : Nat}
    (pr : Progress) (hc : s.clocked = true) (hg : s.arbiter.grant = some ⟨.port p w d none, as, n⟩) :
    exec (.portEngineGrant pr) s = .next (carryRequest pr p w d (tableWork p w.request s).verdict
      (tableWork p w.request s).arrivals 0 (tableWork p w.request s).state) := by
  simp [exec, execPortEngineGrant, hg, hc]

/-- PORT_ENGINE_GRANT stays, or carries a request's grant. -/
theorem portEngineGrant_carries :
    (∀ pr, exec (.portEngineGrant pr) s = .next s) ∨
    ∃ p w d v as n u, u.clocked = true ∧ ∀ pr, exec (.portEngineGrant pr) s = .next (carryRequest pr p w d v as n u) := by
  by_cases hc : s.clocked = true
  · rcases hg : s.arbiter.grant with _ | ⟨⟨p, w, d, _ | v⟩ | _ | _, as, n⟩
    · exact .inl fun pr => by simp [exec, execPortEngineGrant, hg]
    · exact .inr ⟨_, _, _, _, _, _, _, by rw [clocked_of_outer (tableWork_outer s p _)]; exact hc,
        fun pr => exec_request_work pr hc hg⟩
    · exact .inr ⟨_, _, _, _, _, _, _, hc, fun pr => exec_request_on pr hc hg⟩
    · exact .inl fun pr => by simp [exec, execPortEngineGrant, hg]
    · exact .inl fun pr => by simp [exec, execPortEngineGrant, hg]
  · refine .inl fun pr => ?_
    simp only [exec, execPortEngineGrant, hc]
    split <;> rfl

theorem exec_expiry_on {s : State} {k : Nat} {i : Slot} {as : List Arrival} {n : Nat} (pr : Progress)
    (hc : s.clocked = true) (hg : s.arbiter.grant = some ⟨.lease k (.posting i), as, n⟩) :
    exec (.leaseExpiry pr) s = .next (carryExpiry pr k i ⟨.lease k (.posting i), as, n⟩ s) := by
  simp [exec, execLeaseExpiry, hg, hc]

theorem carryExpiry_toEnd (k : Nat) (i : Slot) (g : Grant) :
    carryExpiry .toEnd k i g s = runAccess k (i.val + 1) (advance .toEnd g s) := by simp only [carryExpiry]

/-- LEASE_EXPIRY stays, or carries an expiry's posts. -/
theorem leaseExpiry_carries :
    (∀ pr, exec (.leaseExpiry pr) s = .next s) ∨
    ∃ k i as n u, u.clocked = true ∧
      ∀ pr, exec (.leaseExpiry pr) s = .next (carryExpiry pr k i ⟨.lease k (.posting i), as, n⟩ u) := by
  by_cases hc : s.clocked = true
  · rcases hg : s.arbiter.grant with _ | ⟨_ | ⟨k, _ | i | i⟩ | _, as, n⟩
    case some.lease.expiring =>
      exact .inr ⟨k, i, s.table.expiryPosts i, 0, { s with table := s.table.expire i }, hc,
        fun pr => by simp [exec, execLeaseExpiry, hg, hc]⟩
    case some.lease.posting => exact .inr ⟨k, i, as, n, s, hc, fun pr => exec_expiry_on pr hc hg⟩
    all_goals exact .inl fun pr => by simp [exec, execLeaseExpiry, hg]
  · refine .inl fun pr => ?_
    simp only [exec, execLeaseExpiry, hc]
    split <;> rfl

theorem exec_stepV {s : State} {i : Slot} {x : Port} {as : List Arrival} {n : Nat} (pr : Progress)
    (hc : s.clocked = true) (hg : s.arbiter.grant = some ⟨.sweep false, as, n⟩)
    (hj : s.sweep.job = some (.retirement i (.v x))) :
    exec (.stepV pr) s = .next (carryStep pr (.retirement i (.afterV x)) ⟨.sweep true, viewStepArrivals s.table x i, 0⟩
      { s with table := viewStepTable s.table x i }) := by
  simp [exec, execStepV, hg, hj, hc]

theorem exec_stepV_on {s : State} {i : Slot} {x : Port} {as : List Arrival} {n : Nat} (pr : Progress)
    (hc : s.clocked = true) (hg : s.arbiter.grant = some ⟨.sweep true, as, n⟩)
    (hj : s.sweep.job = some (.retirement i (.v x))) :
    exec (.stepV pr) s = .next (carryStep pr (.retirement i (.afterV x)) ⟨.sweep true, as, n⟩ s) := by
  simp [exec, execStepV, hg, hj, hc]

theorem exec_stepS {s : State} {i : Slot} {as : List Arrival} {n : Nat} (pr : Progress)
    (hc : s.clocked = true) (hg : s.arbiter.grant = some ⟨.sweep false, as, n⟩)
    (hj : s.sweep.job = some (.retirement i .s)) :
    exec (.stepS pr) s = .next (carryStep pr (.retirement i .f)
      ⟨.sweep true, (s.table.listLeft i).flatMap retiredArrivals, 0⟩ { s with table := listStepTable s.table i }) := by
  simp [exec, execStepS, hg, hj, hc]

theorem exec_stepS_on {s : State} {i : Slot} {as : List Arrival} {n : Nat} (pr : Progress)
    (hc : s.clocked = true) (hg : s.arbiter.grant = some ⟨.sweep true, as, n⟩)
    (hj : s.sweep.job = some (.retirement i .s)) :
    exec (.stepS pr) s = .next (carryStep pr (.retirement i .f) ⟨.sweep true, as, n⟩ s) := by
  simp [exec, execStepS, hg, hj, hc]

/-- STEP_V stays, or carries the arrivals of the current step V-x. -/
theorem stepV_carries :
    (∀ pr, exec (.stepV pr) s = .next s) ∨
    ∃ i x as n u, u.clocked = true ∧ u.sweep.job = some (.retirement i (.v x)) ∧
      ∀ pr, exec (.stepV pr) s = .next (carryStep pr (.retirement i (.afterV x)) ⟨.sweep true, as, n⟩ u) := by
  by_cases hs : ∃ worked as n i x, s.clocked = true ∧ s.arbiter.grant = some ⟨.sweep worked, as, n⟩ ∧
      s.sweep.job = some (.retirement i (.v x))
  · obtain ⟨worked, as, n, i, x, hc, hg, hj⟩ := hs
    cases worked with
    | false => exact .inr ⟨i, x, _, _, { s with table := viewStepTable s.table x i }, hc, hj,
        fun pr => exec_stepV pr hc hg hj⟩
    | true => exact .inr ⟨i, x, as, n, s, hc, hj, fun pr => exec_stepV_on pr hc hg hj⟩
  · refine .inl fun pr => ?_
    simp only [exec, execStepV]
    split
    · next worked as n i x hg hj => rw [if_neg fun hc => hs ⟨worked, as, n, i, x, hc, hg, hj⟩]
    · rfl

/-- STEP_S stays, or carries the arrivals of the current step S. -/
theorem stepS_carries :
    (∀ pr, exec (.stepS pr) s = .next s) ∨
    ∃ i as n u, u.clocked = true ∧ u.sweep.job = some (.retirement i .s) ∧
      ∀ pr, exec (.stepS pr) s = .next (carryStep pr (.retirement i .f) ⟨.sweep true, as, n⟩ u) := by
  by_cases hs : ∃ worked as n i, s.clocked = true ∧ s.arbiter.grant = some ⟨.sweep worked, as, n⟩ ∧
      s.sweep.job = some (.retirement i .s)
  · obtain ⟨worked, as, n, i, hc, hg, hj⟩ := hs
    cases worked with
    | false => exact .inr ⟨i, _, _, { s with table := listStepTable s.table i }, hc, hj,
        fun pr => exec_stepS pr hc hg hj⟩
    | true => exact .inr ⟨i, as, n, s, hc, hj, fun pr => exec_stepS_on pr hc hg hj⟩
  · refine .inl fun pr => ?_
    simp only [exec, execStepS]
    split
    · next worked as n i hg hj => rw [if_neg fun hc => hs ⟨worked, as, n, i, hc, hg, hj⟩]
    · rfl

/-- Carried to some of its arrivals and then to its end, each of the four grants ends as when carried to its end at once. -/
theorem grants_pause_and_end (t : State) (n : Nat) :
    (exec (.portEngineGrant .toEnd) s = .next t → runs [.portEngineGrant (.arrivals n), .portEngineGrant .toEnd] s t) ∧
    (exec (.leaseExpiry .toEnd) s = .next t → runs [.leaseExpiry (.arrivals n), .leaseExpiry .toEnd] s t) ∧
    (exec (.stepV .toEnd) s = .next t → runs [.stepV (.arrivals n), .stepV .toEnd] s t) ∧
    (exec (.stepS .toEnd) s = .next t → runs [.stepS (.arrivals n), .stepS .toEnd] s t) := by
  have clocked {u : State} {g : Grant} (hc : u.clocked = true) : (advance (.arrivals n) g u).clocked = true := by
    rw [clocked_of_outer (advance_outer ..)]; exact hc
  have job {u : State} {g : Grant} {j : Job} (hj : u.sweep.job = some j) :
      (advance (.arrivals n) g u).sweep.job = some j := by rw [advance_sweep]; exact hj
  refine ⟨?_, ?_, ?_, ?_⟩
  · rcases portEngineGrant_carries s with hs | ⟨p, w, d, v, as, m, u, hc, hx⟩
    · exact runs_stays (c := .portEngineGrant) hs
    · refine runs_paused (c := .portEngineGrant) (g := ⟨.port p w d (some v), as, m⟩) (u := u)
        (ends := fun u' => endGrant (if d then u' else respond p w.head v (m + arrivalsRemove as u) u'))
        (hx .toEnd) (hx _) ?_
      rw [exec_request_on .toEnd (clocked hc) (advance_grant ..),
        ← arrivalsRemove_advance u n ⟨.port p w d (some v), as, m⟩]
      rfl
  · rcases leaseExpiry_carries s with hs | ⟨k, i, as, m, u, hc, hx⟩
    · exact runs_stays (c := .leaseExpiry) hs
    · exact runs_paused (c := .leaseExpiry) (g := ⟨.lease k (.posting i), as, m⟩) (u := u)
        (ends := runAccess k (i.val + 1)) ((hx .toEnd).trans (congrArg _ (carryExpiry_toEnd ..))) (hx _)
        ((exec_expiry_on .toEnd (clocked hc) (advance_grant ..)).trans (congrArg _ (carryExpiry_toEnd ..)))
  · rcases stepV_carries s with hs | ⟨i, x, as, m, u, hc, hj, hx⟩
    · exact runs_stays (c := .stepV) hs
    · exact runs_paused (c := .stepV) (ends := nextStep (.retirement i (.afterV x))) (hx .toEnd) (hx _)
        (exec_stepV_on .toEnd (clocked hc) (advance_grant ..) (job hj))
  · rcases stepS_carries s with hs | ⟨i, as, m, u, hc, hj, hx⟩
    · exact runs_stays (c := .stepS) hs
    · exact runs_paused (c := .stepS) (ends := nextStep (.retirement i .f)) (hx .toEnd) (hx _)
        (exec_stepS_on .toEnd (clocked hc) (advance_grant ..) (job hj))

/-! ### A request's grant that pauses, and that goes on -/

/-- A request's grant that pauses: its table work is done, the arrivals taken are in the queues, the rest wait. -/
theorem carryRequest_pauses (w : Work) (d : Bool) (v : Verdict) (as : List Arrival) (c m : Nat) (t : Table) (k : Sweep) :
    carryRequest (.arrivals m) p w d v as c { s with table := t, sweep := k } = { takeArrivals (as.take m) s with
      table := t, sweep := k
      arbiter := { s.arbiter with
        grant := some ⟨.port p w d (some v), as.drop m, c + arrivalsRemove (as.take m) s⟩ } } := by
  have ht := takeArrivals_core_eq s (as.take m) t s.arbiter k
  have hr : arrivalsRemove (as.take m) { s with table := t, sweep := k } = arrivalsRemove (as.take m) s :=
    arrivalsRemove_congr _ rfl rfl
  simp only [carryRequest, advance_eq, takenBy, leftBy, ht, hr]

/-- A port whose response is held shows HELD, or RECEIVING from HELD (R145). -/
theorem answering_shown (x : PortState) (tag : Byte) (r : Result) (body : List Byte) :
    (x.answering tag r body).held.isSome = true ∧
    (x.answering tag r body).linkState = if x.select = .request then .receivingFromHeld else .held := by
  refine ⟨rfl, ?_⟩
  by_cases hr : x.select = .request
  · rw [linkState_of_request _ (by exact hr), if_pos hr]; rfl
  · rw [linkState_of_not_request _ (by exact hr), if_neg hr]; rfl

theorem refusing_shown (x : PortState) (r : RefusalRecord) (body : List Byte) :
    (x.refusing r body).held.isSome = true ∧
    (x.refusing r body).linkState = if x.select = .request then .receivingFromHeld else .held := by
  unfold PortState.refusing
  split <;> exact answering_shown ..

/-- A request's grant that goes on to its end: its response is built from the port as its arrivals have left it (R153). -/
theorem carryRequest_ends {s : State} {p : Port} {w : Work} (v : Verdict) (as : List Arrival) (n : Nat)
    (hi : s.initialising = false) :
    carryRequest .toEnd p w false v as n s = endGrant ((takeArrivals as s).setPort p
      (if v.result = .done then
          ((takeArrivals as s).port p).answering w.head.tag .done (v.answer.bytes (n + arrivalsRemove as s))
        else ((takeArrivals as s).port p).refusing ⟨w.head.code, w.head.tag, v.result, w.head.loc, v.via, v.stop, v.hops⟩
          (v.answer.bytes (n + arrivalsRemove as s)))) := by
  simp only [carryRequest, Bool.false_eq_true, if_false, advance_eq, takenBy, leftBy]
  split
  · next hv =>
    rw [respond_done_answering _ _ _ _ _ hv]
    refine endGrant_congr rfl rfl rfl rfl rfl ?_
    simp
  · next hv =>
    rw [respond_refusal' _ _ _ _ _ hv]
    · refine endGrant_congr rfl rfl rfl rfl rfl ?_
      simp
    · exact (outer_initialising (takeArrivals_outer s as)).trans hi

/-- The one removal of an Unmap or Unsubscribe counts every entry of the local (R34, R107). -/
theorem arrivalsRemove_all (l : Local) :
    arrivalsRemove [.removal q l .all] s = (s.port q).queue.countP (fun e => e.loc = l) := by
  simp [arrivalsRemove, arrivalRemoves, queueRemoved, Entry.removedBy, RemovalSet.has]

/-- Settles O42: `advance` in two parts is `advance` at once; and what one part leaves, and the last part builds. -/
theorem grantPausesAndGoesOn : Obligations.GrantPausesAndGoesOn := by
  refine ⟨fun s t n => grants_pause_and_end s t n, fun s p w d as n hc => ?_⟩
  intro paused pauses
  have pause (t : Table) (k : Sweep) (v : Verdict) (all : List Arrival) (c m : Nat)
      (he : exec (.portEngineGrant (.arrivals m)) s =
        .next (carryRequest (.arrivals m) p w d v all c { s with table := t, sweep := k })) :
      pauses m (paused m t k v all c) := by
    refine ⟨he.trans (congrArg _ (carryRequest_pauses s p w d v all c m t k)), fun q => ?_⟩
    obtain ⟨h1, h2, h3, -⟩ := takeArrivals_link s q (all.take m)
    exact ⟨h1, h2, h3⟩
  refine ⟨fun hg m => ?_, fun v hg => ⟨fun m => ?_, fun hd hi => ?_⟩⟩
  · refine pause _ _ _ _ _ m ?_
    rw [exec_request_work _ hc hg, tableWork_state s p w.request]
  · exact pause s.table s.sweep v as n m (exec_request_on _ hc hg)
  · intro u ends
    subst hd
    have hends : ends (v.answer.bytes (n + arrivalsRemove as s)) := by
      have hsel : (u.port p).select = (s.port p).select := (takeArrivals_link s p as).2.2.2
      refine ⟨(exec_request_on _ hc hg).trans (congrArg _ (carryRequest_ends v as n hi)), ?_⟩
      rw [State.rdy, endGrant_port, port_setPort_self, ← hsel]
      split
      · exact answering_shown ..
      · exact refusing_shown ..
    refine ⟨hends, fun q l has => ?_⟩
    intro found
    have hcount : arrivalsRemove as s = found := by rw [has, arrivalsRemove_all]
    rw [hcount] at hends
    exact ⟨fun i had ha => by rwa [ha] at hends, fun ha => by rwa [ha] at hends⟩

/-- Settles O52: a discarded grant carried to its end is its work and its arrivals, and no response. -/
theorem discardedGrantKeepsEffect : Obligations.DiscardedGrantKeepsEffect := by
  intro s p w as n hc k ends
  have ends_of (u : State) (t : Table) (v : Verdict) (all : List Arrival) (c : Nat) (sw : Sweep)
      (hu : u = { takeArrivals all s with table := t, sweep := sw })
      (he : exec (.portEngineGrant .toEnd) s =
        .next (carryRequest .toEnd p w true v all c { s with table := t, sweep := sw })) : ends u := by
    subst hu
    obtain ⟨h1, h2, h3, -⟩ := takeArrivals_link s p all
    refine ⟨he.trans (congrArg _ ?_), (congrArg _ (endGrant_port _ p)).trans h1, (congrArg _ (endGrant_port _ p)).trans h3,
      (congrArg _ (endGrant_port _ p)).trans h2⟩
    simp only [carryRequest, if_true, advance_eq, takenBy, leftBy]
    rw [takeArrivals_core_eq s all t s.arbiter sw]
    exact endGrant_congr rfl rfl rfl rfl rfl (by simp)
  refine ⟨fun hg => ends_of _ _ k.verdict k.arrivals 0 _ rfl ?_, fun v hg => ends_of _ s.table v as n s.sweep ?_ ?_⟩
  · rw [exec_request_work _ hc hg, tableWork_state s p w.request]
  · have := core_iff.1 (takeArrivals_core s as)
    rw [← this.1, ← this.2.2.2]
  · exact exec_request_on _ hc hg

end Sys2Proof.Machine


/-! ## A whole retirement (R126 to R128, R132) -/
namespace Sys2Proof.Machine

variable (s : State) (t : Table) (i : Slot)

/-! ### The steps, one after another -/

/-- A step whose grant is the engine's, with no claim raised, is carried out, and the next step of its job is granted. -/
theorem carryStep_granted {s u : State} {next : Job} {as : List Arrival} (hg : s.granted (.sweep false))
    (hu : u.sweep = s.sweep ∧ u.arbiter = s.arbiter ∧ u.lease = s.lease ∧ u.outer = s.outer) :
    let v := carryStep .toEnd next ⟨.sweep true, as, 0⟩ u
    v.granted (.sweep false) ∧ v.sweep.job = some next ∧ v.table = u.table ∧ v.outer = s.outer := by
  obtain ⟨-, hcl, hd⟩ := hg
  obtain ⟨hs, ha, hl, ho⟩ := hu
  have hclu (r : Requester) : u.claimed r = false := by
    rw [← hcl r]; exact claimed_congr (by rw [ha]) (by rw [hl]) (by rw [hs]) r
  intro v
  have hv : v = _ := carryStep_eq u next ⟨.sweep true, as, 0⟩ hclu (by rw [hs]; exact hd)
  rw [hv]
  refine ⟨⟨rfl, fun r => ?_, by rw [hs]; exact hd⟩, rfl, takeArrivals_table u as, (takeArrivals_outer u as).trans ho⟩
  rw [← hclu r]
  refine claimed_congr ?_ ?_ ?_ r
  · rfl
  · exact congrArg (·.claim) (takeArrivals_lease u as)
  · rfl

theorem stepV_granted {s : State} {i : Slot} {x : Port} (hc : s.clocked = true) (hg : s.granted (.sweep false))
    (hj : s.sweep.job = some (.retirement i (.v x))) :
    ∃ u, exec (.stepV .toEnd) s = .next u ∧ u.clocked = true ∧ u.granted (.sweep false) ∧
      u.sweep.job = some (.retirement i (.afterV x)) ∧ u.table = viewStepTable s.table x i := by
  obtain ⟨h1, h2, h3, h4⟩ := carryStep_granted (next := .retirement i (.afterV x)) (as := viewStepArrivals s.table x i)
    (u := { s with table := viewStepTable s.table x i }) hg ⟨rfl, rfl, rfl, rfl⟩
  exact ⟨_, exec_stepV .toEnd hc hg.1 hj, (clocked_of_outer h4).trans hc, h1, h2, h3⟩

theorem stepS_granted {s : State} {i : Slot} (hc : s.clocked = true) (hg : s.granted (.sweep false))
    (hj : s.sweep.job = some (.retirement i .s)) :
    ∃ u, exec (.stepS .toEnd) s = .next u ∧ u.clocked = true ∧ u.granted (.sweep false) ∧
      u.sweep.job = some (.retirement i .f) ∧ u.table = listStepTable s.table i := by
  obtain ⟨h1, h2, h3, h4⟩ := carryStep_granted (next := .retirement i .f)
    (as := (s.table.listLeft i).flatMap retiredArrivals) (u := { s with table := listStepTable s.table i }) hg
    ⟨rfl, rfl, rfl, rfl⟩
  exact ⟨_, exec_stepS .toEnd hc hg.1 hj, (clocked_of_outer h4).trans hc, h1, h2, h3⟩

/-- The table after the four steps V of a retirement (R126). -/
def viewsSwept (t : Table) (i : Slot) : Table :=
  viewStepTable (viewStepTable (viewStepTable (viewStepTable t .a i) .b i) .c i) .d i

/-- The table after a whole retirement (R126 to R128). -/
def retiredTable (t : Table) (i : Slot) : Table := freeStepTable (listStepTable (viewsSwept t i) i) i

/-- A retirement job that is granted its first step, with no other claim raised, runs through its six steps. -/
theorem retirement_runs {s : State} {i : Slot} (hc : s.clocked = true) (hg : s.granted (.sweep false))
    (hj : s.sweep.job = some (.retirement i (.v .a))) :
    ∃ t, runs [.stepV .toEnd, .stepV .toEnd, .stepV .toEnd, .stepV .toEnd, .stepS .toEnd, .stepF .atOnce] s t ∧
      t.table = retiredTable s.table i := by
  obtain ⟨s1, e1, c1, g1, j1, t1⟩ := stepV_granted hc hg hj
  obtain ⟨s2, e2, c2, g2, j2, t2⟩ := stepV_granted c1 g1 j1
  obtain ⟨s3, e3, c3, g3, j3, t3⟩ := stepV_granted c2 g2 j2
  obtain ⟨s4, e4, c4, g4, j4, t4⟩ := stepV_granted c3 g3 j3
  obtain ⟨s5, e5, c5, g5, j5, t5⟩ := stepS_granted c4 g4 j4
  refine ⟨_, ⟨s1, e1, s2, e2, s3, e3, s4, e4, s5, e5, _, exec_stepF .atOnce c5 g5.1 j5, rfl⟩, ?_⟩
  rw [endJob_table, t5, t4, t3, t2, t1]; rfl

/-! ### The table they leave -/

/-- A step V-x takes the names of port `x` alone. -/
theorem names_viewStepTable (x y : Port) (l : Local) :
    (viewStepTable t x i).names y i l = (y ≠ x && t.names y i l) := by
  rw [Table.names, entry_viewStepTable]
  by_cases e : y = x
  · subst e
    cases h : t.names y i l with
    | true => simp
    | false => simp only [Table.names] at h; simp [h]
  · simp [e, Table.names]

theorem pool_viewStepTable (x : Port) :
    (viewStepTable t x i).pool = t.pool.filter (fun u => !(u.port = x && t.names x i u.loc)) := rfl

@[simp] theorem record_viewStepTable (x : Port) (j : Slot) : (viewStepTable t x i).record j = t.record j := rfl

@[simp] theorem freeList_viewStepTable (x : Port) : (viewStepTable t x i).freeList = t.freeList := rfl

/-- The steps V together take every port's names of the slot. -/
theorem entry_viewsSwept (p : Port) (l : Local) :
    (viewsSwept t i).entry p l = if t.names p i l then none else t.entry p l := by
  simp only [viewsSwept, entry_viewStepTable, names_viewStepTable]
  cases p <;> simp

/-- And the subscriptions under those names. -/
theorem pool_viewsSwept : (viewsSwept t i).pool = t.pool.filter (fun u => !t.names u.port i u.loc) := by
  simp only [viewsSwept, pool_viewStepTable, names_viewStepTable, List.filter_filter]
  refine List.filter_congr fun u _ => ?_
  cases u.port <;> simp

theorem names_eq_any (p : Port) (l : Local) : t.names p i l = (t.entry p l).any (fun e => e.slot = i) := by
  unfold Table.names
  cases t.entry p l <;> rfl

theorem listStepTable_rest : (∀ j, (listStepTable t i).record j = t.record j) ∧
    (listStepTable t i).freeList = t.freeList ∧ ∀ p l, (listStepTable t i).entry p l = t.entry p l := by
  unfold listStepTable
  split <;> exact ⟨fun _ => rfl, rfl, fun _ _ => rfl⟩

/-- Step S takes the subscriptions whose target is the slot, where every target is a VALUE record (R86, R127). -/
theorem pool_listStepTable (h : ∀ u ∈ t.pool, ∃ v, (t.record u.target).body.content? = some (.value v)) :
    (listStepTable t i).pool = t.pool.filter (fun u => ¬u.target = i) := by
  unfold listStepTable
  split
  · rw [returnSubs_pool]; exact List.filter_congr fun u _ => by simp
  all_goals
    next hn =>
    symm
    rw [List.filter_eq_self]
    intro u hu
    obtain ⟨v, hv⟩ := h u hu
    rw [decide_eq_true_eq]
    rintro rfl
    rw [hn] at hv; cases hv

/-- Settles O50: the six steps run, and what each takes of the table, by the name of its slot. -/
theorem wholeRetirementFreesSlot : Obligations.WholeRetirementFreesSlot := by
  intro s i hc hi hg hj hret hview
  obtain ⟨t, hruns, ht⟩ := retirement_runs hc hg hj
  obtain ⟨-, hsubs, -, -⟩ := hview ⟨((clocked_iff s).1 hc).1, hi⟩
  obtain ⟨hrec, hfree, hent⟩ := listStepTable_rest (viewsSwept s.table i) i
  refine ⟨t, hruns, ?_, fun j hne => ?_, ?_, fun p l => ?_, ?_⟩ <;> rw [ht]
  · exact (record_setRecord_self ..).trans (by rw [hrec]; rfl)
  · exact (record_setRecord_ne _ _ _ hne).trans (hrec j)
  · exact congrArg (· ++ [i]) hfree
  · refine (hent p l).trans ?_
    rw [entry_viewsSwept, names_eq_any]
  · show (listStepTable (viewsSwept s.table i) i).pool = _
    have hvia : ∀ u ∈ s.table.pool, s.table.names u.port i u.loc = decide (u.via = i) := fun u hu => by
      obtain ⟨⟨r, he⟩, -⟩ := hsubs u hu
      simp [Table.names, he]
    have hpool := pool_viewsSwept s.table i
    rw [pool_listStepTable, hpool, List.filter_filter]
    · refine List.filter_congr fun u hu => ?_
      rw [hvia u hu, Bool.eq_iff_iff]
      simp only [Bool.and_eq_true, Bool.not_eq_true', decide_eq_true_eq, decide_eq_false_iff_not, not_or]
      exact and_comm
    · intro u hu
      rw [hpool, List.mem_filter] at hu
      exact (hsubs u hu.1).2

end Sys2Proof.Machine


/-! ## Map and Unmap (R25 to R28) -/
namespace Sys2Proof.Machine

/-- The return of the subscription on a local, by its fields (R28, R98). -/
theorem returnSubs_keyed (t : Table) (p : Port) (l : Local) : t.returnSubs (·.keyed p l) =
    { t with pool := t.pool.filter (fun u => ¬(u.port = p ∧ u.loc = l)) } := by
  simp [Table.returnSubs, Subscription.keyed]

theorem subscription?_isSome (t : Table) (p : Port) (l : Local) :
    (t.subscription? p l).isSome = t.pool.any (fun u => u.port = p ∧ u.loc = l) := by
  rw [Table.subscription?, List.isSome_find?]; simp [Subscription.keyed]

/-- Settles O36: the work of a Map on the slot's state and then on the entry, the work of an Unmap on the entry. -/
theorem mapAndUnmapChangeView : Obligations.MapAndUnmapChangeView := by
  refine fun q tag l s => ⟨fun i rights => ⟨fun hl he => ?_, fun hl => ?_, fun hl he => ?_⟩, fun e he => ?_, fun he => ?_⟩
  · exact concludes_request (.map q l i rights) tag rfl rfl (fun _ => rfl) (a := .mapped (s.table.record i).generation)
      (by simp only [tableWork, workMap, hl, he, if_true])
  · exact declines_request (.map q l i rights) tag rfl rfl (fun _ => rfl) (x := .notLive) (by decide)
      (by simp only [tableWork, workMap, hl]; rfl)
  · obtain ⟨e, he⟩ := Option.isSome_iff_exists.1 he
    exact declines_request (.map q l i rights) tag rfl rfl (fun _ => rfl) (x := .inUse) (by decide)
      (by simp only [tableWork, workMap, hl, he, if_true])
  · have h := concludes_request (s := s) (p := .a) (.unmap q l) tag rfl rfl (fun _ => rfl)
      (by simp only [tableWork, workUnmap, he]; rfl)
    rw [returnSubs_keyed, subscription?_isSome, arrivalsRemove_all] at h
    exact h
  · exact declines_request (.unmap q l) tag rfl rfl (fun _ => rfl) (x := .noEntry) (by decide)
      (by simp only [tableWork, workUnmap, he])

end Sys2Proof.Machine


/-! ## View entries and subscriptions (R23, R31, R86) -/
namespace Sys2Proof.Machine

/-! ### A resolution passes through a present entry -/

theorem walk_reached_via {t : Table} {style : Style} {via cur i via' : Slot} {left hops : Nat} {c : Content}
    {v : ValueFields} (h : walk t style via left cur c = .reached i via' v hops) : via' = via := by
  induction left generalizing cur c with
  | zero =>
    unfold walk at h
    split at h
    · cases h; rfl
    · split at h <;> cases h
  | succ n ih =>
    unfold walk at h
    split at h
    · cases h; rfl
    · split at h
      · cases h
      · simp only at h
        split at h
        · split at h
          · exact ih h
          · cases h
        all_goals cases h

/-- The via slot handed on is the one that the port's entry names (R36, R43). -/
theorem resolve_reached_entry {t : Table} {style : Style} {p : Port} {l : Local} {i via : Slot} {v : ValueFields}
    {hops : Nat} (h : resolve t style p l = .reached i via v hops) : ∃ r, t.entry p l = some ⟨via, r⟩ := by
  unfold resolve at h
  split at h
  · cases h
  · next e he =>
    split at h
    · cases h
    · split at h
      · rw [walk_reached_via h]; exact ⟨e.rights, he⟩
      all_goals cases h

/-! ### What view entries and subscriptions stand on -/

/-- A VALUE record, LIVE or RETIRING (R1). -/
def Record.holdsValue (r : Record) : Prop := ∃ v, r.body.content? = some (.value v)

/-- The change of a record frees no slot and takes no VALUE record away. -/
def Record.keeps (r r' : Record) : Prop := (r.body ≠ .free → r'.body ≠ .free) ∧ (r.holdsValue → r'.holdsValue)

/-- The subscription's entry is present and names its via slot, and its target is a VALUE record (R31, R86). -/
def Table.bears (t : Table) (u : Subscription) : Prop :=
  (∃ r, t.entry u.port u.loc = some ⟨u.via, r⟩) ∧ (t.record u.target).holdsValue

/-- View entries name LIVE or RETIRING slots (R23), and the table bears every subscription in use (R31, R86). -/
def Table.viewsOk (t : Table) : Prop :=
  (∀ p l e, t.entry p l = some e → (t.record e.slot).body ≠ .free) ∧ ∀ u ∈ t.pool, t.bears u

theorem keeps_refl (r : Record) : r.keeps r := ⟨id, id⟩

theorem holdsValue_live {r : Record} {v : ValueFields} (h : r.body = .live (.value v)) : r.holdsValue := ⟨v, by rw [h]; rfl⟩

/-- A LIVE VALUE record takes new fields. -/
theorem keeps_value (r : Record) (g : Byte) (v : ValueFields) : r.keeps ⟨g, .live (.value v)⟩ :=
  ⟨fun _ => SlotBody.noConfusion, fun _ => ⟨v, rfl⟩⟩

theorem keeps_retired {r : Record} {c : Content} (h : r.body = .live c) : r.keeps (retiredRecord r.generation c) :=
  ⟨fun _ => SlotBody.noConfusion, fun ⟨v, hv⟩ => ⟨v, by rw [h] at hv; exact hv⟩⟩

theorem keeps_of_free {r r' : Record} (h : r.body = .free) : r.keeps r' :=
  ⟨fun hn => absurd h hn, fun ⟨v, hv⟩ => by rw [h] at hv; cases hv⟩

theorem keeps_visited (k : Nat) (r : Record) : r.keeps (r.visited k) := by
  refine ⟨fun hn => (visited_states k r).1.not.2 hn, fun h => ?_⟩
  unfold Record.visited
  split
  · split
    · exact ⟨_, rfl⟩
    · exact h
  all_goals exact h

theorem keeps_setRecord {t : Table} {i : Slot} {r : Record} (h : (t.record i).keeps r) (j : Slot) :
    (t.record j).keeps ((t.setRecord i r).record j) := by
  by_cases e : j = i
  · subst e; rw [record_setRecord_self]; exact h
  · rw [record_setRecord_ne _ _ _ e]; exact keeps_refl _

/-- A subscription in its place: another with these four fields is borne as it is. -/
theorem bears_congr {t t' : Table} {u u' : Subscription} (h : t.bears u) (hp : u'.port = u.port) (hl : u'.loc = u.loc)
    (hv : u'.via = u.via) (ht : u'.target = u.target) (he : t'.entry u.port u.loc = t.entry u.port u.loc)
    (hr : (t.record u.target).keeps (t'.record u.target)) : t'.bears u' := by
  obtain ⟨hent, hval⟩ := h
  rw [Table.bears, hp, hl, hv, ht, he]
  exact ⟨hent, hr.2 hval⟩

/-- The views stand, the records keep what stands on them, and the table bears the subscriptions. -/
theorem viewsOk_records {t t' : Table} (h : t.viewsOk) (hv : t'.views = t.views)
    (hr : ∀ j, (t.record j).keeps (t'.record j)) (hp : ∀ u ∈ t'.pool, t'.bears u) : t'.viewsOk :=
  ⟨fun p l e he => (hr e.slot).1 (h.1 p l e (by rw [← he, Table.entry, Table.entry, hv])), hp⟩

/-- The views and the pool stand, and the records keep what stands on them. -/
def Table.keeps (t t' : Table) : Prop :=
  t'.views = t.views ∧ t'.pool = t.pool ∧ ∀ j, (t.record j).keeps (t'.record j)

theorem viewsOk_keeps {t t' : Table} (h : t.viewsOk) (hk : t.keeps t') : t'.viewsOk := by
  obtain ⟨hv, hp, hr⟩ := hk
  exact viewsOk_records h hv hr fun u hu =>
    bears_congr (h.2 u (hp ▸ hu)) rfl rfl rfl rfl (by rw [Table.entry, Table.entry, hv]) (hr _)

theorem tableKeeps_refl (t : Table) : t.keeps t := ⟨rfl, rfl, fun _ => keeps_refl _⟩

theorem tableKeeps_trans {t u v : Table} (h : t.keeps u) (h' : u.keeps v) : t.keeps v := by
  obtain ⟨hv, hp, hr⟩ := h
  obtain ⟨hv', hp', hr'⟩ := h'
  exact ⟨hv'.trans hv, hp'.trans hp, fun j => ⟨(hr' j).1 ∘ (hr j).1, (hr' j).2 ∘ (hr j).2⟩⟩

theorem tableKeeps_setRecord {t : Table} {i : Slot} {r : Record} (h : (t.record i).keeps r) : t.keeps (t.setRecord i r) :=
  ⟨rfl, rfl, keeps_setRecord h⟩

theorem tableKeeps_visit (t : Table) (k lo hi : Nat) : t.keeps (t.visit k lo hi) := by
  refine ⟨rfl, rfl, fun j => ?_⟩
  rw [record_visit]
  split
  · exact keeps_visited k _
  · exact keeps_refl _

theorem tableKeeps_expire (t : Table) (i : Slot) : t.keeps (t.expire i) := by
  unfold Table.expire
  split
  · exact tableKeeps_setRecord (keeps_value ..)
  all_goals exact tableKeeps_refl t

theorem tableKeeps_runAccess (s : State) (k lo : Nat) : s.table.keeps (runAccess k lo s).table := by
  unfold runAccess
  split
  · exact tableKeeps_visit ..
  · rw [endGrant_table]; exact tableKeeps_visit ..

theorem tableKeeps_carryExpiry (s : State) (pr : Progress) (k : Nat) (i : Slot) (g : Grant) :
    s.table.keeps (carryExpiry pr k i g s).table := by
  cases pr with
  | toEnd => simpa [carryExpiry] using tableKeeps_runAccess (advance .toEnd g s) k (i.val + 1)
  | arrivals m => simpa [carryExpiry] using tableKeeps_refl s.table

/-- Only the pool has changed. -/
theorem viewsOk_pool {t : Table} {us : List Subscription} (h : t.viewsOk) (hp : ∀ u ∈ us, t.bears u) :
    ({ t with pool := us } : Table).viewsOk := ⟨h.1, hp⟩

theorem viewsOk_returnSubs {t : Table} (drop : Subscription → Bool) (h : t.viewsOk) : (t.returnSubs drop).viewsOk :=
  viewsOk_pool h fun u hu => h.2 u (List.mem_filter.1 hu).1

/-- A subscription made or left by a Subscribe stands where its resolution has come through (R94, R95). -/
theorem bears_newSubscription {t : Table} {style : Style} {p : Port} {l : Local} {via target : Slot} {v : ValueFields}
    {hops : Nat} (h : resolve t style p l = .reached target via v hops) (m f : Word32) (md : Mode) (o : Bool) (x : Word32) :
    t.bears (newSubscription p l via target m f md o x) :=
  ⟨resolve_reached_entry h, holdsValue_live (resolve_reached h)⟩

/-- After a replacement a subscription is the new one or stood in the pool (R94). -/
theorem mem_replaceSubscription {us : List Subscription} {old new u : Subscription}
    (h : u ∈ replaceSubscription us old new) : u = new ∨ u ∈ us := by
  unfold replaceSubscription at h
  split at h
  · obtain ⟨w, hw, rfl⟩ := List.mem_map.1 h
    split
    · exact .inl rfl
    · exact .inr hw
  · rcases List.mem_append.1 h with h | h
    · exact .inr (List.mem_filter.1 h).1
    · exact .inl (List.mem_singleton.1 h)

/-- An evaluation changes nothing of a subscription but its watch state (R90). -/
theorem mem_evaluatedPool {t : Table} {i : Slot} {x : Word32} {u : Subscription} (h : u ∈ evaluatedPool t i x) :
    ∃ w ∈ t.pool, u.port = w.port ∧ u.loc = w.loc ∧ u.via = w.via ∧ u.target = w.target := by
  obtain ⟨w, hw, rfl⟩ := List.mem_map.1 h
  refine ⟨w, hw, ?_⟩
  split <;> exact ⟨rfl, rfl, rfl, rfl⟩

/-- A Map makes an entry that was absent, so no subscription stands on it (R26, R31). -/
theorem viewsOk_mapped {t : Table} {p : Port} {l : Local} {i : Slot} (r : Rights) (h : t.viewsOk)
    (hl : (t.record i).isLive = true) (he : t.entry p l = none) : (t.setEntry p l (some ⟨i, r⟩)).viewsOk := by
  refine ⟨fun q m e hq => ?_, fun u hu => bears_congr (h.2 u hu) rfl rfl rfl rfl ?_ (keeps_refl _)⟩
  · rw [entry_setEntry] at hq
    split at hq
    · cases hq
      obtain ⟨c, hc⟩ := (isLive_iff _).1 hl
      rw [setEntry_record, hc]; exact SlotBody.noConfusion
    · exact h.1 q m e hq
  · obtain ⟨⟨r', hu'⟩, -⟩ := h.2 u hu
    rw [entry_setEntry, if_neg]
    rintro ⟨hp, hm⟩
    rw [hp, hm, he] at hu'; cases hu'

/-- An Unmap takes the entry with the subscription on it (R28, R31). -/
theorem viewsOk_unmapped {t : Table} (p : Port) (l : Local) (h : t.viewsOk) :
    ((t.setEntry p l none).returnSubs (·.keyed p l)).viewsOk := by
  refine ⟨fun q m e hq => ?_, fun u hu => ?_⟩
  · rw [returnSubs_entry, entry_setEntry] at hq
    split at hq
    · cases hq
    · exact h.1 q m e hq
  · obtain ⟨hu, hk⟩ := List.mem_filter.1 hu
    refine bears_congr (h.2 u hu) rfl rfl rfl rfl ?_ (keeps_refl _)
    rw [returnSubs_entry, entry_setEntry, if_neg]
    simpa [Subscription.keyed, imp_iff_not_or] using hk

/-- A request's table work keeps view entries and subscriptions on the records they may stand on. -/
theorem viewsOk_change {t t' : Table} {w w' : Sweep} {is : List Slot} (h : t.viewsOk) (hs : t.slotsIn is)
    (hc : TableChange t w t' w') : t'.viewsOk := by
  cases hc with
  | none => exact h
  | written i v x hb =>
    have hr := keeps_setRecord (t := t) (i := i) (keeps_value _ (t.record i).generation (writtenFields v x))
    refine viewsOk_records h rfl hr fun u hu => ?_
    obtain ⟨w, hw, hp, hl, hv, ht⟩ := mem_evaluatedPool hu
    exact bears_congr (h.2 w hw) hp hl hv ht rfl (hr _)
  | refreshed i v hb hi => exact viewsOk_keeps h (tableKeeps_setRecord (keeps_value ..))
  | replaced p l via target v hops old new hr ho hn =>
    obtain ⟨m, f, md, o, rfl⟩ := hn
    refine viewsOk_pool h fun u hu => ?_
    rcases mem_replaceSubscription hu with rfl | hu
    · exact bears_newSubscription hr ..
    · exact h.2 u hu
  | subscribed p l via target v hops new hr ho hp hn =>
    obtain ⟨m, f, md, o, rfl⟩ := hn
    refine viewsOk_pool h fun u hu => ?_
    rcases List.mem_append.1 hu with hu | hu
    · exact h.2 u hu
    · rw [List.mem_singleton.1 hu]; exact bears_newSubscription hr ..
  | unsubscribed p l => exact viewsOk_returnSubs _ h
  | created i rest c hf hk =>
    obtain ⟨-, hfree, -⟩ := hs
    have hi : (t.record i).body = .free := (hfree i).1 (by simp [hf])
    exact viewsOk_keeps h ⟨rfl, rfl, keeps_setRecord (keeps_of_free hi)⟩
  | mapped p l i r hl he => exact viewsOk_mapped r h hl he
  | unmapped p l e he => exact viewsOk_unmapped p l h
  | retired i c hb hq => exact viewsOk_keeps h (tableKeeps_setRecord (keeps_retired hb))

theorem viewsOk_cleared : Table.cleared.viewsOk :=
  ⟨fun p l e he => (by rw [cleared_entry] at he; cases he), fun u hu => (by rw [cleared_pool] at hu; cases hu)⟩

end Sys2Proof.Machine


/-! ## What the current retirement job has swept (R126, R127) -/
namespace Sys2Proof.Machine

variable (s : State)

/-! ### How far a job has come -/

/-- The sweep engine's grant is in progress with the table work of its step done. -/
def State.stepDone (s : State) : Prop := ∃ as n, s.arbiter.grant = some ⟨.sweep true, as, n⟩

theorem not_stepDone_of_grant {s : State} {g : Grant} (h : s.arbiter.grant = some g) (hn : g.holder ≠ .sweep true) :
    ¬s.stepDone := by
  rintro ⟨as, n, hg⟩
  rw [h] at hg; cases hg; exact hn rfl

theorem not_stepDone_of_none {s : State} (h : s.arbiter.grant = none) : ¬s.stepDone := by
  rintro ⟨as, n, hg⟩
  rw [h] at hg; cases hg

/-- A job at this step, whose table work is `done` or not, has swept port `x`'s view (R126). -/
def RetireStep.pastView (st : RetireStep) (done : Prop) (x : Port) : Prop :=
  match st with
  | .v y => Port.all.idxOf x < Port.all.idxOf y ∨ done ∧ Port.all.idxOf x ≤ Port.all.idxOf y
  | .s | .f => True

/-- A job at this step, whose table work is `done` or not, has emptied its slot's list (R127). -/
def RetireStep.pastList (st : RetireStep) (done : Prop) : Prop := st = .f ∨ st = .s ∧ done

/-- What a job of slot `i` at this step has swept stays swept. -/
def Table.sweptTo (t : Table) (i : Slot) (st : RetireStep) (done : Prop) : Prop :=
  (∀ x, st.pastView done x → ∀ l, t.names x i l = false) ∧ (st.pastList done → ∀ u ∈ t.pool, u.target ≠ i)

theorem sweptView_iff {i : Slot} {st : RetireStep} (h : s.sweep.job = some (.retirement i st)) (x : Port) :
    s.sweptView x ↔ st.pastView s.stepDone x := by
  unfold State.sweptView RetireStep.pastView
  rw [h]
  cases st with
  | v y =>
    dsimp only
    split
    · next as n hg => simpa [show s.stepDone from ⟨as, n, hg⟩] using le_of_lt
    · next g hno hg => simp [show ¬s.stepDone from fun ⟨as, n, e⟩ => hno as n (Option.some.inj (hg.symm.trans e))]
    · next hg => simp [not_stepDone_of_none hg]
  | s | f => exact Iff.rfl

theorem sweptList_iff (i : Slot) :
    s.sweptList i ↔ ∃ st, s.sweep.job = some (.retirement i st) ∧ st.pastList s.stepDone := by
  simp only [State.sweptList, RetireStep.pastList, and_or_left, exists_or, State.stepDone]
  simp

/-- `ViewInv` in two parts: the table by itself, and the current retirement job. -/
theorem viewInv_iff : s.ViewInv ↔ (s.tableValid → s.table.viewsOk ∧
    ∀ i st, s.sweep.job = some (.retirement i st) → s.table.sweptTo i st s.stepDone) := by
  refine imp_congr_right fun _ => ⟨fun ⟨h1, h2, h3, h4⟩ => ⟨⟨h1, h2⟩, fun i st hj => ⟨fun x hx => ?_, fun hl => ?_⟩⟩,
    fun ⟨⟨h1, h2⟩, h3⟩ => ⟨h1, h2, fun i st hj x hx => ?_, fun i hl => ?_⟩⟩
  · exact h3 i st hj x ((sweptView_iff s hj x).2 hx)
  · exact h4 i ((sweptList_iff s i).2 ⟨st, hj, hl⟩)
  · exact (h3 i st hj).1 x ((sweptView_iff s hj x).1 hx)
  · obtain ⟨st, hj, hd⟩ := (sweptList_iff s i).1 hl
    exact (h3 i st hj).2 hd

/-- A job that begins has swept nothing. -/
theorem sweptTo_first (t : Table) (i : Slot) {done : Prop} (h : ¬done) : t.sweptTo i (.v .a) done :=
  ⟨fun _ hx => hx.elim (fun h => absurd h (Nat.not_lt_zero _)) fun hd => absurd hd.1 h,
    fun hl => hl.elim RetireStep.noConfusion fun hd => RetireStep.noConfusion hd.1⟩

theorem sweptTo_mono {t : Table} {i : Slot} {st : RetireStep} {done done' : Prop} (h : t.sweptTo i st done)
    (hd : done' → done) : t.sweptTo i st done' := by
  refine ⟨fun x hx => h.1 x ?_, fun hl => h.2 (hl.imp_right (And.imp_right hd))⟩
  cases st with
  | v y => exact hx.imp_right (And.imp_left hd)
  | s | f => trivial

/-- Before the work of the step after V-x no view beyond port `x`'s has been swept (R116). -/
theorem idxOf_le_of_pastView_afterV {x y : Port} {done : Prop} (h : (RetireStep.afterV x).pastView done y) (hd : ¬done) :
    Port.all.idxOf y ≤ Port.all.idxOf x := by
  cases x with
  | d => cases y <;> decide
  | a | b | c => exact Nat.le_of_lt_succ (h.resolve_right fun hn => hd hn.1)

/-- The next step begins where the work of this one has ended (R116, R126, R127). -/
theorem sweptTo_next {t : Table} {i : Slot} {st next : RetireStep} {done : Prop} (h : t.sweptTo i st True)
    (hn : (∃ x, st = .v x ∧ next = .afterV x) ∨ st = .s ∧ next = .f) (hd : ¬done) : t.sweptTo i next done := by
  obtain ⟨hv, hl⟩ := h
  rcases hn with ⟨x, rfl, rfl⟩ | ⟨rfl, rfl⟩
  · refine ⟨fun y hy => hv y (.inr ⟨trivial, idxOf_le_of_pastView_afterV hy hd⟩), fun h => ?_⟩
    rcases h with h | ⟨-, h⟩
    · cases x <;> cases h
    · exact absurd h hd
  · exact ⟨fun y _ => hv y trivial, fun _ => hl (.inr ⟨rfl, trivial⟩)⟩

/-! ### What table work leaves swept -/

theorem names_iff {t : Table} {x : Port} {i : Slot} {l : Local} :
    t.names x i l = true ↔ ∃ r, t.entry x l = some ⟨i, r⟩ := by
  unfold Table.names
  cases t.entry x l with
  | none => simp
  | some e => cases e; simp [ViewEntry.mk.injEq]

/-- No port has come to name the slot, and no subscription to have it as its target. -/
theorem sweptTo_of {t t' : Table} {i : Slot} {st : RetireStep} {done : Prop} (h : t.sweptTo i st done)
    (hn : ∀ x l, t'.names x i l = true → t.names x i l = true)
    (hp : ∀ u ∈ t'.pool, u.target = i → ∃ w ∈ t.pool, w.target = i) : t'.sweptTo i st done := by
  refine ⟨fun x hx l => ?_, fun hl u hu hi => ?_⟩
  · have := h.1 x hx l
    cases e : t'.names x i l
    · rfl
    · rw [hn x l e] at this; exact this
  · obtain ⟨w, hw, hwi⟩ := hp u hu hi
    exact h.2 hl w hw hwi

/-- The views stand, and the pool is part of what it was. -/
theorem sweptTo_sub {t t' : Table} {i : Slot} {st : RetireStep} {done : Prop} (h : t.sweptTo i st done)
    (hv : t'.views = t.views) (hp : ∀ u ∈ t'.pool, u ∈ t.pool) : t'.sweptTo i st done :=
  sweptTo_of h (fun x l e => by rwa [Table.names, Table.entry, ← hv]) fun u hu hi => ⟨u, hp u hu, hi⟩

theorem sweptTo_keeps {t t' : Table} {i : Slot} {st : RetireStep} {done : Prop} (h : t.sweptTo i st done)
    (hk : t.keeps t') : t'.sweptTo i st done :=
  sweptTo_sub h hk.1 fun _ hu => hk.2.1 ▸ hu

/-- A request's table work brings no name of a RETIRING slot and no subscription to it: what it brings is LIVE. -/
theorem sweptTo_change {t t' : Table} {w w' : Sweep} {i : Slot} {st : RetireStep} {done : Prop} (h : t.sweptTo i st done)
    (hi : (t.record i).isRetiring = true) (hc : TableChange t w t' w') : t'.sweptTo i st done := by
  have not_live : (t.record i).isLive ≠ true := by
    obtain ⟨c, hc⟩ := (isRetiring_iff _).1 hi
    simp [hc]
  have not_target {c : Content} {j : Slot} (hj : (t.record j).body = .live c) : j ≠ i := fun e =>
    not_live ((isLive_iff _).2 ⟨c, e ▸ hj⟩)
  cases hc with
  | none => exact h
  | written j v x hb =>
    refine sweptTo_of h (fun _ _ => id) fun u hu he => ?_
    obtain ⟨w, hw, -, -, -, ht⟩ := mem_evaluatedPool hu
    exact ⟨w, hw, ht ▸ he⟩
  | replaced p l via target v hops old new hr ho hn =>
    obtain ⟨m, f, md, o, rfl⟩ := hn
    refine sweptTo_of h (fun _ _ => id) fun u hu he => ?_
    rcases mem_replaceSubscription hu with rfl | hu
    · exact absurd he (not_target (resolve_reached hr))
    · exact ⟨u, hu, he⟩
  | subscribed p l via target v hops new hr ho hp hn =>
    obtain ⟨m, f, md, o, rfl⟩ := hn
    refine sweptTo_of h (fun _ _ => id) fun u hu he => ?_
    rcases List.mem_append.1 hu with hu | hu
    · exact ⟨u, hu, he⟩
    · rw [List.mem_singleton.1 hu] at he
      exact absurd he (not_target (resolve_reached hr))
  | mapped p l j r hl he =>
    refine sweptTo_of h (fun x m hm => ?_) fun u hu he => ⟨u, hu, he⟩
    obtain ⟨r', hr⟩ := names_iff.1 hm
    rw [entry_setEntry] at hr
    split at hr
    · cases hr; exact absurd hl not_live
    · exact names_iff.2 ⟨r', hr⟩
  | unmapped p l e he =>
    refine sweptTo_of h (fun x m hm => ?_) fun u hu he => ⟨u, (List.mem_filter.1 hu).1, he⟩
    obtain ⟨r', hr⟩ := names_iff.1 hm
    rw [returnSubs_entry, entry_setEntry] at hr
    split at hr
    · cases hr
    · exact names_iff.2 ⟨r', hr⟩
  | unsubscribed p l => exact sweptTo_sub h rfl fun u hu => (List.mem_filter.1 hu).1
  | refreshed | created | retired => exact sweptTo_sub h rfl fun _ => id

/-! ### The table work of the steps -/

/-- Step V-x takes port `x`'s entries of the slot with the subscriptions on them (R126). -/
theorem viewsOk_viewStep {t : Table} (x : Port) (i : Slot) (h : t.viewsOk) : (viewStepTable t x i).viewsOk := by
  refine ⟨fun q m e hq => ?_, fun u hu => ?_⟩
  · rw [entry_viewStepTable] at hq
    split at hq
    · cases hq
    · exact h.1 q m e hq
  · rw [pool_viewStepTable, List.mem_filter] at hu
    obtain ⟨hu, hk⟩ := hu
    refine bears_congr (h.2 u hu) rfl rfl rfl rfl ?_ (keeps_refl _)
    rw [entry_viewStepTable, if_neg]
    rintro ⟨rfl, hn⟩
    simp [hn] at hk

theorem sweptTo_viewStep {t : Table} {x : Port} {i : Slot} {done : Prop} (h : t.sweptTo i (.v x) done) :
    (viewStepTable t x i).sweptTo i (.v x) True := by
  refine ⟨fun y hy l => ?_, fun hl => hl.elim RetireStep.noConfusion fun hd => RetireStep.noConfusion hd.1⟩
  rw [names_viewStepTable]
  by_cases e : y = x
  · simp [e]
  · have hle : Port.all.idxOf y ≤ Port.all.idxOf x := hy.elim le_of_lt And.right
    have hlt := lt_of_le_of_ne hle fun h => e ((List.idxOf_inj (by cases y <;> decide)).1 h)
    rw [h.1 y (.inl hlt) l, Bool.and_false]

theorem viewsOk_listStep {t : Table} (i : Slot) (h : t.viewsOk) : (listStepTable t i).viewsOk := by
  unfold listStepTable
  split
  · exact viewsOk_returnSubs _ h
  all_goals exact h

theorem sweptTo_listStep {t : Table} {i : Slot} {done : Prop} (h : t.sweptTo i .s done) (hv : t.viewsOk) :
    (listStepTable t i).sweptTo i .s True := by
  refine ⟨fun y _ l => ?_, fun _ u hu => ?_⟩
  · rw [Table.names, (listStepTable_rest t i).2.2]; exact h.1 y trivial l
  · rw [pool_listStepTable t i fun u hu => (hv.2 u hu).2, List.mem_filter, decide_eq_true_eq] at hu
    exact hu.2

/-- Step F frees a slot that no view names and no subscription has as its target (R128). -/
theorem viewsOk_freeStep {t : Table} {i : Slot} {done : Prop} (h : t.viewsOk) (hs : t.sweptTo i .f done) :
    (freeStepTable t i).viewsOk := by
  refine ⟨fun q m e he => ?_, fun u hu => ?_⟩
  · have hne : e.slot ≠ i := fun hi => by
      have := hs.1 q trivial m
      rw [names_iff.2 ⟨e.rights, hi ▸ he⟩] at this; cases this
    show ((t.setRecord i _).record e.slot).body ≠ .free
    rw [record_setRecord_ne _ _ _ hne]; exact h.1 q m e he
  · refine bears_congr (h.2 u hu) rfl rfl rfl rfl rfl ?_
    show (t.record u.target).keeps ((t.setRecord i _).record u.target)
    rw [record_setRecord_ne _ _ _ (hs.2 (.inl rfl) u hu)]; exact keeps_refl _

end Sys2Proof.Machine


/-! ## Every step keeps the views, the subscriptions and what is swept -/
namespace Sys2Proof.Machine

variable (s : State) (p : Port)

/-! ### A step's grant with its work done, over the other operations -/

/-- The arbiter begins no grant with its table work done, and ends none (R14). -/
theorem arbitrate_grant_worked {g : Grant} (h : g.holder.workDone = true) :
    (arbitrate s).arbiter.grant = some g ↔ s.arbiter.grant = some g := by
  rcases arbitrate_cases s with ⟨-, e⟩ | ⟨-, -, e⟩ | ⟨r, hg, -, -, e⟩ <;> rw [e]
  refine iff_of_false (fun hb => ?_) (by rw [hg]; exact fun e => by cases e)
  rcases beginGrant_grant s r hg with h0 | ⟨k, h1, ⟨_, _, -, rfl⟩ | rfl | rfl⟩
  · rw [h0] at hb; cases hb
  all_goals rw [h1] at hb; cases hb; cases h

@[simp] theorem arbitrate_stepDone : (arbitrate s).stepDone ↔ s.stepDone :=
  exists_congr fun _ => exists_congr fun _ => arbitrate_grant_worked s rfl

theorem stepDone_of_grant {s t : State} (h : t.arbiter.grant = s.arbiter.grant) : t.stepDone ↔ s.stepDone := by
  rw [State.stepDone, State.stepDone, h]

theorem endGrant_not_stepDone : ¬(endGrant s).stepDone := by
  rw [endGrant, arbitrate_stepDone]; exact not_stepDone_of_none rfl

theorem endJob_not_stepDone (c : JobChoice) : ¬(endJob c s).stepDone := by
  have left : ¬s.choiceLeft.stepDone := by
    rw [State.choiceLeft, arbitrate_stepDone]; exact not_stepDone_of_none rfl
  rcases endJob_cases s c with e | ⟨e, -⟩ | ⟨-, e⟩ <;> rw [e]
  · rw [arbitrate_stepDone]; exact not_stepDone_of_none rfl
  · exact left
  · rw [arbitrate_stepDone]; exact left

theorem markDetachment_stepDone : (markDetachment p s).stepDone ↔ s.stepDone := arbitrate_stepDone _

theorem resetPort_stepDone : (resetPort p s).stepDone ↔ s.stepDone := by
  rw [State.stepDone, State.stepDone, resetPort_grant]
  rcases s.arbiter.grant with _ | ⟨_ | _ | _, as, n⟩ <;> simp [Holder.discardFor]

theorem carryRequest_not_stepDone (pr : Progress) (w : Work) (d : Bool) (v : Verdict) (as : List Arrival) (n : Nat) :
    ¬(carryRequest pr p w d v as n s).stepDone := by
  cases pr with
  | toEnd => exact endGrant_not_stepDone _
  | arrivals m => exact not_stepDone_of_grant (advance_grant ..) Holder.noConfusion

theorem runAccess_not_stepDone (k lo : Nat) : ¬(runAccess k lo s).stepDone := by
  unfold runAccess
  split
  · exact not_stepDone_of_grant rfl Holder.noConfusion
  · exact endGrant_not_stepDone _

theorem carryExpiry_not_stepDone (pr : Progress) (k : Nat) (i : Slot) (as : List Arrival) (n : Nat) :
    ¬(carryExpiry pr k i ⟨.lease k (.posting i), as, n⟩ s).stepDone := by
  cases pr with
  | toEnd => simp only [carryExpiry]; exact runAccess_not_stepDone _ _ _
  | arrivals m => exact not_stepDone_of_grant (advance_grant ..) Holder.noConfusion

/-- A step's grant with its work done belongs to a current job. -/
theorem State.SweepInv.job_of_stepDone {s : State} (h : s.SweepInv) (hd : s.stepDone) :
    ∃ j, s.sweep.job = some j ∧ j.takesGrant = true := by
  obtain ⟨-, -, hholds, -⟩ := h
  obtain ⟨as, n, hg⟩ := hd
  exact (hholds ⟨true, as, n, hg⟩).2

/-! ### The current job, over the other operations -/

/-- A retirement job that is current after the change was so before it, or begins (R124). -/
def Sweep.goesOn (w w' : Sweep) : Prop :=
  ∀ i st, w'.job = some (.retirement i st) → w.job = some (.retirement i st) ∨ st = .v .a

theorem goesOn_of_job {w w' : Sweep} (h : w'.job = w.job) : w.goesOn w' := fun _ _ hj => .inl (h ▸ hj)

theorem goesOn_trans {w w' w'' : Sweep} (h : w.goesOn w') (h' : w'.goesOn w'') : w.goesOn w'' :=
  fun i st hj => (h' i st hj).elim (h i st) .inr

theorem goesOn_takeJob (w : Sweep) : w.goesOn w.takeJob := by
  intro i st hj
  rcases takeJob_cases w with ⟨x, -, -, e⟩ | ⟨-, j, rest, -, e⟩ | ⟨-, -, e⟩ <;> rw [e] at hj
  · cases hj
  · cases hj; exact .inr rfl
  · exact .inl hj

theorem goesOn_choose (w : Sweep) : w.goesOn w.choose := by
  unfold Sweep.choose
  split
  · exact goesOn_takeJob w
  · exact goesOn_of_job rfl

theorem goesOn_offer (w : Sweep) : w.goesOn w.offer := by
  unfold Sweep.offer
  split
  · split
    · exact goesOn_of_job rfl
    · exact goesOn_takeJob w
  · exact goesOn_of_job rfl

@[simp] theorem arbitrate_job : (arbitrate s).sweep.job = s.sweep.job := by
  rcases arbitrate_sweep s with e | e <;> rw [e]

theorem goesOn_endGrant : s.sweep.goesOn (endGrant s).sweep :=
  goesOn_trans (goesOn_choose _) (goesOn_of_job (arbitrate_job _))

theorem goesOn_markDetachment : s.sweep.goesOn (markDetachment p s).sweep := by
  intro i st hj
  rw [markDetachment, arbitrate_job] at hj
  have h := goesOn_offer _ i st hj
  exact h

theorem markDetachment_job {j : Job} (h : s.sweep.job = some j) : (markDetachment p s).sweep.job = some j := by
  simp [markDetachment, Sweep.offer, h]

theorem goesOn_carryRequest (pr : Progress) (w : Work) (d : Bool) (v : Verdict) (as : List Arrival) (n : Nat) :
    s.sweep.goesOn (carryRequest pr p w d v as n s).sweep := by
  cases pr with
  | toEnd =>
    refine goesOn_trans (goesOn_of_job ?_) (goesOn_endGrant _)
    cases d <;> simp
  | arrivals m => exact goesOn_of_job (by simp [carryRequest])

theorem goesOn_runAccess (k lo : Nat) : s.sweep.goesOn (runAccess k lo s).sweep := by
  unfold runAccess
  split
  · exact goesOn_of_job rfl
  · exact goesOn_endGrant _

theorem goesOn_carryExpiry (pr : Progress) (k : Nat) (i : Slot) (g : Grant) :
    s.sweep.goesOn (carryExpiry pr k i g s).sweep := by
  cases pr with
  | toEnd =>
    have h := goesOn_runAccess (advance .toEnd g s) k (i.val + 1)
    rwa [advance_sweep] at h
  | arrivals m => exact goesOn_of_job (by simp [carryExpiry])

theorem goesOn_change {t t' : Table} {w w' : Sweep} (h : TableChange t w t' w') : w.goesOn w' := by
  cases h with
  | retired i c hb hq => exact goesOn_trans (goesOn_of_job rfl) (goesOn_offer _)
  | _ => exact goesOn_of_job rfl

/-- After step F a retirement job that is current begins. -/
theorem job_endJob (c : JobChoice) {i : Slot} {st : RetireStep} (h : (endJob c s).sweep.job = some (.retirement i st)) :
    st = .v .a := by
  have hidle {w : Sweep} (hw : w.job = none) (hg : w.goesOn (endJob c s).sweep) : st = .v .a :=
    (hg i st h).resolve_left fun e => by rw [hw] at e; cases e
  have hleft : s.choiceLeft.sweep.job = none := arbitrate_job _
  rcases endJob_cases s c with e | ⟨e, -⟩ | ⟨-, e⟩
  · refine hidle (w := { s.sweep with job := none }) rfl (goesOn_trans (goesOn_takeJob _) (goesOn_of_job ?_))
    rw [e, arbitrate_job]
  · exact hidle hleft (goesOn_of_job (by rw [e]))
  · refine hidle hleft (goesOn_trans (goesOn_choose _) (goesOn_of_job ?_))
    rw [e, arbitrate_job]

/-! ### The invariant over table work and jobs -/

/-- Table work that keeps the views and what the current job has swept, and after which no worked step has the grant; a
retirement job that begins has swept nothing. -/
theorem viewInv_worked {s t : State} (h : s.ViewInv) (ho : t.outer = s.outer)
    (hv : s.tableValid → s.table.viewsOk → t.table.viewsOk)
    (hs : s.tableValid → ∀ i st, s.sweep.job = some (.retirement i st) → s.table.sweptTo i st s.stepDone →
      t.table.sweptTo i st s.stepDone)
    (hj : s.sweep.goesOn t.sweep) (hd : ¬t.stepDone) : t.ViewInv := by
  refine (viewInv_iff t).2 fun ht => ?_
  have hval := (tableValid_of_outer ho).1 ht
  obtain ⟨hok, hswept⟩ := (viewInv_iff s).1 h hval
  refine ⟨hv hval hok, fun i st hjob => ?_⟩
  rcases hj i st hjob with hsame | rfl
  · exact sweptTo_mono (hs hval i st hsame (hswept i st hsame)) fun h => absurd h hd
  · exact sweptTo_first _ _ hd

/-- The work of a request carried on, or of the lease engine. -/
theorem viewInv_keeps {s t : State} (h : s.ViewInv) (ho : t.outer = s.outer) (hk : s.table.keeps t.table)
    (hj : s.sweep.goesOn t.sweep) (hd : ¬t.stepDone) : t.ViewInv :=
  viewInv_worked h ho (fun _ hok => viewsOk_keeps hok hk) (fun _ _ _ _ hsw => sweptTo_keeps hsw hk) hj hd

/-- The table stands, and no worked step's grant comes or goes on with another job. -/
theorem viewInv_frame {s t : State} (h : s.ViewInv) (hr : t.rstn = s.rstn ∧ t.initialising = s.initialising)
    (ht : t.table = s.table) (hj : s.sweep.goesOn t.sweep)
    (hd : t.stepDone → s.stepDone ∧ t.sweep.job = s.sweep.job) : t.ViewInv := by
  refine (viewInv_iff t).2 fun hval => ?_
  rw [State.tableValid, hr.1, hr.2] at hval
  obtain ⟨hok, hswept⟩ := (viewInv_iff s).1 h hval
  rw [ht]
  refine ⟨hok, fun i st hjob => ?_⟩
  by_cases hdone : t.stepDone
  · obtain ⟨hs, hsame⟩ := hd hdone
    exact sweptTo_mono (hswept i st (hsame ▸ hjob)) fun _ => hs
  · rcases hj i st hjob with hsame | rfl
    · exact sweptTo_mono (hswept i st hsame) fun h => absurd h hdone
    · exact sweptTo_first _ _ hdone

theorem viewInv_outer {s t : State} (h : s.ViewInv) (ho : t.outer = s.outer) (ht : t.table = s.table)
    (hj : t.sweep.job = s.sweep.job) (hd : t.stepDone ↔ s.stepDone) : t.ViewInv :=
  viewInv_frame h ⟨outer_rstn ho, outer_initialising ho⟩ ht (goesOn_of_job hj) fun h => ⟨hd.1 h, hj⟩

/-- Marking a port leaves the job of a step in its grant. -/
theorem viewInv_markDetachment (h : s.ViewInv) (hw : s.stepDone → ∃ j, s.sweep.job = some j) :
    (markDetachment p s).ViewInv := by
  refine viewInv_frame h ⟨outer_rstn (by simp), outer_initialising (by simp)⟩ (by simp) (goesOn_markDetachment s p)
    fun hd => ?_
  have hs := (markDetachment_stepDone s p).1 hd
  obtain ⟨j, hj⟩ := hw hs
  exact ⟨hs, (markDetachment_job s p hj).trans hj.symm⟩

/-- A step V-x or S whose work is done is carried on, to the next step at its end. -/
theorem viewInv_carryStep (pr : Progress) {i : Slot} {st next : RetireStep} (as : List Arrival) (n : Nat)
    (hj : s.sweep.job = some (.retirement i st)) (hn : (∃ x, st = .v x ∧ next = .afterV x) ∨ st = .s ∧ next = .f)
    (h : s.tableValid → s.table.viewsOk ∧ s.table.sweptTo i st True) :
    (carryStep pr (.retirement i next) ⟨.sweep true, as, n⟩ s).ViewInv := by
  refine (viewInv_iff _).2 fun ht => ?_
  obtain ⟨hok, hswept⟩ := h ((tableValid_of_outer (carryStep_outer ..)).1 ht)
  rw [carryStep_table]
  refine ⟨hok, fun k st' hjob => ?_⟩
  cases pr with
  | toEnd =>
    have hnd : ¬(carryStep .toEnd (.retirement i next) ⟨.sweep true, as, n⟩ s).stepDone := endGrant_not_stepDone _
    rcases goesOn_endGrant _ k st' hjob with hsame | rfl
    · cases hsame; exact sweptTo_next hswept hn hnd
    · exact sweptTo_first _ _ hnd
  | arrivals m =>
    have hsame : s.sweep.job = some (.retirement k st') := by rw [← hjob, carryStep, advance_sweep]
    rw [hj] at hsame
    cases hsame
    exact sweptTo_mono hswept fun _ => trivial

/-! ### Every effect -/

theorem Effect.viewInv {s t : State} (e : Effect s t) (hq : s.QuietInv) (hw : s.SweepInv) (hs : s.SlotInv) (h : s.ViewInv) :
    t.ViewInv := by
  -- the slot of the current retirement job is RETIRING
  have retiring (hv : s.tableValid) {i : Slot} {st : RetireStep} (hj : s.sweep.job = some (.retirement i st)) :
      (s.table.record i).isRetiring = true := by
    obtain ⟨-, -, -, held⟩ := hs hv
    exact (held i).1 (by simp [Sweep.jobSlots, hj])
  cases e with
  | stays | refclk | divider | link | prstPin | prstRise =>
    exact viewInv_frame h ⟨rfl, rfl⟩ rfl (goesOn_of_job rfl) fun hd => ⟨hd, rfl⟩
  | answered p x hd v hx | drained p x hd v m hx | acknowledged p x hd v m hx | leaseControl p x hd v l hx =>
    exact viewInv_outer h (respond_outer ..) (respond_table ..) (by rw [respond_sweep]; rfl)
      (stepDone_of_grant (by rw [respond_arbiter]; rfl))
  | tick => exact viewInv_outer h (arbitrate_outer _) (arbitrate_table _) (arbitrate_job _) (arbitrate_stepDone _)
  | detach p q x hd v hx =>
    have hdone : (withdrawClaim q (respond p hd v 0 (s.setPort p x))).stepDone ↔ s.stepDone :=
      stepDone_of_grant (by simp)
    refine viewInv_markDetachment _ q (viewInv_outer h (by simp) (by simp) (by simp) hdone) fun h => ?_
    obtain ⟨j, hj, -⟩ := hw.job_of_stepDone (hdone.1 h)
    exact ⟨j, by simpa using hj⟩
  | claim p x hd r hx => exact viewInv_outer h (by simp) (by simp) (arbitrate_job _) (arbitrate_stepDone _)
  | request pr p w d as n hc hg =>
    have hch := tableWork_change s p w.request
    refine viewInv_worked h (by simp) (fun hv hok => ?_) (fun hv i st hj hsw => ?_)
      (goesOn_trans (goesOn_change hch) (goesOn_carryRequest _ _ _ _ _ _ _ _)) (carryRequest_not_stepDone _ _ _ _ _ _ _ _)
    · rw [carryRequest_table]; exact viewsOk_change hok (hs hv) hch
    · rw [carryRequest_table]; exact sweptTo_change hsw (retiring hv hj) hch
  | requestOn pr p w d v as n hc hg =>
    exact viewInv_keeps h (by simp) (by simp [tableKeeps_refl]) (goesOn_carryRequest s p pr w d v as n)
      (carryRequest_not_stepDone s p pr w d v as n)
  | access k as n hc hg =>
    exact viewInv_keeps h (by simp) (tableKeeps_runAccess s k 0) (goesOn_runAccess s k 0) (runAccess_not_stepDone s k 0)
  | expiry pr k i as n hc hg =>
    let u : State := { s with table := s.table.expire i }
    exact viewInv_keeps h (carryExpiry_outer u pr k i _)
      (tableKeeps_trans (tableKeeps_expire s.table i) (tableKeeps_carryExpiry u pr k i _))
      (goesOn_carryExpiry u pr k i _) (carryExpiry_not_stepDone u pr k i _ 0)
  | expiryOn pr k i as n hc hg =>
    exact viewInv_keeps h (by simp) (tableKeeps_carryExpiry s pr k i _) (goesOn_carryExpiry s pr k i _)
      (carryExpiry_not_stepDone s pr k i as n)
  | stepV pr i x as n hc hg hj =>
    refine viewInv_carryStep _ pr _ _ hj (.inl ⟨x, rfl, rfl⟩) fun hv => ?_
    obtain ⟨hok, hswept⟩ := (viewInv_iff s).1 h hv
    exact ⟨viewsOk_viewStep x i hok, sweptTo_viewStep (hswept i _ hj)⟩
  | stepS pr i as n hc hg hj =>
    refine viewInv_carryStep _ pr _ _ hj (.inr ⟨rfl, rfl⟩) fun hv => ?_
    obtain ⟨hok, hswept⟩ := (viewInv_iff s).1 h hv
    exact ⟨viewsOk_listStep i hok, sweptTo_listStep (hswept i _ hj) hok⟩
  | stepOn pr i st next as n hc hg hj hn =>
    refine viewInv_carryStep _ pr _ _ hj hn fun hv => ?_
    obtain ⟨hok, hswept⟩ := (viewInv_iff s).1 h hv
    exact ⟨hok, sweptTo_mono (hswept i st hj) fun _ => ⟨as, n, hg⟩⟩
  | stepF c i worked as n hc hg hj =>
    have ho := endJob_outer { s with table := freeStepTable s.table i } c
    refine (viewInv_iff _).2 fun ht => ?_
    obtain ⟨hok, hswept⟩ := (viewInv_iff s).1 h ((tableValid_of_outer ho).1 ht)
    rw [endJob_table]
    refine ⟨viewsOk_freeStep hok (hswept i _ hj), fun j st hjob => ?_⟩
    rw [job_endJob _ c hjob]
    exact sweptTo_first _ _ (endJob_not_stepDone _ c)
  | stepD1 p worked as n hc hg hj =>
    refine viewInv_worked h (endGrant_outer _) (fun _ hok => ?_) (fun _ i st hj' => ?_) ?_ (endGrant_not_stepDone _)
    · rw [endGrant_table]; exact viewsOk_returnSubs _ hok
    · rw [hj] at hj'; cases hj'
    · exact goesOn_trans (fun i st hj => by cases hj) (goesOn_endGrant _)
  | stepD2 p hj =>
    refine viewInv_frame (s := s) h ⟨outer_rstn (arbitrate_outer _), outer_initialising (arbitrate_outer _)⟩
      (arbitrate_table _) ?_ fun hd => ?_
    · exact goesOn_trans (fun i st hj => by cases hj) (goesOn_trans (goesOn_takeJob _) (goesOn_of_job (arbitrate_job _)))
    · have hs := (arbitrate_stepDone _).1 hd
      obtain ⟨j, hj', hg⟩ := hw.job_of_stepDone hs
      rw [hj] at hj'; cases hj'; cases hg
  | prstInit p hr hi => exact viewInv_outer h (by simp) (by simp) (by simp) (resetPort_stepDone s p)
  | prstFall p hr hi hp =>
    refine viewInv_markDetachment _ p (viewInv_outer h (by simp) (by simp) (by simp) (resetPort_stepDone s p)) fun h => ?_
    obtain ⟨j, hj, -⟩ := hw.job_of_stepDone ((resetPort_stepDone s p).1 h)
    exact ⟨j, by simpa using hj⟩
  | rstnFall => exact fun hv => by cases hv.1
  | rstnRelease => exact fun hv => by cases hv.2
  | initialised hi hc =>
    have hsw : s.sweep = .powerOn := (hq.1 (.inr hi)).2.1
    refine (viewInv_iff _).2 fun _ => ⟨viewsOk_cleared, fun i st hj => ?_⟩
    rw [show s.sweep.job = none by rw [hsw]; rfl] at hj
    cases hj

/-- Settles O17, one case for each effect of a step: a request's table work brings only what is LIVE, a retirement job's slot
is RETIRING, and by step F nothing stands on it. -/
theorem viewsAndSubscriptionsKept : Obligations.ViewsAndSubscriptionsKept := by
  intro s t hq hw hs h hst
  obtain ⟨rest, e⟩ := step_effect hst
  exact e.viewInv hq hw hs h

end Sys2Proof.Machine


/-! ## Resolution: the path it takes and where it stops (R35 to R45) -/
namespace Sys2Proof.Machine

/-! ### What the resolver decides at one record -/

/-- What the resolver decides at the LIVE record of slot `a` with content `c`, met after `hops` aliases (R39, R42): success at
a VALUE record, a refusal at an alias that a check of R39 stops, none at an alias that is passed. -/
def Table.stopAt (t : Table) (style : Style) (via : Slot) (hops : Nat) (a : Slot) (c : Content) : Option Resolution :=
  match c with
  | .value v => some (.reached a via v hops)
  | .aliasOf f =>
    if style = .write ∧ f.writeThrough = false then some (.refused .noRight (some via) (some a) hops)
    else if hops = 8 then some (.refused .chainTooLong (some via) (some a) hops)
    else if (t.record f.target).isLive = true ∧ (t.record f.target).generation = f.targetGeneration then none
    else some (.refused .dangling (some via) (some a) hops)

/-- The refusals of R39 at an alias met after `hops` aliases: the last three rows of R44's table. -/
def Table.aliasRefused (t : Table) (style : Style) (hops : Nat) (f : AliasFields) (r : Result) : Prop :=
  (style = .write ∧ f.writeThrough = false ∧ r = .noRight) ∨
  ((style = .write → f.writeThrough = true) ∧ hops = 8 ∧ r = .chainTooLong) ∨
  ((style = .write → f.writeThrough = true) ∧ hops ≤ 7 ∧ r = .dangling ∧
    ((t.record f.target).isLive = false ∨ (t.record f.target).generation ≠ f.targetGeneration))

section
variable {t : Table} {style : Style} {via cur a target : Slot} {left hops : Nat} {c : Content} {f : AliasFields}

/-- The check of R37 and the first one of R39 stop a write-style request alone, for want of `Q`. -/
theorem not_write_and_iff {P Q : Prop} (h : ¬P ↔ Q) : ¬(style = .write ∧ P) ↔ (style = .write → Q) := by
  rw [not_and, h]

theorem not_readOnly_iff : ¬(style = .write ∧ f.writeThrough = false) ↔ (style = .write → f.writeThrough = true) :=
  not_write_and_iff (by simp)

theorem not_readRights_iff {e : ViewEntry} :
    ¬(style = .write ∧ e.rights = .read) ↔ (style = .write → e.rights = .readWrite) :=
  not_write_and_iff (by cases e.rights <;> simp)

/-- An alias is passed exactly when the checks of R39 let it. -/
theorem stopAt_none_iff : t.stopAt style via hops a (.aliasOf f) = none ↔
    (style = .write → f.writeThrough = true) ∧ hops ≠ 8 ∧ (t.record f.target).isLive = true ∧
      (t.record f.target).generation = f.targetGeneration := by
  rw [← not_readOnly_iff, Table.stopAt]
  split_ifs <;> simp_all

/-- A record that stops the resolver ends the walk. -/
theorem walk_of_stopAt {x : Resolution} (hl : left + hops = 8) (h : t.stopAt style via hops cur c = some x) :
    walk t style via left cur c = x := by
  have hh : Config.hopLimit - left = hops := by simp only [Config.hopLimit]; omega
  apply Option.some.inj
  rw [← h]
  cases c with
  | value v => simp only [walk, Table.stopAt, hh]
  | aliasOf f =>
    cases left with
    | zero => simp [walk, Table.stopAt, show hops = 8 by omega, Config.hopLimit, apply_ite some]
    | succ n =>
      have h8 : hops ≠ 8 := by omega
      simp only [Table.stopAt, if_neg h8] at h ⊢
      simp only [walk, hh]
      by_cases hw : style = .write ∧ f.writeThrough = false
      · simp only [if_pos hw]
      · by_cases hp : (t.record f.target).isLive = true ∧ (t.record f.target).generation = f.targetGeneration
        · rw [if_neg hw, if_pos hp] at h; cases h
        · simp only [if_neg hw, if_neg hp]
          split
          · next c' hc => rw [if_neg fun hg => hp ⟨(isLive_iff _).2 ⟨c', hc⟩, hg⟩]
          all_goals rfl

/-- An alias that is passed hands the walk on to its target, which is LIVE. -/
theorem walk_of_pass (hl : left + hops = 8) (h : t.stopAt style via hops cur (.aliasOf f) = none) :
    ∃ n c', left = n + 1 ∧ (t.record f.target).body = .live c' ∧
      walk t style via left cur (.aliasOf f) = walk t style via n f.target c' := by
  obtain ⟨hw, h8, hlive, hg⟩ := stopAt_none_iff.1 h
  obtain ⟨n, rfl⟩ : ∃ n, left = n + 1 := ⟨left - 1, by omega⟩
  obtain ⟨c', hc⟩ := (isLive_iff _).1 hlive
  refine ⟨n, c', rfl, hc, ?_⟩
  simp only [walk, if_neg (not_readOnly_iff.2 hw), hc, if_pos hg]

/-! ### The walk -/

/-- A path of one more alias: the first passes, and the rest leads on from its target. -/
theorem path_succ_of_pass {n : Nat} (hc : (t.record cur).body = .live (.aliasOf f))
    (h : t.stopAt style via hops cur (.aliasOf f) = none) (hp : t.path style n f.target a) :
    t.path style (n + 1) cur a := by
  obtain ⟨hw, -, hlive, hg⟩ := stopAt_none_iff.1 h
  exact ⟨f, hc, hw, hlive, hg, hp⟩

/-- Every walk comes along a path of passed aliases to a record that stops it (R42). -/
theorem walk_stops (hl : left + hops = 8) (hc : (t.record cur).body = .live c) :
    ∃ n a c', n ≤ left ∧ t.path style n cur a ∧ (t.record a).body = .live c' ∧
      t.stopAt style via (hops + n) a c' = some (walk t style via left cur c) := by
  induction left using Nat.strong_induction_on generalizing hops cur c with
  | _ left ih =>
    cases h : t.stopAt style via hops cur c with
    | some x => exact ⟨0, cur, c, Nat.zero_le _, rfl, hc, by rw [walk_of_stopAt hl h]; exact h⟩
    | none =>
      cases c with
      | value v => cases h
      | aliasOf f =>
        obtain ⟨m, c', rfl, hc', hw⟩ := walk_of_pass hl h
        obtain ⟨n, a, d, hn, hp, hd, hx⟩ := ih m (Nat.lt_succ_self m) (hops := hops + 1) (by omega) hc'
        exact ⟨n + 1, a, d, Nat.succ_le_succ hn, path_succ_of_pass hc h hp, hd,
          by rw [hw, ← hx, Nat.add_right_comm, Nat.add_assoc]⟩

/-- A path of passed aliases to a record that stops the resolver is the walk's own path. -/
theorem walk_of_path {n : Nat} {c' : Content} {x : Resolution} (hl : left + hops = 8) (hn : n ≤ left)
    (hc : (t.record cur).body = .live c) (hp : t.path style n cur a) (ha : (t.record a).body = .live c')
    (h : t.stopAt style via (hops + n) a c' = some x) : walk t style via left cur c = x := by
  induction n generalizing left hops cur c with
  | zero =>
    cases hp
    obtain rfl : c = c' := by rw [hc] at ha; injection ha
    exact walk_of_stopAt hl h
  | succ m ih =>
    obtain ⟨f, hf, hw, hlive, hg, hp⟩ := hp
    obtain rfl : c = .aliasOf f := by rw [hc] at hf; injection hf
    obtain ⟨k, d, rfl, hd, e⟩ := walk_of_pass (via := via) (cur := cur) hl
      (stopAt_none_iff.2 ⟨hw, by omega, hlive, hg⟩)
    rw [e]
    exact ih (hops := hops + 1) (by omega) (Nat.le_of_succ_le_succ hn) hd hp (by rwa [Nat.add_right_comm, Nat.add_assoc])

/-- R39, R42: from a LIVE via slot, the resolver answers what the record decides that it comes to along a path of at most 8
passed aliases. -/
theorem walk_eq_iff {x : Resolution} (hc : (t.record via).body = .live c) :
    walk t style via Config.hopLimit via c = x ↔ ∃ n a c', n ≤ 8 ∧ t.path style n via a ∧
      (t.record a).body = .live c' ∧ t.stopAt style via n a c' = some x := by
  constructor
  · rintro rfl
    simpa only [Nat.zero_add, Config.hopLimit] using walk_stops (left := 8) (hops := 0) (via := via) rfl hc
  · rintro ⟨n, a, c', hn, hp, ha, h⟩
    exact walk_of_path (left := 8) (hops := 0) rfl hn hc hp ha (by rwa [Nat.zero_add])

/-! ### From the view -/

section
variable {p : Port} {l : Local} {e : ViewEntry}

theorem resolve_absent (h : t.entry p l = none) : resolve t style p l = .refused .noEntry none none 0 := by
  rw [resolve, h]

theorem resolve_readRights (h : t.entry p l = some e) (hw : style = .write ∧ e.rights = .read) :
    resolve t style p l = .refused .noRight (some e.slot) none 0 := by
  simp only [resolve, h, if_pos hw]

theorem resolve_not_live (h : t.entry p l = some e) (hw : style = .write → e.rights = .readWrite)
    (hb : (t.record e.slot).isLive = false) :
    resolve t style p l = .refused .retired (some e.slot) (some e.slot) 0 := by
  simp only [resolve, h, if_neg (not_readRights_iff.2 hw)]
  split
  · next c hc => simp [Record.isLive, hc] at hb
  all_goals rfl

theorem resolve_live (h : t.entry p l = some e) (hw : style = .write → e.rights = .readWrite)
    (hc : (t.record e.slot).body = .live c) :
    resolve t style p l = walk t style e.slot Config.hopLimit e.slot c := by
  simp only [resolve, h, if_neg (not_readRights_iff.2 hw), hc]

end

/-- What the steps at the view can come to (R36 to R38). -/
theorem resolve_cases (t : Table) (style : Style) (p : Port) (l : Local) :
    (t.entry p l = none ∧ resolve t style p l = .refused .noEntry none none 0) ∨
    ∃ e, t.entry p l = some e ∧
      ((style = .write ∧ e.rights = .read) ∧ resolve t style p l = .refused .noRight (some e.slot) none 0 ∨
       (style = .write → e.rights = .readWrite) ∧
        ((t.record e.slot).isLive = false ∧ resolve t style p l = .refused .retired (some e.slot) (some e.slot) 0 ∨
         (t.record e.slot).isLive = true)) := by
  cases he : t.entry p l with
  | none => exact .inl ⟨rfl, resolve_absent he⟩
  | some e =>
    refine .inr ⟨e, rfl, ?_⟩
    by_cases hr : style = .write ∧ e.rights = .read
    · exact .inl ⟨hr, resolve_readRights he hr⟩
    · have hr' := not_readRights_iff.1 hr
      cases hb : (t.record e.slot).isLive with
      | false => exact .inr ⟨hr', .inl ⟨rfl, resolve_not_live he hr' hb⟩⟩
      | true => exact .inr ⟨hr', .inr rfl⟩

/-- What stops the resolver with success is a VALUE record (R39, R43). -/
theorem stopAt_reached_iff {v : ValueFields} {via' : Slot} {n : Nat} :
    t.stopAt style via n a c = some (.reached target via' v hops) ↔
      a = target ∧ via = via' ∧ c = .value v ∧ n = hops := by
  cases c with
  | value w => simp [Table.stopAt]
  | aliasOf f => simp only [Table.stopAt]; split_ifs <;> simp

/-- What stops the resolver with a refusal is an alias that a check of R39 stops (R44). -/
theorem stopAt_refused_iff {r : Result} {v? stop : Option Slot} {n : Nat} (hn : n ≤ 8) :
    t.stopAt style via n a c = some (.refused r v? stop hops) ↔
      ∃ f, c = .aliasOf f ∧ t.aliasRefused style n f r ∧ v? = some via ∧ stop = some a ∧ hops = n := by
  cases c with
  | value w => simp [Table.stopAt]
  | aliasOf f =>
    simp only [Table.stopAt, Table.aliasRefused, ← not_readOnly_iff, Content.aliasOf.injEq, exists_eq_left',
      ← and_assoc (a := style = .write) (b := f.writeThrough = false)]
    split_ifs with hw h8 hp
    · rw [Option.some.injEq, eq_comm, Resolution.refused.injEq]
      simp [hw]
    · rw [Option.some.injEq, eq_comm, Resolution.refused.injEq]
      simp [hw, h8]
    · simp [hw, h8, hp]
    · have h7 : n ≤ 7 := by omega
      rw [not_and_or, Bool.not_eq_true] at hp
      rw [Option.some.injEq, eq_comm, Resolution.refused.injEq]
      simp [hw, h8, h7, hp]

/-- The refusals from a LIVE via slot on: the last three rows of R44's table. -/
theorem resolve_live_refused_iff {p : Port} {l : Local} {e : ViewEntry} {r : Result} {v? stop : Option Slot}
    (he : t.entry p l = some e) (hr : style = .write → e.rights = .readWrite) (hb : (t.record e.slot).isLive = true) :
    resolve t style p l = .refused r v? stop hops ↔ v? = some e.slot ∧
      ∃ a f, hops ≤ 8 ∧ t.path style hops e.slot a ∧ (t.record a).body = .live (.aliasOf f) ∧ stop = some a ∧
        t.aliasRefused style hops f r := by
  obtain ⟨c, hc⟩ := (isLive_iff _).1 hb
  rw [resolve_live he hr hc, walk_eq_iff hc]
  constructor
  · rintro ⟨n, a, c', hn, hp, ha, hx⟩
    obtain ⟨f, rfl, hs, rfl, rfl, rfl⟩ := (stopAt_refused_iff hn).1 hx
    exact ⟨rfl, a, f, hn, hp, ha, rfl, hs⟩
  · rintro ⟨rfl, a, f, hn, hp, ha, rfl, hs⟩
    exact ⟨hops, a, _, hn, hp, ha, (stopAt_refused_iff hn).2 ⟨f, rfl, hs, rfl, rfl, rfl⟩⟩

/-- A resolution is not refused with DONE. -/
theorem resolve_refused_ne_done {p : Port} {l : Local} {r : Result} {v? stop : Option Slot}
    (h : resolve t style p l = .refused r v? stop hops) : r ≠ .done := by
  rcases resolve_cases t style p l with ⟨-, hx⟩ | ⟨e, he, ⟨-, hx⟩ | ⟨hr, ⟨-, hx⟩ | hb⟩⟩
  · rw [hx] at h; cases h; decide
  · rw [hx] at h; cases h; decide
  · rw [hx] at h; cases h; decide
  · obtain ⟨-, a, f, -, -, -, -, hs⟩ := (resolve_live_refused_iff he hr hb).1 h
    rcases hs with ⟨-, -, rfl⟩ | ⟨-, -, rfl⟩ | ⟨-, -, rfl, -⟩ <;> decide

end

/-- Settles O18: by the steps at the view, then the walk's own path. -/
theorem resolutionReachesAlongPath : Obligations.ResolutionReachesAlongPath := by
  intro t style p l target via v hops
  constructor
  · intro h
    rcases resolve_cases t style p l with ⟨-, hx⟩ | ⟨e, he, ⟨-, hx⟩ | ⟨hr, ⟨-, hx⟩ | hb⟩⟩
    · rw [hx] at h; cases h
    · rw [hx] at h; cases h
    · rw [hx] at h; cases h
    · obtain ⟨c, hc⟩ := (isLive_iff _).1 hb
      rw [resolve_live he hr hc, walk_eq_iff hc] at h
      obtain ⟨n, a, c', hn, hp, ha, hx⟩ := h
      obtain ⟨rfl, rfl, rfl, rfl⟩ := stopAt_reached_iff.1 hx
      exact ⟨e, he, rfl, hr, hb, hn, hp, ha⟩
  · rintro ⟨e, he, rfl, hr, hb, hn, hp, hv⟩
    obtain ⟨c, hc⟩ := (isLive_iff _).1 hb
    rw [resolve_live he hr hc, walk_eq_iff hc]
    exact ⟨hops, target, .value v, hn, hp, hv, rfl⟩

/-- A slot in use is LIVE or RETIRING, not both (R1). -/
theorem isRetiring_eq_not_isLive {r : Record} (h : r.body ≠ .free) : r.isRetiring = !r.isLive := by
  rcases r with ⟨g, _ | c | c⟩
  · exact absurd rfl h
  · rfl
  · rfl

/-- Settles O19: the steps at the view give the first three rows, the walk's own path the last three. -/
theorem resolutionRefusalTable : Obligations.ResolutionRefusalTable := by
  intro t style p l r via stop hops hfree
  rcases resolve_cases t style p l with ⟨he, hx⟩ | ⟨e, he, hview⟩
  · rw [hx, eq_comm, Resolution.refused.injEq]
    simp [he]
  · have hret := isRetiring_eq_not_isLive (hfree e he)
    simp only [he, reduceCtorEq, false_and, false_or, Option.some.injEq, exists_eq_left', ← not_readRights_iff,
      ← and_assoc (a := style = .write) (b := e.rights = .read)]
    rcases hview with ⟨hr, hx⟩ | ⟨hr, ⟨hb, hx⟩ | hb⟩
    · rw [hx, eq_comm, Resolution.refused.injEq]
      simp [hr, and_left_comm]
    · rw [hx, eq_comm, Resolution.refused.injEq]
      simp [not_readRights_iff.2 hr, hret, hb, and_left_comm]
    · rw [resolve_live_refused_iff he hr hb]
      simp [not_readRights_iff.2 hr, hret, hb, Table.aliasRefused]

/-! ### Refused at its resolution -/

/-- A request whose work ends at its refused resolution (R44, R45, R139). -/
theorem declines_unresolved {s : State} {p : Port} {style : Style} {l : Local} {x : Result} {via stop : Option Slot}
    {hops : Nat} (r : Request) (tag : Byte) (h : resolve s.table style p l = .refused x via stop hops)
    (hr : r.inRange = true) (hc : r.code.atOnce = false) (hs : r.code.supervisor = false)
    (hl : refusalLocal r.code r.body = some l) (hk : tableWork p r s = .unresolved s x via stop hops) :
    s.declines (requestCommand r.code p (.frame tag r.body)) p tag r
      ⟨r.code.toByte, tag, x, some l, via, stop, hops⟩ [] := by
  obtain ⟨hlen, hb⟩ := lengthOk_body r hr
  have hd := declines_refused r tag hb (parse_body r hr) hlen hc (fun h => absurd h (by simp [hs]))
    ⟨x, .empty, via, stop, hops⟩ hk (resolve_refused_ne_done h)
  rwa [hl] at hd

/-- Settles O41: each of the five works ends at its refused resolution. -/
theorem refusedResolutionAnswered : Obligations.RefusedResolutionAnswered := by
  intro p tag l result via stop hops s refused
  refine ⟨fun h => ⟨?_, fun mask reference mode wants => ?_⟩, fun h => ⟨?_, fun e x => ⟨?_, ?_⟩⟩⟩
  · exact declines_unresolved (.read l) tag h rfl rfl rfl rfl (by simp only [tableWork, workRead, h])
  · exact declines_unresolved (.subscribe l mask reference mode wants) tag h rfl rfl rfl rfl
      (by simp only [tableWork, workSubscribe, h])
  · exact declines_unresolved (.refresh l) tag h rfl rfl rfl rfl (by simp only [tableWork, workRefresh, h])
  · exact declines_unresolved (.write l x) tag h rfl rfl rfl rfl (by simp only [tableWork, workWrite, h])
  · exact declines_unresolved (.conditionalWrite l e x) tag h rfl rfl rfl rfl
      (by simp only [tableWork, workConditionalWrite, h])

end Sys2Proof.Machine


/-! ## Reading and writing points (R50 to R64) -/
namespace Sys2Proof.Machine

variable {s : State} {p : Port} {l : Local} {i via : Slot} {v : ValueFields} {hops : Nat}

/-! ### Reads -/

/-- A resolution passes at most 8 aliases (R42). -/
theorem resolve_hops_le {t : Table} {style : Style} (h : resolve t style p l = .reached i via v hops) : hops ≤ 8 := by
  obtain ⟨e, -, -, -, -, hle, -, -⟩ := (resolutionReachesAlongPath t style p l i via v hops).1 h
  exact hle

/-- The item of a Group Read is sent as its resolution's bytes; the hop count fits bits 0 to 3 of the
last byte (R53, R157). -/
theorem groupItem_bytes (t : Table) (p : Port) (l : Local) :
    (groupItem t p l).bytes = (resolve t .read p l).itemBytes := by
  cases h : resolve t .read p l with
  | refused r via stop hops => simp [groupItem, h, GroupItem.bytes, Resolution.itemBytes]
  | reached i via v hops =>
    have hmod : hops % 16 = hops := Nat.mod_eq_of_lt (by have := resolve_hops_le h; omega)
    cases hq : v.quality <;> simp [groupItem, h, GroupItem.bytes, Resolution.itemBytes, hmod, hq, Result.toByte]

/-- Settles O31: neither work changes the table, and the items are sent as their resolutions. -/
theorem readsAnswerTargets : Obligations.ReadsAnswerTargets := by
  refine fun p tag s => ⟨fun l i via v hops h => ?_, fun ls h1 h8 => ?_⟩
  · exact concludes_report (.read l) tag rfl rfl (fun hs => nomatch hs) (a := .read v.value v.sequence v.quality hops)
      (by simp only [tableWork, workRead, h])
  · have hr : (Request.groupRead ls).inRange = true := by simp [Request.inRange, h1, h8]
    have hc := concludes_report (s := s) (p := p) (.groupRead ls) tag hr rfl (fun hs => nomatch hs) rfl
    rw [Answer.bytes, List.length_map, List.flatMap_map, funext (groupItem_bytes s.table p)] at hc
    exact hc

/-! ### Writes -/

/-- The lease of a written record restarts where there is one (R55, step 4). -/
theorem writtenFields_eq (v : ValueFields) (x : Word32) : writtenFields v x =
    { v with
      value := x
      sequence := v.sequence + 1
      quality := .good
      remaining := if v.interval = 0 then v.remaining else v.interval } := by
  by_cases h : v.interval = 0 <;> simp [writtenFields, h, Fin.pos_iff_ne_zero]

/-- A request whose work is an accepted write answers the new sequence (R55 to R57). -/
theorem concludes_acceptWrite (r : Request) (tag : Byte) {x : Word32} (hr : r.inRange = true)
    (hc : r.code.atOnce = false) (hs : r.code.supervisor = true → p = .a) (hk : tableWork p r s = acceptWrite s i v x) :
    s.concludes (requestCommand r.code p (.frame tag r.body)) p tag r (writtenTable s.table i v x)
      (writePosts s.table i v x) (bytes2 (v.sequence + 1)) :=
  concludes_request r tag hr hc hs (a := .written (v.sequence + 1)) hk

/-- Settles O32: by the sequence, a Conditional Write is an accepted write or SEQ_MISMATCH. -/
theorem writesReachTarget : Obligations.WritesReachTarget := by
  intro p tag l x s i via v hops h t restored posts
  have ht : t = writtenTable s.table i v x := by rw [writtenTable, writtenFields_eq]; rfl
  rw [ht]
  refine ⟨?_, ?_, fun e he => ?_⟩
  · exact concludes_acceptWrite (.write l x) tag rfl rfl (fun hs => nomatch hs) (by simp only [tableWork, workWrite, h])
  · exact concludes_acceptWrite (.conditionalWrite l v.sequence x) tag rfl rfl (fun hs => nomatch hs)
      (by simp only [tableWork, workConditionalWrite, h, if_true])
  · obtain ⟨hlen, hb⟩ := lengthOk_body (.conditionalWrite l e x) rfl
    exact declines_refused (.conditionalWrite l e x) tag hb (parse_body _ rfl) hlen rfl (fun hs => nomatch hs)
      ⟨.seqMismatch, .mismatch v.sequence v.value, some via, some i, hops⟩
      (by simp only [tableWork, workConditionalWrite, h, if_neg he.symm]; rfl) (fun hd => nomatch hd)

/-! ### Refresh -/

/-- Settles O33: the two branches of the work, with and without a lease. -/
theorem refreshRestartsLease : Obligations.RefreshRestartsLease := by
  refine fun p tag l s i via v hops h => ⟨fun hi => ?_, fun hi => ?_⟩
  · have hn : ¬0 < v.interval := by simp [hi]
    exact concludes_report (.refresh l) tag rfl rfl (fun hs => nomatch hs) (a := .refreshed v.sequence 0 false)
      (by simp only [tableWork, workRefresh, h, if_neg hn])
  · have hp : 0 < v.interval := Fin.pos_iff_ne_zero.2 hi
    exact concludes_request (.refresh l) tag rfl rfl (fun hs => nomatch hs)
      (a := .refreshed v.sequence v.interval (v.quality = .stale))
      (by simp only [tableWork, workRefresh, h, if_pos hp]; rfl)

end Sys2Proof.Machine


/-! ## The links while the initialiser runs (R48, R134, R159) -/
namespace Sys2Proof.Machine

variable {s : State} {p : Port}

/-- While the initialiser runs a response is built and nothing is captured (R134). -/
theorem respond_initialising (hi : s.initialising = true) (h : Head) (v : Verdict) (n : Nat) :
    respond p h v n s = s.setPort p ((s.port p).answering h.tag v.result (v.answer.bytes n)) := by
  have hcap : (if v.result = .done then s else capture p (refusalOf h v) s) = s := by simp [capture, hi]
  simp only [respond, hcap]
  rfl

/-- A good frame with any code fails check 1 while the initialiser runs, and is answered NOT_READY (R48, R150). -/
theorem requestTransaction_initialising (hi : s.initialising = true) (hf : s.framed p) (hw : (s.port p).work = none)
    (code tag : Byte) {body : List Byte} (hb : body.length ≤ 120) :
    requestTransaction p code (.frame tag body) s =
      s.setPort p (({ (s.port p).closing body.length with held := none }).answering tag .notReady []) := by
  have hk : check p code body s = .refused .notReady none := by simp [check, hi]
  rw [requestTransaction_frame s p code tag body hf hw hb, hk]
  simp only
  rw [discardHeld_closeRequest_initialising s p _ hi, respond_initialising (by exact hi), port_setPort_self,
    setPort_setPort]
  rfl

/-- A frame error ends its transaction and sets LINK_ERROR (R147). -/
theorem exec_frameError_of_framed {bytes : List Byte} {extra : Fin 8} (hf : s.framed p)
    (hj : judge bytes extra = .frameError) : exec (.frameError p bytes extra) s =
      .next (setCondition .linkError p (closeRequest p (8 * (bytes.length + 1) + extra) s)) := by
  rw [exec, execFrameError, endRequest_of_framed s p _ _ hf, hj]

/-- Where a first byte can complete, the link heeds the clock edges (R144). -/
theorem hears_of_opened {n : Nat} (hl : s.linkOn p = true) (ho : (s.port p).opened = some n) : s.hears p = true :=
  framed_hears s p ⟨hl, by simp [PortState.framing, ho]⟩

/-- The first byte of a transaction of neither type completes: zeros are shifted out and LINK_ERROR is set (R144). -/
theorem unknownTransaction_opened {n : Nat} {t : OtherStretch} (hl : s.linkOn p = true)
    (ho : (s.port p).opened = some n) (h1 : t.first ≠ 0xA5#8) (h2 : t.first ≠ 0x5A#8) (hn : 8 ≤ n + t.stretch.edges) :
    unknownTransaction p t s =
      setCondition .linkError p (s.setPort p ((s.port p).shiftZeros (List.replicate n false) t.stretch)) := by
  have hlong : ¬(n + t.stretch.edges < 8 ∨ t.first = 0x5A#8) := not_or.2 ⟨by omega, h2⟩
  simp only [unknownTransaction, hears_of_opened hl ho, ho, if_true, if_neg hlong, if_neg h1]

/-- Settles O56: check 1 refuses every code, and the condition blocks take no condition. -/
theorem notReadyWhileInitialising : Obligations.NotReadyWhileInitialising := by
  refine fun p s hi => ⟨fun tag body hf hw hb => ⟨fun c => ?_, fun code _ => ?_⟩, fun bytes extra hf hj => ?_,
    fun n t hl ho h1 h2 hn => ?_⟩
  · rw [exec_requestCommand, requestTransaction_initialising hi hf hw _ tag hb]
  · rw [exec_unknownCodeFrame, requestTransaction_initialising hi hf hw _ tag hb]
  · rw [exec_frameError_of_framed hf hj, setCondition_of_initialising _ _ _ (by exact hi)]
    rfl
  · have he : exec (.unknownTransaction p t) s = .next (unknownTransaction p t s) := rfl
    rw [he, unknownTransaction_opened hl ho h1 h2 hn, setCondition_of_initialising _ _ _ (by exact hi),
      PortState.shiftZeros, List.replicate_append_replicate]

end Sys2Proof.Machine


/-! ## The lease engine in step (R68 to R71, R79) -/
namespace Sys2Proof.Machine

variable (s : State) (p q : Port)

/-! ### The engine, and the access that holds the table -/

/-- The pending count, the claim, the hold state and the divider are in step (R68 to R70, R79). -/
def Lease.inStep (l : Lease) : Prop :=
  l.pending ≤ 15 ∧ (l.claim = true ↔ 0 < l.pending) ∧ (l.hold = .held → l.pending = 0) ∧ l.divider < l.period.refclks

/-- A holder that is a lease access took 1 to 15 ticks (R71). -/
def Holder.ticksOk : Holder → Prop
  | .lease k _ => 1 ≤ k ∧ k ≤ 15
  | .port _ _ _ _ | .sweep _ => True

/-- The grant in progress, if any, is of such a holder. -/
def Arbiter.ticksOk (a : Arbiter) : Prop := ∀ g, a.grant = some g → g.holder.ticksOk

theorem leaseInv_iff : s.LeaseInv ↔ s.lease.inStep ∧ s.arbiter.ticksOk := by
  refine ⟨fun ⟨h1, h2, h3, h4, h5⟩ => ⟨⟨h1, h2, h3, h4⟩, ?_⟩, fun ⟨⟨h1, h2, h3, h4⟩, h5⟩ =>
    ⟨h1, h2, h3, h4, fun k st as n hg => h5 _ hg⟩⟩
  rintro ⟨_ | ⟨k, st⟩ | _, as, n⟩ hg
  · trivial
  · exact h5 k st as n hg
  · trivial

theorem refclks_pos (τ : TickPeriod) : 0 < τ.refclks := by cases τ <;> decide

variable {s}

/-- A state that shares both blocks. -/
theorem leaseInv_frame {t : State} (h : s.LeaseInv) (hl : t.lease = s.lease) (ha : t.arbiter = s.arbiter) : t.LeaseInv := by
  rw [leaseInv_iff] at h ⊢
  rw [hl, ha]; exact h

theorem ticksOk_of_none {a : Arbiter} (h : a.grant = none) : a.ticksOk := fun g hg => by rw [h] at hg; cases hg

theorem ticksOk_of_some {a : Arbiter} {g : Grant} (h : a.grant = some g) (hg : g.holder.ticksOk) : a.ticksOk :=
  fun g' h' => by rw [h] at h'; cases h'; exact hg

theorem inStep_powerOn : Lease.powerOn.inStep := ⟨by decide, by decide, by decide, by decide⟩

/-- An engine whose pending ticks were taken by an access, or discarded by a Hold Leases, is in step (R71, R79). -/
theorem inStep_taken {l : Lease} (hold : HoldState) (h : l.inStep) :
    ({ l with hold := hold, pending := 0, claim := false } : Lease).inStep := by
  obtain ⟨-, -, -, h4⟩ := h
  exact ⟨Nat.zero_le _, by simp, fun _ => rfl, h4⟩

/-- A divider that counts on inside its period changes nothing else. -/
theorem inStep_divider {l : Lease} (h : l.inStep) {d : Nat} (hd : d < l.period.refclks) :
    ({ l with divider := d } : Lease).inStep := by
  obtain ⟨h1, h2, h3, -⟩ := h
  exact ⟨h1, h2, h3, hd⟩

/-- A tick counted while RUNNING raises the claim with the first (R69, R70). -/
theorem inStep_counted {l : Lease} (h : l.inStep) (hr : l.hold = .running) (hp : l.pending < Config.pendingLimit) :
    ({ l with divider := 0, pending := l.pending + 1, claim := l.pending = 0 || l.claim } : Lease).inStep := by
  obtain ⟨-, h2, -, -⟩ := h
  refine ⟨hp, ?_, fun hh => ?_, refclks_pos _⟩
  · simp only [Bool.or_eq_true, decide_eq_true_eq, h2]; omega
  · rw [show l.hold = .held from hh] at hr; cases hr

/-- The three lease controls keep the engine in step (R78 to R80). -/
theorem inStep_controls {l l' : Lease} (h : l.inStep) (hc : l.controls l') : l'.inStep := by
  obtain ⟨h1, h2, h3, h4⟩ := h
  rcases hc with rfl | ⟨τ, rfl⟩ | rfl | rfl
  · exact ⟨h1, h2, h3, h4⟩
  · exact ⟨h1, h2, h3, refclks_pos τ⟩
  · exact inStep_taken .held ⟨h1, h2, h3, h4⟩
  · exact ⟨h1, h2, fun hh => (by cases hh), refclks_pos _⟩

/-! ### Operations that keep it -/

/-- An access that begins takes the pending ticks, 1 to 15 where its claim is raised (R71). -/
theorem leaseInv_beginGrant {r : Requester} (h : s.LeaseInv) (hr : s.claimed r = true) (hg : s.arbiter.grant = none) :
    (beginGrant r s).LeaseInv := by
  rw [leaseInv_iff] at h ⊢
  obtain ⟨hl, -⟩ := h
  cases r with
  | port p =>
    simp only [beginGrant]
    split
    · exact ⟨hl, ticksOk_of_some rfl trivial⟩
    · exact ⟨hl, ticksOk_of_none hg⟩
  | lease => exact ⟨inStep_taken s.lease.hold hl, ticksOk_of_some rfl ⟨hl.2.1.1 hr, hl.1⟩⟩
  | sweep => exact ⟨hl, ticksOk_of_some rfl trivial⟩

theorem leaseInv_arbitrate (h : s.LeaseInv) : (arbitrate s).LeaseInv := by
  rcases arbitrate_cases s with ⟨-, e⟩ | ⟨-, -, e⟩ | ⟨r, hg, hr, -, e⟩ <;> rw [e]
  · exact h
  · exact h
  · exact leaseInv_beginGrant h hr hg

theorem leaseInv_endGrant (h : s.lease.inStep) : (endGrant s).LeaseInv :=
  leaseInv_arbitrate ((leaseInv_iff _).2 ⟨h, ticksOk_of_none rfl⟩)

theorem leaseInv_advance (pr : Progress) {g : Grant} (h : s.lease.inStep) (hg : g.holder.ticksOk) :
    (advance pr g s).LeaseInv :=
  (leaseInv_iff _).2 ⟨by rw [advance_lease]; exact h, ticksOk_of_some (advance_grant ..) hg⟩

theorem leaseInv_raiseClaim (hd : Head) (r : Request) (h : s.LeaseInv) : (raiseClaim p hd r s).LeaseInv :=
  leaseInv_arbitrate h

theorem leaseInv_markDetachment (h : s.LeaseInv) : (markDetachment p s).LeaseInv := leaseInv_arbitrate h

theorem leaseInv_withdrawClaim (h : s.LeaseInv) : (withdrawClaim p s).LeaseInv := by
  rw [withdrawClaim_eq]; exact h

theorem leaseInv_resetPort (h : s.LeaseInv) : (resetPort p s).LeaseInv := by
  rw [leaseInv_iff] at h ⊢
  refine ⟨by rw [resetPort_lease]; exact h.1, fun g hg => ?_⟩
  rw [resetPort_grant, Option.map_eq_some_iff] at hg
  obtain ⟨g', hg', rfl⟩ := hg
  have hok := h.2 g' hg'
  rcases g' with ⟨_ | _ | _, as, n⟩ <;> exact hok

theorem leaseInv_carryRequest (pr : Progress) (w : Work) (d : Bool) (v : Verdict) (as : List Arrival) (n : Nat)
    (h : s.lease.inStep) : (carryRequest pr p w d v as n s).LeaseInv := by
  cases pr with
  | toEnd => exact leaseInv_endGrant (by cases d <;> simpa using h)
  | arrivals m => exact leaseInv_advance _ h trivial

theorem leaseInv_carryStep (pr : Progress) (j : Job) (as : List Arrival) (n : Nat) (h : s.lease.inStep) :
    (carryStep pr j ⟨.sweep true, as, n⟩ s).LeaseInv := by
  cases pr with
  | toEnd => exact leaseInv_endGrant (by simpa using h)
  | arrivals m => exact leaseInv_advance _ h trivial

theorem leaseInv_runAccess {k : Nat} (lo : Nat) (h : s.lease.inStep) (hk : 1 ≤ k ∧ k ≤ 15) :
    (runAccess k lo s).LeaseInv := by
  unfold runAccess
  split
  · exact (leaseInv_iff _).2 ⟨h, ticksOk_of_some rfl hk⟩
  · exact leaseInv_endGrant h

theorem leaseInv_carryExpiry (pr : Progress) {k : Nat} (i : Slot) (as : List Arrival) (n : Nat) (h : s.lease.inStep)
    (hk : 1 ≤ k ∧ k ≤ 15) : (carryExpiry pr k i ⟨.lease k (.posting i), as, n⟩ s).LeaseInv := by
  cases pr with
  | toEnd => rw [carryExpiry_toEnd]; exact leaseInv_runAccess _ (by rw [advance_lease]; exact h) hk
  | arrivals m => exact leaseInv_advance _ h hk

theorem leaseInv_endJob (c : JobChoice) (h : s.lease.inStep) : (endJob c s).LeaseInv := by
  have idle {u : State} (hl : u.lease = s.lease) (hg : u.arbiter.grant = none) : (arbitrate u).LeaseInv :=
    leaseInv_arbitrate ((leaseInv_iff _).2 ⟨hl ▸ h, ticksOk_of_none hg⟩)
  have left : s.choiceLeft.LeaseInv := idle rfl rfl
  rcases endJob_cases s c with e | ⟨e, -⟩ | ⟨-, e⟩ <;> rw [e]
  · exact idle rfl rfl
  · exact left
  · exact leaseInv_arbitrate (leaseInv_frame left rfl rfl)

/-! ### Every effect -/

theorem Effect.leaseInv {t : State} (e : Effect s t) (h : s.LeaseInv) : t.LeaseInv := by
  obtain ⟨hl, ha⟩ := (leaseInv_iff s).1 h
  -- the ticks of the access that holds the table
  have ticks {k : Nat} {st : AccessStage} {as : List Arrival} {n : Nat}
      (hg : s.arbiter.grant = some ⟨.lease k st, as, n⟩) : 1 ≤ k ∧ k ≤ 15 := ha _ hg
  cases e with
  | stays | refclk | link | prstPin | prstRise | initialised => exact leaseInv_frame h rfl rfl
  | divider d hd => exact (leaseInv_iff _).2 ⟨inStep_divider hl hd, ha⟩
  | tick hc hi hh hp => exact leaseInv_arbitrate ((leaseInv_iff _).2 ⟨inStep_counted hl hh hp, ha⟩)
  | answered | drained | acknowledged => exact leaseInv_frame h (respond_lease ..) (respond_arbiter ..)
  | leaseControl p x hd v l hx hi hv hc =>
    exact (leaseInv_iff _).2 ⟨by rw [respond_lease]; exact inStep_controls hl hc, by rw [respond_arbiter]; exact ha⟩
  | detach p q x hd v hx =>
    exact leaseInv_markDetachment q (leaseInv_withdrawClaim q (leaseInv_frame h (respond_lease ..) (respond_arbiter ..)))
  | claim p x hd r hx => exact leaseInv_raiseClaim p hd r (leaseInv_frame h rfl rfl)
  | request pr p w d as n hc hg =>
    exact leaseInv_carryRequest p pr w d _ _ _ (by rw [tableWork_state]; exact hl)
  | requestOn pr p w d v as n hc hg => exact leaseInv_carryRequest p pr w d v as n hl
  | access k as n hc hg => exact leaseInv_runAccess 0 hl (ticks hg)
  | expiry pr k i as n hc hg => exact leaseInv_carryExpiry pr i _ _ hl (ticks hg)
  | expiryOn pr k i as n hc hg => exact leaseInv_carryExpiry pr i _ _ hl (ticks hg)
  | stepV | stepS | stepOn => exact leaseInv_carryStep _ _ _ _ hl
  | stepF c i worked as n hc hg hj => exact leaseInv_endJob c hl
  | stepD1 p worked as n hc hg hj => exact leaseInv_endGrant hl
  | stepD2 p hj => exact leaseInv_arbitrate (leaseInv_frame h rfl rfl)
  | prstInit p hr hi => exact leaseInv_resetPort p h
  | prstFall p hr hi hp => exact leaseInv_markDetachment p (leaseInv_resetPort p h)
  | rstnFall hr => exact (leaseInv_iff _).2 ⟨inStep_powerOn, ticksOk_of_none rfl⟩
  | rstnRelease hr => exact (leaseInv_iff _).2 ⟨inStep_divider hl (refclks_pos _), ha⟩

/-- Settles O12, one case for each effect of a step: only a tick, a lease control, a reset and the beginning of an access change
the engine, and the access takes the 1 to 15 ticks that raised its claim. -/
theorem leaseEngineKept : Obligations.LeaseEngineKept := by
  intro s t h hst
  obtain ⟨rest, e⟩ := step_effect hst
  exact e.leaseInv h

end Sys2Proof.Machine


/-! ## Lease controls, ticks and tick periods (R68 to R70, R77 to R80) -/
namespace Sys2Proof.Machine

variable {s : State}

/-! ### The lease controls -/

/-- A request from port A that the lease engine takes at once: the answer is DONE, and the engine becomes `l`. -/
theorem exec_leaseControl (r : Request) {tag : Byte} (ht : s.taking .a) (hr : r.inRange = true) {a : Answer} {l : Lease}
    (hd : ∀ (h : Head) (x : PortState),
      dispatch .a h r (s.setPort .a x) = respond .a h (.done a) 0 { s.setPort .a x with lease := l }) :
    exec (requestCommand r.code .a (.frame tag r.body)) s = .next
      { s.setPort .a (((s.port .a).afterFrame r.body.length).answering tag .done (a.bytes 0)) with lease := l } := by
  rw [exec_request r tag ht hr fun _ => rfl, hd, respond_done_answering _ _ _ _ _ rfl]
  refine congrArg _ (State.ext_parts rfl rfl fun q => ?_)
  cases q <;> rfl

/-- Settles O28: each control is its dispatch, answered with what the engine held before. -/
theorem leaseControlsTaken : Obligations.LeaseControlsTaken := by
  refine fun tag s ht => ⟨fun τ => ?_, fun hh => ?_, fun hh => ?_, fun hh => ?_, fun hh => ?_⟩
  · exact exec_leaseControl (.setTick τ) (a := .tickSet s.lease.period)
      (l := { s.lease with period := τ, divider := 0 }) ht rfl fun _ _ => rfl
  · refine exec_leaseControl .holdLeases (a := .leasesHeld .running s.lease.pending) ht rfl fun _ _ => ?_
    simp only [dispatch, takeHoldLeases, setPort_lease, hh]
  · refine exec_leaseControl .holdLeases (a := .leasesHeld .held 0) (l := s.lease) ht rfl fun _ _ => ?_
    simp only [dispatch, takeHoldLeases, setPort_lease, hh]; rfl
  · refine exec_leaseControl .resumeLeases (a := .leasesResumed .held) ht rfl fun _ _ => ?_
    simp only [dispatch, takeResumeLeases, setPort_lease, hh]
  · refine exec_leaseControl .resumeLeases (a := .leasesResumed .running) (l := s.lease) ht rfl fun _ _ => ?_
    simp only [dispatch, takeResumeLeases, setPort_lease, hh]; rfl

/-! ### Ticks -/

theorem exec_tick (hc : s.clocked = true) : exec .tick s = .next (completePeriod s) := by
  simp only [exec, execTick, hc, if_true]

/-- A tick that is ignored still ends its period (R69). -/
theorem completePeriod_ignored (h : s.initialising = true ∨ s.lease.hold = .held ∨ 15 ≤ s.lease.pending) :
    completePeriod s = { s with lease := { s.lease with divider := 0 } } := by
  have hlimit (hp : 15 ≤ s.lease.pending) : ¬s.lease.pending < Config.pendingLimit := Nat.not_lt.2 hp
  unfold completePeriod countTick
  rcases h with hi | hh | hp
  · simp only [hi, if_true]
  · simp only [hh, ite_self]
  · simp only [hlimit hp, if_false]
    split
    · rfl
    · split <;> rfl

/-- A tick that is counted, while RUNNING and below the limit (R69, R70). -/
theorem completePeriod_counted (hi : s.initialising = false) (hh : s.lease.hold = .running) (hp : s.lease.pending < 15) :
    completePeriod s = arbitrate { s with lease := { s.lease with
      divider := 0, pending := s.lease.pending + 1, claim := s.lease.pending = 0 || s.lease.claim } } := by
  have hlimit : s.lease.pending < Config.pendingLimit := hp
  simp only [completePeriod, countTick, hi, hh, hlimit, if_true, Bool.false_eq_true, if_false]

/-- The engine's claim, raised at an idle table, is granted at once, and the access takes the pending ticks (R14, R71). -/
theorem arbitrate_lease_claim {l : Lease} (h : s.tableIdle) (hl : l.claim = true) :
    arbitrate { s with lease := l } = { s with
      lease := { l with pending := 0, claim := false }
      arbiter := { s.arbiter with pointer := .lease, grant := some ⟨.lease l.pending .start, [], 0⟩ } } := by
  obtain ⟨hg, hcl, -⟩ := h
  refine arbitrate_of_single_claim { s with lease := l } .lease hg hl fun r hr => ?_
  cases r with
  | port p => exact hcl (.port p)
  | lease => exact absurd rfl hr
  | sweep => exact hcl .sweep

/-- Settles O43: a tick ignored, a tick counted, and the first of a count at an idle table. -/
theorem tickCountsWhileRunning : Obligations.TickCountsWhileRunning := by
  intro s hc counted
  refine ⟨fun h => ?_, fun hi hh hp => ?_, fun hi hh hp hidle => ?_⟩
  · rw [exec_tick hc, completePeriod_ignored h]
  · have htick : exec .tick s = .next (arbitrate counted) := by rw [exec_tick hc, completePeriod_counted hi hh hp]
    refine ⟨htick, fun hg => ?_⟩
    obtain ⟨g, hg⟩ := Option.isSome_iff_exists.1 hg
    rw [htick, arbitrate_of_grant counted (g := g) hg]
  · have hclaim : s.lease.claim = false := hidle.2.1 .lease
    rw [exec_tick hc, completePeriod_counted hi hh (by omega), arbitrate_lease_claim hidle (by simp [hp])]
    simp [hp, hclaim]

/-! ### Tick periods -/

/-- With no command waiting, a step inside the tick period counts one REFCLK period (R69, log entry 3). -/
theorem step_inside_period (hp : s.pending = []) (hc : s.clocked = true)
    (hd : s.lease.divider + 1 < s.lease.period.refclks) :
    step s = .next { s with lease := { s.lease with divider := s.lease.divider + 1 } } := by
  simp only [step, hp, refclkPeriod, hc, if_true, hd]

/-- The step that fills the tick period makes the tick. -/
theorem step_fills_period (hp : s.pending = []) (hc : s.clocked = true)
    (hd : s.lease.divider + 1 = s.lease.period.refclks) : step s = exec .tick s := by
  have hfull : ¬s.lease.divider + 1 < s.lease.period.refclks := by omega
  simp only [step, hp, refclkPeriod, hc, if_true, hfull, if_false, exec_tick hc]

/-- `n` steps inside the tick period count `n` REFCLK periods. -/
theorem steps_inside_period (n : Nat) (hp : s.pending = []) (hc : s.clocked = true)
    (hd : s.lease.divider + n < s.lease.period.refclks) :
    steps n s { s with lease := { s.lease with divider := s.lease.divider + n } } := by
  induction n generalizing s with
  | zero => rfl
  | succ n ih =>
    refine ⟨_, step_inside_period hp hc (by omega), ?_⟩
    have hrest := ih (s := { s with lease := { s.lease with divider := s.lease.divider + 1 } }) hp hc
      (by simp only; omega)
    simpa only [Nat.add_assoc, Nat.add_comm 1 n] using hrest

/-- Settles O44: `n` REFCLK periods bring the divider to the last of its period, and the next one makes the tick. -/
theorem fullPeriodMakesTick : Obligations.FullPeriodMakesTick := by
  intro s n hp hc hn
  have hperiod : s.lease.divider + n + 1 = s.lease.period.refclks := by
    cases hτ : s.lease.period <;> rw [hτ] at hn <;> exact hn
  refine ⟨steps_inside_period n hp hc (by omega), ?_⟩
  have hfill := step_fills_period (s := { s with lease := { s.lease with divider := s.lease.divider + n } }) hp hc hperiod
  rw [hfill, exec_tick (by exact hc), exec_tick hc]
  rfl

end Sys2Proof.Machine


/-! ## Lease accesses (R71 to R73) -/
namespace Sys2Proof.Machine

variable {s : State} {k lo : Nat}

/-! ### What a visit makes of a record -/

theorem expires_iff (r : Record) : r.expires k = true ↔ r.expiresIn k := by
  rcases r with ⟨g, _ | (v | f) | c⟩ <;> simp [Record.expires, Record.expiresIn, and_assoc]

/-- The visit of a record that does not expire is all that the access does to it. -/
theorem afterAccess_of_not_expires {r : Record} (h : ¬r.expiresIn k) : r.afterAccess k = r.visited k := by
  rcases r with ⟨g, _ | (v | f) | c⟩
  case live.value =>
    by_cases hc : 0 < v.interval ∧ 0 < v.remaining
    · have hk : ¬v.remaining.val ≤ k := fun hk => h ⟨v, rfl, hc.1, hc.2, hk⟩
      have hz : ¬(v.interval = 0 ∨ v.remaining = 0) := by
        rintro (hz | hz)
        · rw [hz] at hc; exact lt_irrefl _ hc.1
        · rw [hz] at hc; exact lt_irrefl _ hc.2
      simp only [Record.afterAccess, Record.visited, if_pos hc, if_neg hz, if_neg hk]
    · have hz : v.interval = 0 ∨ v.remaining = 0 := by
        simp only [Fin.pos_iff_ne_zero] at hc; tauto
      simp only [Record.afterAccess, Record.visited, if_neg hc, if_pos hz]
  all_goals rfl

/-- The visit of a record that expires brings its remaining count to 0. -/
theorem visited_of_expiresIn {r : Record} {v : ValueFields} (h : r.expiresIn k) (hb : r.body = .live (.value v)) :
    r.visited k = ⟨r.generation, .live (.value { v with remaining := 0 })⟩ := by
  obtain ⟨v', hb', hi, hr, hk⟩ := h
  rw [hb] at hb'
  cases hb'
  have hz : lowerTicks v.remaining k = 0 := Fin.ext (Nat.sub_eq_zero_of_le hk)
  simp only [Record.visited, hb, if_pos (And.intro hi hr), hz]

/-- A record that expires comes to be STALE with nothing remaining. -/
theorem afterAccess_of_expires {r : Record} {v : ValueFields} (h : r.expiresIn k) (hb : r.body = .live (.value v)) :
    r.afterAccess k = ⟨r.generation, .live (.value { v with remaining := 0, quality := .stale })⟩ := by
  obtain ⟨v', hb', hi, hr, hk⟩ := h
  rw [hb] at hb'
  cases hb'
  have hz : ¬(v.interval = 0 ∨ v.remaining = 0) := not_or.2 ⟨Fin.pos_iff_ne_zero.1 hi, Fin.pos_iff_ne_zero.1 hr⟩
  simp only [Record.afterAccess, hb, if_neg hz, if_pos hk]

/-! ### Where the visits stop -/

/-- The slots from `lo` on whose records expire, in ascending order. -/
def Table.expiring (t : Table) (k lo : Nat) : List Slot :=
  (List.finRange 1024).filter (fun i => lo ≤ i.val && (t.record i).expires k)

theorem mem_expiring {t : Table} {i : Slot} : i ∈ t.expiring k lo ↔ lo ≤ i.val ∧ (t.record i).expiresIn k := by
  simp [Table.expiring, ← expires_iff]

/-- The access stops at the first of them. -/
theorem nextExpiring_eq_head (t : Table) : t.nextExpiring k lo = (t.expiring k lo).head? :=
  (List.head?_filter ..).symm

theorem expiring_congr {t u : Table} (h : ∀ i : Slot, lo ≤ i.val → u.record i = t.record i) :
    u.expiring k lo = t.expiring k lo := by
  refine List.filter_congr fun i _ => ?_
  by_cases hi : lo ≤ i.val
  · rw [h i hi]
  · simp [hi]

/-- Past the first of them, the others are left, and no slot between expires. -/
theorem expiring_cons {t : Table} {i : Slot} {l : List Slot} (h : t.expiring k lo = i :: l) :
    (lo ≤ i.val ∧ (t.record i).expiresIn k) ∧ t.expiring k (i.val + 1) = l ∧
    ∀ j : Slot, lo ≤ j.val → j < i → ¬(t.record j).expiresIn k := by
  have hfirst : lo ≤ i.val ∧ (t.record i).expiresIn k := mem_expiring.1 (h ▸ List.mem_cons_self)
  have hsorted : (i :: l).Pairwise (· < ·) := h ▸ (List.pairwise_lt_finRange 1024).filter _
  obtain ⟨hl, -⟩ := List.pairwise_cons.1 hsorted
  refine ⟨hfirst, ?_, fun j hj hji hx => ?_⟩
  · calc t.expiring k (i.val + 1) = (t.expiring k lo).filter (fun j => decide (i < j)) := by
          rw [Table.expiring, Table.expiring, List.filter_filter]
          refine List.filter_congr fun j _ => ?_
          have hlo : lo ≤ i.val := hfirst.1
          by_cases hj : i.val + 1 ≤ j.val
          · have hij : i < j := hj
            have hlj : lo ≤ j.val := by omega
            simp [hj, hij, hlj]
          · have hij : ¬i < j := hj
            simp [hj, hij]
      _ = l := by
          rw [h, List.filter_cons_of_neg (by simp), List.filter_eq_self]
          exact fun j hj => decide_eq_true (hl j hj)
  · have hmem : j ∈ i :: l := h ▸ mem_expiring.2 ⟨hj, hx⟩
    rcases List.mem_cons.1 hmem with rfl | hm
    · exact lt_irrefl _ hji
    · exact lt_asymm hji (hl j hm)

theorem expiring_nil {t : Table} : t.expiring k lo = [] ↔ ∀ i : Slot, lo ≤ i.val → ¬(t.record i).expiresIn k := by
  simp [List.eq_nil_iff_forall_not_mem, mem_expiring]

/-- The visits stop at a record that expires with none before it. -/
theorem nextExpiring_of_first {t : Table} {i : Slot} (hlo : lo ≤ i.val) (hx : (t.record i).expiresIn k)
    (hb : ∀ j : Slot, lo ≤ j.val → j < i → ¬(t.record j).expiresIn k) : t.nextExpiring k lo = some i := by
  rw [nextExpiring_eq_head]
  cases h : t.expiring k lo with
  | nil => exact absurd hx (expiring_nil.1 h i hlo)
  | cons j l =>
    obtain ⟨⟨hj, hjx⟩, -, hjb⟩ := expiring_cons h
    rcases lt_trichotomy i j with hij | rfl | hij
    · exact absurd hx (hjb i hlo hij)
    · rfl
    · exact absurd hjx (hb j hj hij)

/-! ### The visits of one command -/

theorem runAccess_of_none (h : s.table.nextExpiring k lo = none) :
    runAccess k lo s = endGrant { s with table := s.table.visit k lo 1023 } := by
  unfold runAccess; rw [h]

theorem runAccess_of_some {i : Slot} (h : s.table.nextExpiring k lo = some i) :
    runAccess k lo s = { s with
      table := s.table.visit k lo i.val
      arbiter := { s.arbiter with grant := some ⟨.lease k (.expiring i), [], 0⟩ } } := by
  unfold runAccess; rw [h]

/-- The visits go on as `State.accessFrom` says, whatever is left of the grant's arrivals. -/
theorem accessFrom_runAccess (g : Option Grant) :
    s.accessFrom k lo (runAccess k lo { s with arbiter := { s.arbiter with grant := g } }) := by
  refine ⟨fun hn => ?_, fun i hlo hx hb => ?_⟩
  · have hnone : s.table.nextExpiring k lo = none := by rw [nextExpiring_eq_head, expiring_nil.2 hn]; rfl
    rw [runAccess_of_none (by exact hnone)]
    refine ⟨s.table.visit k lo 1023, endGrant_congr rfl rfl rfl rfl rfl rfl, fun i => ?_, rfl, rfl, rfl⟩
    have hlast : i.val ≤ 1023 := by omega
    rw [record_visit]
    by_cases hi : lo ≤ i.val
    · rw [if_pos ⟨hi, hlast⟩, if_pos hi, afterAccess_of_not_expires (hn i hi)]
    · rw [if_neg fun h => hi h.1, if_neg hi]
  · refine ⟨s.table.visit k lo i.val, runAccess_of_some (nextExpiring_of_first hlo hx hb), fun j hj => ?_, fun j hj => ?_,
      fun v hv => ?_, rfl, rfl, rfl⟩
    · rw [record_visit]
      by_cases hlj : lo ≤ j.val
      · rw [if_pos ⟨hlj, le_of_lt hj⟩, if_pos hlj, afterAccess_of_not_expires (hb j hlj hj)]
      · rw [if_neg fun h => hlj h.1, if_neg hlj]
    · rw [record_visit, if_neg fun h => absurd h.2 (not_le.2 hj)]
    · rw [record_visit, if_pos ⟨hlo, le_refl _⟩, visited_of_expiresIn hx hv]

theorem exec_leaseAccess {as : List Arrival} {n : Nat} (hc : s.clocked = true)
    (hg : s.arbiter.grant = some ⟨.lease k .start, as, n⟩) : exec .leaseAccess s = .next (runAccess k 0 s) := by
  simp [exec, execLeaseAccess, hg, hc]

theorem exec_expiry {i : Slot} {as : List Arrival} {n : Nat} (pr : Progress) (hc : s.clocked = true)
    (hg : s.arbiter.grant = some ⟨.lease k (.expiring i), as, n⟩) :
    exec (.leaseExpiry pr) s = .next (carryExpiry pr k i ⟨.lease k (.posting i), s.table.expiryPosts i, 0⟩
      { s with table := s.table.expire i }) := by
  simp [exec, execLeaseExpiry, hg, hc]

/-- The expiry of a LIVE VALUE record makes it STALE (R72). -/
theorem expire_of_value {t : Table} {i : Slot} {v : ValueFields} (hb : (t.record i).body = .live (.value v)) :
    t.expire i = t.setRecord i ⟨(t.record i).generation, .live (.value { v with quality := .stale })⟩ := by
  simp only [Table.expire, hb]; rfl

theorem expiryPosts_of_value {t : Table} {i : Slot} {v : ValueFields} (hb : (t.record i).body = .live (.value v)) :
    t.expiryPosts i = t.stalePosts i v := by
  simp only [Table.expiryPosts, hb]; rfl

theorem takeArrivals_withTable (as : List Arrival) (t : Table) :
    takeArrivals as { s with table := t } = { takeArrivals as s with table := t } := by
  simpa using takeArrivals_core_eq s as t s.arbiter s.sweep

/-- The posts of an expiry carried to their end: the visits go on from the next slot. -/
theorem accessFrom_carryExpiry (s : State) (k : Nat) (i : Slot) (as : List Arrival) (n : Nat) :
    (takeArrivals as s).accessFrom k (i.val + 1) (carryExpiry .toEnd k i ⟨.lease k (.posting i), as, n⟩ s) := by
  have h := accessFrom_runAccess (s := takeArrivals as s) (k := k) (lo := i.val + 1)
    (some ⟨.lease k (.posting i), [], n + arrivalsRemove as s⟩)
  rw [takeArrivals_arbiter] at h
  rw [carryExpiry_toEnd, advance_eq]
  exact h

/-- A whole expiry, and the visits that follow it. -/
theorem leaseExpiry_visits {i : Slot} {as : List Arrival} {n : Nat} (hc : s.clocked = true)
    (hg : s.arbiter.grant = some ⟨.lease k (.expiring i), as, n⟩) :
    ∃ u, exec (.leaseExpiry .toEnd) s = .next u ∧
      State.accessFrom { takeArrivals (s.table.expiryPosts i) s with table := s.table.expire i } k (i.val + 1) u := by
  refine ⟨_, exec_expiry .toEnd hc hg, ?_⟩
  rw [← takeArrivals_withTable]
  exact accessFrom_carryExpiry { s with table := s.table.expire i } k i _ 0

/-- The posts of an expiry remove no entry (R107). -/
theorem arrivalsRemove_posts (us : List Subscription) (n : Subscription → Note) :
    arrivalsRemove (us.map fun u => .post u.port u.loc (n u)) s = 0 := by
  induction us generalizing s with
  | nil => rfl
  | cons u us ih => simp only [List.map_cons, arrivalsRemove, arrivalRemoves, ih]

/-- An expiry that pauses: its first posts are in the queues, the rest wait. -/
theorem carryExpiry_pauses (i : Slot) (v : ValueFields) (m : Nat) (t : Table) :
    carryExpiry (.arrivals m) k i ⟨.lease k (.posting i), s.table.stalePosts i v, 0⟩ { s with table := t } =
      { takeArrivals ((s.table.stalePosts i v).take m) s with
        table := t
        arbiter := { s.arbiter with grant := some ⟨.lease k (.posting i), (s.table.stalePosts i v).drop m, 0⟩ } } := by
  have hnone : arrivalsRemove ((s.table.stalePosts i v).take m) { s with table := t } = 0 := by
    rw [Table.stalePosts, ← List.map_take]; exact arrivalsRemove_posts _ _
  simp only [carryExpiry, advance_eq, takenBy, leftBy, hnone, takeArrivals_withTable]

/-- Settles O45: `runAccess` from slot 0 and from the slot after an expiry, and `advance` for a pause. -/
theorem leaseAccessVisitsInOrder : Obligations.LeaseAccessVisitsInOrder := by
  intro s k as n hc
  refine ⟨fun hg => ⟨_, exec_leaseAccess hc hg, accessFrom_runAccess s.arbiter.grant⟩, fun i => ⟨fun v hg hb => ?_,
    fun hg => ⟨_, exec_expiry_on .toEnd hc hg, accessFrom_carryExpiry s k i as n⟩⟩⟩
  rw [← expiryPosts_of_value hb, ← expire_of_value hb]
  refine ⟨leaseExpiry_visits hc hg, fun m => ?_⟩
  rw [exec_expiry _ hc hg, expiryPosts_of_value hb, carryExpiry_pauses]

/-! ### A whole access -/

/-- A record and a pool that stand give the same posts. -/
theorem expiryPosts_congr {t u : Table} {i : Slot} (hr : u.record i = t.record i) (hp : u.pool = t.pool) :
    u.expiryPosts i = t.expiryPosts i := by
  simp only [Table.expiryPosts, qualityPosts, Table.subsOn, hr, hp]

/-- `t` is `s` after the rest of an access of `k` ticks, from slot `lo` on: the records are as R71 to R73 say, the posts of
those that expired are in the queues in slot order, and the table is free. -/
structure State.AccessDone (k lo : Nat) (s t : State) : Prop where
  record : ∀ i : Slot, t.table.record i = if lo ≤ i.val then (s.table.record i).afterAccess k else s.table.record i
  lists : t.table.freeList = s.table.freeList ∧ t.table.views = s.table.views ∧ t.table.pool = s.table.pool
  arbiter : t.arbiter = { s.arbiter with grant := none }
  engines : t.lease = s.lease ∧ t.sweep = s.sweep ∧ t.outer = s.outer
  ports : t.ports = (takeArrivals ((s.table.expiring k lo).flatMap s.table.expiryPosts) s).ports

/-- Visits that no record stops end the access. -/
theorem accessDone_of_none {u : State} (hn : s.table.expiring k lo = []) (hcl : ∀ r, s.claimed r = false)
    (hd : s.sweep.choiceDue = false) (hu : s.accessFrom k lo u) : s.AccessDone k lo u := by
  obtain ⟨t, rfl, hr, hlists⟩ := hu.1 (expiring_nil.1 hn)
  have hend : endGrant { s with table := t } = { s with table := t, arbiter := { s.arbiter with grant := none } } :=
    endGrant_of_no_claim _ (fun r => (claimed_congr rfl rfl rfl r).trans (hcl r)) hd
  rw [hend]
  exact ⟨hr, hlists, rfl, ⟨rfl, rfl, rfl⟩, by rw [hn]; rfl⟩

/-- `u` is `s` after an access of `k` ticks has gone from slot `lo` to slot `i`, the first that expires, made its expiry and
brought its posts to the queues: the visits go on from here (R72). -/
structure State.StoppedAt (k lo : Nat) (i : Slot) (s u : State) : Prop where
  before : ∀ j : Slot, j < i → u.table.record j = if lo ≤ j.val then (s.table.record j).afterAccess k else s.table.record j
  record : u.table.record i = (s.table.record i).afterAccess k
  after : ∀ j : Slot, i < j → u.table.record j = s.table.record j
  lists : u.table.freeList = s.table.freeList ∧ u.table.views = s.table.views ∧ u.table.pool = s.table.pool
  rest : u.arbiter = { s.arbiter with grant := u.arbiter.grant } ∧ u.lease = s.lease ∧ u.sweep = s.sweep ∧ u.outer = s.outer
  ports : u.ports = (takeArrivals (s.table.expiryPosts i) s).ports

/-- The LEASE_EXPIRY of the record at which the visits stopped: they go on from a state `w` at which all of that is done. -/
theorem leaseExpiry_of_accessFrom {u : State} {i : Slot} {l : List Slot} (hi : s.table.expiring k lo = i :: l)
    (hc : s.clocked = true) (hu : s.accessFrom k lo u) :
    ∃ w x, exec (.leaseExpiry .toEnd) u = .next x ∧ w.accessFrom k (i.val + 1) x ∧ s.StoppedAt k lo i w := by
  obtain ⟨⟨hlo, hx⟩, -, hfirst⟩ := expiring_cons hi
  obtain ⟨t, rfl, hbefore, hafter, hat, hf, hv, hp⟩ := hu.2 i hlo hx hfirst
  obtain ⟨v, hb, -⟩ := id hx
  have hti := hat v hb
  have hbt : (t.record i).body = .live (.value { v with remaining := 0 }) := by rw [hti]
  obtain ⟨x, he, hfrom⟩ := leaseExpiry_visits (s := { s with
    table := t, arbiter := { s.arbiter with grant := some ⟨.lease k (.expiring i), [], 0⟩ } }) hc rfl
  have hposts : t.expiryPosts i = s.table.expiryPosts i := by
    rw [expiryPosts_of_value hbt, expiryPosts_of_value hb]
    simp only [Table.stalePosts, Table.subsOn, hp]
  have hne {j : Slot} (hj : j ≠ i) : (t.expire i).record j = t.record j := by
    rw [expire_of_value hbt, record_setRecord_ne _ _ _ hj]
  refine ⟨_, x, he, hfrom, fun j hj => ?_, ?_, fun j hj => ?_, ?_, ?_, ?_⟩
  · exact (hne (ne_of_lt hj)).trans (hbefore j hj)
  · simp only [expire_of_value hbt, record_setRecord_self, hti, afterAccess_of_expires hx hb]
  · exact (hne (ne_of_gt hj)).trans (hafter j hj)
  · simp only [expire_of_value hbt, setRecord_freeList, setRecord_views, setRecord_pool]
    exact ⟨hf, hv, hp⟩
  · exact ⟨by simp, by simp, by simp, takeArrivals_outer _ _⟩
  · simp only [hposts]
    exact takeArrivals_ports_congr _ rfl rfl

/-- Visits that go on past slot `i` to the end of the access end it from where it began. -/
theorem accessDone_of_stopped {w t : State} {i : Slot} {l : List Slot} (hi : s.table.expiring k lo = i :: l)
    (hw : s.StoppedAt k lo i w) (ht : w.AccessDone k (i.val + 1) t) : s.AccessDone k lo t := by
  obtain ⟨⟨hlo, -⟩, hl, -⟩ := expiring_cons hi
  obtain ⟨hwf, hwv, hwp⟩ := hw.lists
  obtain ⟨hf, hv, hp⟩ := ht.lists
  obtain ⟨hwa, hwl, hws, hwo⟩ := hw.rest
  obtain ⟨htl, hts, hto⟩ := ht.engines
  have hwrest : w.table.expiring k (i.val + 1) = l := (expiring_congr fun j hj => hw.after j hj).trans hl
  have hposts : l.flatMap w.table.expiryPosts = l.flatMap s.table.expiryPosts := by
    refine List.flatMap_congr fun j hj => expiryPosts_congr (hw.after j ?_) hwp
    exact (mem_expiring.1 (hl ▸ hj)).1
  refine ⟨fun j => ?_, ⟨hf.trans hwf, hv.trans hwv, hp.trans hwp⟩, ?_, ⟨htl.trans hwl, hts.trans hws, hto.trans hwo⟩, ?_⟩
  · rw [ht.record j]
    rcases lt_trichotomy j i with hj | rfl | hj
    · have hlt : ¬i.val + 1 ≤ j.val := by have := Fin.lt_def.1 hj; omega
      rw [if_neg hlt, hw.before j hj]
    · rw [if_neg (by omega), hw.record, if_pos hlo]
    · have hlt := Fin.lt_def.1 hj
      rw [if_pos (by omega), if_pos (by omega), hw.after j hj]
  · rw [ht.arbiter, hwa]
  · calc t.ports = (takeArrivals (l.flatMap s.table.expiryPosts) w).ports := by rw [ht.ports, hwrest, hposts]
      _ = (takeArrivals (l.flatMap s.table.expiryPosts) (takeArrivals (s.table.expiryPosts i) s)).ports :=
          takeArrivals_ports_congr _ (by rw [outer_initialising hwo, outer_initialising (takeArrivals_outer s _)]) hw.ports
      _ = (takeArrivals ((s.table.expiring k lo).flatMap s.table.expiryPosts) s).ports := by
          rw [hi, List.flatMap_cons, takeArrivals_append]

/-- The rest of an access from slot `lo`: one LEASE_EXPIRY for each slot of `l`, the slots that expire. -/
theorem access_runs {u : State} {l : List Slot} (hl : s.table.expiring k lo = l) (hc : s.clocked = true)
    (hcl : ∀ r, s.claimed r = false) (hd : s.sweep.choiceDue = false) (hu : s.accessFrom k lo u) :
    ∃ t, runs (List.replicate l.length (.leaseExpiry .toEnd)) u t ∧ s.AccessDone k lo t := by
  induction l generalizing s lo u with
  | nil => exact ⟨u, rfl, accessDone_of_none hl hcl hd hu⟩
  | cons i l ih =>
    obtain ⟨w, x, he, hx, hw⟩ := leaseExpiry_of_accessFrom hl hc hu
    obtain ⟨hwa, hwl, hws, hwo⟩ := hw.rest
    have hrest : w.table.expiring k (i.val + 1) = l := (expiring_congr hw.after).trans (expiring_cons hl).2.1
    have hclaims (r : Requester) : w.claimed r = false := by
      rw [← hcl r]; exact claimed_congr (by rw [hwa]) (by rw [hwl]) (by rw [hws]) r
    obtain ⟨t, ht, hdone⟩ := ih hrest ((clocked_of_outer hwo).trans hc) hclaims (by rw [hws]; exact hd) hx
    exact ⟨t, ⟨x, he, ht⟩, accessDone_of_stopped hl hw hdone⟩

theorem flatMap_filter {α β : Type} (p : α → Bool) (f : α → List β) (l : List α) :
    (l.filter p).flatMap f = l.flatMap (fun a => if p a then f a else []) := by
  induction l with
  | nil => rfl
  | cons a l ih => cases h : p a <;> simp [h, ih]

theorem expires_of_value {r : Record} {v : ValueFields} (hb : r.body = .live (.value v)) :
    r.expires k = true ↔ 0 < v.interval ∧ 0 < v.remaining ∧ v.remaining.val ≤ k := by
  simp [expires_iff, Record.expiresIn, hb]

/-- Settles O46: the access from slot 0, through as many expiries as records expire. -/
theorem wholeLeaseAccess : Obligations.WholeLeaseAccess := by
  intro s k hc ⟨hg, hcl, hd⟩
  obtain ⟨u, hu, hfrom⟩ := (leaseAccessVisitsInOrder s k [] 0 hc).1 hg
  obtain ⟨l, hl⟩ : ∃ l, s.table.expiring k 0 = l := ⟨_, rfl⟩
  obtain ⟨t, ht, hdone⟩ := access_runs hl hc hcl hd hfrom
  obtain ⟨hfree, hviews, hpool⟩ := hdone.lists
  obtain ⟨hlease, hsweep, houter⟩ := hdone.engines
  refine ⟨l.length, t, ?_, ⟨u, hu, ht⟩, fun i => ?_, hfree, hviews, hpool, hdone.arbiter, hlease, hsweep, houter, ?_⟩
  · simp [← hl, Table.expiring, List.countP_eq_length_filter]
  · rw [hdone.record i, if_pos (Nat.zero_le _)]
  · have hposts : (s.table.expiring k 0).flatMap s.table.expiryPosts =
        (List.finRange 1024).flatMap fun i => if (s.table.record i).expires k then s.table.expiryPosts i else [] := by
      simp only [Table.expiring, Nat.zero_le, decide_true, Bool.true_and, flatMap_filter]
    rw [hdone.ports, hposts]
    refine congrArg (fun as => (takeArrivals as s).ports) (List.flatMap_congr fun i _ => ?_)
    rcases hb : (s.table.record i).body with _ | (v | f) | c
    case live.value => simp only [expires_of_value hb, expiryPosts_of_value hb]
    all_goals simp [Record.expires, hb]

end Sys2Proof.Machine


/-! ## Watch conditions and their evaluation (R88 to R90) -/
namespace Sys2Proof.Machine

theorem watchOf_matched_iff {mask reference value : Word32} :
    watchOf mask reference value = .matched ↔ value &&& mask = reference &&& mask := by
  unfold watchOf
  split <;> simp_all

/-- Two masked words are equal exactly when their selected bits are. -/
theorem and_mask_eq_iff {n : Nat} {x y mask : BitVec n} :
    x &&& mask = y &&& mask ↔ ∀ i : Fin n, mask.getLsbD i = true → x.getLsbD i = y.getLsbD i := by
  rw [BitVec.eq_of_getLsbD_eq_iff, Fin.forall_iff]
  refine forall₂_congr fun i _ => ?_
  rw [BitVec.getLsbD_and, BitVec.getLsbD_and]
  cases mask.getLsbD i <;> simp

/-- Settles O23: a masked comparison is one of the selected bits. -/
theorem matchComparesSelectedBits : Obligations.MatchComparesSelectedBits :=
  fun _ _ _ => watchOf_matched_iff.trans and_mask_eq_iff

/-- The rows of R89, by the mode: TRIP posts a fall from MATCH, BOTH every change, WRITES every write. -/
theorem evaluationNote_eq (m : Mode) (old new : WatchState) (x : Word32) (n : Word16) :
    evaluationNote m old new x n =
      match m with
      | .trip => if old = .matched ∧ new = .mismatched then some (.watch .mismatched x n) else none
      | .both => if old ≠ new then some (.watch new x n) else none
      | .writes => some (.change new x n) := by
  cases m with
  | trip => cases old <;> cases new <;> rfl
  | both => cases old <;> cases new <;> rfl
  | writes => cases old <;> rfl

/-- Settles O24: each subscription's post by the row of its mode; the pool is changed place by place. -/
theorem evaluationFollowsModes : Obligations.EvaluationFollowsModes := by
  refine fun t i x n => ⟨?_, List.length_map _, fun k u hu => ?_⟩
  · rw [evaluationPosts, List.filterMap_eq_flatMap_toList]
    refine List.flatMap_congr fun u _ => ?_
    simp only [evaluationNote_eq]
    cases u.mode with
    | trip | both => dsimp only; split <;> rfl
    | writes => rfl
  · refine ⟨if u.target = i then { u with watch := watchOf u.mask u.reference x } else u, ?_, ?_, ?_⟩
    · rw [evaluatedPool, List.getElem?_map, hu]; rfl
    all_goals split <;> rfl

end Sys2Proof.Machine


/-! ## Subscribe and Unsubscribe (R93 to R98) -/
namespace Sys2Proof.Machine

variable {s : State} {p : Port} {l : Local}

/-- The port's subscription on the local is the one that the pool's other subscriptions leave it to be (R85). -/
theorem subscription?_of_split {t : Table} {before after : List Subscription} {old : Subscription}
    (hp : t.pool = before ++ old :: after) (ho : old.keyed p l = true)
    (hn : ∀ u ∈ before ++ after, u.keyed p l = false) : t.subscription? p l = some old := by
  rw [Table.subscription?, hp, List.find?_append, List.find?_cons_of_pos ho,
    List.find?_eq_none.2 fun u hu => by simp [hn u (List.mem_append_left _ hu)]]
  rfl

/-- A replacement puts the new subscription in the old one's place, or at the tail (R94). -/
theorem replaceSubscription_of_split {before after : List Subscription} {old new : Subscription}
    (ho : old.keyed new.port new.loc = true) (hn : ∀ u ∈ before ++ after, u.keyed new.port new.loc = false) :
    replaceSubscription (before ++ old :: after) old new =
      if old.target = new.target then before ++ new :: after else before ++ after ++ [new] := by
  have hstay : (before ++ after).filter (fun u => !u.keyed new.port new.loc) = before ++ after :=
    List.filter_eq_self.2 fun u hu => by rw [hn u hu]; rfl
  have hkeep (us : List Subscription) (hus : ∀ u ∈ us, u ∈ before ++ after) :
      us.map (fun u => if u.keyed new.port new.loc then new else u) = us :=
    (List.map_congr_left fun u hu => if_neg (by simp [hn u (hus u hu)])).trans (List.map_id' us)
  unfold replaceSubscription
  split
  · rw [List.map_append, List.map_cons, hkeep before fun u => List.mem_append_left _,
      hkeep after fun u => List.mem_append_right _, if_pos ho]
  · rw [List.filter_append, List.filter_cons_of_neg (by simp [ho]), ← List.filter_append, hstay]

/-- The work of a Subscribe that resolves, where the port has a subscription on the local (R94). -/
theorem workSubscribe_replaces {mask reference : Word32} {mode : Mode} {wants : Bool} {target via : Slot}
    {v : ValueFields} {hops : Nat} {old : Subscription} (h : resolve s.table .read p l = .reached target via v hops)
    (ho : s.table.subscription? p l = some old) : workSubscribe p l mask reference mode wants s =
      .changed s { s.table with
          pool := replaceSubscription s.table.pool old
            (newSubscription p l via target mask reference mode wants v.value) } []
        (.subscribed true (watchOf mask reference v.value) v.value v.quality v.sequence) := by
  simp only [workSubscribe, h, ho]; rfl

/-- The same where it has none (R95, R96). -/
theorem workSubscribe_new {mask reference : Word32} {mode : Mode} {wants : Bool} {target via : Slot}
    {v : ValueFields} {hops : Nat} (h : resolve s.table .read p l = .reached target via v hops)
    (ho : s.table.subscription? p l = none) : workSubscribe p l mask reference mode wants s =
      if poolRefuses s.table p then .report s ⟨.noSubSpace, .empty, some via, some target, hops⟩
      else .changed s { s.table with
          pool := s.table.pool ++ [newSubscription p l via target mask reference mode wants v.value] } []
        (.subscribed false (watchOf mask reference v.value) v.value v.quality v.sequence) := by
  simp only [workSubscribe, h, ho]; rfl

theorem poolRefuses_iff {t : Table} : poolRefuses t p = true ↔ 192 ≤ t.pool.length ∨ 64 ≤ t.portCount p := by
  simp [poolRefuses, Config.poolSize, Config.perPortLimit]

/-- Settles O34: by the port's subscription on the local, then by the room in the pool. -/
theorem subscribeReplacesOrCreates : Obligations.SubscribeReplacesOrCreates := by
  intro p tag l mask reference mode wants s target via v hops h c r w new answer
  refine ⟨fun before old after hp hop hol hn => ?_, fun hn => ⟨fun hlen hcount => ?_, fun hfull => ?_⟩⟩
  · have hold : old.keyed p l = true := (keyed_iff ..).2 ⟨hop, hol⟩
    have hothers : ∀ u ∈ before ++ after, u.keyed p l = false := fun u hu => by
      simpa [Subscription.keyed] using hn u hu
    have hc := concludes_request (s := s) (p := p) r tag rfl rfl (fun hs => nomatch hs)
      (workSubscribe_replaces h (subscription?_of_split hp hold hothers))
    rw [hp, replaceSubscription_of_split hold hothers] at hc
    exact hc
  · have hroom : ¬poolRefuses s.table p = true := fun hr => by
      rcases poolRefuses_iff.1 hr with hr | hr <;> omega
    exact concludes_request (s := s) (p := p) r tag rfl rfl (fun hs => nomatch hs)
      ((workSubscribe_new h ((subscription?_none ..).2 hn)).trans (if_neg hroom))
  · obtain ⟨hl, hb⟩ := lengthOk_body r rfl
    exact declines_refused (s := s) (p := p) r tag hb (parse_body r rfl) hl rfl (fun hs => nomatch hs)
      ⟨.noSubSpace, .empty, some via, some target, hops⟩
      ((workSubscribe_new h ((subscription?_none ..).2 hn)).trans (if_pos (poolRefuses_iff.2 hfull)))
      (fun hd => nomatch hd)

/-- Settles O35: by the port's subscription on the local. -/
theorem unsubscribeReturnsSubscription : Obligations.UnsubscribeReturnsSubscription := by
  refine fun p tag l s => ⟨fun hu => ?_, fun hn => ?_⟩
  · obtain ⟨u, ho⟩ : ∃ u, s.table.subscription? p l = some u := Option.isSome_iff_exists.1 <| by
      simpa [subscription?_isSome] using hu
    have hc := concludes_request (s := s) (p := p) (.unsubscribe l) tag rfl rfl (fun hs => nomatch hs)
      (by simp only [tableWork, workUnsubscribe, ho]; rfl)
    rw [returnSubs_keyed, arrivalsRemove_all] at hc
    exact hc
  · exact declines_request (.unsubscribe l) tag rfl rfl (fun hs => nomatch hs) (x := .notSubscribed) (by decide)
      (by simp only [tableWork, workUnsubscribe, (subscription?_none ..).2 hn])

end Sys2Proof.Machine


/-! ## The subscription pool's limits (R83) -/
namespace Sys2Proof.Machine

/-! ### The keys in use -/

/-- The subscription's port and local (R85). -/
def Subscription.key (u : Subscription) : Port × Local := (u.port, u.loc)

/-- The subscriptions' keys keep R83: at most 192, of a port at most 64, each once. -/
def KeysOk (ks : List (Port × Local)) : Prop := ks.length ≤ 192 ∧ (∀ p, ks.countP (·.1 = p) ≤ 64) ∧ ks.Nodup

/-- The keys of the subscriptions in use. -/
def Table.keys (t : Table) : List (Port × Local) := t.pool.map Subscription.key

theorem portCount_eq_keys (t : Table) (p : Port) : t.portCount p = t.keys.countP (·.1 = p) := by
  rw [Table.portCount, Table.keys, List.countP_map]; rfl

theorem poolInv_iff {s : State} : s.PoolInv ↔ (s.tableValid → KeysOk s.table.keys) := by
  refine imp_congr_right fun _ => and_congr ?_ (and_congr ?_ ?_)
  · rw [Table.keys, List.length_map]
  · simp only [portCount_eq_keys]
  · rw [Table.keys, List.Nodup, List.pairwise_map]
    simp [Subscription.key]

theorem keysOk_sublist {ks ks' : List (Port × Local)} (h : KeysOk ks) (hs : ks'.Sublist ks) : KeysOk ks' :=
  ⟨hs.length_le.trans h.1, fun p => (hs.countP_le ..).trans (h.2.1 p), h.2.2.sublist hs⟩

theorem keysOk_perm {ks ks' : List (Port × Local)} (h : KeysOk ks) (hp : ks'.Perm ks) : KeysOk ks' :=
  ⟨hp.length_eq.trans_le h.1, fun p => (hp.countP_eq _).trans_le (h.2.1 p), hp.nodup_iff.2 h.2.2⟩

/-- One more key, where there is room for it (R95). -/
theorem keysOk_cons {ks : List (Port × Local)} {p : Port} {l : Local} (h : KeysOk ks) (hl : ks.length < 192)
    (hc : ks.countP (·.1 = p) < 64) (hn : (p, l) ∉ ks) : KeysOk ((p, l) :: ks) := by
  refine ⟨hl, fun q => ?_, List.nodup_cons.2 ⟨hn, h.2.2⟩⟩
  by_cases e : p = q
  · subst e; rw [List.countP_cons_of_pos (by simp)]; exact hc
  · rw [List.countP_cons_of_neg (by simpa using e)]; exact h.2.1 q

/-! ### What table work does to them -/

theorem keys_returnSubs (t : Table) (drop : Subscription → Bool) : (t.returnSubs drop).keys.Sublist t.keys :=
  List.filter_sublist.map _

/-- An evaluation keeps every key in its place (R90). -/
theorem keys_writtenTable (t : Table) (i : Slot) (v : ValueFields) (x : Word32) : (writtenTable t i v x).keys = t.keys := by
  rw [Table.keys, writtenTable, evaluatedPool, List.map_map]
  exact List.map_congr_left fun u _ => by dsimp only [Function.comp]; split <;> rfl

/-- A replacement keeps the keys, in another order where the new subscription joins the tail of a list (R94). -/
theorem keys_replaceSubscription {us : List Subscription} {old new : Subscription} (hm : old ∈ us)
    (hk : old.key = new.key) (hn : (us.map Subscription.key).Nodup) :
    ((replaceSubscription us old new).map Subscription.key).Perm (us.map Subscription.key) := by
  have keyed (u : Subscription) : u.keyed new.port new.loc = (u.key == new.key) := by
    simp [Subscription.keyed, Subscription.key, Bool.beq_eq_decide_eq]
  have hmem : new.key ∈ us.map Subscription.key := hk ▸ List.mem_map_of_mem hm
  unfold replaceSubscription
  simp only [keyed]
  split
  · refine .of_eq ?_
    rw [List.map_map]
    refine List.map_congr_left fun u _ => ?_
    by_cases e : u.key = new.key <;> simp [e]
  · have hrest : (us.filter fun u => !(u.key == new.key)).map Subscription.key =
        (us.map Subscription.key).erase new.key := by
      rw [hn.erase_eq_filter, List.filter_map]; rfl
    rw [List.map_append, hrest]
    exact List.perm_append_comm.trans (List.perm_cons_erase hmem).symm

/-- The table work of a request keeps the pool within its limits. -/
theorem keysOk_change {t t' : Table} {w w' : Sweep} (h : KeysOk t.keys) (hc : TableChange t w t' w') :
    KeysOk t'.keys := by
  cases hc with
  | none | refreshed | created | mapped | retired => exact h
  | written i v x hb => rw [keys_writtenTable]; exact h
  | replaced p l via target v hops old new hr ho hn =>
    obtain ⟨m, f, md, o, rfl⟩ := hn
    obtain ⟨hm, hp, hl⟩ := subscription?_some _ _ _ ho
    exact keysOk_perm h (keys_replaceSubscription hm (Prod.ext hp hl) h.2.2)
  | subscribed p l via target v hops new hr ho hp hn =>
    obtain ⟨m, f, md, o, rfl⟩ := hn
    have hroom : ¬(192 ≤ t.keys.length ∨ 64 ≤ t.keys.countP (·.1 = p)) := by
      rw [← portCount_eq_keys, Table.keys, List.length_map, ← poolRefuses_iff, hp]; exact nofun
    have hnew : (p, l) ∉ t.keys := fun hm => by
      obtain ⟨u, hu, hk⟩ := List.mem_map.1 hm
      exact (subscription?_none ..).1 ho u hu (Prod.mk.inj hk)
    rw [Table.keys, List.map_append]
    exact keysOk_perm (keysOk_cons h (by omega) (by omega) hnew) List.perm_append_comm
  | unsubscribed p l => exact keysOk_sublist h (keys_returnSubs ..)
  | unmapped p l e he => exact keysOk_sublist h (keys_returnSubs ..)

theorem keys_of_keeps {t t' : Table} (h : t.keeps t') : t'.keys = t.keys := congrArg (List.map _) h.2.1

theorem pool_listStepTable_sublist (t : Table) (i : Slot) : (listStepTable t i).pool.Sublist t.pool := by
  unfold listStepTable
  split
  · exact List.filter_sublist
  all_goals exact .refl _

/-! ### Every step -/

/-- An effect that keeps the pool within its limits where the table is valid. -/
theorem poolInv_of {s t : State} (h : s.PoolInv) (hr : t.rstn = s.rstn ∧ t.initialising = s.initialising)
    (hk : KeysOk s.table.keys → KeysOk t.table.keys) : t.PoolInv :=
  poolInv_iff.2 fun hv => hk (poolInv_iff.1 h (by rwa [State.tableValid, ← hr.1, ← hr.2]))

theorem poolInv_outer {s t : State} (h : s.PoolInv) (ho : t.outer = s.outer)
    (hk : KeysOk s.table.keys → KeysOk t.table.keys) : t.PoolInv :=
  poolInv_of h ⟨outer_rstn ho, outer_initialising ho⟩ hk

theorem poolInv_keys {s t : State} (h : s.PoolInv) (ho : t.outer = s.outer) (ht : t.table.keys = s.table.keys) : t.PoolInv :=
  poolInv_outer h ho (ht ▸ id)

theorem Effect.poolInv {s t : State} (e : Effect s t) (h : s.PoolInv) : t.PoolInv := by
  cases e with
  | stays | refclk | divider | link | prstPin | prstRise => exact poolInv_of h ⟨rfl, rfl⟩ id
  | answered p x hd v hx | drained p x hd v m hx | acknowledged p x hd v m hx | leaseControl p x hd v l hx =>
    exact poolInv_keys h (respond_outer ..) (congrArg _ (respond_table ..))
  | tick => exact poolInv_keys h (arbitrate_outer _) (congrArg _ (arbitrate_table _))
  | detach p q x hd v hx => exact poolInv_keys h (by simp) (by simp)
  | claim p x hd r hx => exact poolInv_keys h (by simp) (by simp)
  | request pr p w d as n hc hg =>
    refine poolInv_outer h (by simp) fun hk => ?_
    rw [carryRequest_table]; exact keysOk_change hk (tableWork_change s p w.request)
  | requestOn pr p w d v as n hc hg => exact poolInv_keys h (by simp) (by simp)
  | access k as n hc hg => exact poolInv_keys h (by simp) (keys_of_keeps (tableKeeps_runAccess s k 0))
  | expiry pr k i as n hc hg =>
    refine poolInv_keys h (carryExpiry_outer ..) ?_
    exact (keys_of_keeps (tableKeeps_carryExpiry _ pr k i _)).trans (keys_of_keeps (tableKeeps_expire s.table i))
  | expiryOn pr k i as n hc hg => exact poolInv_keys h (by simp) (keys_of_keeps (tableKeeps_carryExpiry s pr k i _))
  | stepV pr i x as n hc hg hj =>
    refine poolInv_outer h (carryStep_outer ..) fun hk => ?_
    rw [carryStep_table]; exact keysOk_sublist hk (keys_returnSubs ..)
  | stepS pr i as n hc hg hj =>
    refine poolInv_outer h (carryStep_outer ..) fun hk => ?_
    rw [carryStep_table]; exact keysOk_sublist hk ((pool_listStepTable_sublist ..).map _)
  | stepOn pr i st next as n hc hg hj hn => exact poolInv_keys h (by simp) (by simp)
  | stepF c i worked as n hc hg hj =>
    refine poolInv_keys h (endJob_outer ..) ?_
    rw [endJob_table]; rfl
  | stepD1 p worked as n hc hg hj =>
    refine poolInv_outer h (endGrant_outer _) fun hk => ?_
    rw [endGrant_table]; exact keysOk_sublist hk (keys_returnSubs ..)
  | stepD2 p hj => exact poolInv_keys h (arbitrate_outer _) (congrArg _ (arbitrate_table _))
  | prstInit p hr hi => exact poolInv_keys h (by simp) (by simp)
  | prstFall p hr hi hp => exact poolInv_keys h (by simp) (by simp)
  | rstnFall => exact fun hv => by cases hv.1
  | rstnRelease => exact fun hv => by cases hv.2
  | initialised hi hc =>
    refine poolInv_iff.2 fun _ => ?_
    show KeysOk Table.cleared.keys
    rw [Table.keys, cleared_pool]
    exact ⟨Nat.zero_le _, fun _ => Nat.zero_le _, List.nodup_nil⟩

/-- Settles O15, one case for each effect of a step: subscriptions keep their keys or are returned, but for a Subscribe, which
looks for room first. -/
theorem poolLimitsKept : Obligations.PoolLimitsKept := by
  intro s t h hst
  obtain ⟨rest, e⟩ := step_effect hst
  exact e.poolInv h

end Sys2Proof.Machine


/-! ## The sweep engine in step (R116, R122, R124, R125, R129, R130) -/
namespace Sys2Proof.Machine

/-! ### The invariant in parts -/

/-- The requester that has the grant in progress. -/
def Arbiter.owner (a : Arbiter) : Option Requester := a.grant.map (·.holder.requester)

theorem owner_of_grant {a : Arbiter} {g : Grant} (h : a.grant = some g) : a.owner = some g.holder.requester := by
  rw [Arbiter.owner, h]; rfl

theorem owner_of_none {a : Arbiter} (h : a.grant = none) : a.owner = none := by
  rw [Arbiter.owner, h]; rfl

theorem owner_eq_sweep (s : State) : s.arbiter.owner = some .sweep ↔ s.sweepHolds := by
  rw [State.sweepHolds, Arbiter.owner]
  rcases s.arbiter.grant with _ | ⟨_ | _ | _, as, n⟩ <;> simp [Holder.requester]

theorem owner_eq_port (a : Arbiter) (p : Port) :
    a.owner = some (.port p) ↔ ∃ w d v as n, a.grant = some ⟨.port p w d v, as, n⟩ := by
  rw [Arbiter.owner]
  rcases a.grant with _ | ⟨_ | _ | _, as, n⟩ <;> simp [Holder.requester]

/-- The job stands at a step that takes a table grant (R125). -/
def Sweep.atGrantStep (w : Sweep) : Prop := ∃ j, w.job = some j ∧ j.takesGrant = true

/-- The port's flag is set, or its detachment is the current job. -/
def Sweep.detaches (w : Sweep) (p : Port) : Prop :=
  w.flags.get p = true ∨ ∃ j, w.job = some j ∧ j.detaches p = true

/-- What `State.SweepInv` says of the engine with the ports' claims `cl`, the requester `o` in its grant and the subscriptions
`us`, but for the work that waits at an idle engine and the grant that stands over a choice left due. -/
structure Sweep.Agrees (w : Sweep) (cl : PerPort Bool) (o : Option Requester) (us : List Subscription) : Prop where
  fifo : w.fifo.length ≤ 4
  claim : w.claim = true → w.atGrantStep
  holds : o = some .sweep → w.claim = false ∧ w.atGrantStep
  stands : w.atGrantStep → w.claim = true ∨ o = some .sweep
  due : w.dueIdle
  detaching : ∀ p, w.attachment.get p = .detaching ↔ w.detaches p
  unclaimed : ∀ p, w.attachment.get p = .detaching → cl.get p = false
  detached : ∀ p, w.job = some (.detachment p .d2) → (∀ u ∈ us, u.port ≠ p) ∧ o ≠ some (.port p)

/-- An idle engine has no work waiting, but for a choice left due (R124). -/
def Sweep.settled (w : Sweep) : Prop :=
  w.job = none → w.choiceDue = false → w.fifo = [] ∧ ∀ p, w.flags.get p = false

/-- The engine is in step with the arbiter and the pool. -/
def State.engineAgrees (s : State) : Prop := s.sweep.Agrees s.arbiter.claims s.arbiter.owner s.table.pool

theorem sweepInv_iff (s : State) : s.SweepInv ↔
    s.engineAgrees ∧ s.sweep.settled ∧ (s.sweep.choiceDue = true → s.arbiter.grant.isSome = true) := by
  constructor
  · rintro ⟨h1, h2, h3, h4, h5, h6, h7, h8, h9⟩
    refine ⟨⟨h1, h2, fun ho => h3 ((owner_eq_sweep s).1 ho),
      fun ⟨j, hj, ht⟩ => (h4 j hj ht).imp_right (owner_eq_sweep s).2, fun hd => (h5 hd).1, h7, h8, fun p hj => ?_⟩,
      h6, fun hd => (h5 hd).2⟩
    obtain ⟨hu, hg⟩ := h9 p hj
    refine ⟨hu, fun ho => ?_⟩
    obtain ⟨w, d, v, as, n, e⟩ := (owner_eq_port _ p).1 ho
    exact hg w d v as n e
  · rintro ⟨h, h6, h5⟩
    refine ⟨h.fifo, h.claim, fun hg => h.holds ((owner_eq_sweep s).2 hg),
      fun j hj ht => (h.stands ⟨j, hj, ht⟩).imp_right (owner_eq_sweep s).1, fun hd => ⟨h.due hd, h5 hd⟩, h6,
      h.detaching, h.unclaimed, fun p hj => ?_⟩
    obtain ⟨hu, ho⟩ := h.detached p hj
    exact ⟨hu, fun w d v as n e => ho ((owner_eq_port _ p).2 ⟨w, d, v, as, n, e⟩)⟩

theorem atGrantStep_of_job {w : Sweep} {j : Job} (h : w.job = some j) : w.atGrantStep ↔ j.takesGrant = true := by
  simp [Sweep.atGrantStep, h]

theorem not_atGrantStep_of_idle {w : Sweep} (h : w.job = none) : ¬w.atGrantStep := by
  simp [Sweep.atGrantStep, h]

theorem detaches_of_job {w : Sweep} {j : Job} (h : w.job = some j) (p : Port) :
    w.detaches p ↔ w.flags.get p = true ∨ j.detaches p = true := by
  simp [Sweep.detaches, h]

theorem detaches_of_idle {w : Sweep} (h : w.job = none) (p : Port) : w.detaches p ↔ w.flags.get p = true := by
  simp [Sweep.detaches, h]

section
variable {w : Sweep} {cl cl' : PerPort Bool} {o : Option Requester} {us us' : List Subscription}

theorem Sweep.Agrees.not_due {j : Job} (h : w.Agrees cl o us) (hj : w.job = some j) : w.choiceDue = false :=
  not_due_of_job h.due hj

/-! ### Claims, grants and the pool -/

/-- Claims may end. -/
theorem agrees_claims (h : w.Agrees cl o us) (hc : ∀ p, cl'.get p = true → cl.get p = true) : w.Agrees cl' o us :=
  { h with
    unclaimed := fun p hd => by
      have hp := h.unclaimed p hd
      cases e : cl'.get p
      · rfl
      · rw [hc p e] at hp; cases hp }

theorem agrees_dropped (h : w.Agrees cl o us) (p : Port) : w.Agrees (cl.set p false) o us :=
  agrees_claims h fun q => by
    rw [PerPort.get_set]; split
    · exact nofun
    · exact id

/-- An ATTACHED port raises its claim (R122). -/
theorem agrees_raised {p : Port} (h : w.Agrees cl o us) (ha : w.attachment.get p = .attached) :
    w.Agrees (cl.set p true) o us :=
  { h with
    unclaimed := fun q hd => by
      have hq : q ≠ p := fun e => by rw [e, ha] at hd; cases hd
      rw [PerPort.get_set_ne _ _ hq]; exact h.unclaimed q hd }

/-- Subscriptions may be returned, and the port of the request in its grant may come to hold more. -/
theorem agrees_pool (h : w.Agrees cl o us) (hu : ∀ u ∈ us', o = some (.port u.port) ∨ ∃ v ∈ us, v.port = u.port) :
    w.Agrees cl o us' :=
  { h with
    detached := fun p hj => by
      obtain ⟨hpool, ho⟩ := h.detached p hj
      refine ⟨fun u hm e => ?_, ho⟩
      rcases hu u hm with hp | ⟨v, hv, hp⟩
      · exact ho (e ▸ hp)
      · exact hpool v hv (hp.trans e) }

theorem agrees_sub (h : w.Agrees cl o us) (hu : ∀ u ∈ us', u ∈ us) : w.Agrees cl o us' :=
  agrees_pool h fun u hm => .inr ⟨u, hu u hm, rfl⟩

/-- A grant that is not the sweep engine's ends, or that of a requester without a port begins. -/
theorem agrees_owner {o' : Option Requester} (h : w.Agrees cl o us) (hs : o ≠ some .sweep) (hs' : o' ≠ some .sweep)
    (hp : ∀ p, o' ≠ some (.port p)) : w.Agrees cl o' us :=
  { h with
    holds := fun ho => absurd ho hs'
    stands := fun hj => .inl ((h.stands hj).resolve_right hs)
    detached := fun p hj => ⟨(h.detached p hj).1, hp p⟩ }

theorem agrees_free (h : w.Agrees cl o us) (hs : o ≠ some .sweep) : w.Agrees cl none us :=
  agrees_owner h hs nofun nofun

/-- A request's claim ends where its grant begins: a DETACHING port has none (R13, R122). -/
theorem agrees_portGranted {p : Port} (h : w.Agrees cl none us) (hc : cl.get p = true) :
    w.Agrees (cl.set p false) (some (.port p)) us := by
  refine { agrees_dropped h p with
    holds := nofun
    stands := fun hj => .inl ((h.stands hj).resolve_right nofun)
    detached := fun q hj => ⟨(h.detached q hj).1, fun e => ?_⟩ }
  cases e
  have hd := (h.detaching p).2 ((detaches_of_job hj p).2 (.inr (by simp [Job.detaches])))
  rw [h.unclaimed p hd] at hc; cases hc

/-- The engine's claim ends where its grant begins (R13). -/
theorem agrees_sweepGranted (h : w.Agrees cl none us) (hc : w.claim = true) :
    ({ w with claim := false } : Sweep).Agrees cl (some .sweep) us :=
  { h with
    claim := nofun
    holds := fun _ => ⟨rfl, h.claim hc⟩
    stands := fun _ => .inr rfl
    detached := fun p hj => ⟨(h.detached p hj).1, nofun⟩ }

/-! ### The engine's choice of a job -/

theorem settled_takeJob (w : Sweep) : w.takeJob.settled := by
  intro hj _
  rcases takeJob_cases w with ⟨x, -, -, e⟩ | ⟨-, i, rest, -, e⟩ | ⟨hf, hq, e⟩ <;> rw [e] at hj ⊢
  · cases hj
  · cases hj
  · exact ⟨hq, (firstFlag_none w).1 hf⟩

theorem settled_choose (h : w.settled) : w.choose.settled := by
  unfold Sweep.choose; split
  · exact settled_takeJob w
  · exact h

/-- Work offered to the engine does not wait at an idle one (R124). -/
theorem settled_offer (w : Sweep) : w.offer.settled := by
  unfold Sweep.offer
  split
  · split
    · next hd => intro _ hn; rw [hd] at hn; cases hn
    · exact settled_takeJob w
  · next hj => intro hn; rw [hj] at hn; cases hn

@[simp] theorem choose_choiceDue (w : Sweep) : w.choose.choiceDue = false := by
  unfold Sweep.choose; split
  · exact takeJob_choiceDue w
  · next h => simpa using h

theorem offer_choiceDue (h : w.offer.choiceDue = true) : w.choiceDue = true := by
  unfold Sweep.offer at h
  split at h
  · split at h
    · exact h
    · rw [takeJob_choiceDue] at h; cases h
  · exact h

/-- An idle engine takes a job with its claim raised; a flag taken becomes the current detachment (R124). -/
theorem agrees_takeJob (h : w.Agrees cl o us) (hj : w.job = none) : w.takeJob.Agrees cl o us := by
  have howner : o ≠ some .sweep := fun ho => not_atGrantStep_of_idle hj (h.holds ho).2
  rcases takeJob_cases w with ⟨x, -, hx, e⟩ | ⟨-, i, rest, hq, e⟩ | ⟨-, -, e⟩ <;> rw [e]
  · refine ⟨h.fifo, fun _ => ⟨_, rfl, rfl⟩, fun ho => absurd ho howner, fun _ => .inl rfl, nofun, fun p => ?_, h.unclaimed,
      nofun⟩
    rw [show w.attachment.get p = .detaching ↔ _ from h.detaching p, detaches_of_idle hj, detaches_of_job rfl]
    dsimp only
    by_cases hp : p = x
    · subst hp; simp [hx, Job.detaches]
    · simp [hp, Ne.symm hp, Job.detaches]
  · have hlen := h.fifo
    rw [hq, List.length_cons] at hlen
    refine ⟨Nat.le_of_succ_le hlen, fun _ => ⟨_, rfl, rfl⟩, fun ho => absurd ho howner, fun _ => .inl rfl, nofun,
      fun p => ?_, h.unclaimed, nofun⟩
    rw [show w.attachment.get p = .detaching ↔ _ from h.detaching p, detaches_of_idle hj, detaches_of_job rfl]
    simp [Job.detaches]
  · exact { h with due := nofun }

theorem agrees_choose (h : w.Agrees cl o us) : w.choose.Agrees cl o us := by
  unfold Sweep.choose; split
  · next hd => exact agrees_takeJob h (h.due hd)
  · exact h

theorem agrees_offer (h : w.Agrees cl o us) : w.offer.Agrees cl o us := by
  unfold Sweep.offer
  split
  · next hj =>
    split
    · exact h
    · exact agrees_takeJob h hj
  · exact h

/-! ### The engine's work -/

/-- A Retire's slot joins the FIFO where it has room (R118). -/
theorem agrees_append (h : w.Agrees cl o us) (i : Slot) (hq : w.fifo.length < Config.fifoSize) :
    ({ w with fifo := w.fifo ++ [i] } : Sweep).Agrees cl o us :=
  { h with fifo := by rw [List.length_append]; exact hq }

/-- A port without a claim is marked (R120 to R122). -/
theorem agrees_mark {q : Port} (h : w.Agrees cl o us) (hc : cl.get q = false) :
    ({ w with flags := w.flags.set q true, attachment := w.attachment.set q .detaching } : Sweep).Agrees cl o us := by
  refine { h with detaching := fun p => ?_, unclaimed := fun p => ?_ }
  · by_cases hp : p = q
    · subst hp; simp [Sweep.detaches]
    · have := h.detaching p
      simpa [Sweep.detaches, hp] using this
  · by_cases hp : p = q
    · subst hp; exact fun _ => hc
    · dsimp only; rw [PerPort.get_set_ne _ _ hp]; exact h.unclaimed p

/-- A retirement job in its grant passes to its next step, for which the engine raises its claim (R13, R125). -/
theorem agrees_next {i : Slot} {st next : RetireStep} (h : w.Agrees cl o us) (hj : w.job = some (.retirement i st)) :
    ({ w with job := some (.retirement i next), claim := true } : Sweep).Agrees cl none us where
  fifo := h.fifo
  claim _ := ⟨_, rfl, rfl⟩
  holds := nofun
  stands _ := .inl rfl
  due := dueIdle_of_not_due (h.not_due hj)
  detaching p := (h.detaching p).trans <| by rw [detaches_of_job hj, detaches_of_job rfl]; rfl
  unclaimed := h.unclaimed
  detached := nofun

/-- A retirement job ends, with the engine's next choice due or not (R119, R128). -/
theorem agrees_endJob {i : Slot} {st : RetireStep} (due : Bool) (h : w.Agrees cl (some .sweep) us)
    (hj : w.job = some (.retirement i st)) :
    ({ w with job := none, choiceDue := due } : Sweep).Agrees cl none us where
  fifo := h.fifo
  claim hc := by rw [(h.holds rfl).1] at hc; cases hc
  holds := nofun
  stands hs := absurd hs (not_atGrantStep_of_idle rfl)
  due _ := rfl
  detaching p := (h.detaching p).trans <| by rw [detaches_of_job hj, detaches_of_idle rfl]; simp [Job.detaches]
  unclaimed := h.unclaimed
  detached := nofun

/-- Step D1 returns the port's subscriptions, and step D2 raises no claim (R129, R130). -/
theorem agrees_returned {p : Port} (h : w.Agrees cl (some .sweep) us) (hj : w.job = some (.detachment p .d1)) :
    ({ w with job := some (.detachment p .d2) } : Sweep).Agrees cl none (us.filter fun u => !decide (u.port = p)) where
  fifo := h.fifo
  claim hc := by rw [(h.holds rfl).1] at hc; cases hc
  holds := nofun
  stands hs := by rw [atGrantStep_of_job rfl] at hs; cases hs
  due := dueIdle_of_not_due (h.not_due hj)
  detaching q := (h.detaching q).trans <| by rw [detaches_of_job hj, detaches_of_job rfl]; rfl
  unclaimed := h.unclaimed
  detached q hq := by
    cases hq
    exact ⟨fun u hu => by simpa using (List.mem_filter.1 hu).2, nofun⟩

/-- Step D2 attaches the port, or keeps it DETACHING for a flag set meanwhile (R124, R130). -/
theorem agrees_detached {p : Port} (h : w.Agrees cl o us) (hj : w.job = some (.detachment p .d2)) :
    ({ w with
      attachment := w.attachment.set p (if w.flags.get p then .detaching else .attached)
      job := none } : Sweep).Agrees cl o us := by
  have hstep : ¬w.atGrantStep := by rw [atGrantStep_of_job hj]; exact nofun
  have hatt (q : Port) : (w.attachment.set p (if w.flags.get p then .detaching else .attached)).get q = .detaching ↔
      w.flags.get q = true := by
    by_cases hq : q = p
    · subst hq; cases hf : w.flags.get q <;> simp
    · rw [PerPort.get_set_ne _ _ hq, h.detaching, detaches_of_job hj]
      simp [Job.detaches, Ne.symm hq]
  exact {
    fifo := h.fifo
    claim := fun hc => absurd (h.claim hc) hstep
    holds := fun ho => absurd (h.holds ho).2 hstep
    stands := fun hs => absurd hs (not_atGrantStep_of_idle rfl)
    due := fun _ => rfl
    detaching := fun q => (hatt q).trans <| by rw [detaches_of_idle rfl]
    unclaimed := fun q hq => h.unclaimed q ((h.detaching q).2 (.inl ((hatt q).1 hq)))
    detached := nofun }

theorem agrees_powerOn (us : List Subscription) : Sweep.powerOn.Agrees cl none us where
  fifo := Nat.zero_le _
  claim := nofun
  holds := nofun
  stands hs := absurd hs (not_atGrantStep_of_idle rfl)
  due := nofun
  detaching p := by rw [detaches_of_idle rfl]; simp [Sweep.powerOn]
  unclaimed p hp := by simp [Sweep.powerOn] at hp
  detached := nofun

end

/-! ### What table work does -/

/-- A request's table work changes the engine only by a Retire, which offers it a slot (R118, R119). -/
theorem agrees_change {t t' : Table} {w w' : Sweep} {cl : PerPort Bool} {o : Option Requester} {us : List Subscription}
    (h : w.Agrees cl o us) (hs : w.settled) (hc : TableChange t w t' w') : w'.Agrees cl o us ∧ w'.settled := by
  cases hc with
  | retired i c hb hq => exact ⟨agrees_offer (agrees_append h i hq), settled_offer _⟩
  | _ => exact ⟨h, hs⟩

/-- Every subscription is of port `p` or of a port that held one before. -/
def Table.poolFrom (t t' : Table) (p : Port) : Prop := ∀ u ∈ t'.pool, u.port = p ∨ ∃ v ∈ t.pool, v.port = u.port

theorem poolFrom_of_mem {t t' : Table} (p : Port) (h : ∀ u ∈ t'.pool, u ∈ t.pool) : t.poolFrom t' p :=
  fun u hu => .inr ⟨u, h u hu, rfl⟩

theorem poolFrom_refl (t : Table) (p : Port) : t.poolFrom t p := poolFrom_of_mem p fun _ => id

theorem poolFrom_returnSubs (t : Table) (drop : Subscription → Bool) (p : Port) : t.poolFrom (t.returnSubs drop) p :=
  poolFrom_of_mem p fun _ hu => (List.mem_filter.1 hu).1

theorem poolFrom_writtenTable (t : Table) (i : Slot) (v : ValueFields) (x : Word32) (p : Port) :
    t.poolFrom (writtenTable t i v x) p := fun u hu => by
  obtain ⟨w, hw, hp, -⟩ := mem_evaluatedPool hu
  exact .inr ⟨w, hw, hp.symm⟩

/-- A Subscribe makes or leaves a subscription of its own port (R94, R95). -/
theorem poolFrom_workSubscribe (s : State) (p : Port) (l : Local) (m f : Word32) (md : Mode) (q : Bool) :
    s.table.poolFrom (workSubscribe p l m f md q s).state.table p := by
  unfold workSubscribe
  split
  · dsimp only
    split
    · intro u hu
      rcases mem_replaceSubscription hu with rfl | hu
      · exact .inl rfl
      · exact .inr ⟨u, hu, rfl⟩
    · split
      · exact poolFrom_refl _ _
      · intro u hu
        rcases List.mem_append.1 hu with hu | hu
        · exact .inr ⟨u, hu, rfl⟩
        · rw [List.mem_singleton.1 hu]; exact .inl rfl
  · exact poolFrom_refl _ _

/-- A request's table work brings no subscription to a port that is not its own (R84). -/
theorem poolFrom_tableWork (s : State) (p : Port) (r : Request) : s.table.poolFrom (tableWork p r s).state.table p := by
  cases r with
  | subscribe l m f md q => exact poolFrom_workSubscribe s p l m f md q
  | write l x =>
    simp only [tableWork, workWrite]; split
    · exact poolFrom_writtenTable s.table _ _ x p
    · exact poolFrom_refl _ _
  | conditionalWrite l e x =>
    simp only [tableWork, workConditionalWrite]; split
    · split
      · exact poolFrom_writtenTable s.table _ _ x p
      · exact poolFrom_refl _ _
    · exact poolFrom_refl _ _
  | unsubscribe l =>
    simp only [tableWork, workUnsubscribe]; split
    · exact poolFrom_returnSubs s.table _ p
    · exact poolFrom_refl _ _
  | unmap q l =>
    simp only [tableWork, workUnmap]; split
    · exact poolFrom_refl _ _
    · exact poolFrom_returnSubs (s.table.setEntry q l none) _ p
  | read _ | refresh _ | createValue _ _ | createAlias _ _ | retire _ | map _ _ _ _ | readView _ _ =>
    simp only [tableWork, workRead, workRefresh, workCreateValue, workCreateAlias, workRetire, workMap, workReadView]
    repeat' split
    all_goals exact poolFrom_refl s.table p
  | groupRead _ | readSlot _ | poolReport | drain _ | getStatus | acknowledge _ | detach _ | setTick _ | holdLeases
  | resumeLeases => exact poolFrom_refl _ _

variable {s : State} {p : Port}

/-- The table work of the request in its grant. -/
theorem engineAgrees_tableWork (h : s.engineAgrees) (hs : s.sweep.settled) (ho : s.arbiter.owner = some (.port p))
    (r : Request) : (tableWork p r s).state.engineAgrees ∧ (tableWork p r s).state.sweep.settled := by
  obtain ⟨hw, hs'⟩ := agrees_change h hs (tableWork_change s p r)
  have ha : (tableWork p r s).state.arbiter = s.arbiter := by rw [tableWork_state]
  refine ⟨?_, hs'⟩
  rw [State.engineAgrees, ha]
  exact agrees_pool hw fun u hu => (poolFrom_tableWork s p r u hu).imp_left fun hp => by rw [ho, hp]

/-! ### The arbiter -/

theorem engineAgrees_beginGrant {r : Requester} (h : s.engineAgrees) (hg : s.arbiter.grant = none)
    (hc : s.claimed r = true) : (beginGrant r s).engineAgrees := by
  rw [State.engineAgrees, owner_of_none hg] at h
  cases r with
  | port p =>
    simp only [beginGrant]
    split
    · exact agrees_portGranted h hc
    · show s.sweep.Agrees (s.arbiter.claims.set p false) s.arbiter.owner s.table.pool
      rw [owner_of_none hg]
      exact agrees_dropped h p
  | lease => exact agrees_owner (o' := some .lease) h nofun nofun nofun
  | sweep => exact agrees_sweepGranted h hc

theorem engineAgrees_arbitrate (h : s.engineAgrees) : (arbitrate s).engineAgrees := by
  rcases arbitrate_cases s with ⟨-, e⟩ | ⟨-, -, e⟩ | ⟨r, hg, hc, -, e⟩ <;> rw [e]
  · exact h
  · exact h
  · exact engineAgrees_beginGrant h hg hc

/-- The arbiter sees to no work of the engine and to no choice left due. -/
theorem arbitrate_waiting (s : State) :
    ((arbitrate s).sweep.settled ↔ s.sweep.settled) ∧ (arbitrate s).sweep.choiceDue = s.sweep.choiceDue := by
  rcases arbitrate_sweep s with e | e <;> rw [e] <;> exact ⟨Iff.rfl, rfl⟩

theorem sweepInv_arbitrate (h : s.SweepInv) : (arbitrate s).SweepInv := by
  obtain ⟨ha, hs, hd⟩ := (sweepInv_iff s).1 h
  obtain ⟨hs', hd'⟩ := arbitrate_waiting s
  refine (sweepInv_iff _).2 ⟨engineAgrees_arbitrate ha, hs'.2 hs, fun hdue => ?_⟩
  rw [hd'] at hdue
  obtain ⟨g, hg⟩ := Option.isSome_iff_exists.1 (hd hdue)
  rw [arbitrate_of_grant s hg, hg]; rfl

/-- No choice is left due, so no grant need stand. -/
theorem sweepInv_of_not_due (h : s.engineAgrees) (hs : s.sweep.settled) (hd : s.sweep.choiceDue = false) : s.SweepInv :=
  (sweepInv_iff s).2 ⟨h, hs, fun h => by rw [hd] at h; cases h⟩

theorem sweepInv_of_grant {g : Grant} (h : s.engineAgrees) (hs : s.sweep.settled) (hg : s.arbiter.grant = some g) :
    s.SweepInv :=
  (sweepInv_iff s).2 ⟨h, hs, fun _ => by rw [hg]; rfl⟩

/-- The end of a grant, with the choice left due over it made (R119). -/
theorem sweepInv_endGrant (h : s.sweep.Agrees s.arbiter.claims none s.table.pool) (hs : s.sweep.settled) :
    (endGrant s).SweepInv :=
  sweepInv_arbitrate (sweepInv_of_not_due (agrees_choose h) (settled_choose hs) (choose_choiceDue _))

/-- Only what `State.SweepInv` does not speak of has changed. -/
theorem sweepInv_congr {s t : State} (h : s.SweepInv) (hw : t.sweep = s.sweep) (ha : t.arbiter = s.arbiter)
    (hp : t.table.pool = s.table.pool) : t.SweepInv := by
  rw [sweepInv_iff, State.engineAgrees, hw, ha, hp]; exact (sweepInv_iff s).1 h

/-! ### Grants carried on -/

theorem advance_arbiter (s : State) (pr : Progress) (g : Grant) :
    (advance pr g s).arbiter.claims = s.arbiter.claims ∧ (advance pr g s).arbiter.owner = some g.holder.requester :=
  ⟨congrArg (·.claims) (core_iff.1 (takeArrivals_core s (takenBy pr g.arrivals))).2.1,
    by rw [owner_of_grant (advance_grant s pr g)]⟩

/-- The queues take arrivals, and the grant stays with its requester (R103). -/
theorem engineAgrees_advance (pr : Progress) {g : Grant} (h : s.engineAgrees)
    (ho : s.arbiter.owner = some g.holder.requester) : (advance pr g s).engineAgrees := by
  obtain ⟨hc, ho'⟩ := advance_arbiter s pr g
  rw [State.engineAgrees, advance_sweep, hc, ho', ← ho, advance_table]; exact h

theorem sweepInv_advance (pr : Progress) {g : Grant} (h : s.engineAgrees) (hs : s.sweep.settled)
    (ho : s.arbiter.owner = some g.holder.requester) : (advance pr g s).SweepInv :=
  sweepInv_of_grant (engineAgrees_advance pr h ho) (by rw [advance_sweep]; exact hs) (advance_grant ..)

theorem sweepInv_carryRequest (pr : Progress) (w : Work) (d : Bool) (v : Verdict) (as : List Arrival) (n : Nat)
    (h : s.engineAgrees) (hs : s.sweep.settled) (ho : s.arbiter.owner = some (.port p)) :
    (carryRequest pr p w d v as n s).SweepInv := by
  cases pr with
  | toEnd =>
    have hfree := agrees_free h (by rw [ho]; exact nofun)
    refine sweepInv_endGrant ?_ ?_ <;> cases d
    all_goals simp only [if_true, if_false, Bool.false_eq_true, respond_sweep, respond_arbiter, respond_table,
      advance_sweep, advance_table, (advance_arbiter ..).1]
    exacts [hfree, hfree, hs, hs]
  | arrivals m => exact sweepInv_advance _ h hs ho

theorem sweepInv_runAccess (k lo : Nat) (h : s.engineAgrees) (hs : s.sweep.settled) (ho : s.arbiter.owner = some .lease) :
    (runAccess k lo s).SweepInv := by
  unfold runAccess
  split
  · rw [State.engineAgrees, ho] at h
    exact sweepInv_of_grant (s := { s with table := _, arbiter := { s.arbiter with grant := some _ } }) h hs rfl
  · have hfree := agrees_free h (by rw [ho]; exact nofun)
    exact sweepInv_endGrant (s := { s with table := s.table.visit k lo 1023 }) hfree hs

theorem sweepInv_carryExpiry (pr : Progress) (k : Nat) (i : Slot) (as : List Arrival) (n : Nat) (h : s.engineAgrees)
    (hs : s.sweep.settled) (ho : s.arbiter.owner = some .lease) :
    (carryExpiry pr k i ⟨.lease k (.posting i), as, n⟩ s).SweepInv := by
  cases pr with
  | toEnd =>
    simp only [carryExpiry]
    exact sweepInv_runAccess k _ (engineAgrees_advance .toEnd h ho) (by rw [advance_sweep]; exact hs)
      (advance_arbiter ..).2
  | arrivals m => exact sweepInv_advance _ h hs ho

/-- A step's arrivals reach the queues; with the last, the job passes to its next step. -/
theorem sweepInv_carryStep (pr : Progress) {i : Slot} {st next : RetireStep} (as : List Arrival) (n : Nat)
    (h : s.engineAgrees) (hs : s.sweep.settled) (ho : s.arbiter.owner = some .sweep)
    (hj : s.sweep.job = some (.retirement i st)) :
    (carryStep pr (.retirement i next) ⟨.sweep true, as, n⟩ s).SweepInv := by
  cases pr with
  | toEnd =>
    obtain ⟨hc, -⟩ := advance_arbiter s .toEnd ⟨.sweep true, as, n⟩
    refine sweepInv_endGrant ?_ nofun
    simp only [advance_sweep, advance_table, hc]
    exact agrees_next h hj
  | arrivals m => exact sweepInv_advance _ h hs ho

theorem sweepInv_endJob (c : JobChoice) {i : Slot} {st : RetireStep} (h : s.engineAgrees)
    (ho : s.arbiter.owner = some .sweep) (hj : s.sweep.job = some (.retirement i st)) : (endJob c s).SweepInv := by
  rw [State.engineAgrees, ho] at h
  have hleft : s.choiceLeft.engineAgrees := engineAgrees_arbitrate (agrees_endJob true h hj)
  have hwait := arbitrate_waiting { s with
    arbiter := { s.arbiter with grant := none }, sweep := { s.sweep with job := none, choiceDue := true } }
  rcases endJob_cases s c with e | ⟨e, hg⟩ | ⟨hg, e⟩ <;> rw [e]
  · exact sweepInv_arbitrate (sweepInv_of_not_due (agrees_takeJob (agrees_endJob s.sweep.choiceDue h hj) rfl)
      (settled_takeJob _) (takeJob_choiceDue _))
  · exact (sweepInv_iff _).2 ⟨hleft, hwait.1.2 nofun, fun _ => hg⟩
  · exact sweepInv_arbitrate (sweepInv_of_not_due (agrees_choose hleft) (settled_choose (hwait.1.2 nofun))
      (choose_choiceDue _))

/-! ### Ports marked and reset -/

theorem sweepInv_markDetachment (h : s.SweepInv) (hc : s.arbiter.claims.get p = false) : (markDetachment p s).SweepInv := by
  obtain ⟨ha, -, hd⟩ := (sweepInv_iff s).1 h
  refine sweepInv_arbitrate ((sweepInv_iff _).2 ⟨agrees_offer (agrees_mark ha hc), settled_offer _, fun hdue => hd ?_⟩)
  have hbefore := offer_choiceDue hdue
  exact hbefore

/-- A claim withdrawn, and the requester of the grant as it was. -/
theorem sweepInv_claimDropped {s t : State} (h : s.SweepInv) (hw : t.sweep = s.sweep)
    (hc : t.arbiter.claims = s.arbiter.claims.set p false) (hg : t.arbiter.owner = s.arbiter.owner)
    (hp : t.table.pool = s.table.pool) : t.SweepInv := by
  obtain ⟨ha, hs, hd⟩ := (sweepInv_iff s).1 h
  have hsome : t.arbiter.grant.isSome = s.arbiter.grant.isSome := by
    simpa [Arbiter.owner] using congrArg Option.isSome hg
  rw [sweepInv_iff, State.engineAgrees, hw, hc, hg, hp, hsome]
  exact ⟨agrees_dropped ha p, hs, hd⟩

theorem sweepInv_withdrawClaim (p : Port) (h : s.SweepInv) : (withdrawClaim p s).SweepInv :=
  sweepInv_claimDropped h (by simp) (by rw [withdrawClaim_arbiter]) (by rw [withdrawClaim_arbiter]; rfl) (by simp)

/-- A grant whose response is no longer wanted stays with its port (R154). -/
theorem resetPort_owner (s : State) (p : Port) : (resetPort p s).arbiter.owner = s.arbiter.owner := by
  rw [Arbiter.owner, Arbiter.owner, resetPort_grant]
  rcases s.arbiter.grant with _ | ⟨_ | _ | _, as, n⟩ <;> rfl

theorem resetPort_claims (s : State) (p : Port) : (resetPort p s).arbiter.claims = s.arbiter.claims.set p false := by
  rw [resetPort_eq]

theorem sweepInv_resetPort (p : Port) (h : s.SweepInv) : (resetPort p s).SweepInv :=
  sweepInv_claimDropped h (by simp) (resetPort_claims s p) (resetPort_owner s p) (by simp)

/-- An ATTACHED port raises its claim (R13, R122). -/
theorem sweepInv_raiseClaim (hd : Head) (r : Request) (h : s.SweepInv) (ha : s.sweep.attachment.get p = .attached) :
    (raiseClaim p hd r s).SweepInv := by
  obtain ⟨hag, hs, hdue⟩ := (sweepInv_iff s).1 h
  exact sweepInv_arbitrate ((sweepInv_iff _).2 ⟨agrees_raised hag ha, hs, hdue⟩)

/-! ### Every step -/

theorem Effect.sweepInv {s t : State} (e : Effect s t) (h : s.SweepInv) : t.SweepInv := by
  obtain ⟨ha, hs, hdue⟩ := (sweepInv_iff s).1 h
  cases e with
  | stays | refclk | divider | link | prstPin | prstRise | rstnRelease => exact h
  | answered p x hd v hx | drained p x hd v m hx | acknowledged p x hd v m hx | leaseControl p x hd v l hx =>
    exact sweepInv_congr h (respond_sweep ..) (respond_arbiter ..) (congrArg _ (respond_table ..))
  | tick => exact sweepInv_arbitrate h
  | detach p q x hd v hx =>
    refine sweepInv_markDetachment (sweepInv_withdrawClaim q (sweepInv_congr h (by simp) (by simp) (by simp))) ?_
    rw [withdrawClaim_arbiter]; exact PerPort.get_set_self ..
  | claim p x hd r hx hi hat => exact sweepInv_raiseClaim (s := s.setPort p x) hd r h hat
  | request pr p w d as n hc hg =>
    have ho := owner_of_grant hg
    obtain ⟨hw, hs'⟩ := engineAgrees_tableWork ha hs ho w.request
    exact sweepInv_carryRequest pr w d _ _ 0 hw hs' (by rw [tableWork_state]; exact ho)
  | requestOn pr p w d v as n hc hg => exact sweepInv_carryRequest pr w d v as n ha hs (owner_of_grant hg)
  | access k as n hc hg => exact sweepInv_runAccess k 0 ha hs (owner_of_grant hg)
  | expiry pr k i as n hc hg =>
    refine sweepInv_carryExpiry pr k i _ 0 ?_ hs (owner_of_grant hg)
    rw [State.engineAgrees, (tableKeeps_expire s.table i).2.1]; exact ha
  | expiryOn pr k i as n hc hg => exact sweepInv_carryExpiry pr k i as n ha hs (owner_of_grant hg)
  | stepV pr i x as n hc hg hj =>
    exact sweepInv_carryStep pr _ 0 (agrees_sub ha fun _ hu => (List.mem_filter.1 hu).1) hs (owner_of_grant hg) hj
  | stepS pr i as n hc hg hj =>
    have hsub := (pool_listStepTable_sublist s.table i).subset
    exact sweepInv_carryStep pr _ 0 (agrees_sub ha fun _ hu => hsub hu) hs (owner_of_grant hg) hj
  | stepOn pr i st next as n hc hg hj hn => exact sweepInv_carryStep pr as n ha hs (owner_of_grant hg) hj
  | stepF c i worked as n hc hg hj =>
    exact sweepInv_endJob (s := { s with table := freeStepTable s.table i }) c ha (owner_of_grant hg) hj
  | stepD1 p worked as n hc hg hj =>
    rw [State.engineAgrees, owner_of_grant hg] at ha
    exact sweepInv_endGrant (agrees_returned ha hj) nofun
  | stepD2 p hj =>
    exact sweepInv_arbitrate (sweepInv_of_not_due (agrees_takeJob (agrees_detached ha hj) rfl) (settled_takeJob _)
      (takeJob_choiceDue _))
  | prstInit p hr hi => exact sweepInv_resetPort p h
  | prstFall p hr hi hp =>
    refine sweepInv_markDetachment (sweepInv_resetPort p h) ?_
    rw [resetPort_claims]; exact PerPort.get_set_self ..
  | rstnFall => exact sweepInv_of_not_due (agrees_powerOn _) (fun _ _ => ⟨rfl, PerPort.get_replicate _⟩) rfl
  | initialised hi hc =>
    refine (sweepInv_iff _).2 ⟨agrees_sub ha fun u hu => ?_, hs, hdue⟩
    rw [cleared_pool] at hu; cases hu

/-- Settles O13, one case for each effect of a step: the engine's claim passes to its grant with its job, a request brings no
subscription to another port than its own, and every end of a grant makes a choice left due. -/
theorem sweepEngineKept : Obligations.SweepEngineKept := by
  intro s t h hst
  obtain ⟨rest, e⟩ := step_effect hst
  exact e.sweepInv h

end Sys2Proof.Machine


/-! ## A notification queue and its arrivals (R101 to R107) -/
namespace Sys2Proof.Machine

variable {es : List Entry} {l : Local} {n : Note}

/-! ### Posts -/

theorem entry_keyed_iff (c : NoteClass) (e : Entry) : e.keyed l c = true ↔ e.loc = l ∧ e.note.cls = c := by
  simp [Entry.keyed]

/-- The merged count rises to 255 and no further (R104). -/
theorem merge_merged (n : Note) (e : Entry) :
    (e.merge n).merged = if e.merged < 255 then e.merged + 1 else e.merged := rfl

/-- A post merged into an entry of its local (R104). -/
theorem merge_eq {e : Entry} (hl : e.loc = l) (hm : e.merged ≤ 255) : e.merge n = ⟨l, n, min 255 (e.merged + 1)⟩ := by
  have hcount : (e.merge n).merged = min 255 (e.merged + 1) := by rw [merge_merged]; split <;> omega
  rw [← hcount, ← hl]; rfl

/-- A post merges into the one entry of its local and class, where it stands (R104). -/
theorem queuePost_merges {before after : List Entry} {e : Entry} (hl : e.loc = l) (hc : e.note.cls = n.cls)
    (hb : ∀ a ∈ before ++ after, ¬(a.loc = l ∧ a.note.cls = n.cls)) :
    queuePost (before ++ e :: after) l n = some (before ++ e.merge n :: after) := by
  have hother {as : List Entry} (h : ∀ a ∈ as, a ∈ before ++ after) :
      as.map (fun a => if a.keyed l n.cls then a.merge n else a) = as :=
    (List.map_congr_left fun a ha => if_neg fun hk => hb a (h a ha) ((entry_keyed_iff _ _).1 hk)).trans (List.map_id' as)
  rcases queuePost_cases (before ++ e :: after) l n with ⟨-, h⟩ | ⟨hn, -, -⟩ | ⟨hn, -, -⟩
  · rw [h, List.map_append, List.map_cons, if_pos ((entry_keyed_iff _ _).2 ⟨hl, hc⟩),
      hother fun a ha => List.mem_append_left _ ha, hother fun a ha => List.mem_append_right _ ha]
  all_goals exact absurd ⟨hl, hc⟩ (hn e (by simp))

/-- A post with no entry to merge into is appended where there is room (R105). -/
theorem queuePost_appends (hn : ∀ e ∈ es, ¬(e.loc = l ∧ e.note.cls = n.cls)) (hl : es.length < 32) :
    queuePost es l n = some (es ++ [⟨l, n, 1⟩]) := by
  rcases queuePost_cases es l n with ⟨⟨e, he, hk⟩, -⟩ | ⟨-, -, h⟩ | ⟨-, hfull, -⟩
  · exact absurd hk (hn e he)
  · exact h
  · omega

/-- A post is dropped exactly where 32 entries stand and none is of its local and class (R105). -/
theorem queuePost_none_iff :
    queuePost es l n = none ↔ 32 ≤ es.length ∧ ∀ e ∈ es, ¬(e.loc = l ∧ e.note.cls = n.cls) := by
  rcases queuePost_cases es l n with ⟨⟨e, he, hk⟩, h⟩ | ⟨-, hroom, h⟩ | ⟨hn, hfull, h⟩ <;> rw [h]
  · exact iff_of_false nofun fun hd => hd.2 e he hk
  · exact iff_of_false nofun fun hd => by omega
  · exact iff_of_true rfl ⟨hfull, hn⟩

theorem takeArrival_post_taken {s : State} {p : Port} (h : queuePost (s.port p).queue l n = some es) :
    takeArrival (.post p l n) s = s.setPort p { s.port p with queue := es } := by
  simp only [takeArrival, h]

theorem takeArrival_post_dropped {s : State} {p : Port} (h : queuePost (s.port p).queue l n = none) :
    takeArrival (.post p l n) s = setCondition .lost p s := by
  simp only [takeArrival, h]

/-- Settles O21: in a queue that keeps R102 the entry of a local and class is the only one. -/
theorem postMergesAppendsOrDrops : Obligations.PostMergesAppendsOrDrops := by
  intro s p l n hi hwf
  obtain ⟨-, halike, hcount⟩ := hwf
  refine ⟨fun before e after hq hl hc => ?_, fun hn => ⟨fun hroom => ?_, fun hfull => ?_⟩⟩
  · rw [hq, List.pairwise_middle fun h ⟨h1, h2⟩ => h ⟨h1.symm, h2.symm⟩, List.pairwise_cons] at halike
    have hother : ∀ a ∈ before ++ after, ¬(a.loc = l ∧ a.note.cls = n.cls) := fun a ha hk =>
      halike.1 a ha ⟨hl.trans hk.1.symm, hc.trans hk.2.symm⟩
    rw [takeArrival_post_taken (hq ▸ queuePost_merges hl hc hother), merge_eq hl (hcount e (by simp [hq])).2]
  · exact takeArrival_post_taken (queuePost_appends hn hroom)
  · rw [takeArrival_post_dropped (queuePost_none_iff.2 ⟨hfull.ge, hn⟩), setCondition_of_not_initialising _ _ _ hi]
    rfl

/-! ### A retirement step's removal and its post -/

theorem queueRemove_sublist (es : List Entry) (l : Local) (k : RemovalSet) : (queueRemove es l k).Sublist es :=
  List.filter_sublist

/-- The removal of a retirement step leaves of its local the RETIRED entry alone (R107). -/
theorem mem_queueRemove_allButRetired (e : Entry) :
    e ∈ queueRemove es l .allButRetired ↔ e ∈ es ∧ (e.loc = l → e.note = .retired) := by
  have hcls : RemovalSet.has .allButRetired e.note.cls = true ↔ e.note ≠ .retired := by
    cases e.note <;> simp [RemovalSet.has, Note.cls]
  rw [mem_queueRemove, hcls, not_and, not_not]

/-- Settles O22: of a full queue the removal leaves every entry only where none is of the local, or its RETIRED entry alone,
into which the post merges. -/
theorem retiredPostDroppedOnlyWhenFull : Obligations.RetiredPostDroppedOnlyWhenFull := by
  intro es l hwf
  have hsub := queueRemove_sublist es l .allButRetired
  refine ⟨hsub, mem_queueRemove_allButRetired, ?_⟩
  rw [queuePost_none_iff]
  constructor
  · rintro ⟨hfull, hn⟩
    have hlen : es.length = 32 := le_antisymm hwf.1 (hfull.trans hsub.length_le)
    refine ⟨hlen, fun e he hl => ?_⟩
    rw [← hsub.eq_of_length_le (hwf.1.trans hfull)] at he
    exact hn e he ⟨hl, by rw [((mem_queueRemove_allButRetired e).1 he).2 hl]⟩
  · rintro ⟨hlen, hn⟩
    have hall : queueRemove es l .allButRetired = es :=
      List.filter_eq_self.2 fun e he => by simp [Entry.removedBy, hn e he]
    rw [hall]
    exact ⟨hlen.ge, fun e he hk => hn e he hk.1⟩

/-! ### Every step keeps R101 and R102 -/

/-- Two entries of different local or class stay so when a post merges. -/
theorem queueWf_post {es' : List Entry} (h : QueueWf es) (hp : queuePost es l n = some es') : QueueWf es' := by
  obtain ⟨hlen, halike, hcount⟩ := h
  rcases queuePost_cases es l n with ⟨-, e⟩ | ⟨hn, hroom, e⟩ | ⟨-, -, e⟩ <;> rw [e] at hp <;> cases hp
  · have hkey (a : Entry) : (if a.keyed l n.cls then a.merge n else a).loc = a.loc ∧
        (if a.keyed l n.cls then a.merge n else a).note.cls = a.note.cls := by
      split
      · next hk => exact ⟨rfl, ((entry_keyed_iff _ _).1 hk).2.symm⟩
      · exact ⟨rfl, rfl⟩
    refine ⟨by rwa [List.length_map], ?_, fun a ha => ?_⟩
    · rw [List.pairwise_map]
      exact halike.imp fun hab => by simpa only [hkey] using hab
    · obtain ⟨b, hb, rfl⟩ := List.mem_map.1 ha
      have := hcount b hb
      split
      · rw [merge_merged]; split <;> omega
      · exact this
  · refine ⟨by rw [List.length_append]; exact hroom, ?_, fun a ha => ?_⟩
    · rw [List.pairwise_append]
      exact ⟨halike, List.pairwise_singleton _ _, fun a ha b hb => by rw [List.mem_singleton.1 hb]; exact hn a ha⟩
    · rcases List.mem_append.1 ha with ha | ha
      · exact hcount a ha
      · rw [List.mem_singleton.1 ha]; exact ⟨Nat.le_refl 1, Nat.le_of_ble_eq_true rfl⟩

theorem queueWf_sublist {es' : List Entry} (h : QueueWf es) (hs : es'.Sublist es) : QueueWf es' :=
  ⟨hs.length_le.trans h.1, h.2.1.sublist hs, fun e he => h.2.2 e (hs.subset he)⟩

variable {s t : State}

theorem queueInv_takeArrival (a : Arrival) (h : s.QueueInv) : (takeArrival a s).QueueInv := by
  intro q
  by_cases hq : q = a.port
  · subst hq
    cases a with
    | post p l n =>
      dsimp only [Arrival.port]
      cases hp : queuePost (s.port p).queue l n with
      | some es => rw [takeArrival_post_taken hp, port_setPort_self]; exact queueWf_post (h p) hp
      | none =>
        rw [takeArrival_post_dropped hp, setCondition]
        split
        · exact h p
        · rw [port_setPort_self]; exact h p
    | removal p l k =>
      rw [takeArrival, Arrival.port, port_setPort_self]
      exact queueWf_sublist (h p) (queueRemove_sublist _ l k)
  · rw [takeArrival_port_ne s q a hq]; exact h q

theorem queueInv_takeArrivals (as : List Arrival) (h : s.QueueInv) : (takeArrivals as s).QueueInv := by
  induction as generalizing s with
  | nil => exact h
  | cons a as ih => exact ih (queueInv_takeArrival a h)

end Sys2Proof.Machine


/-! ## Queues and notifications over every step (R101, R102, R103) -/
namespace Sys2Proof.Machine

variable (s : State) (p q : Port)

/-! ### The queues over the operations -/

/-- From `s` to `t` the queues have at most lost entries. -/
def State.queuesWithin (s t : State) : Prop := ∀ q, (t.port q).queue.Sublist (s.port q).queue

theorem within_refl : s.queuesWithin s := fun _ => .refl _

theorem within_of_ports {s t : State} (h : ∀ q, (t.port q).queue = (s.port q).queue) : s.queuesWithin t :=
  fun q => (h q).symm ▸ .refl _

theorem within_setPort {s : State} {p : Port} {x : PortState} (hx : x.queue.Sublist (s.port p).queue) :
    s.queuesWithin (s.setPort p x) := by
  intro q
  rw [port_setPort]
  split
  · next e => rw [e]; exact hx
  · exact .refl _

theorem within_same {s : State} {p : Port} {x : PortState} (hx : x.queue = (s.port p).queue) :
    s.queuesWithin (s.setPort p x) := within_setPort (hx.symm ▸ .refl _)

@[simp] theorem respond_queue (h : Head) (v : Verdict) (n : Nat) :
    ((respond p h v n s).port q).queue = (s.port q).queue := by
  by_cases e : q = p
  · subst e
    obtain ⟨-, -, hq, -⟩ := respond_port_self s q h v n
    exact hq
  · rw [respond_port_ne _ _ _ _ _ _ e]

@[simp] theorem setCondition_queue (k : Condition) : ((setCondition k p s).port q).queue = (s.port q).queue := by
  unfold setCondition
  split
  · rfl
  · rw [port_setPort]; split
    · next e => rw [e]
    · rfl

@[simp] theorem withdrawClaim_queue : ((withdrawClaim p s).port q).queue = (s.port q).queue := by
  rw [withdrawClaim_port]; split <;> rfl

@[simp] theorem resetPort_queue : ((resetPort p s).port q).queue = (s.port q).queue := by
  rw [resetPort_eq]
  show ((s.setPort p _).port q).queue = _
  rw [port_setPort]
  split
  · next e => rw [e]; rfl
  · rfl

@[simp] theorem raiseClaim_queue (h : Head) (r : Request) : ((raiseClaim p h r s).port q).queue = (s.port q).queue := by
  rw [raiseClaim, arbitrate_port]
  show ((s.setPort p _).port q).queue = _
  rw [port_setPort]
  split
  · next e => rw [e]
  · rfl

@[simp] theorem endJob_port (c : JobChoice) : (endJob c s).port q = s.port q := by
  have left : s.choiceLeft.port q = s.port q := arbitrate_port _ q
  rcases endJob_cases s c with e | ⟨e, -⟩ | ⟨-, e⟩ <;> rw [e]
  · exact arbitrate_port _ q
  · exact left
  · exact (arbitrate_port _ q).trans left

@[simp] theorem runAccess_port (k lo : Nat) : (runAccess k lo s).port q = s.port q := by
  unfold runAccess
  split
  · rfl
  · exact endGrant_port _ q

theorem advance_port (pr : Progress) (g : Grant) :
    (advance pr g s).port q = (takeArrivals (takenBy pr g.arrivals) s).port q := rfl

theorem carryRequest_queue (pr : Progress) (w : Work) (d : Bool) (v : Verdict) (as : List Arrival) (n : Nat) :
    ((carryRequest pr p w d v as n s).port q).queue = ((takeArrivals (takenBy pr as) s).port q).queue := by
  cases pr <;> cases d <;> simp [carryRequest, advance_port]

theorem carryExpiry_port (pr : Progress) (k : Nat) (i : Slot) (g : Grant) :
    (carryExpiry pr k i g s).port q = (takeArrivals (takenBy pr g.arrivals) s).port q := by
  cases pr <;> simp [carryExpiry, advance_port]

theorem carryStep_port (pr : Progress) (j : Job) (g : Grant) :
    (carryStep pr j g s).port q = (takeArrivals (takenBy pr g.arrivals) s).port q := by
  cases pr
  · simp only [carryStep, nextStep, endGrant_port]; rfl
  · rfl

theorem receives_queue {s : State} {p : Port} {x : PortState} (hx : s.receives p x) : x.queue = (s.port p).queue := by
  obtain ⟨-, -, out, c, -, rfl⟩ := hx
  rfl

/-! ### Every step keeps a queue in order -/

theorem queueInv_within {s t : State} (h : s.QueueInv) (hq : s.queuesWithin t) : t.QueueInv :=
  fun q => queueWf_sublist (h q) (hq q)

/-- Arrivals reach the queues, whatever else of the state has changed. -/
theorem queueInv_arrivals {s u t : State} (h : s.QueueInv) (hp : u.ports = s.ports) (as : List Arrival)
    (ht : ∀ q, (t.port q).queue = ((takeArrivals as u).port q).queue) : t.QueueInv := by
  have hu : u.QueueInv := fun q => by rw [State.port, hp]; exact h q
  exact queueInv_within (queueInv_takeArrivals as hu) (within_of_ports ht)

theorem queueInv_respond {s : State} (h : s.QueueInv) {p : Port} {hd : Head} {v : Verdict} {n : Nat} :
    (respond p hd v n s).QueueInv := queueInv_within h (within_of_ports fun q => respond_queue s p q hd v n)

theorem Effect.queueInv {s t : State} (e : Effect s t) (h : s.QueueInv) : t.QueueInv := by
  have received {p : Port} {x : PortState} (hx : s.receives p x) : (s.setPort p x).QueueInv :=
    queueInv_within h (within_same (receives_queue hx))
  cases e with
  | stays | refclk | divider | rstnRelease => exact h
  | tick => exact queueInv_within h (within_of_ports fun q => congrArg _ (arbitrate_port _ q))
  | link p x hx =>
    obtain ⟨sel, out, hd, c, -, rfl, -⟩ := hx
    exact queueInv_within h (within_same rfl)
  | answered p x hd v hx => exact queueInv_respond (received hx)
  | drained p x hd v m hx =>
    refine queueInv_respond (queueInv_within h (within_setPort ?_))
    rw [← receives_queue hx]; exact List.drop_sublist m _
  | acknowledged p x hd v m hx =>
    refine queueInv_respond (queueInv_within h (within_same ?_))
    rw [← receives_queue hx]
  | leaseControl p x hd v l hx => exact queueInv_respond (s := { s.setPort p x with lease := l }) (received hx)
  | detach p q x hd v hx => exact queueInv_within (received hx) (within_of_ports fun q => by simp)
  | claim p x hd r hx => exact queueInv_within (received hx) (within_of_ports fun q => by simp)
  | request pr p w d as n hc hg =>
    exact queueInv_arrivals h (by rw [tableWork_state]) _ fun q => carryRequest_queue _ p q pr w d _ _ 0
  | requestOn pr p w d v as n hc hg => exact queueInv_arrivals h rfl _ fun q => carryRequest_queue s p q pr w d v as n
  | access k as n hc hg => exact queueInv_within h (within_of_ports fun q => congrArg _ (runAccess_port s q k 0))
  | expiry pr k i as n hc hg =>
    exact queueInv_arrivals (u := { s with table := s.table.expire i }) h rfl _
      fun q => congrArg _ (carryExpiry_port _ q pr k i _)
  | expiryOn pr k i as n hc hg => exact queueInv_arrivals h rfl _ fun q => congrArg _ (carryExpiry_port s q pr k i _)
  | stepV pr i x as n hc hg hj =>
    exact queueInv_arrivals (u := { s with table := viewStepTable s.table x i }) h rfl _
      fun q => congrArg _ (carryStep_port _ q pr _ _)
  | stepS pr i as n hc hg hj =>
    exact queueInv_arrivals (u := { s with table := listStepTable s.table i }) h rfl _
      fun q => congrArg _ (carryStep_port _ q pr _ _)
  | stepOn pr i st next as n hc hg hj hn =>
    exact queueInv_arrivals h rfl _ fun q => congrArg _ (carryStep_port s q pr _ _)
  | stepF c i worked as n hc hg hj =>
    exact queueInv_within h (within_of_ports fun q => congrArg _ (endJob_port { s with table := _ } q c))
  | stepD1 p worked as n hc hg hj => exact queueInv_within h (within_of_ports fun q => congrArg _ (endGrant_port _ q))
  | stepD2 p hj =>
    have hempty : (s.setPort p (detachedPort (s.port p))).QueueInv :=
      queueInv_within h (within_setPort (List.nil_sublist _))
    exact queueInv_within hempty (within_of_ports fun q => congrArg _ (arbitrate_port _ q))
  | prstPin p hr | prstRise p => exact queueInv_within h (within_same rfl)
  | prstInit p hr hi => exact queueInv_within h (within_of_ports fun q => resetPort_queue s p q)
  | prstFall p hr hi hp => exact queueInv_within h (within_of_ports fun q => by simp)
  | rstnFall hr =>
    intro q
    cases q <;> exact ⟨Nat.zero_le _, List.Pairwise.nil, fun e he => by cases he⟩
  | initialised hi hc => exact queueInv_within h (within_of_ports fun q => by cases q <;> rfl)

/-! ### Where the subscription of a queued notification stands -/

/-- The queued notifications and the arrivals `as`, taken together, keep R102: each notification whose class is not RETIRED is
for a subscription in use, or its port is between the steps of its detachment, or a removal in `as` will take it; and every
such post in `as` is for a subscription in use. -/
def State.accountsFor (s : State) (as : List Arrival) : Prop :=
  (∀ p, ∀ e ∈ (s.port p).queue, e.note = .retired ∨ s.table.subscribed p e.loc ∨
    s.sweep.job = some (.detachment p .d2) ∨ ∃ k, Arrival.removal p e.loc k ∈ as) ∧
  ∀ p l n, Arrival.post p l n ∈ as → n = .retired ∨ s.table.subscribed p l

/-- The table work of the grant in progress is done (R15). -/
def State.underWay (s : State) : Prop := ∃ g, s.arbiter.grant = some g ∧ g.holder.workDone = true

/-- The current job is the retirement of slot `i` and stands at a step V-x or S, the steps that post (R126, R127). -/
def Sweep.posts (w : Sweep) (i : Slot) : Prop :=
  w.job = some (.retirement i .s) ∨ ∃ x, w.job = some (.retirement i (.v x))

/-- Arrivals wait only for work that is done; of the sweep engine's, at a step V-x or S. -/
def State.arrivalsInOrder (s : State) : Prop :=
  (¬s.underWay → s.waiting = []) ∧
  (s.stepDone → ∃ i, s.sweep.posts i)

def State.noticesOk (s : State) : Prop := s.accountsFor s.waiting ∧ s.arrivalsInOrder

theorem waiting_of_grant {s : State} {g : Grant} (h : s.arbiter.grant = some g) : s.waiting = g.arrivals := by
  rw [State.waiting, h]

theorem waiting_of_none {s : State} (h : s.arbiter.grant = none) : s.waiting = [] := by
  rw [State.waiting, h]

theorem underWay_of_grant {s : State} {g : Grant} (h : s.arbiter.grant = some g) :
    s.underWay ↔ g.holder.workDone = true := by
  simp [State.underWay, h]

/-- `NoticeInv` in the terms above. -/
theorem noticeInv_iff : s.NoticeInv ↔ (s.tableValid → s.noticesOk) := by
  have hwait : (∀ h as n, s.arbiter.grant = some ⟨h, as, n⟩ → h.workDone = false → as = []) ↔
      (¬s.underWay → s.waiting = []) := by
    rcases hg : s.arbiter.grant with _ | ⟨h, as, n⟩
    · simp [waiting_of_none hg]
    · simp [underWay_of_grant hg, waiting_of_grant hg]
  have hstep {P : Prop} : (∀ as n, s.arbiter.grant = some ⟨.sweep true, as, n⟩ → P) ↔ (s.stepDone → P) := by
    simp [State.stepDone]
  rw [State.NoticeInv, State.noticesOk, State.accountsFor, State.arrivalsInOrder, hwait, hstep, and_assoc]
  rfl

/-! ### Arrivals taken -/

theorem mem_queuePost {es es' : List Entry} {l : Local} {n : Note} (hp : queuePost es l n = some es') {e : Entry}
    (he : e ∈ es') : e ∈ es ∨ e.loc = l ∧ e.note = n := by
  rcases queuePost_cases es l n with ⟨-, h⟩ | ⟨-, -, h⟩ | ⟨-, -, h⟩ <;> rw [h] at hp <;> cases hp
  · obtain ⟨a, ha, rfl⟩ := List.mem_map.1 he
    split
    · next hk => exact .inr ⟨((entry_keyed_iff _ _).1 hk).1, rfl⟩
    · exact .inl ha
  · rcases List.mem_append.1 he with ha | ha
    · exact .inl ha
    · rw [List.mem_singleton.1 ha]; exact .inr ⟨rfl, rfl⟩

/-- After a post an entry of a queue stood there before, or it is the post's. -/
theorem mem_queue_post {l : Local} {n : Note} {e : Entry} (he : e ∈ ((takeArrival (.post p l n) s).port q).queue) :
    e ∈ (s.port q).queue ∨ q = p ∧ e.loc = l ∧ e.note = n := by
  cases hp : queuePost (s.port p).queue l n with
  | none => rw [takeArrival_post_dropped hp, setCondition_queue] at he; exact .inl he
  | some es =>
    rw [takeArrival_post_taken hp, port_setPort] at he
    split at he
    · next hq => subst hq; exact (mem_queuePost hp he).imp_right fun h => ⟨rfl, h⟩
    · exact .inl he

/-- After a removal an entry of a queue stood there before and is not one that the removal takes. -/
theorem mem_queue_removal {l : Local} {k : RemovalSet} {e : Entry}
    (he : e ∈ ((takeArrival (.removal p l k) s).port q).queue) :
    e ∈ (s.port q).queue ∧ (q = p → e.loc = l → e.note = .retired) := by
  rw [takeArrival, port_setPort] at he
  split at he
  · next hq =>
    subst hq
    obtain ⟨hm, hn⟩ := (mem_queueRemove ..).1 he
    refine ⟨hm, fun _ hl => ?_⟩
    have hcls : ¬k.has e.note.cls = true := fun hk => hn ⟨hl, hk⟩
    cases k with
    | all => exact absurd rfl hcls
    | allButRetired => revert hcls; cases e.note <;> simp [RemovalSet.has, Note.cls]
  · next hq => exact ⟨he, fun h => absurd h hq⟩

variable {s} {t : State} {a : Arrival} {as bs : List Arrival}

theorem accounts_arrival (h : s.accountsFor (a :: as)) : (takeArrival a s).accountsFor as := by
  obtain ⟨hqueue, hpost⟩ := h
  obtain ⟨ht, -, -, hs⟩ := core_iff.1 (takeArrival_core s a)
  rw [State.accountsFor, ht, hs]
  refine ⟨fun p e he => ?_, fun p l n hm => hpost p l n (List.mem_cons_of_mem _ hm)⟩
  cases a with
  | post x l n =>
    rcases mem_queue_post s x p he with he | ⟨rfl, rfl, rfl⟩
    · simpa using hqueue p e he
    · exact (hpost _ _ _ (List.mem_cons_self ..)).imp_right .inl
  | removal x l k =>
    obtain ⟨he, hretired⟩ := mem_queue_removal s x p he
    rcases hqueue p e he with h | h | h | ⟨k', hm⟩
    · exact .inl h
    · exact .inr (.inl h)
    · exact .inr (.inr (.inl h))
    · rcases List.mem_cons.1 hm with hm | hm
      · cases hm; exact .inl (hretired rfl rfl)
      · exact .inr (.inr (.inr ⟨k', hm⟩))

theorem accounts_arrivals (h : s.accountsFor (as ++ bs)) : (takeArrivals as s).accountsFor bs := by
  induction as generalizing s with
  | nil => exact h
  | cons a as ih => exact ih (accounts_arrival h)

theorem takenBy_append_leftBy (pr : Progress) (as : List Arrival) : takenBy pr as ++ leftBy pr as = as := by
  cases pr with
  | toEnd => exact List.append_nil as
  | arrivals m => exact List.take_append_drop m as

theorem accounts_advance (pr : Progress) {g : Grant} (h : s.accountsFor g.arrivals) :
    (advance pr g s).accountsFor (leftBy pr g.arrivals) := by
  rw [← takenBy_append_leftBy pr g.arrivals] at h
  exact accounts_arrivals h

/-! ### Subscriptions and jobs that stand, or go with their removals -/

/-- A detachment's step D2 that is current stays so. -/
def Sweep.staysD2 (w w' : Sweep) : Prop :=
  ∀ p, w.job = some (.detachment p .d2) → w'.job = some (.detachment p .d2)

/-- Each subscription that a table work returns goes with a removal on its way, and every post is for one in use (R102). -/
theorem accounts_worked (h : s.accountsFor []) (hq : s.queuesWithin t) (hj : s.sweep.staysD2 t.sweep)
    (hs : ∀ p l, s.table.subscribed p l → t.table.subscribed p l ∨ ∃ k, Arrival.removal p l k ∈ as)
    (hp : ∀ p l n, Arrival.post p l n ∈ as → n = .retired ∨ t.table.subscribed p l) : t.accountsFor as := by
  refine ⟨fun p e he => ?_, hp⟩
  rcases h.1 p e ((hq p).subset he) with h | h | h | ⟨k, hm⟩
  · exact .inl h
  · exact .inr ((hs p _ h).imp_right .inr)
  · exact .inr (.inr (.inl (hj p h)))
  · cases hm

/-- The queues have at most lost entries, and the subscriptions stand. -/
theorem accounts_stand (h : s.accountsFor as) (hq : s.queuesWithin t)
    (hs : ∀ p l, s.table.subscribed p l → t.table.subscribed p l) (hj : s.sweep.staysD2 t.sweep) : t.accountsFor as := by
  refine ⟨fun p e he => ?_, fun p l n hm => (h.2 p l n hm).imp_right (hs p l)⟩
  exact (h.1 p e ((hq p).subset he)).imp_right (Or.imp (hs p _) (Or.imp_left (hj p)))

/-- The grant in progress is one as before, for its arrivals and for what of its work is done. -/
def State.sameWork (s t : State) : Prop :=
  t.waiting = s.waiting ∧ (t.underWay ↔ s.underWay) ∧ (t.stepDone ↔ s.stepDone)

theorem sameWork_of_grant (h : t.arbiter.grant = s.arbiter.grant) : s.sameWork t := by
  simp [State.sameWork, State.waiting, State.underWay, State.stepDone, h]

theorem sameWork_trans {u : State} (h : s.sameWork t) (h' : t.sameWork u) : s.sameWork u :=
  ⟨h'.1.trans h.1, h'.2.1.trans h.2.1, h'.2.2.trans h.2.2⟩

/-- The arbiter begins grants with nothing waiting and nothing done (R14). -/
theorem sameWork_arbitrate (s : State) : s.sameWork (arbitrate s) := by
  refine ⟨?_, exists_congr fun g => and_congr_left fun hg => arbitrate_grant_worked s hg, arbitrate_stepDone s⟩
  rcases arbitrate_cases s with ⟨-, e⟩ | ⟨-, -, e⟩ | ⟨r, hg, -, -, e⟩ <;> rw [e]
  rw [waiting_of_none hg]
  rcases beginGrant_grant s r hg with hb | ⟨h, hb, -⟩
  · exact waiting_of_none hb
  · exact waiting_of_grant hb

theorem sameWork_resetPort (s : State) (p : Port) : s.sameWork (resetPort p s) := by
  refine ⟨?_, ?_, resetPort_stepDone s p⟩
  · rw [State.waiting, State.waiting, resetPort_grant]; cases s.arbiter.grant <;> rfl
  · rw [State.underWay, State.underWay, resetPort_grant]
    rcases s.arbiter.grant with _ | ⟨_ | _ | _, as, n⟩ <;> simp [Holder.discardFor, Holder.workDone]

/-- The table and the grant stand, the queues have at most lost entries, and a current job goes on. -/
theorem noticesOk_frame (h : s.noticesOk) (hq : s.queuesWithin t) (ht : t.table = s.table)
    (hj : ∀ j, s.sweep.job = some j → t.sweep.job = some j) (hw : s.sameWork t) : t.noticesOk := by
  obtain ⟨hacc, hwait, hstep⟩ := h
  obtain ⟨e1, e2, e3⟩ := hw
  refine ⟨?_, ?_, fun hd => ?_⟩
  · rw [e1]; exact accounts_stand hacc hq (fun p l hs => by rwa [ht]) fun p => hj _
  · rw [e1, e2]; exact hwait
  · exact (hstep (e3.1 hd)).imp fun i => Or.imp (hj _) (Exists.imp fun x => hj _)

theorem noticesOk_arbitrate (h : s.noticesOk) : (arbitrate s).noticesOk :=
  noticesOk_frame h (within_of_ports fun q => by simp) (by simp) (fun j hj => by simpa using hj) (sameWork_arbitrate s)

/-- Offered work leaves a current job (R124). -/
theorem noticesOk_markDetachment (h : s.noticesOk) (p : Port) : (markDetachment p s).noticesOk :=
  noticesOk_frame h (within_of_ports fun q => by simp) (by simp) (fun _ hj => markDetachment_job s p hj)
    (sameWork_trans (sameWork_of_grant rfl) (sameWork_arbitrate _))

/-! ### Grants that end, pause and go on -/

theorem noticesOk_of_none (h : s.accountsFor []) (hg : s.arbiter.grant = none) : s.noticesOk := by
  refine ⟨by rwa [waiting_of_none hg], fun _ => waiting_of_none hg, fun hd => absurd hd (not_stepDone_of_none hg)⟩

theorem choose_job {w : Sweep} {j : Job} (hd : w.dueIdle) (hj : w.job = some j) : w.choose.job = some j := by
  rw [choose_of_not_due w (not_due_of_job hd hj)]; exact hj

theorem noticesOk_endGrant (h : s.accountsFor []) (hd : s.sweep.dueIdle) : (endGrant s).noticesOk :=
  noticesOk_arbitrate (noticesOk_of_none (accounts_stand h (within_refl s) (fun _ _ => id) fun _ => choose_job hd) rfl)

/-- A grant whose work is done, and that is no step's, with its arrivals taken so far. -/
theorem noticesOk_advance (pr : Progress) {g : Grant} (h : s.accountsFor g.arrivals) (hw : g.holder.workDone = true)
    (hs : g.holder = .sweep true → ∃ i, s.sweep.posts i) :
    (advance pr g s).noticesOk := by
  have hg := advance_grant s pr g
  refine ⟨by rw [waiting_of_grant hg]; exact accounts_advance pr h,
    fun hn => absurd ((underWay_of_grant hg).2 hw) hn, fun hd => ?_⟩
  rw [advance_sweep]
  by_cases hh : g.holder = .sweep true
  · exact hs hh
  · exact absurd hd (not_stepDone_of_grant hg hh)

theorem noticesOk_carryRequest (pr : Progress) (p : Port) (w : Work) (d : Bool) (v : Verdict) (n : Nat)
    (h : s.accountsFor as) (hd : s.sweep.dueIdle) : (carryRequest pr p w d v as n s).noticesOk := by
  let g : Grant := ⟨.port p w d (some v), as, n⟩
  cases pr with
  | toEnd =>
    have hend : (advance .toEnd g s).accountsFor [] := accounts_advance .toEnd h
    have hidle : (advance .toEnd g s).sweep.dueIdle := by rw [advance_sweep]; exact hd
    cases d with
    | true => exact noticesOk_endGrant hend hidle
    | false =>
      refine noticesOk_endGrant (accounts_stand hend (within_of_ports fun q => by simp [g]) ?_ ?_) ?_ <;>
        simp only [Bool.false_eq_true, if_false, respond_table, respond_sweep]
      exacts [fun _ _ => id, fun _ => id, hidle]
  | arrivals m => exact noticesOk_advance (.arrivals m) (g := g) h rfl nofun

theorem noticesOk_runAccess (k lo : Nat) (h : s.accountsFor []) (hd : s.sweep.dueIdle) : (runAccess k lo s).noticesOk := by
  unfold runAccess
  split
  · exact ⟨accounts_stand h (within_refl s) (fun _ _ => id) fun _ => id, fun _ => rfl,
      fun hd => absurd hd (not_stepDone_of_grant rfl Holder.noConfusion)⟩
  · exact noticesOk_endGrant (accounts_stand h (within_refl s) (fun _ _ => id) fun _ => id) hd

theorem noticesOk_carryExpiry (pr : Progress) (k : Nat) (i : Slot) (n : Nat) (h : s.accountsFor as)
    (hd : s.sweep.dueIdle) : (carryExpiry pr k i ⟨.lease k (.posting i), as, n⟩ s).noticesOk := by
  cases pr with
  | toEnd =>
    rw [carryExpiry_toEnd]
    exact noticesOk_runAccess k _ (accounts_advance .toEnd h) (by rw [advance_sweep]; exact hd)
  | arrivals m => exact noticesOk_advance (.arrivals m) h rfl nofun

theorem noticesOk_carryStep (pr : Progress) {i : Slot} (next : RetireStep) (n : Nat) (h : s.accountsFor as)
    (hd : s.sweep.dueIdle) (hj : s.sweep.posts i) :
    (carryStep pr (.retirement i next) ⟨.sweep true, as, n⟩ s).noticesOk := by
  obtain ⟨st, hst⟩ : ∃ st, s.sweep.job = some (.retirement i st) := hj.elim (⟨_, ·⟩) fun ⟨x, hx⟩ => ⟨_, hx⟩
  cases pr with
  | toEnd =>
    refine noticesOk_endGrant (accounts_stand (accounts_advance .toEnd h) (within_refl _) (fun _ _ => id) fun p hp => ?_) ?_
    · rw [advance_sweep, hst] at hp; cases hp
    · refine dueIdle_of_not_due ?_
      show (advance .toEnd _ s).sweep.choiceDue = false
      rw [advance_sweep]; exact not_due_of_job hd hst
  | arrivals m => exact noticesOk_advance (.arrivals m) h rfl fun _ => ⟨i, hj⟩

/-- At the end of a retirement job nothing waits, and no detachment is current. -/
theorem noticesOk_endJob (c : JobChoice) {i : Slot} {st : RetireStep} (h : s.accountsFor [])
    (hj : s.sweep.job = some (.retirement i st)) : (endJob c s).noticesOk := by
  have idle (w : Sweep) : s.sweep.staysD2 w := fun p hp => by rw [hj] at hp; cases hp
  have free (w : Sweep) : State.noticesOk { s with arbiter := { s.arbiter with grant := none }, sweep := w } :=
    noticesOk_of_none (accounts_stand h (within_refl s) (fun _ _ => id) (idle w)) rfl
  have left : s.choiceLeft.noticesOk := noticesOk_arbitrate (free _)
  rcases endJob_cases s c with e | ⟨e, -⟩ | ⟨hg, e⟩ <;> rw [e]
  · exact noticesOk_arbitrate (free _)
  · exact left
  · have hleft : s.choiceLeft.sweep.job = none := arbitrate_job _
    refine noticesOk_arbitrate (noticesOk_frame left (within_refl _) rfl (fun j hj => ?_) (sameWork_of_grant rfl))
    rw [hleft] at hj; cases hj

end Sys2Proof.Machine


/-! ## Subscriptions returned, and notifications posted, by the work of a grant (R102, R106) -/
namespace Sys2Proof.Machine

/-- Table work that brings the table from `t` to `t'` and makes the arrivals `as` keeps R102: each subscription it returns goes
with a removal of its local's entries, and each post that is not RETIRED is for a subscription in use. -/
def Table.accountedBy (t t' : Table) (as : List Arrival) : Prop :=
  (∀ p l, t.subscribed p l → t'.subscribed p l ∨ ∃ k, Arrival.removal p l k ∈ as) ∧
  ∀ p l n, Arrival.post p l n ∈ as → n = .retired ∨ t'.subscribed p l

variable {t t' : Table} {as : List Arrival} {p : Port} {l : Local} {i : Slot}

/-- Every subscription stands, and the posts are for subscriptions in use. -/
theorem accountedBy_of_stand (hs : ∀ p l, t.subscribed p l → t'.subscribed p l)
    (hp : ∀ p l n, Arrival.post p l n ∈ as → t.subscribed p l) : t.accountedBy t' as :=
  ⟨fun p l h => .inl (hs p l h), fun p l n h => .inr (hs p l (hp p l n h))⟩

theorem subscribed_of_pool (h : t'.pool = t.pool) (p : Port) (l : Local) (hs : t.subscribed p l) : t'.subscribed p l := by
  rw [Table.subscribed, h]; exact hs

/-- The pool stands, and nothing is posted. -/
theorem accountedBy_quiet (h : t'.pool = t.pool) : t.accountedBy t' [] :=
  accountedBy_of_stand (subscribed_of_pool h) fun _ _ _ h => nomatch h

/-! ### Posts -/

theorem subscribed_of_subsOn {u : Subscription} (h : u ∈ t.subsOn i) : t.subscribed u.port u.loc :=
  ⟨u, (List.mem_filter.1 h).1, rfl, rfl⟩

theorem subscribed_of_qualityPost {q : Quality} {v : Word32} {m : Word16} {n : Note}
    (h : Arrival.post p l n ∈ qualityPosts t i q v m) : t.subscribed p l := by
  obtain ⟨u, hu, e⟩ := List.mem_map.1 h
  cases e
  exact subscribed_of_subsOn (List.mem_filter.1 hu).1

theorem subscribed_of_evaluationPost {v : Word32} {m : Word16} {n : Note}
    (h : Arrival.post p l n ∈ evaluationPosts t i v m) : t.subscribed p l := by
  obtain ⟨u, hu, e⟩ := List.mem_filterMap.1 h
  obtain ⟨note, -, e⟩ := Option.map_eq_some_iff.1 e
  cases e
  exact subscribed_of_subsOn hu

theorem subscribed_of_expiryPost {n : Note} (h : Arrival.post p l n ∈ t.expiryPosts i) : t.subscribed p l := by
  unfold Table.expiryPosts at h
  split at h
  · exact subscribed_of_qualityPost h
  all_goals cases h

theorem accountedBy_expire (t : Table) (i : Slot) : t.accountedBy (t.expire i) (t.expiryPosts i) :=
  accountedBy_of_stand (subscribed_of_pool (tableKeeps_expire t i).2.1) fun _ _ _ => subscribed_of_expiryPost

/-! ### The table work of a request -/

theorem accountedBy_acceptWrite (s : State) (i : Slot) (v : ValueFields) (x : Word32) :
    s.table.accountedBy (acceptWrite s i v x).state.table (acceptWrite s i v x).arrivals := by
  refine accountedBy_of_stand (fun p l ⟨u, hu, hp, hl⟩ => ?_) fun p l n h => ?_
  · refine ⟨_, List.mem_map_of_mem hu, ?_⟩
    split <;> exact ⟨hp, hl⟩
  · rcases List.mem_append.1 h with h | h
    · split at h
      · exact subscribed_of_qualityPost h
      · cases h
    · exact subscribed_of_evaluationPost h

/-- A replaced subscription keeps its key, and every other one stands (R94). -/
theorem mem_of_replaceSubscription {us : List Subscription} (old new : Subscription) {u : Subscription} (hu : u ∈ us) :
    ∃ w ∈ replaceSubscription us old new, w.port = u.port ∧ w.loc = u.loc := by
  unfold replaceSubscription
  by_cases hk : u.keyed new.port new.loc = true
  · obtain ⟨hp, hl⟩ := (keyed_iff ..).1 hk
    refine ⟨new, ?_, hp.symm, hl.symm⟩
    split
    · exact List.mem_map.2 ⟨u, hu, if_pos hk⟩
    · simp
  · refine ⟨u, ?_, rfl, rfl⟩
    split
    · exact List.mem_map.2 ⟨u, hu, if_neg hk⟩
    · exact List.mem_append_left _ (List.mem_filter.2 ⟨hu, by rw [eq_false_of_ne_true hk]; rfl⟩)

theorem accountedBy_subscribe (s : State) (p : Port) (l : Local) (m f : Word32) (md : Mode) (q : Bool) :
    s.table.accountedBy (workSubscribe p l m f md q s).state.table (workSubscribe p l m f md q s).arrivals := by
  unfold workSubscribe
  split
  · dsimp only
    split
    · next old _ =>
      exact accountedBy_of_stand (fun p l ⟨u, hu, hp, hl⟩ => by
        obtain ⟨w, hw, hwp, hwl⟩ := mem_of_replaceSubscription old (newSubscription _ _ _ _ _ _ _ _ _) hu
        exact ⟨w, hw, hwp.trans hp, hwl.trans hl⟩) fun _ _ _ h => nomatch h
    · split
      · exact accountedBy_quiet rfl
      · exact accountedBy_of_stand (fun p l ⟨u, hu, hk⟩ => ⟨u, List.mem_append_left _ hu, hk⟩) fun _ _ _ h => nomatch h
  · exact accountedBy_quiet rfl

/-- The subscription on a local is returned with the removal of every entry of the local (R28, R98). -/
theorem accountedBy_returned (h : t'.pool = t.pool.filter (fun u => !u.keyed p l)) :
    t.accountedBy t' [.removal p l .all] := by
  refine ⟨fun q m ⟨u, hu, hp, hl⟩ => ?_, fun _ _ _ h => by simp at h⟩
  by_cases hk : u.keyed p l = true
  · obtain ⟨rfl, rfl⟩ := (keyed_iff ..).1 hk
    subst hp hl
    exact .inr ⟨.all, by simp⟩
  · exact .inl ⟨u, by rw [h]; exact List.mem_filter.2 ⟨hu, by rw [eq_false_of_ne_true hk]; rfl⟩, hp, hl⟩

/-- A request's table work keeps R102. -/
theorem accountedBy_tableWork (s : State) (p : Port) (r : Request) :
    s.table.accountedBy (tableWork p r s).state.table (tableWork p r s).arrivals := by
  cases r with
  | write l x =>
    simp only [tableWork, workWrite]; split
    · exact accountedBy_acceptWrite ..
    · exact accountedBy_quiet rfl
  | conditionalWrite l e x =>
    simp only [tableWork, workConditionalWrite]; split
    · split
      · exact accountedBy_acceptWrite ..
      · exact accountedBy_quiet rfl
    · exact accountedBy_quiet rfl
  | refresh l =>
    simp only [tableWork, workRefresh]; split
    · split
      · refine accountedBy_of_stand (subscribed_of_pool rfl) fun p l n h => ?_
        simp only [Worked.changed] at h
        split at h
        · exact subscribed_of_qualityPost h
        · cases h
      · exact accountedBy_quiet rfl
    · exact accountedBy_quiet rfl
  | subscribe l m f md q => exact accountedBy_subscribe s p l m f md q
  | unsubscribe l =>
    simp only [tableWork, workUnsubscribe]; split
    · exact accountedBy_returned rfl
    · exact accountedBy_quiet rfl
  | unmap q l =>
    simp only [tableWork, workUnmap]; split
    · exact accountedBy_quiet rfl
    · exact accountedBy_returned rfl
  | read _ | createValue _ _ | createAlias _ _ | retire _ | map _ _ _ _ | readView _ _ =>
    simp only [tableWork, workRead, workCreateValue, workCreateAlias, workRetire, workMap, workReadView]
    repeat' split
    all_goals exact accountedBy_quiet rfl
  | groupRead _ | readSlot _ | poolReport | drain _ | getStatus | acknowledge _ | detach _ | setTick _ | holdLeases
  | resumeLeases => exact accountedBy_quiet rfl

/-! ### The steps of a retirement -/

/-- Subscriptions are returned with their removals and RETIRED posts (R106, R126, R127). -/
theorem accountedBy_retired {drop : Subscription → Bool} (h : t'.pool = t.pool.filter (fun u => !drop u))
    (hr : ∀ u ∈ t.pool, drop u = true → Arrival.removal u.port u.loc .allButRetired ∈ as)
    (hp : ∀ p l n, Arrival.post p l n ∈ as → n = .retired) : t.accountedBy t' as := by
  refine ⟨fun p l ⟨u, hu, e1, e2⟩ => ?_, fun p l n hm => .inl (hp p l n hm)⟩
  subst e1 e2
  by_cases hd : drop u = true
  · exact .inr ⟨_, hr u hu hd⟩
  · exact .inl ⟨u, by rw [h]; exact List.mem_filter.2 ⟨hu, by simpa using hd⟩, rfl, rfl⟩

theorem retired_of_mem_retiredArrivals {us : List Subscription} {n : Note}
    (h : Arrival.post p l n ∈ us.flatMap retiredArrivals) : n = .retired := by
  obtain ⟨u, -, hu⟩ := List.mem_flatMap.1 h
  simp only [retiredArrivals, List.mem_cons, List.not_mem_nil, or_false] at hu
  rcases hu with hu | hu <;> cases hu
  rfl

theorem removal_mem_retiredArrivals {us : List Subscription} {u : Subscription} (h : u ∈ us) :
    Arrival.removal u.port u.loc .allButRetired ∈ us.flatMap retiredArrivals :=
  List.mem_flatMap.2 ⟨u, h, by simp [retiredArrivals]⟩

theorem accountedBy_viewStep (t : Table) (x : Port) (i : Slot) :
    t.accountedBy (viewStepTable t x i) (viewStepArrivals t x i) := by
  refine accountedBy_retired (pool_viewStepTable t i x) (fun u hu hd => ?_) fun p l n hm => ?_
  · simp only [Bool.and_eq_true, decide_eq_true_eq] at hd
    obtain ⟨hx, hn⟩ := hd
    refine List.mem_flatMap.2 ⟨u.loc, List.mem_finRange _, ?_⟩
    rw [if_pos hn]
    cases hs : t.subscription? x u.loc with
    | none => exact absurd ⟨hx, rfl⟩ ((subscription?_none ..).1 hs u hu)
    | some w =>
      obtain ⟨-, hp, hl⟩ := subscription?_some _ _ _ hs
      rw [hx, ← hp, ← hl]
      exact removal_mem_retiredArrivals (by simp)
  · obtain ⟨m, -, hm⟩ := List.mem_flatMap.1 hm
    split at hm
    · exact retired_of_mem_retiredArrivals hm
    · cases hm

theorem accountedBy_listStep (t : Table) (i : Slot) :
    t.accountedBy (listStepTable t i) ((t.listLeft i).flatMap retiredArrivals) := by
  unfold listStepTable Table.listLeft
  split
  · refine accountedBy_retired (returnSubs_pool ..) (fun u hu hd => ?_) fun p l n hm => retired_of_mem_retiredArrivals hm
    exact removal_mem_retiredArrivals (List.mem_filter.2 ⟨hu, hd⟩)
  all_goals exact accountedBy_quiet rfl

/-! ### Every step -/

/-- A retirement offered to the engine leaves a step D2 that is current (R119). -/
theorem staysD2_change {t t' : Table} {w w' : Sweep} (hc : TableChange t w t' w') : w.staysD2 w' := by
  intro p hj
  cases hc with
  | retired i c hb hq => rw [offer_of_job _ (by exact hj)]; exact hj
  | _ => exact hj

variable {s u : State}

/-- Nothing waits before the table work of a grant is done. -/
theorem accounts_before_work {g : Grant} (h : s.noticesOk) (hg : s.arbiter.grant = some g)
    (hw : g.holder.workDone = false) : s.accountsFor [] := by
  obtain ⟨hacc, hwait, -⟩ := h
  rw [hwait (by rw [underWay_of_grant hg, hw]; exact nofun)] at hacc
  exact hacc

theorem accounts_on_way {h : Holder} {n : Nat} (hk : s.noticesOk) (hg : s.arbiter.grant = some ⟨h, as, n⟩) :
    s.accountsFor as := by
  have hacc := hk.1
  rw [waiting_of_grant hg] at hacc
  exact hacc

/-- Steps F and D1 post nothing, so the work of their grant is still to be done. -/
theorem not_worked_of_job {worked : Bool} {n : Nat} (h : s.noticesOk)
    (hg : s.arbiter.grant = some ⟨.sweep worked, as, n⟩) (hp : ∀ i, ¬s.sweep.posts i) : worked = false := by
  cases worked with
  | false => rfl
  | true =>
    obtain ⟨i, hi⟩ := h.2.2 ⟨as, n, hg⟩
    exact absurd hi (hp i)

/-- What the work of a grant has done to the table is accounted for by what it has made. -/
theorem accounts_tableWork (h : s.accountsFor []) (hp : u.ports = s.ports) (hj : s.sweep.staysD2 u.sweep)
    (ht : s.table.accountedBy u.table as) : u.accountsFor as :=
  accounts_worked h (within_of_ports fun q => by rw [State.port, hp]; rfl) hj ht.1 ht.2

theorem noticeInv_of {s t : State} (h : s.NoticeInv) (hr : t.rstn = s.rstn ∧ t.initialising = s.initialising)
    (hk : s.noticesOk → t.noticesOk) : t.NoticeInv :=
  (noticeInv_iff t).2 fun hv => hk ((noticeInv_iff s).1 h (by rwa [State.tableValid, ← hr.1, ← hr.2]))

theorem noticeInv_outer {s t : State} (h : s.NoticeInv) (ho : t.outer = s.outer) (hk : s.noticesOk → t.noticesOk) :
    t.NoticeInv := noticeInv_of h ⟨outer_rstn ho, outer_initialising ho⟩ hk

/-- At a port whose queue has at most lost entries. -/
theorem noticesOk_setPort {p : Port} {x : PortState} (h : s.noticesOk) (hx : x.queue.Sublist (s.port p).queue) :
    (s.setPort p x).noticesOk := noticesOk_frame h (within_setPort hx) rfl (fun _ => id) (sameWork_of_grant rfl)

theorem noticesOk_respond {p : Port} (h : s.noticesOk) (hd : Head) (v : Verdict) (n : Nat) :
    (respond p hd v n s).noticesOk :=
  noticesOk_frame h (within_of_ports fun q => by simp) (by simp) (fun _ => by simp) (sameWork_of_grant (by simp))

theorem noticesOk_withdrawClaim (h : s.noticesOk) (p : Port) : (withdrawClaim p s).noticesOk :=
  noticesOk_frame h (within_of_ports fun q => by simp) (by simp) (fun _ => by simp) (sameWork_of_grant (by simp))

theorem noticesOk_raiseClaim (h : s.noticesOk) (p : Port) (hd : Head) (r : Request) : (raiseClaim p hd r s).noticesOk :=
  noticesOk_frame h (within_of_ports fun q => by simp) (by simp)
    (fun _ hj => by rw [raiseClaim, arbitrate_job]; exact hj)
    (sameWork_trans (sameWork_of_grant rfl) (sameWork_arbitrate _))

theorem noticesOk_resetPort (h : s.noticesOk) (p : Port) : (resetPort p s).noticesOk :=
  noticesOk_frame h (within_of_ports fun q => by simp) (by simp) (fun _ => by simp) (sameWork_resetPort s p)

/-- Step D1 returns the port's subscriptions, and its entries wait for step D2 (R102, R129). -/
theorem accounts_detached {p : Port} (h : s.accountsFor []) (hj : s.sweep.job = some (.detachment p .d1)) :
    State.accountsFor { s with
      table := s.table.returnSubs (fun u => u.port = p)
      sweep := { s.sweep with job := some (.detachment p .d2) } } [] := by
  refine ⟨fun q e he => ?_, fun _ _ _ hm => nomatch hm⟩
  rcases h.1 q e he with hr | ⟨u, hu, hp, hl⟩ | hd | ⟨k, hm⟩
  · exact .inl hr
  · by_cases hqp : q = p
    · subst hqp; exact .inr (.inr (.inl rfl))
    · exact .inr (.inl ⟨u, List.mem_filter.2 ⟨hu, by simp [hp, hqp]⟩, hp, hl⟩)
  · rw [hj] at hd; cases hd
  · cases hm

/-- Step D2 empties the port's queue, and the engine takes its next job (R108, R130). -/
theorem noticesOk_emptied {p : Port} {w : Sweep} (h : s.noticesOk) (hj : s.sweep.job = some (.detachment p .d2)) :
    State.noticesOk { s.setPort p (detachedPort (s.port p)) with sweep := w } := by
  obtain ⟨⟨hqueue, hpost⟩, hwait, hstep⟩ := h
  refine ⟨⟨fun q e he => ?_, hpost⟩, hwait, fun hd => ?_⟩
  · have he' : e ∈ ((s.setPort p (detachedPort (s.port p))).port q).queue := he
    by_cases hqp : q = p
    · subst hqp; rw [port_setPort_self] at he'; cases he'
    · rw [port_setPort_ne _ _ _ hqp] at he'
      rcases hqueue q e he' with hr | hs | hd | hm
      · exact .inl hr
      · exact .inr (.inl hs)
      · rw [hj] at hd; cases hd; exact absurd rfl hqp
      · exact .inr (.inr (.inr hm))
  · obtain ⟨i, hi⟩ := hstep hd
    simp [Sweep.posts, hj] at hi

theorem Effect.noticeInv {s t : State} (e : Effect s t) (hq : s.QuietInv) (hw : s.SweepInv) (h : s.NoticeInv) :
    t.NoticeInv := by
  have due := hw.dueIdle
  have received {p : Port} {x : PortState} (hx : s.receives p x) (hk : s.noticesOk) : (s.setPort p x).noticesOk :=
    noticesOk_setPort hk (receives_queue hx ▸ .refl _)
  cases e with
  | stays | refclk | divider => exact noticeInv_of h ⟨rfl, rfl⟩ fun hk => hk
  | tick => exact noticeInv_outer h (arbitrate_outer _) fun hk => noticesOk_arbitrate hk
  | link p x hx =>
    obtain ⟨sel, out, hd, c, -, rfl, -⟩ := hx
    exact noticeInv_of h ⟨rfl, rfl⟩ fun hk => noticesOk_setPort hk (.refl _)
  | answered p x hd v hx => exact noticeInv_outer h (respond_outer ..) fun hk => noticesOk_respond (received hx hk) ..
  | drained p x hd v m hx =>
    refine noticeInv_outer h (respond_outer ..) fun hk => noticesOk_respond (noticesOk_setPort hk ?_) ..
    rw [← receives_queue hx]; exact List.drop_sublist m _
  | acknowledged p x hd v m hx =>
    refine noticeInv_outer h (respond_outer ..) fun hk => noticesOk_respond (noticesOk_setPort hk ?_) ..
    rw [← receives_queue hx]
  | leaseControl p x hd v l hx =>
    exact noticeInv_outer h (respond_outer ..) fun hk =>
      noticesOk_respond (s := { s.setPort p x with lease := l }) (received hx hk) ..
  | detach p q x hd v hx =>
    exact noticeInv_outer h (by simp) fun hk =>
      noticesOk_markDetachment (noticesOk_withdrawClaim (noticesOk_respond (received hx hk) hd v 0) q) q
  | claim p x hd r hx =>
    exact noticeInv_outer h (by simp) fun hk => noticesOk_raiseClaim (received hx hk) p hd r
  | request pr p w d as n hc hg =>
    have hch := tableWork_change s p w.request
    refine noticeInv_outer h (by simp) fun hk => ?_
    refine noticesOk_carryRequest pr p w d _ 0 ?_ (change_dueIdle hch due)
    exact accounts_tableWork (accounts_before_work hk hg rfl) (by rw [tableWork_state]) (staysD2_change hch)
      (accountedBy_tableWork s p w.request)
  | requestOn pr p w d v as n hc hg =>
    exact noticeInv_outer h (by simp) fun hk => noticesOk_carryRequest pr p w d v n (accounts_on_way hk hg) due
  | access k as n hc hg =>
    exact noticeInv_outer h (by simp) fun hk => noticesOk_runAccess k 0 (accounts_before_work hk hg rfl) due
  | expiry pr k i as n hc hg =>
    refine noticeInv_outer h (carryExpiry_outer ..) fun hk => noticesOk_carryExpiry pr k i 0 ?_ due
    exact accounts_tableWork (accounts_before_work hk hg rfl) rfl (fun _ => id) (accountedBy_expire s.table i)
  | expiryOn pr k i as n hc hg =>
    exact noticeInv_outer h (by simp) fun hk => noticesOk_carryExpiry pr k i n (accounts_on_way hk hg) due
  | stepV pr i x as n hc hg hj =>
    refine noticeInv_outer h (carryStep_outer ..) fun hk => noticesOk_carryStep pr _ 0 ?_ due (.inr ⟨x, hj⟩)
    exact accounts_tableWork (accounts_before_work hk hg rfl) rfl (fun _ => id) (accountedBy_viewStep s.table x i)
  | stepS pr i as n hc hg hj =>
    refine noticeInv_outer h (carryStep_outer ..) fun hk => noticesOk_carryStep pr _ 0 ?_ due (.inl hj)
    exact accounts_tableWork (accounts_before_work hk hg rfl) rfl (fun _ => id) (accountedBy_listStep s.table i)
  | stepOn pr i st next as n hc hg hj hn =>
    refine noticeInv_outer h (by simp) fun hk => noticesOk_carryStep pr next n (accounts_on_way hk hg) due ?_
    rcases hn with ⟨x, rfl, -⟩ | ⟨rfl, -⟩
    · exact .inr ⟨x, hj⟩
    · exact .inl hj
  | stepF c i worked as n hc hg hj =>
    refine noticeInv_outer h (endJob_outer ..) fun hk => ?_
    have hnot := not_worked_of_job hk hg fun i => by simp [Sweep.posts, hj]
    subst hnot
    refine noticesOk_endJob c (i := i) (st := .f) ?_ hj
    exact accounts_tableWork (accounts_before_work hk hg rfl) rfl (fun _ => id) (accountedBy_quiet rfl)
  | stepD1 p worked as n hc hg hj =>
    refine noticeInv_outer h (endGrant_outer _) fun hk => ?_
    have hnot := not_worked_of_job hk hg fun i => by simp [Sweep.posts, hj]
    subst hnot
    have hdue := not_due_of_job due hj
    exact noticesOk_endGrant (accounts_detached (accounts_before_work hk hg rfl) hj) (dueIdle_of_not_due hdue)
  | stepD2 p hj =>
    exact noticeInv_outer h (arbitrate_outer _) fun hk => noticesOk_arbitrate (noticesOk_emptied hk hj)
  | prstPin p | prstRise p => exact noticeInv_of h ⟨rfl, rfl⟩ fun hk => noticesOk_setPort hk (.refl _)
  | prstInit p hr hi => exact noticeInv_outer h (by simp) fun hk => noticesOk_resetPort hk p
  | prstFall p hr hi hp =>
    exact noticeInv_outer h (by simp) fun hk => noticesOk_markDetachment (noticesOk_resetPort hk p) p
  | rstnFall => exact fun hv => by cases hv.1
  | rstnRelease => exact fun hv => by cases hv.2
  | initialised hi hc =>
    obtain ⟨harb, -, -, hports⟩ := hq.1 (.inr hi)
    have hg : s.arbiter.grant = none := by rw [harb]; rfl
    refine (noticeInv_iff _).2 fun _ => noticesOk_of_none ⟨fun q e he => ?_, fun _ _ _ hm => nomatch hm⟩ hg
    have hempty : (s.port q).queue = [] := (hports q).2.1
    cases q <;> exact absurd (hempty ▸ he : e ∈ []) List.not_mem_nil

/-- Settles O9, one case for each effect of a step: what a queue takes keeps R101; and the work of a grant that returns a
subscription puts the removal of its entries on the way. -/
theorem queueLimitsAndSubscribedLocalsKept : Obligations.QueueLimitsAndSubscribedLocalsKept := by
  refine ⟨fun s t h hst => ?_, fun s t hq hw h hst => ?_⟩
  · obtain ⟨rest, e⟩ := step_effect hst
    exact e.queueInv h
  · obtain ⟨rest, e⟩ := step_effect hst
    exact e.noticeInv hq hw h

end Sys2Proof.Machine


/-! ## Drain and Acknowledge (R110, R114, R115, R136) -/
namespace Sys2Proof.Machine

variable {s : State} {p : Port} {tag : Byte}

/-! ### What a board sees of an answered port -/

/-- ATN is low exactly with nothing queued and no condition set (R114). -/
theorem atn_eq_false_iff (hr : s.rstn = .high) :
    s.atn p = false ↔ (s.port p).queue = [] ∧ ∀ k, (s.port p).conditions.get k = false := by
  rw [← Bool.not_eq_true, atn_iff]
  simp [hr]

/-- An answer held after its frame shows HELD, with RDY high, and leaves ATN to the queue and the conditions (R114, R145). -/
theorem answering_setPort_shown {x : PortState} (hr : s.rstn = .high) (hx : x.select = .high) (body : List Byte) :
    let t := s.setPort p (x.answering tag .done body)
    (t.port p).linkState = .held ∧ t.rdy p = true ∧
      (t.atn p = false ↔ x.queue = [] ∧ ∀ k, x.conditions.get k = false) := by
  intro t
  have hport : t.port p = x.answering tag .done body := port_setPort_self ..
  obtain ⟨hheld, hlink⟩ := answering_shown x tag .done body
  refine ⟨?_, ?_, ?_⟩
  · rw [hport, hlink, hx]; rfl
  · rw [State.rdy, hport]; exact hheld
  · rw [atn_eq_false_iff (by exact hr), hport]; rfl

theorem taking_rstn (h : s.taking p) : s.rstn = .high := framed_rstn s p h.1

/-! ### Drain -/

/-- The queue takes a Drain and its answer is held (R110, R153). -/
theorem takeDrain_eq (h : Head) (m : Nat) (x : PortState) : takeDrain p h m (s.setPort p x) =
    s.setPort p (({ x with queue := x.queue.drop m }).answering h.tag .done
      ((Answer.drained (x.queue.take m) (x.queue.length - m)).bytes 0)) := by
  simp only [takeDrain, port_setPort_self, setPort_setPort]
  rw [respond_done_answering _ _ _ _ _ rfl, port_setPort_self, setPort_setPort]
  rfl

/-- A Drain's answer by the number of entries it takes (R110, R115). -/
theorem drained_bytes (es : List Entry) (m : Nat) :
    (Answer.drained (es.take m) (es.length - m)).bytes 0 =
      [natByte (min m es.length), natByte (es.length - min m es.length)] ++
        (es.take (min m es.length)).flatMap Entry.bytes := by
  have hleft : es.length - m = es.length - min m es.length := by omega
  rw [Answer.bytes, List.length_take, hleft, ← List.take_eq_take_min]

/-- Settles O25: the entries taken are the first, as many as asked for or as there are. -/
theorem drainTakesFromHead : Obligations.DrainTakesFromHead := by
  intro p tag m s ht h1 h8 x k t
  have hr : (Request.drain m).inRange = true := by simp [Request.inRange, h1, h8]
  have hexec : exec (.drain p (.frame tag [BitVec.ofNat 8 m])) s = .next t := by
    refine (exec_request (.drain m) tag ht hr fun hs => nomatch hs).trans (congrArg _ ?_)
    refine (takeDrain_eq _ m x).trans ?_
    rw [drained_bytes, List.drop_eq_drop_min]
  obtain ⟨hlink, hrdy, hatn⟩ := answering_setPort_shown (p := p) (tag := tag) (x := { x with queue := x.queue.drop k })
    (taking_rstn ht) rfl ([natByte k, natByte (x.queue.length - k)] ++ (x.queue.take k).flatMap Entry.bytes)
  refine ⟨hexec, hlink, hrdy, hatn.trans (and_congr_left fun _ => ?_)⟩
  rw [List.drop_eq_nil_iff]
  exact ⟨fun h => by omega, fun h => by omega⟩

/-! ### Acknowledge -/

/-- Bit by bit, the two highest bits of the mask are 0 exactly as check 5 asks (R151, R156). -/
theorem mask_inRange {mask : Byte} (h7 : mask.getLsbD 7 = false) (h6 : mask.getLsbD 6 = false) :
    (Request.acknowledge mask).inRange = true := by
  rw [Request.inRange, decide_eq_true_eq]
  refine BitVec.eq_of_getLsbD_eq fun i hi => ?_
  rw [BitVec.getLsbD_and, BitVec.getLsbD_zero]
  rcases (by omega : i < 6 ∨ i = 6 ∨ i = 7) with hlow | rfl | rfl
  · interval_cases i <;> exact Bool.and_false _
  · rw [h6]; rfl
  · rw [h7]; rfl

/-- The conditions an Acknowledge leaves, by the position of each in the mask (R136, R156). -/
theorem clear_get (c : Conditions) (mask : Byte) (k : Condition) :
    (c.clear mask).get k = (c.get k && !mask.getLsbD k.position) := by
  cases k <;> rfl

/-- The condition block takes an Acknowledge and its answer is held (R136, R153). -/
theorem takeAcknowledge_eq (h : Head) (mask : Byte) (x : PortState) : takeAcknowledge p h mask (s.setPort p x) =
    s.setPort p (({ x with
      conditions := x.conditions.clear mask
      record := if mask.getLsbD 4 then none else x.record }).answering h.tag .done [conditionBits x.conditions]) := by
  simp only [takeAcknowledge, port_setPort_self, setPort_setPort]
  rw [respond_done_answering _ _ _ _ _ rfl, port_setPort_self, setPort_setPort]
  rfl

/-- Settles O27: the block's new conditions are the old ones without those the mask names. -/
theorem acknowledgeClearsNamedConditions : Obligations.AcknowledgeClearsNamedConditions := by
  intro p tag mask s ht h7 h6
  refine ⟨_, clear_get ((s.port p).afterFrame 1).conditions mask, ?_⟩
  intro x t
  have hexec : exec (.acknowledge p (.frame tag [mask])) s = .next t :=
    (exec_request (.acknowledge mask) tag ht (mask_inRange h7 h6) fun hs => nomatch hs).trans
      (congrArg _ (takeAcknowledge_eq _ mask x))
  exact ⟨hexec, answering_setPort_shown (taking_rstn ht) rfl _⟩

end Sys2Proof.Machine


/-! ## The steps of a retirement and of a detachment, one by one (R103, R108, R126 to R131) -/
namespace Sys2Proof.Machine

variable {s : State}

/-! ### A step carried to its end, or to a pause -/

/-- A step of the sweep engine with its table work `t` done, carried to its end: the engine claims its next step (R13, R125). -/
theorem carryStep_ends (j : Job) (t : Table) (all : List Arrival) (n : Nat) :
    carryStep .toEnd j ⟨.sweep true, all, n⟩ { s with table := t } = endGrant { takeArrivals all s with
      table := t, sweep := { s.sweep with job := some j, claim := true } } := by
  have hall := takeArrivals_core_eq s all t s.arbiter s.sweep
  simp only [carryStep, nextStep, advance_eq, takenBy, leftBy, hall]
  exact endGrant_congr rfl rfl rfl rfl rfl (by simp)

/-- With no other claim raised and no choice due, the next step has the grant. -/
theorem carryStep_ends_granted (j : Job) (t : Table) (all : List Arrival) (n : Nat) (hcl : ∀ r, s.claimed r = false)
    (hd : s.sweep.choiceDue = false) :
    carryStep .toEnd j ⟨.sweep true, all, n⟩ { s with table := t } = { takeArrivals all s with
      table := t
      sweep := { s.sweep with job := some j }
      arbiter := { s.arbiter with pointer := .sweep, grant := some ⟨.sweep false, [], 0⟩ } } := by
  have hall := takeArrivals_core_eq s all t s.arbiter s.sweep
  rw [carryStep_eq { s with table := t } j ⟨.sweep true, all, n⟩
    (fun r => (claimed_congr rfl rfl rfl r).trans (hcl r)) hd]
  simp only [hall]

/-- Carried to a pause: the arrivals taken are in the queues, the rest wait in the grant (R103). -/
theorem carryStep_pauses (j : Job) (t : Table) (all : List Arrival) (n m : Nat) :
    carryStep (.arrivals m) j ⟨.sweep true, all, n⟩ { s with table := t } = { takeArrivals (all.take m) s with
      table := t
      arbiter := { s.arbiter with
        grant := some ⟨.sweep true, all.drop m, n + arrivalsRemove (all.take m) s⟩ } } := by
  have hall := takeArrivals_core_eq s (all.take m) t s.arbiter s.sweep
  have hcount : arrivalsRemove (all.take m) { s with table := t } = arrivalsRemove (all.take m) s :=
    arrivalsRemove_congr _ rfl rfl
  simp only [carryStep, advance_eq, takenBy, leftBy, hall, hcount]
  rw [← takeArrivals_sweep s (all.take m)]

/-! ### Steps V-x and S -/

/-- The arrivals of step V-x, local by local (R126). -/
theorem viewStepArrivals_eq (t : Table) (x : Port) (i : Slot) : viewStepArrivals t x i =
    (List.finRange 256).flatMap (fun l =>
      if (t.entry x l).any (fun e => e.slot = i) ∧ (t.subscription? x l).isSome then
        [.removal x l .allButRetired, .post x l .retired] else []) := by
  refine congrArg (fun f => List.flatMap f (List.finRange 256)) (funext fun l => ?_)
  rw [names_eq_any]
  cases hs : t.subscription? x l with
  | none => simp
  | some u =>
    obtain ⟨-, hp, hl⟩ := subscription?_some _ _ _ hs
    simp [retiredArrivals, hp, hl]

theorem afterV_eq (x : Port) :
    RetireStep.afterV x = (match x with | .a => .v .b | .b => .v .c | .c => .v .d | .d => .s) := by
  cases x <;> rfl

/-- Of a RETIRING VALUE record step S takes the whole list (R127). -/
theorem listStep_value {t : Table} {i : Slot} {v : ValueFields} (h : (t.record i).body = .retiring (.value v)) :
    t.listLeft i = t.subsOn i ∧ listStepTable t i = { t with pool := t.pool.filter (fun u => ¬u.target = i) } := by
  refine ⟨by simp only [Table.listLeft, h, SlotBody.content?], ?_⟩
  simp only [listStepTable, h, SlotBody.content?, Table.returnSubs, decide_not]

/-- A RETIRING ALIAS record has no list (R10, R127). -/
theorem listStep_alias {t : Table} {i : Slot} {f : AliasFields} (h : (t.record i).body = .retiring (.aliasOf f)) :
    t.listLeft i = [] ∧ listStepTable t i = t := by
  simp only [Table.listLeft, listStepTable, h, SlotBody.content?, and_self]

/-- Settles O47: whichever arrivals a step carries, from its table work or from a pause, it ends or pauses in one way. -/
theorem retirementStepsSweep : Obligations.RetirementStepsSweep := by
  intro s i as n hc runsTo
  have carried {c : Progress → Instr} {j : Job} {t : Table} {all : List Arrival} {counted : Nat}
      (h : ∀ pr, exec (c pr) s = .next (carryStep pr j ⟨.sweep true, all, counted⟩ { s with table := t })) :
      runsTo c j t all counted :=
    ⟨(h _).trans (congrArg _ (carryStep_ends ..)),
      fun hcl hd => (h _).trans (congrArg _ (carryStep_ends_granted _ _ _ _ hcl hd)),
      fun m => (h _).trans (congrArg _ (carryStep_pauses ..))⟩
  refine ⟨fun x hj => ?_, fun hj => ⟨fun hg => ⟨fun v hb => ?_, fun f hb => ?_⟩, fun hg => ?_⟩⟩
  · intro named next
    have hnext : Job.retirement i (.afterV x) = next := congrArg _ (afterV_eq x)
    refine ⟨fun hg => ⟨viewStepTable s.table x i, ?_, rfl, rfl, fun y l => ?_, ?_⟩, fun hg => ?_⟩
    · rw [← hnext, ← viewStepArrivals_eq]
      exact carried fun pr => exec_stepV pr hc hg hj
    · rw [entry_viewStepTable, names_eq_any]
    · rw [pool_viewStepTable]
      refine List.filter_congr fun u _ => ?_
      rw [names_eq_any]
      simp [named]
    · rw [← hnext]
      exact carried fun pr => exec_stepV_on pr hc hg hj
  · obtain ⟨hlist, htable⟩ := listStep_value hb
    refine carried fun pr => (exec_stepS pr hc hg hj).trans ?_
    rw [hlist, htable]; rfl
  · obtain ⟨hlist, htable⟩ := listStep_alias hb
    refine carried fun pr => (exec_stepS pr hc hg hj).trans ?_
    rw [hlist, htable]; rfl
  · exact carried fun pr => exec_stepS_on pr hc hg hj

/-! ### Steps D1 and D2 -/

variable {p : Port}

theorem exec_stepD1 {as : List Arrival} {worked : Bool} {n : Nat} (hc : s.clocked = true)
    (hg : s.arbiter.grant = some ⟨.sweep worked, as, n⟩) (hj : s.sweep.job = some (.detachment p .d1)) :
    exec .stepD1 s = .next (endGrant { s with
      table := { s.table with pool := s.table.pool.filter (fun u => ¬u.port = p) }
      sweep := { s.sweep with job := some (.detachment p .d2) } }) := by
  simp only [exec, execStepD1, hg, hj, hc, if_true, Table.returnSubs, decide_not]

theorem exec_stepD2 (hj : s.sweep.job = some (.detachment p .d2)) :
    exec .stepD2 s = .next (arbitrate { s.setPort p { s.port p with
        queue := [], conditions := ⟨false, false, false, false, false, true⟩, record := none } with
      sweep := ({ s.sweep with
        job := none
        attachment := s.sweep.attachment.set p (if s.sweep.flags.get p then .detaching else .attached) } :
          Sweep).takeJob }) := by
  simp only [exec, execStepD2, hj]
  rfl

/-- The engine raises its claim with the job it takes, and leaves it where it takes none (R13, R124). -/
theorem takeJob_claim {w : Sweep} (hj : w.job = none) :
    w.takeJob.claim = if w.takeJob.job.isSome then true else w.claim := by
  rcases takeJob_cases w with ⟨x, -, -, e⟩ | ⟨-, i, rest, -, e⟩ | ⟨-, -, e⟩ <;> rw [e]
  · rfl
  · rfl
  · simp [hj]

/-- Settles O49: at step D2 the arbiter finds the engine's claim where a job has been taken, and the claims as they were else. -/
theorem detachmentStepsClearPort : Obligations.DetachmentStepsClearPort := by
  refine fun s p => ⟨fun as n hc hg hj => ⟨exec_stepD1 hc hg hj, fun hgr => ?_⟩, fun hj => ?_⟩
  · obtain ⟨-, hcl, hdue⟩ := hgr
    rw [exec_stepD1 hc hg hj, endGrant_of_no_claim]
    · exact fun r => (claimed_congr rfl rfl rfl r).trans (hcl r)
    · exact hdue
  · refine ⟨_, takes_takeJob _, ?_⟩
    intro u
    have hexec : exec .stepD2 s = .next (arbitrate u) := exec_stepD2 hj
    have hother {r : Requester} (hr : r ≠ .sweep) : u.claimed r = s.claimed r := by
      cases r with
      | port q => rfl
      | lease => rfl
      | sweep => exact absurd rfl hr
    refine ⟨hexec, fun hr => ?_, fun h => ?_, fun hg hjob hcl => ?_⟩
    · rw [atn_arbitrate, atn_iff]
      refine ⟨hr, .inr ⟨.detached, ?_⟩⟩
      show ((s.setPort p _).port p).conditions.detached = true
      rw [port_setPort_self]
    · rw [hexec]
      refine congrArg _ ?_
      rcases h with hg | ⟨hidle, hcl⟩
      · obtain ⟨g, hg⟩ := Option.isSome_iff_exists.1 hg
        exact arbitrate_of_grant u (g := g) hg
      · refine arbitrate_of_no_claim u fun r => ?_
        by_cases hr : r = .sweep
        · subst hr
          exact (takeJob_claim rfl).trans (by rw [hidle]; exact hcl .sweep)
        · rw [hother hr]; exact hcl r
    · rw [hexec, arbitrate_of_single_claim u .sweep hg]
      · rfl
      · exact (takeJob_claim rfl).trans (by rw [hjob]; rfl)
      · intro r hr; rw [hother hr]; exact hcl r

end Sys2Proof.Machine


/-! ## Link events and response transactions (R144 to R148, R152, R156) -/
namespace Sys2Proof.Machine

variable {s : State} {p : Port} {x y : PortState}

/-! ### What a board sees of a changed port -/

/-- A request transaction that begins brings IDLE and HELD to RECEIVING, which remembers them (R145). -/
theorem linkState_entered (hx : x.select = .request) (hy : y.select ≠ .request) (hw : x.work = y.work)
    (hh : x.held = y.held) :
    x.linkState = (match y.linkState with | .idle => .receivingFromIdle | .held => .receivingFromHeld | l => l) := by
  rw [linkState_of_request x hx, linkState_of_not_request y hy, hw, hh]
  cases y.work <;> cases y.held <;> rfl

/-- One that has ended brings RECEIVING back to the state it was entered from. -/
theorem linkState_left (hx : x.select ≠ .request) (hw : x.work = y.work) (hh : x.held = y.held) :
    x.linkState = (match y.linkState with | .receivingFromIdle => .idle | .receivingFromHeld => .held | l => l) := by
  rw [linkState_of_not_request x hx, hw, hh]
  by_cases hy : y.select = .request
  · rw [linkState_of_request y hy]
    cases y.work <;> cases y.held <;> rfl
  · rw [linkState_of_not_request y hy]
    cases y.work <;> cases y.held <;> rfl

/-- Outside a request transaction the link state is that of the work and the held response alone. -/
theorem linkState_stays (hx : x.select ≠ .request) (hy : y.select ≠ .request) (hw : x.work = y.work)
    (hh : x.held = y.held) : x.linkState = y.linkState := by
  rw [linkState_of_not_request x hx, linkState_of_not_request y hy, hw, hh]

theorem rdy_setPort (hh : x.held = (s.port p).held) : (s.setPort p x).rdy p = s.rdy p := by
  rw [State.rdy, State.rdy, port_setPort_self, hh]

theorem atn_setPort (hq : x.queue = (s.port p).queue) (hc : x.conditions = (s.port p).conditions) :
    (s.setPort p x).atn p = s.atn p := by
  rw [State.atn, State.atn, port_setPort_self, hq, hc]; rfl

/-- A condition set makes ATN high (R114). -/
theorem atn_setPort_raised {k : Condition} (hr : s.rstn = .high) (hk : x.conditions.get k = true) :
    (s.setPort p x).atn p = true := by
  rw [atn_iff, port_setPort_self]
  exact ⟨hr, .inr ⟨k, hk⟩⟩

theorem ne_request_of_opened (h : x.opened.isSome = true) : x.select ≠ .request := by
  intro e; simp [PortState.opened, e] at h

theorem hears_of_select (hl : s.linkOn p = true) (hs : (s.port p).select ≠ .low) : s.hears p = true :=
  (hears_iff s p).2 ⟨hl, hs⟩

theorem ite_high_ne_request {b : Bool} {sel : SelectState} (h : sel ≠ .request) :
    (if b then SelectState.high else sel) ≠ .request := by
  split
  · exact nofun
  · exact h

/-! ### The transactions, each where it can come -/

theorem openRequest_opened (hl : s.linkOn p = true) (ho : (s.port p).opened.isSome = true) :
    openRequest p s = s.setPort p { s.port p with select := .request, dataOut := List.replicate 8 false } := by
  obtain ⟨n, hn⟩ := Option.isSome_iff_exists.1 ho
  simp only [openRequest, hears_of_opened hl hn, hn, if_true]

/-- Port `x` is `n` edges into a response transaction, and `d` is the response that transaction delivers (R152). -/
def PortState.Shifting (x : PortState) (n : Nat) (d : Option Response) : Prop :=
  x.opened = some n ∧ d = none ∨ x.select = .response n d

theorem ne_request_of_shifting {n : Nat} {d : Option Response} (h : x.Shifting n d) : x.select ≠ .request := by
  rcases h with ⟨ho, -⟩ | hs
  · exact ne_request_of_opened (by rw [ho]; rfl)
  · rw [hs]; exact nofun

/-- A response transaction that begins or goes on shifts its port on (R144, R152). -/
theorem responseTransaction_shifts {n : Nat} {d : Option Response} (t : Stretch) (hl : s.linkOn p = true)
    (h : (s.port p).Shifting n d) : responseTransaction p t s = s.setPort p ((s.port p).shiftResponse n d t) := by
  rcases h with ⟨ho, rfl⟩ | hs
  · simp only [responseTransaction, hears_of_opened hl ho, ho, if_true]
  · have ho : (s.port p).opened = none := by simp [PortState.opened, hs]
    simp only [responseTransaction, hears_of_select hl (by rw [hs]; exact nofun), ho, hs, if_true]

/-- With fewer than eight edges in all, a transaction has no type yet (R144). -/
theorem shiftResponse_short {n : Nat} {t : Stretch} (h : n + t.edges < 8) : x.shiftResponse n none t =
    { x with
      select := if t.ends then .high else .opening (n + t.edges)
      dataOut := List.replicate (n + t.edges) false } := by
  have hout : ¬(n < 8 ∧ 8 ≤ n + t.edges) := by omega
  simp only [PortState.shiftResponse, if_neg hout, if_pos h, Option.elim_none, Option.any_none, shiftedOut_nil]
  rfl

theorem unknownTransaction_short {n : Nat} {first : Byte} {t : Stretch} (hl : s.linkOn p = true)
    (ho : (s.port p).opened = some n) (h : n + t.edges < 8) :
    unknownTransaction p ⟨first, t⟩ s = responseTransaction p t s := by
  simp only [unknownTransaction, hears_of_opened hl ho, ho, if_true, if_pos (Or.inl h)]

theorem unknownTransaction_goes_on (t : OtherStretch) (hl : s.linkOn p = true) (hs : (s.port p).select = .unknown) :
    unknownTransaction p t s = s.setPort p ((s.port p).shiftZeros (s.port p).dataOut t.stretch) := by
  have ho : (s.port p).opened = none := by simp [PortState.opened, hs]
  simp only [unknownTransaction, hears_of_select hl (by rw [hs]; exact nofun), ho, hs, if_true]

/-- A good frame that ends while a request is in work is discarded, and OVERRUN is set (R148). -/
theorem overrun_taken {code tag : Byte} {body : List Byte} (hf : s.framed p) (hw : (s.port p).work.isSome = true)
    (hb : body.length ≤ 120) :
    requestTransaction p code (.frame tag body) s =
      setCondition .overrun p (closeRequest p (8 * (body.length + 6)) s) := by
  obtain ⟨w, hw⟩ := Option.isSome_iff_exists.1 hw
  have hwork : ((closeRequest p (8 * (body.length + 6)) s).port p).work = some w := by
    rw [closeRequest, port_setPort_self, hw]
  have hmax : body.length ≤ maxBody := hb
  simp only [requestTransaction, if_pos hmax]
  rw [endRequest_of_framed s p _ _ hf]
  simp only [takeFrame, hwork]

/-- Settles O58: each event as the change of its port, and what a board sees of the port so changed. -/
theorem linkEventsSetStatesAndConditions : Obligations.LinkEventsSetStatesAndConditions := by
  intro p s hl hi event now entered left
  have hr : s.rstn = .high := ((linkOn_iff s p).1 hl).1
  have keeps {c : Instr} {x : PortState} {l : LinkState} (he : exec c s = .next (s.setPort p x)) (hs : x.linkState = l)
      (hh : x.held = (s.port p).held) (hq : x.queue = (s.port p).queue) (hc : x.conditions = (s.port p).conditions) :
      event c x l false :=
    ⟨he, (congrArg _ (port_setPort_self ..)).trans hs, rdy_setPort hh, atn_setPort hq hc⟩
  have raises {c : Instr} {x : PortState} {l : LinkState} {k : Condition} (he : exec c s = .next (s.setPort p x))
      (hs : x.linkState = l) (hh : x.held = (s.port p).held) (hk : x.conditions.get k = true) : event c x l true :=
    ⟨he, (congrArg _ (port_setPort_self ..)).trans hs, rdy_setPort hh, atn_setPort_raised hr hk⟩
  have set {k : Condition} {x : PortState} :
      setCondition k p (s.setPort p x) = s.setPort p { x with conditions := x.conditions.raise k } := by
    rw [setCondition_setPort, hi]; rfl
  refine ⟨fun c ho => ?_, fun bytes extra hf hj => ?_, fun n t ho h1 h2 h8 => ?_, fun t hs => ?_,
    fun n first t ho h8 c hc => ?_, fun code tag body hf hw hb => ?_⟩
  · refine keeps ?_ (linkState_entered rfl (ne_request_of_opened ho) rfl rfl) rfl rfl rfl
    rw [exec_requestCommand]
    exact congrArg _ (openRequest_opened hl ho)
  · refine raises (k := .linkError) ?_ (linkState_left nofun rfl rfl) rfl rfl
    rw [exec_frameError_of_framed ⟨hl, hf⟩ hj, closeRequest, set]; rfl
  · refine raises (k := .linkError) ?_ (linkState_stays (ite_high_ne_request nofun)
      (ne_request_of_opened (by rw [ho]; rfl)) rfl rfl) rfl rfl
    refine (congrArg Host.Outcome.next (unknownTransaction_opened hl ho h1 h2 h8)).trans ?_
    rw [set, PortState.shiftZeros, List.replicate_append_replicate]; rfl
  · refine keeps ?_ (linkState_stays (ite_high_ne_request nofun) (by rw [hs]; exact nofun) rfl rfl) rfl rfl rfl
    exact congrArg Host.Outcome.next (unknownTransaction_goes_on t hl hs)
  · have hshort : responseTransaction p t s = _ :=
      (responseTransaction_shifts t hl (.inl ⟨ho, rfl⟩)).trans (congrArg _ (shiftResponse_short h8))
    refine keeps ?_ (linkState_stays (ite_high_ne_request nofun) (ne_request_of_opened (by rw [ho]; rfl)) rfl rfl)
      rfl rfl rfl
    rcases List.mem_pair.1 hc with rfl | rfl
    · exact congrArg Host.Outcome.next ((unknownTransaction_short hl ho h8).trans hshort)
    · exact congrArg Host.Outcome.next hshort
  · refine raises (k := .overrun) ?_ ?_ rfl rfl
    · refine (congrArg Host.Outcome.next (overrun_taken ⟨hl, hf⟩ hw hb)).trans ?_
      rw [closeRequest, set]; rfl
    · refine (linkState_of_not_request _ ?_).trans (if_pos hw)
      exact nofun

/-! ### A response delivered -/

/-- What a response transaction shifts out: zeros for the type byte, and the response bit by bit (R144, R152). -/
def Response.bits (r : Response) : List Bool := List.replicate 8 false ++ r.bytes.flatMap byteBits

/-- The last of these bits releases the response (R152). -/
theorem releaseEdges_eq (r : Response) : releaseEdges r = r.bits.length := by
  have hbyte (bs : List Byte) : (bs.flatMap byteBits).length = 8 * bs.length := by
    induction bs with
    | nil => rfl
    | cons b bs ih => rw [List.flatMap_cons, List.length_append, ih, byteBits, List.length_cons]; simp; omega
  rw [releaseEdges, Response.bits, List.length_append, List.length_replicate, hbyte]
  omega

theorem shiftedOut_part {r : Response} {k : Nat} (h : k ≤ r.bits.length) :
    shiftedOut k (r.bytes.flatMap byteBits) = r.bits.take k := List.take_append_of_le_length h

theorem shiftedOut_whole {r : Response} {k : Nat} (h : r.bits.length ≤ k) :
    shiftedOut k (r.bytes.flatMap byteBits) = r.bits ++ List.replicate (k - r.bits.length) false := by
  show (r.bits ++ List.replicate k false).take k = _
  rw [List.take_append, List.take_of_length_le h, List.take_replicate, Nat.min_eq_left (Nat.sub_le ..)]

/-- From its eighth edge on a response transaction has a type, and delivers the response held at that edge or none (R152). -/
theorem shiftResponse_known {n : Nat} {d out : Option Response} {t : Stretch} (h8 : 8 ≤ n + t.edges)
    (hout : (if n < 8 then x.held else d) = out) : x.shiftResponse n d t =
    { x with
      select := if t.ends then .high else .response (n + t.edges) out
      dataOut := shiftedOut (n + t.edges) (out.elim [] (fun r => r.bytes.flatMap byteBits))
      held := if out.any (fun r => n < releaseEdges r && releaseEdges r ≤ n + t.edges) then none else x.held } := by
  subst hout
  have hshort : ¬n + t.edges < 8 := by omega
  simp only [PortState.shiftResponse, if_neg hshort, h8, and_true]

theorem shiftResponse_nothing {n : Nat} {d : Option Response} {t : Stretch} (h8 : 8 ≤ n + t.edges)
    (hout : (if n < 8 then x.held else d) = none) : x.shiftResponse n d t =
    { x with
      select := if t.ends then .high else .response (n + t.edges) none
      dataOut := List.replicate (n + t.edges) false } := by
  rw [shiftResponse_known h8 hout, Option.elim_none, shiftedOut_nil]
  rfl

/-- A transaction that delivers `r` has shifted its port on to this (R152). -/
theorem shiftResponse_delivers {n : Nat} {d : Option Response} {r : Response} {t : Stretch} (h8 : 8 ≤ n + t.edges)
    (hout : (if n < 8 then x.held else d) = some r) : x.shiftResponse n d t =
    { x with
      select := if t.ends then .high else .response (n + t.edges) (some r)
      dataOut := shiftedOut (n + t.edges) (r.bytes.flatMap byteBits)
      held := if n < r.bits.length ∧ r.bits.length ≤ n + t.edges then none else x.held } := by
  rw [shiftResponse_known h8 hout, Option.elim_some, Option.any_some, releaseEdges_eq]
  simp only [Bool.and_eq_true, decide_eq_true_eq]

/-- Settles O59: the transaction delivers nothing, or shifts out the first bits of its response, or all of them and zeros. -/
theorem responseTransactionDelivers : Obligations.ResponseTransactionDelivers := by
  intro p n t s hl total now zeros leaves
  have shifts {d : Option Response} {x : PortState} {l : LinkState} {ready : Bool}
      (hs : (s.port p).Shifting n d)
      (hx : (s.port p).shiftResponse n d t = x) (hlink : x.linkState = l) (hheld : x.held.isSome = ready)
      (hq : x.queue = (s.port p).queue) (hc : x.conditions = (s.port p).conditions) : leaves x l ready := by
    refine ⟨?_, (congrArg _ (port_setPort_self ..)).trans hlink, ?_, atn_setPort hq hc⟩
    · exact congrArg Host.Outcome.next ((responseTransaction_shifts t hl hs).trans (congrArg _ hx))
    · rw [State.rdy, port_setPort_self]; exact hheld
  have after {d : Option Response} : now d ≠ .request := ite_high_ne_request nofun
  refine ⟨fun ho h8 hheld => ?_, fun hs h8 => ?_, fun tag result cond body => ?_⟩
  · have hs : (s.port p).Shifting n none := .inl ⟨ho, rfl⟩
    exact shifts hs (shiftResponse_nothing h8 (by rw [hheld, ite_self]))
      (linkState_stays after (ne_request_of_shifting hs) rfl rfl)
      (by rw [hheld]; rfl) rfl rfl
  · exact shifts (.inr hs) (shiftResponse_nothing (by omega) (if_neg (by omega)))
      (linkState_stays after (ne_request_of_shifting (.inr hs)) rfl rfl) rfl rfl rfl
  · intro r sent bits hcase
    have hbits : bits = r.bits := rfl
    obtain ⟨d, hs, h8, hout⟩ : ∃ d, (s.port p).Shifting n d ∧ 8 ≤ total ∧
        (if n < 8 then (s.port p).held else d) = some r := by
      rcases hcase with ⟨ho, hn, h8, hheld⟩ | ⟨hs, hn⟩
      · exact ⟨none, .inl ⟨ho, rfl⟩, h8, by rw [if_pos hn]; exact hheld⟩
      · exact ⟨some r, .inr hs, Nat.le_add_right_of_le hn, if_neg (by omega)⟩
    rw [hbits]
    refine ⟨fun hpart => ?_, fun hall => ⟨fun hn => ?_, fun hn => ?_⟩⟩
    · refine shifts hs ?_ (linkState_stays after (ne_request_of_shifting hs) rfl rfl) rfl rfl rfl
      have hkeep : ¬(n < r.bits.length ∧ r.bits.length ≤ n + t.edges) := fun h => hpart.not_ge h.2
      rw [shiftResponse_delivers h8 hout, shiftedOut_part hpart.le, if_neg hkeep]
    · refine shifts hs ?_ ?_ rfl rfl rfl
      · have hrelease : n < r.bits.length ∧ r.bits.length ≤ n + t.edges := ⟨hn, hall⟩
        rw [shiftResponse_delivers h8 hout, shiftedOut_whole hall, if_pos hrelease]
      · exact linkState_of_not_request _ after
    · refine shifts hs ?_ (linkState_stays after (ne_request_of_shifting hs) rfl rfl) rfl rfl rfl
      have hkeep : ¬(n < r.bits.length ∧ r.bits.length ≤ n + t.edges) := fun h => hn.not_gt h.1
      rw [shiftResponse_delivers h8 hout, shiftedOut_whole hall, if_neg hkeep]

end Sys2Proof.Machine


/-! ## Checks 2 to 4 before the dispatch (R123, R138, R139, R150) -/
namespace Sys2Proof.Machine

variable {s : State} {p : Port}

/-- Check 2 refuses every code of a DETACHING port (R123, R150). -/
theorem check_detaching (hi : s.initialising = false) (ha : s.sweep.attachment.get p = .detaching) (code : Byte)
    (body : List Byte) : check p code body s = .refused .detaching none := by
  simp [check, hi, ha]

/-- Check 3 refuses an unknown code of an ATTACHED port, whatever the body. -/
theorem check_unknownCode (hi : s.initialising = false) (ha : s.sweep.attachment.get p = .attached) {code : Byte}
    (hc : Code.ofByte? code = none) (body : List Byte) : check p code body s = .refused .badRequest none := by
  simp [check, hi, ha, hc]

/-- Check 3 refuses a body whose length is not the code's, before the supervisor's right is asked for. -/
theorem check_wrongLength (hi : s.initialising = false) (ha : s.sweep.attachment.get p = .attached) {c : Code}
    {body : List Byte} (hl : lengthOk c body = false) : check p c.toByte body s = .refused .badRequest none := by
  simp [check, hi, ha, hl]

/-- Check 4 refuses a supervisor request of another port than A, before its fields are looked at. -/
theorem check_notSupervisor (hi : s.initialising = false) (ha : s.sweep.attachment.get p = .attached) {c : Code}
    {body : List Byte} (hl : lengthOk c body = true) (hs : c.supervisor = true) (hp : p ≠ .a) :
    check p c.toByte body s = .refused .notSupervisor (refusalLocal c body) := by
  simp [check, hi, ha, hl, hs, hp]

/-- A frame that a check refuses is answered with an empty body and its refusal captured, and nothing else changes (R138,
R139, R150). -/
theorem requestTransaction_refused (hi : s.initialising = false) (hf : s.framed p) (hw : (s.port p).work = none)
    (tag : Byte) {code : Byte} {body : List Byte} (hb : body.length ≤ 120) {r : Result} {l : Option Local}
    (hr : r ≠ .done) (hk : check p code body s = .refused r l) :
    requestTransaction p code (.frame tag body) s =
      s.setPort p (((s.port p).afterFrame body.length).refusing ⟨code, tag, r, l, none, none, 0⟩ []) := by
  rw [requestTransaction_frame s p code tag body hf hw hb, hk]
  simp only
  rw [discardHeld_closeRequest s p _ hi, respond_refusal' _ _ _ _ _ hr (by exact hi), port_setPort_self, setPort_setPort]
  rfl

/-- Settles O57: each of the checks 2 to 4 where those before it pass, and the one way a refused frame is answered. -/
theorem refusedBeforeDispatch : Obligations.RefusedBeforeDispatch := by
  intro p tag body s hf hw hi hb refused
  have answered {code : Byte} {r : Result} {l : Option Local} (hk : check p code body s = .refused r l)
      (hr : r ≠ .done) : requestTransaction p code (.frame tag body) s = refused code r l :=
    requestTransaction_refused hi hf hw tag hb hr hk
  refine ⟨fun c => ?_, fun code hc => ?_⟩
  · rw [exec_requestCommand]
    refine ⟨fun ha => ?detaching, fun ha hl => ?wrongLength, fun ha hl hs hp => ?notSupervisor⟩
    case detaching => rw [answered (check_detaching hi ha _ _) nofun]
    case wrongLength => rw [answered (check_wrongLength hi ha hl) nofun]
    case notSupervisor => rw [answered (check_notSupervisor hi ha hl hs hp) nofun]
  · rw [exec_unknownCodeFrame]
    cases ha : s.sweep.attachment.get p with
    | detaching => rw [answered (check_detaching hi ha _ _) nofun, if_pos rfl]
    | attached => rw [answered (check_unknownCode hi ha hc _) nofun, if_neg nofun]

end Sys2Proof.Machine


/-! ## Check 5: fields out of range (R151) -/
namespace Sys2Proof.Machine

/-! ### Single fields -/

theorem portOfByte_eq_none (b : Byte) : portOfByte? b = none ↔ 4 ≤ b.toNat := by
  unfold portOfByte?
  split <;> grind

theorem flagOfByte_eq_none (b : Byte) : flagOfByte? b = none ↔ 2 ≤ b.toNat := by
  unfold flagOfByte?
  split <;> grind

theorem rightsOfByte_eq_none (b : Byte) : rightsOfByte? b = none ↔ 2 ≤ b.toNat := by
  unfold rightsOfByte?
  split <;> grind

theorem modeOfByte_eq_none (b : Byte) : modeOfByte? b = none ↔ 3 ≤ b.toNat := by
  unfold modeOfByte?
  split <;> grind

theorem periodOfByte_eq_none (b : Byte) : periodOfByte? b = none ↔ 3 ≤ b.toNat := by
  unfold periodOfByte?
  split <;> grind

theorem word2_toNat (h l : Byte) : (word2 h l).toNat = 256 * h.toNat + l.toNat := by
  rw [word2, BitVec.toNat_append, ← Nat.shiftLeft_add_eq_or_of_lt l.isLt, Nat.shiftLeft_eq, Nat.mul_comm]

theorem slotOfWord_eq_none (h l : Byte) : slotOfWord? (word2 h l) = none ↔ 1024 ≤ 256 * h.toNat + l.toNat := by
  rw [slotOfWord?, word2_toNat]
  simp

theorem ticksOfWord_eq_none (h l : Byte) : ticksOfWord? (word2 h l) = none ↔ 4096 ≤ 256 * h.toNat + l.toNat := by
  rw [ticksOfWord?, word2_toNat]
  simp

/-- The two highest bits of a mask are both 0 exactly where it is in range (R151, R156). -/
theorem mask_inRange_iff (m : Byte) : m &&& 0xC0#8 = 0#8 ↔ m.getLsbD 7 = false ∧ m.getLsbD 6 = false := by
  constructor
  · intro h
    have bit (i : Nat) (hi : (0xC0#8 : Byte).getLsbD i = true) : m.getLsbD i = false := by
      simpa [BitVec.getLsbD_and, hi] using congrArg (BitVec.getLsbD · i) h
    exact ⟨bit 7 rfl, bit 6 rfl⟩
  · rintro ⟨h7, h6⟩
    simpa [Request.inRange] using mask_inRange h7 h6

/-! ### Bodies -/

theorem parse_subscribe_eq_none (l m3 m2 m1 m0 r3 r2 r1 r0 m w : Byte) :
    parse .subscribe [l, m3, m2, m1, m0, r3, r2, r1, r0, m, w] = none ↔ modeOfByte? m = none ∨ flagOfByte? w = none := by
  simp only [parse]
  cases modeOfByte? m with
  | none => simp
  | some mode => cases flagOfByte? w <;> simp

theorem parse_createAlias_eq_none (s1 s0 w : Byte) :
    parse .createAlias [s1, s0, w] = none ↔ slotOfWord? (word2 s1 s0) = none ∨ flagOfByte? w = none := by
  simp only [parse]
  cases slotOfWord? (word2 s1 s0) with
  | none => simp
  | some i => cases flagOfByte? w <;> simp

theorem parse_map_eq_none (q l s1 s0 r : Byte) :
    parse .map [q, l, s1, s0, r] = none ↔
      portOfByte? q = none ∨ slotOfWord? (word2 s1 s0) = none ∨ rightsOfByte? r = none := by
  simp only [parse]
  cases portOfByte? q with
  | none => simp
  | some port =>
    cases slotOfWord? (word2 s1 s0) with
    | none => simp
    | some i => cases rightsOfByte? r <;> simp

/-- R151's table is what `parse` refuses of the bodies of the right length. -/
theorem fieldRefused_iff (c : Code) (body : List Byte) (hl : lengthOk c body = true) :
    fieldRefused c body ↔ parse c body = none := by
  cases c with
  | read | refresh | unsubscribe => match body, hl with
    | [l], _ => simp [fieldRefused, parse]
  | write => match body, hl with
    | [l, v3, v2, v1, v0], _ => simp [fieldRefused, parse]
  | conditionalWrite => match body, hl with
    | [l, e1, e0, v3, v2, v1, v0], _ => simp [fieldRefused, parse]
  | getStatus | holdLeases | resumeLeases | poolReport => match body, hl with
    | [], _ => simp [fieldRefused, parse]
  | groupRead => match body, hl with
    | n :: ls, hl =>
      have hn : ls.length = n.toNat := by simpa [lengthOk] using hl
      have hrange : (1 ≤ n.toNat ∧ n.toNat ≤ 8) ↔ ¬(n.toNat = 0 ∨ 9 ≤ n.toNat) := by omega
      simp [fieldRefused, parse, hn, hrange, or_iff_not_imp_left]
  | drain => match body, hl with
    | [m], _ =>
      have hrange : (1 ≤ m.toNat ∧ m.toNat ≤ 8) ↔ ¬(m.toNat = 0 ∨ 9 ≤ m.toNat) := by omega
      simp [fieldRefused, parse, hrange, or_iff_not_imp_left]
  | acknowledge => match body, hl with
    | [m], _ =>
      have hbits : m &&& 0xC0#8 = 0#8 ↔ ¬(m.getLsbD 7 = true ∨ m.getLsbD 6 = true) := by simp [mask_inRange_iff]
      simp [fieldRefused, parse, hbits, or_iff_not_imp_left]
  | detach => match body, hl with
    | [q], _ => simp [fieldRefused, parse, portOfByte_eq_none]
  | unmap | readView => match body, hl with
    | [q, l], _ => simp [fieldRefused, parse, portOfByte_eq_none]
  | setTick => match body, hl with
    | [c], _ => simp [fieldRefused, parse, periodOfByte_eq_none]
  | retire | readSlot => match body, hl with
    | [s1, s0], _ => simp [fieldRefused, parse, slotOfWord_eq_none]
  | createValue => match body, hl with
    | [v3, v2, v1, v0, i1, i0], _ => simp [fieldRefused, parse, ticksOfWord_eq_none]
  | subscribe => match body, hl with
    | [l, m3, m2, m1, m0, r3, r2, r1, r0, m, w], _ =>
      simp [fieldRefused, parse_subscribe_eq_none, modeOfByte_eq_none, flagOfByte_eq_none]
  | createAlias => match body, hl with
    | [s1, s0, w], _ => simp [fieldRefused, parse_createAlias_eq_none, slotOfWord_eq_none, flagOfByte_eq_none]
  | map => match body, hl with
    | [q, l, s1, s0, r], _ =>
      simp [fieldRefused, parse_map_eq_none, portOfByte_eq_none, slotOfWord_eq_none, rightsOfByte_eq_none]

variable {s : State} {p : Port}

/-- Check 5 refuses a body of which a field is out of range, past the checks before it (R150, R151). -/
theorem check_badField (hi : s.initialising = false) (ha : s.sweep.attachment.get p = .attached) {c : Code}
    {body : List Byte} (hl : lengthOk c body = true) (hs : c.supervisor = true → p = .a) (hp : parse c body = none) :
    check p c.toByte body s = .refused .badRequest (refusalLocal c body) := by
  have hs' : ¬(c.supervisor = true ∧ p ≠ .a) := fun h => h.2 (hs h.1)
  simp [check, hi, ha, hl, hs', hp]

/-- Settles O6: what `parse` refuses is R151's table, and the port answers it as it does every refusal of the checks. -/
theorem outOfRangeFieldsRefused : Obligations.OutOfRangeFieldsRefused := by
  intro c p tag body s ht hl hb hs
  have hiff := fieldRefused_iff c body hl
  refine ⟨hiff, fun hf => ?_⟩
  obtain ⟨hframed, hw, hi, ha⟩ := ht
  have hk := check_badField hi ha hl hs (hiff.1 hf)
  have answered := requestTransaction_refused hi hframed hw tag hb (r := .badRequest) nofun hk
  rw [exec_requestCommand, answered]

end Sys2Proof.Machine



/-! ## The refusal record and Get Status (R134, R138, R141) -/
namespace Sys2Proof.Machine

variable {s t : State} {p q : Port}

/-! ### REFUSAL_HELD and the record over the operations -/

/-- What R134 ties together at a port: REFUSAL_HELD and the refusal record. -/
def PortState.refusalBlock (x : PortState) : Bool × Option RefusalRecord := (x.conditions.refusalHeld, x.record)

/-- The refusal record is present exactly while REFUSAL_HELD is set, at one port (R134). -/
def PortState.recordOk (x : PortState) : Prop := x.record.isSome = x.conditions.refusalHeld

/-- No other condition touches REFUSAL_HELD (R135). -/
theorem raise_refusalHeld (c : Conditions) {k : Condition} (hk : k ≠ .refusalHeld) :
    (c.raise k).refusalHeld = c.refusalHeld := by
  cases k with
  | refusalHeld => exact absurd rfl hk
  | lost | discarded | overrun | linkError | detached => rfl

theorem mayRaise_refusalHeld {c : Conditions} (h : s.mayRaise p c) :
    c.refusalHeld = (s.port p).conditions.refusalHeld := by
  rcases h with rfl | ⟨-, k, hk, rfl⟩
  · rfl
  · exact raise_refusalHeld _ hk

@[simp] theorem takeArrivals_refusalBlock (s : State) (q : Port) (as : List Arrival) :
    ((takeArrivals as s).port q).refusalBlock = (s.port q).refusalBlock := by
  obtain ⟨es, c, e, rfl | rfl⟩ := takeArrivals_port s q as <;> rw [e] <;> rfl

@[simp] theorem advance_refusalBlock (s : State) (q : Port) (pr : Progress) (g : Grant) :
    ((advance pr g s).port q).refusalBlock = (s.port q).refusalBlock := by
  rw [advance_port, takeArrivals_refusalBlock]

@[simp] theorem withdrawClaim_refusalBlock (s : State) (p q : Port) :
    ((withdrawClaim p s).port q).refusalBlock = (s.port q).refusalBlock := by
  rw [withdrawClaim_port]; split <;> rfl

@[simp] theorem resetPort_refusalBlock (s : State) (p q : Port) :
    ((resetPort p s).port q).refusalBlock = (s.port q).refusalBlock := by
  rw [resetPort_eq]
  show ((s.setPort p _).port q).refusalBlock = _
  rw [port_setPort]
  split
  · next e => rw [e]; rfl
  · rfl

@[simp] theorem raiseClaim_refusalBlock (s : State) (p q : Port) (h : Head) (r : Request) :
    ((raiseClaim p h r s).port q).refusalBlock = (s.port q).refusalBlock := by
  rw [raiseClaim, arbitrate_port]
  show ((s.setPort p _).port q).refusalBlock = _
  rw [port_setPort]
  split
  · next e => rw [e]; rfl
  · rfl

theorem recordOk_of_block {x y : PortState} (h : x.recordOk) (hb : y.refusalBlock = x.refusalBlock) : y.recordOk := by
  obtain ⟨hc, hr⟩ := Prod.mk.inj hb
  rw [PortState.recordOk, hr, hc]; exact h

theorem recordInv_of_blocks (h : s.RecordInv) (hb : ∀ q, (t.port q).refusalBlock = (s.port q).refusalBlock) :
    t.RecordInv := fun q => recordOk_of_block (h q) (hb q)

theorem recordInv_of_ports (h : s.RecordInv) (hp : ∀ q, t.port q = s.port q) : t.RecordInv :=
  recordInv_of_blocks h fun q => by rw [hp q]

theorem recordInv_setPort (h : s.RecordInv) {x : PortState} (hx : x.recordOk) : (s.setPort p x).RecordInv := by
  intro q
  rw [port_setPort]
  split
  · exact hx
  · exact h q

/-! ### Refusals, grants and steps -/

/-- A capture writes the record with REFUSAL_HELD (R138). -/
theorem recordInv_capture (h : s.RecordInv) (r : RefusalRecord) : (capture p r s).RecordInv := by
  rcases capture_cases s p r with ⟨-, e⟩ | ⟨-, -, e⟩ <;> rw [e]
  · exact h
  · exact recordInv_setPort h rfl

theorem recordInv_respond (h : s.RecordInv) (hd : Head) (v : Verdict) (n : Nat) : (respond p hd v n s).RecordInv := by
  have held {u : State} (hu : u.RecordInv) (x : Option Response) :
      (u.setPort p { u.port p with work := none, held := x }).RecordInv := recordInv_setPort hu (hu p)
  unfold respond
  dsimp only
  split
  · exact held h _
  · exact held (recordInv_capture h _) _

theorem recordInv_carryRequest (h : s.RecordInv) (pr : Progress) (w : Work) (d : Bool) (v : Verdict)
    (as : List Arrival) (n : Nat) : (carryRequest pr p w d v as n s).RecordInv := by
  have ha (g : Grant) : (advance pr g s).RecordInv := recordInv_of_blocks h fun q => advance_refusalBlock s q pr g
  cases pr with
  | arrivals m => exact ha _
  | toEnd =>
    refine recordInv_of_ports ?_ fun q => endGrant_port _ q
    cases d with
    | true => exact ha _
    | false => exact recordInv_respond (ha _) _ _ _

theorem recordInv_carryExpiry (h : s.RecordInv) (pr : Progress) (k : Nat) (i : Slot) (g : Grant) :
    (carryExpiry pr k i g s).RecordInv :=
  recordInv_of_blocks h fun q => by rw [carryExpiry_port, takeArrivals_refusalBlock]

theorem recordInv_carryStep (h : s.RecordInv) (pr : Progress) (j : Job) (g : Grant) : (carryStep pr j g s).RecordInv :=
  recordInv_of_blocks h fun q => by rw [carryStep_port, takeArrivals_refusalBlock]

/-- A port whose frame has come to the checks keeps its record and REFUSAL_HELD. -/
theorem receives_recordOk {x : PortState} (hx : s.receives p x) (h : (s.port p).recordOk) : x.recordOk := by
  obtain ⟨-, -, out, c, hc, rfl⟩ := hx
  exact h.trans (mayRaise_refusalHeld hc).symm

/-- An Acknowledge discards the record with REFUSAL_HELD, bit 4 of its mask (R136, R156). -/
theorem acknowledged_recordOk {x : PortState} (h : x.recordOk) (mask : Byte) :
    PortState.recordOk { x with
      conditions := x.conditions.clear mask, record := if mask.getLsbD 4 then none else x.record } := by
  unfold PortState.recordOk Conditions.clear
  cases mask.getLsbD 4 with
  | true => exact (Bool.and_false _).symm
  | false => exact Eq.trans h (Bool.and_true _).symm

theorem Effect.recordInv (e : Effect s t) (h : s.RecordInv) : t.RecordInv := by
  have received {p : Port} {x : PortState} (hx : s.receives p x) : (s.setPort p x).RecordInv :=
    recordInv_setPort h (receives_recordOk hx (h p))
  cases e with
  | stays | refclk | divider | rstnRelease => exact h
  | tick => exact recordInv_of_ports h fun q => arbitrate_port _ q
  | link p x hx =>
    obtain ⟨sel, out, hd, c, hc, rfl, -⟩ := hx
    exact recordInv_setPort h ((h p).trans (mayRaise_refusalHeld hc).symm)
  | answered p x hd v hx => exact recordInv_respond (received hx) hd v 0
  | drained p x hd v m hx =>
    refine recordInv_respond ?_ hd v 0
    exact recordInv_setPort h (recordOk_of_block (receives_recordOk hx (h p)) rfl)
  | acknowledged p x hd v m hx =>
    exact recordInv_respond (recordInv_setPort h (acknowledged_recordOk (receives_recordOk hx (h p)) m)) hd v 0
  | leaseControl p x hd v l hx => exact recordInv_respond (s := { s.setPort p x with lease := l }) (received hx) hd v 0
  | detach p q x hd v hx =>
    exact recordInv_of_blocks (recordInv_respond (p := p) (received hx) hd v 0) fun _ => by simp
  | claim p x hd r hx => exact recordInv_of_blocks (received hx) fun _ => by simp
  | request pr p w d as n hc hg =>
    refine recordInv_carryRequest (recordInv_of_ports h fun q => ?_) pr w d _ _ 0
    rw [tableWork_state]; rfl
  | requestOn pr p w d v as n hc hg => exact recordInv_carryRequest h pr w d v as n
  | access k as n hc hg => exact recordInv_of_ports h fun q => runAccess_port s q k 0
  | expiry pr k i as n hc hg => exact recordInv_carryExpiry (s := { s with table := s.table.expire i }) h pr k i _
  | expiryOn pr k i as n hc hg => exact recordInv_carryExpiry h pr k i _
  | stepV pr i x as n hc hg hj =>
    exact recordInv_carryStep (s := { s with table := viewStepTable s.table x i }) h pr _ _
  | stepS pr i as n hc hg hj => exact recordInv_carryStep (s := { s with table := listStepTable s.table i }) h pr _ _
  | stepOn pr i st next as n hc hg hj hn => exact recordInv_carryStep h pr _ _
  | stepF c i worked as n hc hg hj => exact recordInv_of_ports h fun q => endJob_port { s with table := _ } q c
  | stepD1 p worked as n hc hg hj => exact recordInv_of_ports h fun q => endGrant_port _ q
  | stepD2 p hj =>
    have detached : (s.setPort p (detachedPort (s.port p))).RecordInv := recordInv_setPort h rfl
    exact recordInv_of_ports detached fun q => arbitrate_port _ q
  | prstPin p hr | prstRise p => exact recordInv_setPort h (h p)
  | prstInit p hr hi => exact recordInv_of_blocks h fun q => resetPort_refusalBlock s p q
  | prstFall p hr hi hp => exact recordInv_of_blocks h fun q => by simp
  | rstnFall hr => intro q; cases q <;> rfl
  | initialised hi hc => exact recordInv_of_blocks h fun q => by cases q <;> rfl

/-- Settles O10: of the effects, only a capture, an Acknowledge, a step D2 and a reset touch REFUSAL_HELD or the record. -/
theorem refusalRecordKept : Obligations.RefusalRecordKept := by
  intro s t h hstep
  obtain ⟨rest, e⟩ := step_effect hstep
  exact e.recordInv h

/-! ### Get Status -/

/-- A Get Status of an ATTACHED port is answered with the values of the moment (R141, R153). -/
theorem takeGetStatus_eq (h : Head) (x : PortState) (ha : s.sweep.attachment.get p = .attached) :
    takeGetStatus p h (s.setPort p x) = s.setPort p (x.answering h.tag .done
      ([conditionBits x.conditions, natByte x.queue.length, 0x00#8] ++ recordBytes x.record)) := by
  simp only [takeGetStatus, port_setPort_self, setPort_sweep, ha]
  rw [respond_done_answering _ _ _ _ _ rfl, port_setPort_self, setPort_setPort]
  rfl

/-- Settles O26: the checks pass, and the answer is built of the port as the frame has left it. -/
theorem getStatusReportsPort : Obligations.GetStatusReportsPort := by
  intro p tag s ht
  obtain ⟨-, -, -, ha⟩ := id ht
  exact (exec_request .getStatus tag ht rfl fun hs => nomatch hs).trans (congrArg _ (takeGetStatus_eq _ _ ha))

end Sys2Proof.Machine



/-! ## The values of a Pool Report (R83, R123, R129, R143) -/
namespace Sys2Proof.Machine

/-! ### Slots by their state -/

/-- The slot is FREE (R1). -/
def Record.isFree (r : Record) : Bool := r.body = .free

/-- Every record is FREE, LIVE or RETIRING, and only one of these (R1). -/
theorem countP_states (rs : List Record) :
    rs.countP Record.isFree + rs.countP Record.isRetiring + rs.countP Record.isLive = rs.length := by
  induction rs with
  | nil => rfl
  | cons r rs ih =>
    simp only [List.countP_cons, List.length_cons, Record.isFree, Record.isRetiring, Record.isLive]
    obtain ⟨g, b⟩ := r
    cases b <;> simp <;> omega

/-- The records, slot by slot. -/
theorem records_toList (t : Table) : t.records.toList = (List.finRange 1024).map t.record := by
  refine List.ext_getElem (by simp) fun i h1 h2 => ?_
  simp [Table.record, Vector.get_eq_getElem]

/-- Slots listed once each are as many as the records that the list stands for. -/
theorem length_eq_countP_records {t : Table} {l : List Slot} {f : Record → Bool} (hn : l.Nodup)
    (hm : ∀ i, i ∈ l ↔ f (t.record i) = true) : l.length = t.records.toList.countP f := by
  have hperm : l.Perm ((List.finRange 1024).filter (fun i => f (t.record i))) :=
    (List.perm_ext_iff_of_nodup hn ((List.nodup_finRange 1024).filter _)).2 fun i => by simp [hm]
  rw [hperm.length_eq, ← List.countP_eq_length_filter, records_toList, List.countP_map]
  rfl

theorem freeList_length {t : Table} {l : List Slot} (h : t.slotsIn l) :
    t.freeList.length = t.records.toList.countP Record.isFree := by
  obtain ⟨hn, hm, -, -⟩ := h
  exact length_eq_countP_records hn fun i => by rw [hm, Record.isFree, decide_eq_true_eq]

theorem retiringCount_eq {t : Table} {l : List Slot} (h : t.slotsIn l) : t.retiringCount = l.length := by
  obtain ⟨-, -, hn, hm⟩ := h
  exact (length_eq_countP_records hn hm).symm

/-- A current retirement job holds one slot, any other engine none (R116). -/
theorem jobSlots_length_le (w : Sweep) : w.jobSlots.length ≤ 1 := by
  unfold Sweep.jobSlots
  split <;> simp

/-! ### Subscriptions by their port -/

/-- The subscriptions in use are those of the four ports (R83). -/
theorem portCount_sum (t : Table) :
    t.portCount .a + t.portCount .b + t.portCount .c + t.portCount .d = t.pool.length := by
  unfold Table.portCount
  induction t.pool with
  | nil => rfl
  | cons u us ih =>
    simp only [List.countP_cons, List.length_cons]
    cases u.port <;> simp <;> omega

/-! ### The report -/

/-- Settles O40: each agreement is the count of one of the invariants' lists. -/
theorem poolReportCountsAgree : Obligations.PoolReportCountsAgree := by
  intro s hv hsweep hslot hpool
  obtain ⟨hw, -, -⟩ := (sweepInv_iff s).1 hsweep
  have hslots : s.table.slotsIn s.sweep.slots := (slotInv_iff s).1 hslot hv
  obtain ⟨hlen, -, -⟩ := hpool hv
  have hretiring : s.table.retiringCount = s.sweep.fifo.length + s.sweep.jobSlots.length :=
    (retiringCount_eq hslots).trans List.length_append
  have hfive : s.table.retiringCount ≤ 5 := by
    have hfifo := hw.fifo
    have hjob := jobSlots_length_le s.sweep
    omega
  refine ⟨?slots, hretiring, hfive, ?pool, fun j p w d v as n hg hj hd2 => ?claim, fun p hj => ?detached, fun p hf => ?flag⟩
  case slots =>
    rw [freeList_length hslots, Table.retiringCount, countP_states, Vector.length_toList]
  case pool =>
    have hsum := portCount_sum s.table
    rw [Table.poolFree, Config.poolSize]
    omega
  case claim =>
    have htakes : j.takesGrant = true := by
      rcases j with ⟨i, st⟩ | ⟨q, _ | _⟩
      · rfl
      · rfl
      · exact absurd rfl (hd2 q)
    refine (hw.stands ((atGrantStep_of_job hj).2 htakes)).resolve_right fun ho => ?_
    rw [owner_of_grant hg] at ho
    cases ho
  case detached => exact List.countP_eq_zero.2 fun u hu => by simpa using (hw.detached p hj).1 u hu
  case flag => exact (hw.detaching p).2 (.inl hf)

end Sys2Proof.Machine


/-! ## Frames and their CRC (R147, R149) -/
namespace Sys2Proof.Machine

/-! ### The CRC register -/

/-- A shift moves each bit up by one and combines it with the bit shifted out where 0x1021 has a 1. -/
theorem crcShift_bit_succ (r : Word16) (i : Nat) (hi : i + 1 < 16) :
    (crcShift r).getLsbD (i + 1) = ((r.msb && (0x1021#16).getLsbD (i + 1)) ^^ r.getLsbD i) := by
  have hi' : i < 16 := by omega
  unfold crcShift
  cases r.msb <;> simp [hi, hi', Bool.xor_comm]

/-- The bit shifted out comes back at the bottom, 0x1021 being odd. -/
theorem crcShift_bit_zero (r : Word16) : (crcShift r).getLsbD 0 = r.msb := by
  unfold crcShift
  cases r.msb <;> simp

theorem crcShift_injective : Function.Injective crcShift := by
  intro r r' h
  have hmsb : r.msb = r'.msb := by rw [← crcShift_bit_zero, h, crcShift_bit_zero]
  refine BitVec.eq_of_getLsbD_eq fun i hi => ?_
  rcases Nat.lt_or_ge (i + 1) 16 with hlow | htop
  · have hbit := crcShift_bit_succ r i hlow
    rw [h, crcShift_bit_succ r' i hlow, hmsb] at hbit
    exact (Bool.xor_right_inj.1 hbit).symm
  · obtain rfl : i = 15 := by omega
    simpa [BitVec.msb_eq_getLsbD_last] using hmsb

/-- Eight shifts, the steps of one byte (R149), lose nothing. -/
theorem crcByte_eq_iff (r r' : Word16) (b b' : Byte) :
    crcByte r b = crcByte r' b' ↔ r ^^^ (b ++ 0#8) = r' ^^^ (b' ++ 0#8) := by
  simp only [crcByte, crcShift_injective.eq_iff]

/-- The same byte brings two registers together only where they were equal. -/
theorem crcByte_injective_register (b : Byte) : Function.Injective (crcByte · b) := fun r r' h =>
  (BitVec.xor_left_inj _).1 ((crcByte_eq_iff r r' b b).1 h)

/-- So does any run of bytes, the same for both. -/
theorem foldl_crcByte_injective (bs : List Byte) : Function.Injective (bs.foldl crcByte) := by
  induction bs with
  | nil => exact fun _ _ h => h
  | cons b bs ih => exact fun r r' h => crcByte_injective_register b (ih h)

/-- Two bytes bring one register to the same only where they are equal. -/
theorem crcByte_injective_byte (r : Word16) : Function.Injective (crcByte r) := fun b b' h =>
  (BitVec.append_left_inj 0#8).1 ((BitVec.xor_right_inj r).1 ((crcByte_eq_iff r r b b').1 h))

/-- Settles O4: up to the byte the registers agree, the byte parts them, and no byte after it brings them together. -/
theorem oneByteChangedChangesCrc : Obligations.OneByteChangedChangesCrc := by
  intro before after b b' hb h
  simp only [crc, List.foldl_append, List.foldl_cons] at h
  exact hb (crcByte_injective_byte _ (foldl_crcByte_injective after h))

/-! ### Frames -/

/-- What a request transaction judged good holds, byte for byte (R147). -/
theorem judge_cons_eq_good (n tag code : Byte) (rest : List Byte) (extra : Fin 8) (code' tag' : Byte)
    (body : List Byte) :
    judge (n :: tag :: code :: rest) extra = .good code' tag' body ↔
      extra = 0 ∧ n.toNat = body.length + 4 ∧ body.length ≤ 120 ∧ tag = tag' ∧ code = code' ∧
        rest = body ++ bytes2 (crc (n :: tag :: code :: body)) := by
  simp only [judge]
  constructor
  · intro h
    split at h
    · next hn =>
      obtain ⟨h4, h124, hlen, hextra⟩ := hn
      split at h
      · next hcrc =>
        obtain ⟨rfl, rfl, rfl⟩ := Judgement.good.inj h
        have hbody : (rest.take (n.toNat - 4)).length = n.toNat - 4 := by rw [List.length_take]; omega
        exact ⟨hextra, by omega, by rw [hbody]; omega, rfl, rfl, by rw [← hcrc, List.take_append_drop]⟩
      · cases h
    · cases h
  · rintro ⟨rfl, hn, hb, rfl, rfl, rfl⟩
    have hlen : n.toNat - 4 = body.length := by omega
    have hcovered : 4 ≤ n.toNat ∧ n.toNat ≤ 124 ∧
        (body ++ bytes2 (crc (n :: tag :: code :: body))).length + 2 = n.toNat ∧ (0 : Fin 8) = 0 := by
      refine ⟨by omega, by omega, ?_, rfl⟩
      simp only [List.length_append, bytes2, List.length_cons, List.length_nil]
      omega
    rw [if_pos hcovered, hlen, List.take_left, List.drop_left, if_pos rfl]

/-- The frame of a body that fits, by its fields: the length byte, the tag, the code and the rest (R147, R156). -/
theorem eq_frameBytes_iff (n tag code : Byte) (rest : List Byte) (code' tag' : Byte) (body : List Byte)
    (hb : body.length ≤ 120) :
    n :: tag :: code :: rest = frameBytes code' tag' body ↔
      n.toNat = body.length + 4 ∧ tag = tag' ∧ code = code' ∧ rest = body ++ bytes2 (crc (n :: tag :: code :: body)) := by
  have hn : n = BitVec.ofNat 8 (body.length + 4) ↔ n.toNat = body.length + 4 := by
    rw [BitVec.toNat_eq, BitVec.toNat_ofNat, Nat.mod_eq_of_lt (by omega)]
  simp only [frameBytes, List.cons_append, List.cons.injEq, ← hn]
  constructor
  · rintro ⟨rfl, rfl, rfl, rfl⟩; exact ⟨rfl, rfl, rfl, rfl⟩
  · rintro ⟨rfl, rfl, rfl, rfl⟩; exact ⟨rfl, rfl, rfl, rfl⟩

/-- Settles O3: a run of bytes too short for the length byte, the tag and the code is no frame; of any other, both sides say
the same of each part. -/
theorem judgeAcceptsExactlyFrames : Obligations.JudgeAcceptsExactlyFrames := by
  intro bytes extra code tag body
  match bytes with
  | n :: tag' :: code' :: rest =>
    rw [judge_cons_eq_good]
    constructor
    · rintro ⟨he, hn, hb, hrest⟩
      exact ⟨he, hb, (eq_frameBytes_iff _ _ _ _ _ _ _ hb).2 ⟨hn, hrest⟩⟩
    · rintro ⟨he, hb, hframe⟩
      obtain ⟨hn, hrest⟩ := (eq_frameBytes_iff _ _ _ _ _ _ _ hb).1 hframe
      exact ⟨he, hn, hb, hrest⟩
  | [] | [_] | [_, _] => simp [judge, frameBytes]

end Sys2Proof.Machine


/-! ## Bodies that spell a request (R151, R156, R157) -/
namespace Sys2Proof.Machine

/-! ### Single fields, and the bytes they came from -/

theorem bytes2_word2 (h l : Byte) : bytes2 (word2 h l) = [h, l] := by
  rw [bytes2, word2, BitVec.extractLsb'_append_eq_left, BitVec.extractLsb'_append_eq_right]

theorem bytes4_word4 (b3 b2 b1 b0 : Byte) : bytes4 (word4 b3 b2 b1 b0) = [b3, b2, b1, b0] := by
  have h3 : (word4 b3 b2 b1 b0).extractLsb' 24 8 = b3 := by
    rw [word4, BitVec.extractLsb'_append_eq_of_le (by decide), BitVec.extractLsb'_append_eq_of_le (by decide),
      BitVec.extractLsb'_append_eq_left]
  have h2 : (word4 b3 b2 b1 b0).extractLsb' 16 8 = b2 := by
    rw [word4, BitVec.extractLsb'_append_eq_of_le (by decide), BitVec.extractLsb'_append_eq_of_le (by decide),
      BitVec.extractLsb'_append_eq_right]
  have h1 : (word4 b3 b2 b1 b0).extractLsb' 8 8 = b1 := by
    rw [word4, BitVec.extractLsb'_append_eq_of_le (by decide), BitVec.extractLsb'_append_eq_right]
  have h0 : (word4 b3 b2 b1 b0).extractLsb' 0 8 = b0 := by
    rw [word4, BitVec.extractLsb'_append_eq_right]
  rw [bytes4, h3, h2, h1, h0]

@[simp] theorem localByte_localOfByte (b : Byte) : localByte (localOfByte b) = b := rfl

theorem portByte_of_some {b : Byte} {p : Port} (h : portOfByte? b = some p) : portByte p = b := by
  unfold portOfByte? at h
  split at h <;> cases h <;> exact (BitVec.eq_of_toNat_eq ‹_›).symm

theorem flagByte_of_some {b : Byte} {w : Bool} (h : flagOfByte? b = some w) : flagByte w = b := by
  unfold flagOfByte? at h
  split at h <;> cases h <;> exact (BitVec.eq_of_toNat_eq ‹_›).symm

theorem rightsByte_of_some {b : Byte} {r : Rights} (h : rightsOfByte? b = some r) : rightsByte r = b := by
  unfold rightsOfByte? at h
  split at h <;> cases h <;> exact (BitVec.eq_of_toNat_eq ‹_›).symm

theorem modeByte_of_some {b : Byte} {m : Mode} (h : modeOfByte? b = some m) : modeByte m = b := by
  unfold modeOfByte? at h
  split at h <;> cases h <;> exact (BitVec.eq_of_toNat_eq ‹_›).symm

theorem periodByte_of_some {b : Byte} {t : TickPeriod} (h : periodOfByte? b = some t) : periodByte t = b := by
  unfold periodOfByte? at h
  split at h <;> cases h <;> exact (BitVec.eq_of_toNat_eq ‹_›).symm

theorem slotBytes_of_some {h l : Byte} {i : Slot} (hi : slotOfWord? (word2 h l) = some i) : slotBytes i = [h, l] := by
  unfold slotOfWord? at hi
  split at hi <;> cases hi
  rw [slotBytes, BitVec.ofNat_toNat, BitVec.setWidth_eq, bytes2_word2]

theorem ticksBytes_of_some {h l : Byte} {t : Ticks} (ht : ticksOfWord? (word2 h l) = some t) : ticksBytes t = [h, l] := by
  unfold ticksOfWord? at ht
  split at ht <;> cases ht
  rw [ticksBytes, BitVec.ofNat_toNat, BitVec.setWidth_eq, bytes2_word2]

/-! ### Bodies -/

/-- A body that is read as a request is the body of that request, whose fields are in range (R151, R157). -/
theorem spelled_of_parse (c : Code) (body : List Byte) (r : Request) (h : parse c body = some r) :
    r.code = c ∧ r.body = body ∧ r.inRange = true := by
  cases c with
  | read | refresh | unsubscribe => match body, h with
    | [l], rfl => exact ⟨rfl, rfl, rfl⟩
  | getStatus | holdLeases | resumeLeases | poolReport => match body, h with
    | [], rfl => exact ⟨rfl, rfl, rfl⟩
  | write => match body, h with
    | [l, v3, v2, v1, v0], rfl => simp [Request.code, Request.body, Request.inRange, bytes4_word4]
  | conditionalWrite => match body, h with
    | [l, e1, e0, v3, v2, v1, v0], rfl =>
      simp [Request.code, Request.body, Request.inRange, bytes2_word2, bytes4_word4]
  | groupRead => match body, h with
    | n :: ls, h =>
      simp only [parse] at h
      split at h <;> cases h
      next hn =>
      obtain ⟨h1, h8, hl⟩ := hn
      have hmap : (ls.map localOfByte).map localByte = ls := by simp [Function.comp_def]
      simp [Request.code, Request.body, Request.inRange, hl, h1, h8, hmap]
  | drain => match body, h with
    | [m], h =>
      simp only [parse] at h
      split at h <;> cases h
      next hm => simp [Request.code, Request.body, Request.inRange, hm]
  | acknowledge => match body, h with
    | [m], h =>
      simp only [parse] at h
      split at h <;> cases h
      next hm => simp [Request.code, Request.body, Request.inRange, hm]
  | detach => match body, h with
    | [q], h =>
      obtain ⟨port, hq, rfl⟩ := Option.map_eq_some_iff.1 h
      simp [Request.code, Request.body, Request.inRange, portByte_of_some hq]
  | unmap | readView => match body, h with
    | [q, l], h =>
      obtain ⟨port, hq, rfl⟩ := Option.map_eq_some_iff.1 h
      simp [Request.code, Request.body, Request.inRange, portByte_of_some hq]
  | setTick => match body, h with
    | [t], h =>
      obtain ⟨period, ht, rfl⟩ := Option.map_eq_some_iff.1 h
      simp [Request.code, Request.body, Request.inRange, periodByte_of_some ht]
  | retire | readSlot => match body, h with
    | [s1, s0], h =>
      obtain ⟨i, hi, rfl⟩ := Option.map_eq_some_iff.1 h
      simp [Request.code, Request.body, Request.inRange, slotBytes_of_some hi]
  | createValue => match body, h with
    | [v3, v2, v1, v0, i1, i0], h =>
      obtain ⟨n, hn, rfl⟩ := Option.map_eq_some_iff.1 h
      simp [Request.code, Request.body, Request.inRange, bytes4_word4, ticksBytes_of_some hn]
  | subscribe => match body, h with
    | [l, m3, m2, m1, m0, r3, r2, r1, r0, m, w], h =>
      simp only [parse] at h
      split at h <;> cases h
      next hm hw =>
      simp [Request.code, Request.body, Request.inRange, bytes4_word4, modeByte_of_some hm, flagByte_of_some hw]
  | createAlias => match body, h with
    | [s1, s0, w], h =>
      simp only [parse] at h
      split at h <;> cases h
      next hi hw => simp [Request.code, Request.body, Request.inRange, slotBytes_of_some hi, flagByte_of_some hw]
  | map => match body, h with
    | [q, l, s1, s0, b], h =>
      simp only [parse] at h
      split at h <;> cases h
      next hq hi hb =>
      simp [Request.code, Request.body, Request.inRange, portByte_of_some hq, slotBytes_of_some hi, rightsByte_of_some hb]

/-- Settles O5: a request in range is read back from its body, and what is read spells the body it was read from. -/
theorem requestBodiesRoundTrip : Obligations.RequestBodiesRoundTrip := by
  refine ⟨ofByte_toByte, fun c body r => ⟨spelled_of_parse c body r, ?_⟩⟩
  rintro ⟨rfl, rfl, hr⟩
  exact parse_body r hr

end Sys2Proof.Machine


/-! ## A fall of RSTn, and a link that heeds no edge (R144, R154, R158) -/
namespace Sys2Proof.Machine

/-! ### The fall of RSTn -/

/-- The state after a fall of RSTn (R158). -/
def State.poweredOff (s : State) : State :=
  { s with
    rstn := .low
    initialising := false
    ports := ⟨s.ports.a.cleared, s.ports.b.cleared, s.ports.c.cleared, s.ports.d.cleared⟩
    table := Config.tableUnderReset s.freeDraws
    arbiter := .powerOn
    lease := .powerOn
    sweep := .powerOn
    freeDraws := s.freeDraws + 1 }

theorem exec_rstnFall {s : State} (hr : s.rstn = .high) : exec .rstnFall s = .next s.poweredOff := by
  simp only [exec, execRstnFall, hr, State.poweredOff]

/-- A port keeps the levels of its PRST and SEL pins, and nothing else. -/
theorem poweredOff_port (s : State) (p : Port) : s.poweredOff.port p = (s.port p).cleared := by
  cases p <;> rfl

theorem poweredOff_rdy (s : State) (p : Port) : s.poweredOff.rdy p = false := by
  rw [State.rdy, poweredOff_port]; rfl

theorem poweredOff_atn (s : State) (p : Port) : s.poweredOff.atn p = false := rfl

/-- Settles O53: the blocks take their power-on values, field by field, and so does every port but for its pins. -/
theorem rstnFallClearsBlocks : Obligations.RstnFallClearsBlocks := by
  intro s hr
  refine ⟨s.poweredOff, exec_rstnFall hr, rfl, rfl, rfl, rfl, rfl, rfl, rfl, rfl, rfl, rfl, rfl, fun p => ?_⟩
  have hclaim : s.poweredOff.arbiter.claims.get p = false := PerPort.get_replicate _ p
  have hflag : s.poweredOff.sweep.flags.get p = false := PerPort.get_replicate _ p
  have hattached : s.poweredOff.sweep.attachment.get p = .attached := PerPort.get_replicate _ p
  exact ⟨hclaim, hflag, hattached, poweredOff_port s p, poweredOff_rdy s p, poweredOff_atn s p⟩

/-! ### A link that heeds no edge -/

section
variable {s : State} {p : Port}

theorem hears_eq_false_iff : s.hears p = false ↔ s.linkOn p = false ∨ (s.port p).select = .low := by
  rw [← Bool.not_eq_true, hears_iff, not_and_or, Bool.not_eq_true, not_not]

theorem openRequest_unheeded (h : s.hears p = false) : openRequest p s = ignoreEdges p false s := by
  simp [openRequest, h]

theorem endRequest_unheeded (h : s.hears p = false) (edges : Nat) (judged : State → State) :
    endRequest p edges judged s = ignoreEdges p true s := by
  simp [endRequest, h]

theorem responseTransaction_unheeded (h : s.hears p = false) (t : Stretch) :
    responseTransaction p t s = ignoreEdges p t.ends s := by
  simp [responseTransaction, h]

theorem unknownTransaction_unheeded (h : s.hears p = false) (t : OtherStretch) :
    unknownTransaction p t s = ignoreEdges p t.stretch.ends s := by
  simp [unknownTransaction, h]

end

/-- Settles O60: where the link hears nothing, each transaction is `ignoreEdges`, select ending high or low. -/
theorem deadLinkIgnoresTransactions : Obligations.DeadLinkIgnoresTransactions := by
  intro p s hdead
  have h : s.hears p = false := hears_eq_false_iff.2 hdead
  intro left c b tag body bytes extra t
  have hopen (code : Byte) : requestTransaction p code .typeByte s = ignoreEdges p false s := openRequest_unheeded h
  have hframe (code : Byte) : requestTransaction p code (.frame tag body) s = ignoreEdges p true s :=
    endRequest_unheeded h _ _
  refine ⟨?typeByte, ?atEnd, ?stretch⟩
  case typeByte =>
    simp only [List.forall_mem_cons]
    exact ⟨by rw [exec_requestCommand, hopen]; rfl, congrArg _ (hopen b), congrArg _ (hopen b), nofun⟩
  case atEnd =>
    simp only [List.forall_mem_cons]
    exact ⟨by rw [exec_requestCommand, hframe]; rfl, congrArg _ (hframe b), congrArg _ (hframe b),
      congrArg _ (endRequest_unheeded h _ _), nofun⟩
  case stretch =>
    simp only [List.forall_mem_cons]
    exact ⟨congrArg _ (unknownTransaction_unheeded h t), congrArg _ (responseTransaction_unheeded h t.stretch), nofun⟩

end Sys2Proof.Machine


/-! ## The release of RSTn, the end of initialisation, and a stopped REFCLK (R159 to R161) -/
namespace Sys2Proof.Machine

variable {s : State}

/-! ### The release and the end of initialisation -/

theorem exec_rstnRelease (hr : s.rstn = .low) : exec .rstnRelease s = .next
    { s with rstn := .high, initialising := true, lease := { s.lease with divider := 0 } } := by
  simp only [exec, execRstnRelease, hr]

/-- The state after the end of initialisation (R160). -/
def State.initialised (s : State) : State :=
  { s with
    initialising := false
    table := .cleared
    ports := ⟨s.ports.a.initialised, s.ports.b.initialised, s.ports.c.initialised, s.ports.d.initialised⟩ }

theorem exec_initialisationEnd (hi : s.initialising = true) (hc : s.clocked = true) :
    exec .initialisationEnd s = .next s.initialised := by
  simp only [exec, execInitialisationEnd, hi, hc, Bool.and_self, if_true, State.initialised]

theorem initialised_port (p : Port) : s.initialised.port p = (s.port p).initialised := by
  cases p <;> rfl

/-- DETACHED holds ATN high (R114, R160). -/
theorem initialised_atn (hr : s.rstn = .high) (p : Port) : s.initialised.atn p = true := by
  have hdetached : (s.initialised.port p).conditions.get .detached = true := by rw [initialised_port]; rfl
  exact (atn_iff _ p).2 ⟨hr, .inr ⟨.detached, hdetached⟩⟩

/-- Settles O54: the table memory is the cleared one, whose contents its own lemmas give. -/
theorem releaseAndInitialisation : Obligations.ReleaseAndInitialisation := by
  intro s
  refine ⟨exec_rstnRelease, fun hi hc => ⟨s.initialised, exec_initialisationEnd hi hc, rfl, rfl, rfl, rfl, rfl, rfl, rfl,
    cleared_record, cleared_freeList, cleared_entry, cleared_pool, fun p => ⟨initialised_port p, ?_⟩⟩⟩
  exact initialised_atn ((clocked_iff s).1 hc).1 p

/-! ### Without REFCLK -/

theorem clocked_of_stopped (h : s.refclk = false) : s.clocked = false := by
  rw [State.clocked, h, Bool.and_false]

/-- Settles O55: each of these commands asks for REFCLK where it would act, and a grant's command stays also where the table is
not its own. -/
theorem stoppedClockHoldsWork : Obligations.StoppedClockHoldsWork := by
  intro s g c
  refine ⟨rfl, rfl, fun hstopped => ?_⟩
  have hc := clocked_of_stopped hstopped
  simp only [List.forall_mem_cons]
  refine ⟨?tick, ?initialisationEnd, ?portEngineGrant, ?leaseAccess, ?leaseExpiry, ?stepV, ?stepS, ?stepF, ?stepD1, nofun⟩
  case tick => simp [exec, execTick, hc]
  case initialisationEnd => simp [exec, execInitialisationEnd, hc]
  case portEngineGrant | leaseAccess | leaseExpiry | stepV | stepS | stepF | stepD1 =>
    simp only [exec, execPortEngineGrant, execLeaseAccess, execLeaseExpiry, execStepV, execStepS, execStepF, execStepD1, hc]
    split <;> rfl

end Sys2Proof.Machine


/-! ## The queue of commands

The rest of the state never depends on the commands that wait (log entries 18, 21): every operation of the model commutes
with putting another queue in their place. -/
namespace Sys2Proof.Machine

/-- `s` with `q` as the commands waiting. -/
def State.queued (s : State) (q : List Instr) : State := { s with pending := q }

variable (s : State) (q : List Instr)

@[simp] theorem queued_rstn : (s.queued q).rstn = s.rstn := rfl
@[simp] theorem queued_table : (s.queued q).table = s.table := rfl
@[simp] theorem queued_arbiter : (s.queued q).arbiter = s.arbiter := rfl
@[simp] theorem queued_lease : (s.queued q).lease = s.lease := rfl
@[simp] theorem queued_sweep : (s.queued q).sweep = s.sweep := rfl
@[simp] theorem queued_port (p : Port) : (s.queued q).port p = s.port p := rfl
@[simp] theorem queued_claimed : (s.queued q).claimed = s.claimed := by
  funext r; cases r <;> rfl

/-- The operation neither reads nor changes the commands waiting. -/
def IgnoresQueue (f : State → State) : Prop := ∀ s q, f (s.queued q) = (f s).queued q

/-! ### Operations put together -/

theorem IgnoresQueue.of_eq {f : State → State} (hf : IgnoresQueue f) {s u : State} {q : List Instr}
    (h : u = s.queued q) : f u = (f s).queued q := h ▸ hf s q

theorem IgnoresQueue.comp {f g : State → State} (hf : IgnoresQueue f) (hg : IgnoresQueue g) :
    IgnoresQueue fun s => f (g s) := fun s q => hf.of_eq (hg s q)

/-- A branch whose condition does not ask what waits: the same one is taken. -/
theorem ite_queued {c c' : Prop} [Decidable c] [Decidable c'] {s t u v : State} {q : List Instr} (hc : c' = c)
    (hs : u = s.queued q) (ht : v = t.queued q) : (if c' then u else v) = (if c then s else t).queued q := by
  subst hc hs ht
  by_cases h : c' <;> simp only [h, if_true, if_false]

/-- Work that waits for REFCLK (log entry 14). -/
theorem IgnoresQueue.clocked {f : State → State} (hf : IgnoresQueue f) :
    IgnoresQueue fun s => if s.clocked then f s else s :=
  fun s q => ite_queued rfl (hf s q) rfl

/-! ### Conditions, responses and arrivals -/

theorem ignoresQueue_setCondition (k : Condition) (p : Port) : IgnoresQueue (setCondition k p) :=
  fun _ _ => ite_queued rfl rfl rfl

theorem ignoresQueue_capture (p : Port) (r : RefusalRecord) : IgnoresQueue (capture p r) :=
  fun _ _ => ite_queued rfl rfl rfl

theorem ignoresQueue_respond (p : Port) (h : Head) (v : Verdict) (n : Nat) : IgnoresQueue (respond p h v n) := fun s q => by
  have captured : (if v.result = .done then s.queued q else capture p (refusalOf h v) (s.queued q)) =
      (if v.result = .done then s else capture p (refusalOf h v) s).queued q :=
    ite_queued rfl rfl (ignoresQueue_capture p _ s q)
  simp only [respond, captured]
  rfl

theorem ignoresQueue_takeArrivals (as : List Arrival) : IgnoresQueue (takeArrivals as) := fun s q =>
  calc takeArrivals as (s.queued q)
    _ = { s.queued q with ports := (takeArrivals as (s.queued q)).ports } := takeArrivals_eq _ as
    _ = { s.queued q with ports := (takeArrivals as s).ports } := by
      rw [takeArrivals_ports_congr as (s := s) (t := s.queued q) rfl rfl]
    _ = ({ s with ports := (takeArrivals as s).ports } : State).queued q := rfl
    _ = (takeArrivals as s).queued q := by rw [← takeArrivals_eq]

theorem arrivalsRemove_queued (as : List Arrival) : arrivalsRemove as (s.queued q) = arrivalsRemove as s :=
  arrivalsRemove_congr as rfl rfl

theorem ignoresQueue_advance (pr : Progress) (g : Grant) : IgnoresQueue (advance pr g) := fun s q => by
  simp only [advance, ignoresQueue_takeArrivals _ s q, arrivalsRemove_queued]
  rfl

/-! ### The arbiter and the ends of grants -/

theorem ignoresQueue_beginGrant (r : Requester) : IgnoresQueue (beginGrant r) := fun s q => by
  cases r with
  | port p =>
    simp only [beginGrant, queued_port]
    cases (s.port p).work <;> rfl
  | lease | sweep => rfl

theorem ignoresQueue_arbitrate : IgnoresQueue arbitrate := fun s q => by
  simp only [arbitrate, queued_arbiter, queued_claimed]
  cases s.arbiter.grant with
  | some g => rfl
  | none =>
    cases s.arbiter.pointer.following.find? s.claimed with
    | none => rfl
    | some r => exact ignoresQueue_beginGrant r s q

theorem ignoresQueue_endGrant : IgnoresQueue endGrant := ignoresQueue_arbitrate.comp fun _ _ => rfl

/-! ### The table work of a request -/

/-- The work with `q` as the commands waiting. -/
def Worked.queued (k : Worked) (q : List Instr) : Worked := { k with state := k.state.queued q }

theorem Worked.ite_queued (c : Prop) [Decidable c] (k k' : Worked) :
    (if c then k else k').queued q = if c then k.queued q else k'.queued q := apply_ite (·.queued q) c k k'

theorem workRetire_queued (i : Slot) : workRetire i (s.queued q) = (workRetire i s).queued q := by
  simp only [workRetire, queued_table, queued_sweep]
  cases (s.table.record i).body with
  | live c => rw [Worked.ite_queued]; rfl
  | free | retiring c => rfl

theorem workSubscribe_queued (p : Port) (l : Local) (mask reference : Word32) (mode : Mode) (quality : Bool) :
    workSubscribe p l mask reference mode quality (s.queued q) =
      (workSubscribe p l mask reference mode quality s).queued q := by
  simp only [workSubscribe, queued_table]
  cases resolve s.table .read p l with
  | refused r via stop hops => rfl
  | reached target via v hops =>
    cases s.table.subscription? p l with
    | some old => rfl
    | none => rw [Worked.ite_queued]; rfl

theorem tableWork_queued (p : Port) (r : Request) : tableWork p r (s.queued q) = (tableWork p r s).queued q := by
  cases r with
  | read l =>
    simp only [tableWork, workRead, queued_table]
    cases resolve s.table .read p l <;> rfl
  | write l x =>
    simp only [tableWork, workWrite, queued_table]
    cases resolve s.table .write p l <;> rfl
  | conditionalWrite l e x =>
    simp only [tableWork, workConditionalWrite, queued_table]
    cases resolve s.table .write p l with
    | reached i via v hops => rw [Worked.ite_queued]; rfl
    | refused r via stop hops => rfl
  | refresh l =>
    simp only [tableWork, workRefresh, queued_table]
    cases resolve s.table .write p l with
    | reached i via v hops => rw [Worked.ite_queued]; rfl
    | refused r via stop hops => rfl
  | subscribe l m f mode o => exact workSubscribe_queued s q p l m f mode o
  | unsubscribe l =>
    simp only [tableWork, workUnsubscribe, queued_table]
    cases s.table.subscription? p l <;> rfl
  | createValue v i =>
    simp only [tableWork, workCreateValue, queued_table]
    cases s.table.freeList <;> rfl
  | createAlias t w =>
    simp only [tableWork, workCreateAlias, queued_table]
    cases s.table.freeList <;> rw [Worked.ite_queued] <;> rfl
  | retire i => exact workRetire_queued s q i
  | map port l i rights =>
    simp only [tableWork, workMap, queued_table]
    cases s.table.entry port l <;> rw [Worked.ite_queued] <;> rfl
  | unmap port l =>
    simp only [tableWork, workUnmap, queued_table]
    cases s.table.entry port l <;> rfl
  | readView port l =>
    simp only [tableWork, workReadView, queued_table]
    cases s.table.entry port l <;> rfl
  | groupRead _ | readSlot _ | poolReport | drain _ | getStatus | acknowledge _ | detach _ | setTick _ | holdLeases
  | resumeLeases => rfl

theorem ignoresQueue_carryRequest (pr : Progress) (p : Port) (w : Work) (d : Bool) (v : Verdict) (as : List Arrival)
    (n : Nat) : IgnoresQueue (carryRequest pr p w d v as n) := fun s q => by
  have hadvance := ignoresQueue_advance pr ⟨.port p w d (some v), as, n⟩ s q
  cases pr with
  | arrivals k => exact hadvance
  | toEnd =>
    simp only [carryRequest, hadvance, arrivalsRemove_queued]
    cases d
    · exact ignoresQueue_endGrant.comp (ignoresQueue_respond p w.head v _) _ q
    · exact ignoresQueue_endGrant _ q

/-! ### The engines -/

theorem ignoresQueue_completePeriod : IgnoresQueue completePeriod := fun s q => by
  by_cases hignored : s.initialising = true ∨ s.lease.hold = .held ∨ 15 ≤ s.lease.pending
  · rw [completePeriod_ignored hignored, completePeriod_ignored (s := s.queued q) hignored]
    rfl
  · obtain ⟨hi, hh, hp⟩ : s.initialising = false ∧ s.lease.hold = .running ∧ s.lease.pending < 15 := by
      simp only [not_or, Bool.not_eq_true, Nat.not_le] at hignored
      obtain ⟨hi, hh, hp⟩ := hignored
      refine ⟨hi, ?_, hp⟩
      cases h : s.lease.hold
      · rfl
      · exact absurd h hh
    rw [completePeriod_counted hi hh hp, completePeriod_counted (s := s.queued q) hi hh hp, ← ignoresQueue_arbitrate]
    rfl

theorem ignoresQueue_runAccess (k lo : Nat) : IgnoresQueue (runAccess k lo) := fun s q => by
  unfold runAccess
  rw [queued_table]
  cases s.table.nextExpiring k lo with
  | some i => rfl
  | none => exact ignoresQueue_endGrant.of_eq rfl

theorem ignoresQueue_carryExpiry (pr : Progress) (k : Nat) (i : Slot) (g : Grant) :
    IgnoresQueue (carryExpiry pr k i g) := fun s q => by
  have hadvance := ignoresQueue_advance pr g s q
  cases pr with
  | toEnd => simp only [carryExpiry, hadvance, ignoresQueue_runAccess k _ _ q]
  | arrivals n => exact hadvance

theorem ignoresQueue_carryStep (pr : Progress) (next : Job) (g : Grant) : IgnoresQueue (carryStep pr next g) := by
  have ended : IgnoresQueue (nextStep next) := ignoresQueue_endGrant.comp fun _ _ => rfl
  cases pr with
  | toEnd => exact ended.comp (ignoresQueue_advance .toEnd g)
  | arrivals n => exact ignoresQueue_advance (.arrivals n) g

theorem endJob_afterNextGrant : endJob .afterNextGrant s =
    if s.choiceLeft.arbiter.grant.isSome then s.choiceLeft
    else arbitrate { s.choiceLeft with sweep := s.choiceLeft.sweep.choose } := by
  simp only [endJob]
  split
  · next hg => rw [State.choiceLeft, hg]; rfl
  · next hg => rw [State.choiceLeft, hg]; rfl

theorem ignoresQueue_endJob (c : JobChoice) : IgnoresQueue (endJob c) := fun s q => by
  cases c with
  | atOnce =>
    simp only [endJob]
    exact ignoresQueue_arbitrate.of_eq rfl
  | afterNextGrant =>
    have hleft : (s.queued q).choiceLeft = s.choiceLeft.queued q := ignoresQueue_arbitrate.of_eq rfl
    rw [endJob_afterNextGrant, endJob_afterNextGrant, hleft]
    exact ite_queued rfl rfl (ignoresQueue_arbitrate.of_eq rfl)

theorem ignoresQueue_withdrawClaim (p : Port) : IgnoresQueue (withdrawClaim p) :=
  fun _ _ => ite_queued rfl rfl rfl

theorem ignoresQueue_markDetachment (p : Port) : IgnoresQueue (markDetachment p) :=
  ignoresQueue_arbitrate.comp fun _ _ => rfl

theorem ignoresQueue_resetPort (p : Port) : IgnoresQueue (resetPort p) := fun s q => by
  simp only [resetPort, ignoresQueue_withdrawClaim p s q]
  rfl

/-! ### Frames -/

theorem ignoresQueue_raiseClaim (p : Port) (h : Head) (r : Request) : IgnoresQueue (raiseClaim p h r) :=
  ignoresQueue_arbitrate.comp fun _ _ => rfl

theorem ignoresQueue_dispatch (p : Port) (h : Head) (r : Request) : IgnoresQueue (dispatch p h r) := fun s q => by
  have answered (v : Verdict) {t u : State} (hu : u = t.queued q) :
      respond p h v 0 u = (respond p h v 0 t).queued q := (ignoresQueue_respond p h v 0).of_eq hu
  cases r with
  | drain m | getStatus | acknowledge mask | setTick τ => exact answered _ rfl
  | holdLeases | resumeLeases =>
    simp only [dispatch, takeHoldLeases, takeResumeLeases, queued_lease]
    cases s.lease.hold <;> exact answered _ rfl
  | detach x =>
    exact (ignoresQueue_markDetachment x).of_eq ((ignoresQueue_withdrawClaim x).of_eq (answered _ rfl))
  | read _ | groupRead _ | write _ _ | conditionalWrite _ _ _ | refresh _ | subscribe _ _ _ _ _ | unsubscribe _
  | createValue _ _ | createAlias _ _ | retire _ | map _ _ _ _ | unmap _ _ | readView _ _ | readSlot _ | poolReport =>
    exact ignoresQueue_raiseClaim p h _ s q

theorem ignoresQueue_discardHeld (p : Port) : IgnoresQueue (discardHeld p) := fun s q => by
  simp only [discardHeld, queued_port]
  cases (s.port p).held with
  | none => rfl
  | some r => exact (ignoresQueue_setCondition .discarded p).of_eq rfl

theorem check_queued (p : Port) (code : Byte) (body : List Byte) :
    check p code body (s.queued q) = check p code body s := rfl

theorem ignoresQueue_takeFrame (p : Port) (code tag : Byte) (body : List Byte) :
    IgnoresQueue (takeFrame p code tag body) := fun s q => by
  simp only [takeFrame, queued_port, ignoresQueue_discardHeld p s q, check_queued]
  cases (s.port p).work with
  | some w => exact ignoresQueue_setCondition .overrun p s q
  | none =>
    cases check p code body (discardHeld p s) with
    | refused r loc => exact ignoresQueue_respond p _ _ 0 _ q
    | dispatched loc r => exact ignoresQueue_dispatch p _ r _ q

/-! ### Transactions -/

theorem ignoresQueue_openRequest (p : Port) : IgnoresQueue (openRequest p) := fun s q => by
  refine ite_queued rfl ?_ rfl
  rw [queued_port]
  cases (s.port p).opened <;> rfl

theorem ignoresQueue_endRequest (p : Port) (edges : Nat) {judged : State → State} (hj : IgnoresQueue judged) :
    IgnoresQueue (endRequest p edges judged) := fun _ _ =>
  ite_queued rfl (ite_queued rfl (hj.of_eq rfl) rfl) rfl

theorem ignoresQueue_requestTransaction (p : Port) (code : Byte) (t : Transfer) :
    IgnoresQueue (requestTransaction p code t) := by
  cases t with
  | typeByte => exact ignoresQueue_openRequest p
  | frame tag body =>
    refine ignoresQueue_endRequest p _ ?_
    split
    · exact ignoresQueue_takeFrame p code tag body
    · exact ignoresQueue_setCondition .linkError p

theorem ignoresQueue_responseTransaction (p : Port) (t : Stretch) :
    IgnoresQueue (responseTransaction p t) := fun s q => by
  refine ite_queued rfl ?_ rfl
  rw [queued_port]
  split <;> rfl

theorem ignoresQueue_unknownTransaction (p : Port) (t : OtherStretch) :
    IgnoresQueue (unknownTransaction p t) := fun s q => by
  refine ite_queued rfl ?_ rfl
  rw [queued_port]
  split
  · exact ite_queued rfl (ignoresQueue_responseTransaction p t.stretch s q)
      (ite_queued rfl (ignoresQueue_openRequest p s q) ((ignoresQueue_setCondition .linkError p).of_eq rfl))
  · rfl
  · rfl

/-! ### Commands -/

/-- The command answers a next state, and answers the same one whatever waits, but for the commands waiting. -/
def CommandIgnoresQueue (f : State → Host.Outcome State Fault Refusal) : Prop :=
  ∀ s q, ∃ t, f s = .next t ∧ f (s.queued q) = .next (t.queued q)

theorem IgnoresQueue.next {f : State → State} (hf : IgnoresQueue f) : CommandIgnoresQueue fun s => .next (f s) :=
  fun s q => ⟨f s, rfl, congrArg _ (hf s q)⟩

/-- A command that stays without REFCLK (log entry 14). -/
theorem next_clocked {s u v : State} {q : List Instr} (h : u = v.queued q) :
    ∃ t, (.next (if s.clocked then v else s) : Host.Outcome State Fault Refusal) = .next t ∧
      (.next (if (s.queued q).clocked then u else s.queued q) : Host.Outcome State Fault Refusal) = .next (t.queued q) :=
  ⟨_, rfl, congrArg _ (ite_queued rfl h rfl)⟩

theorem ignoresQueue_execPortEngineGrant (pr : Progress) : CommandIgnoresQueue (execPortEngineGrant pr) := fun s q => by
  simp only [execPortEngineGrant, queued_arbiter, tableWork_queued]
  split
  · exact next_clocked ((ignoresQueue_carryRequest pr _ _ _ _ _ _).of_eq rfl)
  · exact next_clocked ((ignoresQueue_carryRequest pr _ _ _ _ _ _).of_eq rfl)
  · exact ⟨s, rfl, rfl⟩

theorem ignoresQueue_execLeaseAccess : CommandIgnoresQueue execLeaseAccess := fun s q => by
  simp only [execLeaseAccess, queued_arbiter]
  split
  · exact next_clocked (ignoresQueue_runAccess _ 0 s q)
  · exact ⟨s, rfl, rfl⟩

theorem ignoresQueue_execLeaseExpiry (pr : Progress) : CommandIgnoresQueue (execLeaseExpiry pr) := fun s q => by
  simp only [execLeaseExpiry, queued_arbiter]
  split
  · exact next_clocked ((ignoresQueue_carryExpiry pr _ _ _).of_eq rfl)
  · exact next_clocked (ignoresQueue_carryExpiry _ _ _ _ s q)
  · exact ⟨s, rfl, rfl⟩

theorem ignoresQueue_execStepV (pr : Progress) : CommandIgnoresQueue (execStepV pr) := fun s q => by
  simp only [execStepV, queued_arbiter, queued_sweep]
  split
  · exact next_clocked (ite_queued rfl (ignoresQueue_carryStep _ _ _ s q) ((ignoresQueue_carryStep pr _ _).of_eq rfl))
  · exact ⟨s, rfl, rfl⟩

theorem ignoresQueue_execStepS (pr : Progress) : CommandIgnoresQueue (execStepS pr) := fun s q => by
  simp only [execStepS, queued_arbiter, queued_sweep]
  split
  · exact next_clocked (ite_queued rfl (ignoresQueue_carryStep _ _ _ s q) ((ignoresQueue_carryStep pr _ _).of_eq rfl))
  · exact ⟨s, rfl, rfl⟩

theorem ignoresQueue_execStepF (c : JobChoice) : CommandIgnoresQueue (execStepF c) := fun s q => by
  simp only [execStepF, queued_arbiter, queued_sweep]
  split
  · exact next_clocked ((ignoresQueue_endJob c).of_eq rfl)
  · exact ⟨s, rfl, rfl⟩

theorem ignoresQueue_execStepD1 : CommandIgnoresQueue execStepD1 := fun s q => by
  simp only [execStepD1, queued_arbiter, queued_sweep]
  split
  · exact next_clocked (ignoresQueue_endGrant.of_eq rfl)
  · exact ⟨s, rfl, rfl⟩

theorem ignoresQueue_execStepD2 : CommandIgnoresQueue execStepD2 := fun s q => by
  simp only [execStepD2, queued_sweep]
  split
  · exact ⟨_, rfl, congrArg _ (ignoresQueue_arbitrate.of_eq rfl)⟩
  · exact ⟨s, rfl, rfl⟩

theorem ignoresQueue_execPrstFall (p : Port) : CommandIgnoresQueue (execPrstFall p) := by
  refine IgnoresQueue.next fun s q => ?_
  rw [queued_port, queued_rstn]
  cases (s.port p).prst with
  | low => rfl
  | high =>
    cases s.rstn with
    | low => rfl
    | high =>
      have hreset := ignoresQueue_resetPort p s q
      exact ite_queued rfl hreset ((ignoresQueue_markDetachment p).of_eq hreset)

theorem ignoresQueue_execRstnFall : CommandIgnoresQueue execRstnFall := by
  refine IgnoresQueue.next fun s q => ?_
  rw [queued_rstn]
  cases s.rstn <;> rfl

theorem ignoresQueue_execRstnRelease : CommandIgnoresQueue execRstnRelease := by
  refine IgnoresQueue.next fun s q => ?_
  rw [queued_rstn]
  cases s.rstn <;> rfl

theorem ignoresQueue_execInitialisationEnd : CommandIgnoresQueue execInitialisationEnd :=
  IgnoresQueue.next fun _ _ => ite_queued rfl rfl rfl

theorem ignoresQueue_execFrameError (p : Port) (bytes : List Byte) (extra : Fin 8) :
    CommandIgnoresQueue (execFrameError p bytes extra) := by
  refine IgnoresQueue.next (ignoresQueue_endRequest p _ ?_)
  cases judge bytes extra with
  | frameError => exact ignoresQueue_setCondition .linkError p
  | good code tag body => exact ignoresQueue_takeFrame p code tag body

theorem ignoresQueue_exec (c : Instr) : CommandIgnoresQueue (exec c) := by
  cases c with
  | read p t | groupRead p t | write p t | conditionalWrite p t | refresh p t | subscribe p t | unsubscribe p t
  | drain p t | getStatus p t | acknowledge p t | createValue p t | createAlias p t | retire p t | map p t | unmap p t
  | readView p t | readSlot p t | detach p t | setTick p t | holdLeases p t | resumeLeases p t | poolReport p t
  | overrun p _ t | unknownCodeFrame p _ t => exact (ignoresQueue_requestTransaction p _ t).next
  | portEngineGrant pr => exact ignoresQueue_execPortEngineGrant pr
  | tick => exact ignoresQueue_completePeriod.clocked.next
  | leaseAccess => exact ignoresQueue_execLeaseAccess
  | leaseExpiry pr => exact ignoresQueue_execLeaseExpiry pr
  | stepV pr => exact ignoresQueue_execStepV pr
  | stepS pr => exact ignoresQueue_execStepS pr
  | stepF c => exact ignoresQueue_execStepF c
  | stepD1 => exact ignoresQueue_execStepD1
  | stepD2 => exact ignoresQueue_execStepD2
  | prstFall p => exact ignoresQueue_execPrstFall p
  | rstnFall => exact ignoresQueue_execRstnFall
  | rstnRelease => exact ignoresQueue_execRstnRelease
  | initialisationEnd => exact ignoresQueue_execInitialisationEnd
  | frameError p bytes extra => exact ignoresQueue_execFrameError p bytes extra
  | unknownTransaction p t => exact (ignoresQueue_unknownTransaction p t).next
  | responseTransaction p t => exact (ignoresQueue_responseTransaction p t).next
  | prstRise _ | refclkStop | refclkResume => exact IgnoresQueue.next fun _ _ => rfl

/-- Settles O2: every command commutes with putting another queue in place of the commands waiting. -/
theorem execIgnoresQueue : Obligations.ExecIgnoresQueue := by
  intro c s t q h
  obtain ⟨u, hu, hq⟩ := ignoresQueue_exec c s q
  obtain rfl : u = t := by rw [hu] at h; cases h; rfl
  exact hq

/-- Settles O1: the front command is taken from the queue before it runs, which is how `step` is defined. -/
theorem stepRunsFrontCommand : Obligations.StepRunsFrontCommand := by
  intro c rest s
  rfl

end Sys2Proof.Machine
